-- ==== Sys2Proof/Word.lean ====
section
/-! DEFINITION. The plain words of the model: bytes and 16-bit words, the index types of circuits, spares and ports,
carrier frames, and tables of a fixed number of like things.

Nothing here is a convention of the part: every convention (bit places, byte orders, checks) is in Machine/. -/

namespace Sys2Proof

/-- One location of the register window, one byte of a frame. -/
abbrev Byte := BitVec 8

/-- A 16-bit quantity: a maintenance word, a context word, a 16-bit register. -/
abbrev Half := BitVec 16

/-- A 7-bit address of the register window (section 11.7: A6 to A0). -/
abbrev Address := BitVec 7

/-- A circuit, 0 to 9 (Conventions, Numbering). -/
abbrev Circuit := Fin 10

/-- A spare, 0 or 1 (Conventions, Numbering). -/
abbrev Spare := Fin 2

/-- A line port, 0 to 11: ports 0 to 9 carry the working lines, port 10+s is spare s. -/
abbrev Port := Fin 12

/-- The index of a context word within its context (R106). -/
abbrev WordIndex := Fin 16

/-- The 128 bytes of one carrier frame, byte 0 first (R135). -/
abbrev Frame := Vector Byte 128

/-- The byte that holds a small number. -/
abbrev byte (n : Nat) : Byte := BitVec.ofNat 8 n

/-- A byte made of two halves of four bits each (R158 calls four bits of a byte a half). -/
def halves (upper lower : Nat) : Byte := byte (upper * 16 + lower)

/-- The upper byte of a 16-bit quantity, bits 15 to 8. -/
def upperByte (w : Half) : Byte := w.extractLsb' 8 8

/-- The lower byte of a 16-bit quantity, bits 7 to 0. -/
def lowerByte (w : Half) : Byte := w.extractLsb' 0 8

/-- The 16-bit quantity with the given upper and lower bytes. -/
def joinBytes (upper lower : Byte) : Half := upper ++ lower

/-- The entry of a table at an index. -/
def tabGet {α : Type} {n : Nat} (v : Vector α n) (i : Fin n) : α := v[i.val]'i.isLt

/-- The table with the entry at one index replaced. -/
def tabSet {α : Type} {n : Nat} (v : Vector α n) (i : Fin n) (x : α) : Vector α n := v.set i.val x i.isLt

/-- Every circuit, in ascending order. -/
def allCircuits : List Circuit := [0, 1, 2, 3, 4, 5, 6, 7, 8, 9]

/-- Every spare, in ascending order. -/
def allSpares : List Spare := [0, 1]

/-- Every port, in ascending order. -/
def allPorts : List Port := [0, 1, 2, 3, 4, 5, 6, 7, 8, 9, 10, 11]

/-- Every context word index, in ascending order. -/
def allIndices : List WordIndex := [0, 1, 2, 3, 4, 5, 6, 7, 8, 9, 10, 11, 12, 13, 14, 15]

/-- The working port of circuit k: port k. -/
def workPort (k : Circuit) : Port := ⟨k.val, by omega⟩

/-- The port of spare s: port 10+s. -/
def sparePort (s : Spare) : Port := ⟨10 + s.val, by omega⟩

/-- The other spare. -/
def otherSpare (s : Spare) : Spare := if s = 0 then 1 else 0

/-- What a port carries: the working line of a circuit, or a spare. -/
inductive PortUse where
  | working (k : Circuit)
  | spare (s : Spare)
  deriving DecidableEq, Repr

/-- Which circuit or spare a port belongs to (Conventions, Numbering). -/
def portUse (p : Port) : PortUse :=
  if h : p.val < 10 then .working ⟨p.val, h⟩ else .spare ⟨p.val - 10, by omega⟩

/-- The end role: end A or end B (The End Role). -/
inductive Role where
  | endA
  | endB
  deriving DecidableEq, Repr

end Sys2Proof
end

