-- ==== Sys2Proof/Syntax.lean ====
section
/-! DEFINITION. The commands of the block: one constructor for each row of spec/opcode_table.json.

The table gives no row any bits and lists no operands; each operand below is what the row's rule names.  A request,
spare or test command takes no operand here: R165 has it read its arguments from the argument registers as they then
stand, so the arguments are state. -/

namespace Sys2Proof

/-- The levels of the bus strobes as an access finds or leaves them, each asserted (yes) or released (no) (R163). -/
structure Strobes where
  chipSelect : Bool
  read       : Bool
  write      : Bool
  deriving DecidableEq, Repr

/-- A write access: chip select and the write strobe (R163). -/
def Strobes.writing : Strobes := { chipSelect := true, read := false, write := true }

/-- A read access: chip select and the read strobe (R163). -/
def Strobes.reading : Strobes := { chipSelect := true, read := true, write := false }

/-- Chip select with both strobes (R163). -/
def Strobes.both : Strobes := { chipSelect := true, read := true, write := true }

/-- The commands, in the order of the opcode table.  A command is a bus access by the host, an event on a pin or on
the received stream of a port, the expiry of a timer, or an event of the line-side management port. -/
inductive Instr where
  /-- MOVE (R19): the code 0x01 is written to the command register. -/
  | move
  /-- FORCE (R19): the code 0x02 is written to the command register. -/
  | force
  /-- CLEAR (R19): the code 0x03 is written to the command register. -/
  | clear
  /-- BAR (R20): the code 0x04 is written to the command register. -/
  | bar
  /-- UNBAR (R21): the code 0x05 is written to the command register. -/
  | unbar
  /-- RETURN (R15): the code 0x06 is written to the command register. -/
  | returnCircuit
  /-- SHUT (R60): the code 0x10 is written to the command register. -/
  | shut
  /-- OPEN (R60): the code 0x11 is written to the command register. -/
  | openSpare
  /-- CLEAR_FAULT (R61): the code 0x12 is written to the command register. -/
  | clearFault
  /-- TEST (R92): the code 0x18 is written to the command register. -/
  | test
  /-- STOP_TEST (R100): the code 0x19 is written to the command register. -/
  | stopTest
  /-- RESYNC (R132): the code 0x20 is written to the command register. -/
  | resync
  /-- RESTART (R22): the code 0x30 is written to the command register. -/
  | restart
  /-- UNKNOWN_COMMAND (R165): a code that names no command is written to the command register. -/
  | unknownCommand (code : Byte)
  /-- PROTECT_ENABLE_SET (R62): the byte is written to PROTECT, its enable bit 1. -/
  | protectEnableSet (value : Byte)
  /-- PROTECT_ENABLE_CLEARED (R62): the byte is written to PROTECT, its enable bit 0. -/
  | protectEnableCleared (value : Byte)
  /-- RETURN_MODE_WRITE (R13): the byte is written to PROTECT for its return mode bit. -/
  | returnModeWrite (value : Byte)
  /-- INTERRUPT_ENABLE_WRITE (R162): the byte is written to PROTECT for its interrupt enable bit. -/
  | interruptEnableWrite (value : Byte)
  /-- SET_THRESHOLD_WRITE (R154): the lower byte of the set threshold is written. -/
  | setThresholdWrite (low : Byte)
  /-- CLEAR_THRESHOLD_WRITE (R154): the lower byte of the clear threshold is written. -/
  | clearThresholdWrite (low : Byte)
  /-- STATUS_WRITE_ONE_TO_CLEAR (R169): the byte is written to the status register. -/
  | statusWriteOneToClear (value : Byte)
  /-- CONFIGURATION_WRITE (R166): the bus with the byte on its data lines at any other location, its strobes at the given
  levels: a write access, or another case of R163 (assumption 24). -/
  | configurationWrite (address : Address) (value : Byte) (strobes : Strobes := .writing)
  /-- WRITE_HOLDING_BYTE (R164): the byte is written to the upper address of a writable 16-bit quantity. -/
  | writeHoldingByte (address : Address) (value : Byte)
  /-- LOWER_ADDRESS_READ (R164): the lower address of a 16-bit quantity is read. -/
  | lowerAddressRead (address : Address)
  /-- CONTEXT_WRITE_COMMIT (R106): the low context data byte is written. -/
  | contextWriteCommit (low : Byte)
  /-- CONTEXT_DATA_READ (R168): the low context data byte is read. -/
  | contextDataRead
  /-- EVENT_KIND_READ (R161): the event kind byte is read. -/
  | eventKindRead
  /-- EVENT_POP (R161): the second detail byte of the event window is read. -/
  | eventPop
  /-- PIN_RESET (R170): RESET is asserted. -/
  | pinReset
  /-- RESET_RELEASE (R170): RESET is released with the ROLE strap at the level of the given role. -/
  | resetRelease (strap : Role)
  /-- SIGNAL_LOST_ASSERTED (R139): the signal-lost input of the port is asserted, the given bits having been received since
  the port's last command (assumption 10). -/
  | signalLostAsserted (port : Port) (before : List Bool := [])
  /-- SIGNAL_LOST_RELEASED (R139): the signal-lost input of the port is released. -/
  | signalLostReleased (port : Port)
  /-- FRAME_REFERENCE_EDGE (R135): an edge of the frame reference, at which the given transmit frames of the ten
  system ports begin. -/
  | frameReferenceEdge (systemFrames : Vector Frame 10)
  /-- HUNTING_MATCH (R137): the bits that complete the byte which matches the alignment word, all eight of it or, where it
  reaches back over bits received before the port's last command, the fewer since; and the bits received since that command
  before them (assumptions 10 and 34). -/
  | huntingMatch (port : Port) (received : List Bool) (before : List Bool := [])
  /-- CHECKING_ALIGNMENT_WORD (R137): the byte received at the position of a monitor in CHECKING, after the bytes received
  since the port's last command (assumption 10). -/
  | checkingAlignmentWord (port : Port) (received : Byte) (before : List Byte := [])
  /-- FRAME_JUDGED (R138): the frame received whole at the position of a monitor in ALIGNED. -/
  | frameJudged (port : Port) (frame : Frame)
  /-- ALIGNMENT_LOST (R138): the byte received at the position of a monitor in ALIGNED, which mismatches. -/
  | alignmentLost (port : Port) (received : Byte)
  /-- ANSWER_TIMER_EXPIRY (R46): the answer timer of the spare's engine expires. -/
  | answerTimerExpiry (spare : Spare)
  /-- RETURN_TIMER_EXPIRY (R13): the return timer of the circuit's record expires. -/
  | returnTimerExpiry (circuit : Circuit)
  /-- TEST_TIMER_EXPIRY (R98): the test timer of the spare's engine expires. -/
  | testTimerExpiry (spare : Spare)
  /-- ONSET_TIMER_EXPIRY (R151): the onset timer of the port expires. -/
  | onsetTimerExpiry (port : Port)
  /-- CLEAR_TIMER_EXPIRY (R152): the clear timer of the port expires. -/
  | clearTimerExpiry (port : Port)
  /-- INTERVAL_END (R153): the one-second interval ends. -/
  | intervalEnd
  /-- LSP_TRANSACTION_START (R126): the line-side management port makes its choice among the standing offers. -/
  | lspTransactionStart
  /-- LSP_ATTEMPT_END (R123): the attempt on the line ends, the acknowledge line having been found asserted (true) or
  released (false) in the two turnaround periods and in the acknowledge period. -/
  | lspAttemptEnd (turnaround1 turnaround2 acknowledge : Bool)
  deriving DecidableEq, Repr

end Sys2Proof
end

