-- ==== Sys2Proof/Decode.lean ====
section
/-! DEFINITION. The command that a word of the opcode table's bits spells.  The table gives no row any bits (every row's
"fields" is empty and none has "fixed"), so no word spells a command (assumption 1). -/

namespace Sys2Proof

/-- The command that the word w of nbits bits spells by the opcode table: none, the table giving no row bits. -/
def decodeTableWord (_nbits _w : Nat) : Option Instr := none

end Sys2Proof
end

