-- ==== Sys2Proof/Config.lean ====
section
/-! DEFINITION. What the part fixes: capacities, counts and the units of its timers in frame periods.

The manual leaves no value for each implementation to decide and calls no result undefined, so this file holds no
free value.  Timer units are written in frame periods of 125 us, the one period the part counts (R153); that the
remaining time of every timer is held in that unit is assumption 6. -/

namespace Sys2Proof.Config

/-- The alignment word, byte 0 of every carrier frame (R174). -/
def alignmentWord : Byte := 0xD3

/-- A payload byte of a filler frame (R174). -/
def fillerByte : Byte := 0xFF

/-- Bytes of a carrier frame (R135). -/
def frameBytes : Nat := 128

/-- Places of the forward FIFO (R128). -/
def fifoPlaces : Nat := 16

/-- Places of the event queue, the overflow place apart (R157). -/
def eventPlaces : Nat := 31

/-- The largest lost count of an OVERRUN record (R160). -/
def lostCap : Nat := 255

/-- The largest interval errored count, and the frame periods of an interval (R136, R153). -/
def intervalFrames : Nat := 8000

/-- The largest test error count (R97). -/
def testErrorCap : Nat := 65535

/-- The largest run of a word qualifier (R145). -/
def runCap : Nat := 15

/-- The confirmations that take a monitor from CHECKING to ALIGNED (R137). -/
def confirmations : Nat := 3

/-- The miss count at which one more mismatch loses alignment (R138). -/
def missCap : Nat := 3

/-- Frame periods in a step of 10 ms: the answer timeout and the clear delay. -/
def per10ms : Nat := 80

/-- Frame periods in a step of 100 ms: the onset delays. -/
def per100ms : Nat := 800

/-- Frame periods in a step of 1 s: test durations. -/
def per1s : Nat := 8000

/-- Frame periods in a step of 5 s: the return delay. -/
def per5s : Nat := 40000

/-- Moves a grant pass may make.  R32 says the number is bounded and gives no figure: each move improves the claim
that a spare holds, or closes a spare for the rest of the pass, so this many are never needed (assumption 12). -/
def passBound : Nat := 128

end Sys2Proof.Config
end

