-- ==== Sys2Proof/Machine/State.lean ====
section
/-! DEFINITION. The state of the FS1210, block by block, as plain data; the reasons a step can stop; the state after a
pin reset.

Derived fields are not stored: far_class, local_class and eff_class (R3, R4), the own words (R70), the crosspoint
settings (R47) and the interrupt line (R162) are functions of what is here (Machine/Ops.lean, Machine/Flags.lean), so
that they never show a stale value (R1). -/

namespace Sys2Proof.Machine

/-! ## Results, events -/

/-- The result codes of the command register (R165), in code order. -/
inductive CommandResult where
  | done | badArg | state | noSpace | lower | unknown
  deriving DecidableEq, Repr

/-- The kinds of event record (R158, R175), in code order from 1. -/
inductive EventKind where
  | condition | request | spare | reason | farWord | contestLost | transferDone | transferFailed | writeFailed
  | testResult | invalidWord | echo | accessRefused | restarted | returnUnanswered | overrun
  deriving DecidableEq, Repr

/-- An event as its block posts it: kind, subject and the two detail bytes (R157). -/
structure Event where
  kind    : EventKind
  subject : Byte
  detail1 : Byte
  detail2 : Byte
  deriving DecidableEq, Repr

/-- A stored record: an event and its sequence number (R157). -/
structure EventRecord where
  sequence : Byte
  event    : Event
  deriving DecidableEq, Repr

/-- The record in the overflow place: its sequence number and lost count (R157, R160). -/
structure OverflowRecord where
  sequence : Byte
  lost     : Nat
  deriving DecidableEq, Repr

/-- The event queue: the ordinary records in the places, oldest first, the overflow place, and the next sequence
number (R157). -/
structure EventQueue where
  places   : List EventRecord
  overflow : Option OverflowRecord
  next     : Byte
  deriving DecidableEq, Repr

/-- The window copy of a record (R161): its five bytes, and whether it is marked consumed. -/
structure WindowCopy where
  sequence : Byte
  kind     : Byte
  subject  : Byte
  detail1  : Byte
  detail2  : Byte
  consumed : Bool
  deriving DecidableEq, Repr

/-! ## The register window -/

/-- The registers the host writes, the result register and the sticky status bits (R165 to R169). -/
structure Registers where
  command         : Byte
  arg0            : Byte
  arg1            : Byte
  result          : CommandResult
  /-- PROTECT bit 0. -/
  enable          : Bool
  /-- PROTECT bit 1: AUTO (no) or HOLD (yes). -/
  hold            : Bool
  /-- PROTECT bit 2. -/
  interruptEnable : Bool
  qCount          : Byte
  answerTimeout   : Byte
  returnDelay     : Byte
  clearDelay      : Byte
  testLimit       : Byte
  setThreshold    : Half
  clearThreshold  : Half
  eventMask       : Half
  lspRate         : Byte
  /-- STATUS bit 0. -/
  refusedWrite    : Bool
  /-- STATUS bit 1. -/
  overrunSeen     : Bool
  queueIndex      : Fin 16
  circuitSelect   : Circuit
  spareSelect     : Spare
  contextPort     : Port
  contextIndex    : WordIndex
  onset           : Vector Byte 12
  deriving DecidableEq, Repr

/-- The bus side of the window: the holding bytes (R164), the data lines as the last read left them and the ready
output (R163). -/
structure Bus where
  readHolding  : Byte
  writeHolding : Byte
  data         : Byte
  ready        : Bool
  deriving DecidableEq, Repr

/-! ## Request records and spare engines -/

/-- The state of a request record with its spare field (R5). -/
inductive RequestState where
  | quiet
  | parked
  | queued
  | assigned (s : Spare)
  | releasing (s : Spare)
  deriving DecidableEq, Repr

/-- The return kind of a request record (R12). -/
inductive ReturnKind where
  | condition
  | software
  deriving DecidableEq, Repr

/-- A request record: the stored fields of R1.  The return timer is in frame periods (assumption 6). -/
structure Record where
  condClass   : Nat
  swClass     : Nat
  barred      : Bool
  declined    : Bool
  state       : RequestState
  returnTimer : Option Nat
  returnKind  : ReturnKind
  deriving DecidableEq, Repr

/-- The test results (R44), in code order. -/
inductive TestResult where
  | none | pass | fail | noLoop | overtaken | aborted
  deriving DecidableEq, Repr

/-- The phase of a test (R93), with the fields R44 keeps for that phase alone: the duration in ASK, the pending result
in END. -/
inductive TestPhase where
  | ask (duration : Byte)
  | run
  | ending (pending : TestResult)
  deriving DecidableEq, Repr

/-- The state of a spare engine (R45), with the circuit it holds or the test phase it is in. -/
inductive EngineState where
  | free
  | preparing (k : Circuit)
  | bridged (k : Circuit)
  | carrying (k : Circuit)
  | returning (k : Circuit)
  | unavailable
  | testing (phase : TestPhase)
  | looped
  deriving DecidableEq, Repr

/-- The six reasons, in the order of R59. -/
inductive Reason where
  | off | shut | line | silent | setup | far
  deriving DecidableEq, Repr

/-- A reason set (R44): a flag for each reason. -/
structure Reasons where
  off    : Bool
  shut   : Bool
  line   : Bool
  silent : Bool
  setup  : Bool
  far    : Bool
  deriving DecidableEq, Repr

/-- A spare engine record: the stored fields of R44.  Timers are in frame periods (assumption 6). -/
structure Engine where
  state       : EngineState
  reasons     : Reasons
  answerTimer : Option Nat
  testTimer   : Option Nat
  errorCount  : Nat
  lastResult  : TestResult
  deriving DecidableEq, Repr

/-! ## Contexts, transfers and the line-side management port -/

/-- The context store as bytes at addresses: strictly rising addresses, no zero byte listed (assumption 5). -/
abbrev Memory := List Host.Cell

/-- The source of a transfer (R111): a circuit's context or the spare's rest context. -/
inductive TransferSource where
  | circuit (k : Circuit)
  | rest
  deriving DecidableEq, Repr

/-- A running transfer (R111).  The resend set is listed in ascending order. -/
structure Transfer where
  source   : TransferSource
  cursor   : Nat
  resend   : List WordIndex
  inFlight : Option WordIndex
  deriving DecidableEq, Repr

/-- A forward entry (R107). -/
structure ForwardEntry where
  port  : Port
  index : WordIndex
  value : Half
  deriving DecidableEq, Repr

/-- A source of the line-side management port (R124). -/
inductive PortSource where
  | transfer (s : Spare)
  | fifo
  deriving DecidableEq, Repr

/-- The record of the transaction in flight (R124), with the LSP rate its present attempt runs at (R133). -/
structure Transaction where
  source    : PortSource
  port      : Port
  index     : WordIndex
  value     : Half
  /-- Attempt 2 (yes) or attempt 1 (no). -/
  second    : Bool
  abandoned : Bool
  rate      : Byte
  deriving DecidableEq, Repr

/-! ## Monitors, qualifiers, conditions, the datapath -/

/-- The state of a frame monitor (R136).  The position is the number of the received byte at which the next alignment
word is expected, the byte that ended the hunt being number 0 (assumption 9). -/
inductive MonitorState where
  | hunting
  | checking (position : Nat)
  | aligned (position : Nat)
  deriving DecidableEq, Repr

/-- A frame monitor (R136), with the level of its port's signal-lost input (R139). -/
structure Monitor where
  state      : MonitorState
  /-- The frame that the third confirmation began is still being received (R137; assumption 9). -/
  opening    : Bool
  confirm    : Nat
  miss       : Nat
  errored    : Nat
  signalLost : Bool
  deriving DecidableEq, Repr

/-- A word qualifier (R145).  The candidate and the current far word keep the form in which the word was first
received in its run. -/
structure Qualifier where
  candidate : Option Half
  run       : Nat
  settled   : Bool
  far       : Option Half
  deriving DecidableEq, Repr

/-- The condition unit's fields for a port (R149).  Timers are in frame periods (assumption 6). -/
structure Condition where
  rawDown    : Bool
  down       : Bool
  impaired   : Bool
  onsetTimer : Option Nat
  clearTimer : Option Nat
  downSeen   : Bool
  deriving DecidableEq, Repr

/-- What a port last sent on or was last given: a whole carrier frame, or bits that no monitor places in a whole frame, in
the order received (R143, R144; assumption 10). -/
inductive Carried where
  | frame (f : Frame)
  | bits (l : List Bool)
  deriving DecidableEq, Repr

/-- What a spare port is sending (R142, R143): nothing before the first frame reference edge after a reset, frames
begun at the frame reference, bytes of all ones between two settings, or its own received stream. -/
inductive SendMode where
  | silent
  | reference
  | ones
  | looping
  deriving DecidableEq, Repr

/-- What a system port is fed from (R144): its working line, a spare, or bytes of all ones between the two. -/
inductive Feed where
  | working
  | spare (s : Spare)
  | ones
  deriving DecidableEq, Repr

/-! ## The machine -/

/-- The state of the block, and the queue of commands that wait for it. -/
structure State where
  /-- The commands that are waiting, first in, first out. -/
  pending        : List Instr
  /-- The RESET pin is held low (R170). -/
  inReset        : Bool
  /-- The end role sampled at the release of RESET (R170). -/
  role           : Role
  regs           : Registers
  bus            : Bus
  records        : Vector Record 10
  /-- The pending queue of circuits, head first (R24). -/
  queue          : List Circuit
  engines        : Vector Engine 2
  /-- The transfer engines (R111): none is IDLE. -/
  transfers      : Vector (Option Transfer) 2
  store          : Memory
  /-- The forward FIFO, oldest entry first (R128). -/
  fifo           : List ForwardEntry
  /-- The transaction in flight (R124): none is an idle port. -/
  transaction    : Option Transaction
  /-- The rotation pointer: the source most recently served (R124). -/
  rotation       : PortSource
  /-- The out-of-step flags (R131). -/
  outOfStep      : Vector Bool 12
  monitors       : Vector Monitor 12
  /-- The last bits received on each port, seven at most, the oldest first: what a byte that is taken afresh at the next bit
  period reaches back over (R137; assumption 34). -/
  recentBits     : Vector (List Bool) 12
  conditions     : Vector Condition 12
  /-- The frame periods left of the current interval (R149). -/
  intervalTimer  : Nat
  qualifiers     : Vector Qualifier 2
  /-- The carrier frame each line port last began or, in a loop, what it last sent on (R141 to R143). -/
  lineOut        : Vector (Option Carried) 12
  sendModes      : Vector SendMode 2
  /-- What was last passed to each system port (R144). -/
  systemOut      : Vector (Option Carried) 10
  feeds          : Vector Feed 10
  events         : EventQueue
  window         : WindowCopy
  deriving DecidableEq, Repr

/-- The reasons a step can stop with a fault.  There is none: the manual describes no event that stops the part, and
every command of the table has an effect in every state. -/
inductive Fault where
  deriving DecidableEq, Repr

/-- The reasons a step can be refused. -/
inductive Refusal where
  /-- Raised by Machine/Dispatch.lean alone, for a command that has no meaning yet.  Safe: the model stops where the
  hardware goes on.  No arm raises it. -/
  | notModelled (mnemonic : String)
  deriving DecidableEq, Repr

/-! ## Reset -/

/-- The registers after a pin reset (R165 to R169). -/
def Registers.reset : Registers where
  command := 0
  arg0 := 0
  arg1 := 0
  result := .done
  enable := false
  hold := false
  interruptEnable := false
  qCount := 5
  answerTimeout := 10
  returnDelay := 60
  clearDelay := 10
  testLimit := 0
  setThreshold := 80
  clearThreshold := 8
  eventMask := 0xFFFF
  lspRate := 0
  refusedWrite := false
  overrunSeen := false
  queueIndex := 0
  circuitSelect := 0
  spareSelect := 0
  contextPort := 0
  contextIndex := 0
  onset := Vector.replicate 12 0

/-- The bus after a pin reset: holding bytes 0 (R164); data lines 0 and ready released (assumption 4). -/
def Bus.reset : Bus := { readHolding := 0, writeHolding := 0, data := 0, ready := false }

/-- A request record after a pin reset (R1). -/
def Record.reset : Record :=
  { condClass := 0, swClass := 0, barred := false, declined := false, state := .quiet, returnTimer := none,
    returnKind := .condition }

/-- The empty reason set. -/
def Reasons.empty : Reasons :=
  { off := false, shut := false, line := false, silent := false, setup := false, far := false }

/-- A spare engine record after a pin reset (R44): UNAVAILABLE with OFF. -/
def Engine.reset : Engine :=
  { state := .unavailable, reasons := { Reasons.empty with off := true }, answerTimer := none, testTimer := none,
    errorCount := 0, lastResult := .none }

/-- A frame monitor after a pin reset (R136), its signal-lost input at the given level. -/
def Monitor.reset (signalLost : Bool) : Monitor :=
  { state := .hunting, opening := false, confirm := 0, miss := 0, errored := 0, signalLost := signalLost }

/-- A word qualifier after a pin reset (R145). -/
def Qualifier.reset : Qualifier := { candidate := none, run := 0, settled := false, far := none }

/-- The condition fields of a port after a pin reset (R149). -/
def Condition.reset : Condition :=
  { rawDown := false, down := false, impaired := false, onsetTimer := none, clearTimer := none, downSeen := false }

/-- The event queue after a pin reset (R157). -/
def EventQueue.reset : EventQueue := { places := [], overflow := none, next := 0 }

/-- The empty record as a window copy (R161), showing the given sequence number. -/
def WindowCopy.empty (next : Byte) : WindowCopy :=
  { sequence := next, kind := 0, subject := 15, detail1 := 0, detail2 := 0, consumed := true }

/-- The machine under a pin reset, RESET still low (R170): every block at the values its chapter gives.  The levels of
the signal-lost inputs, pins that RESET does not drive, are assumption 4; that the reset state is taken before
the release of RESET is assumption 3. -/
def State.reset : State where
  pending := []
  inReset := true
  role := .endA
  regs := Registers.reset
  bus := Bus.reset
  records := Vector.replicate 10 Record.reset
  queue := []
  engines := Vector.replicate 2 Engine.reset
  transfers := Vector.replicate 2 none
  store := []
  fifo := []
  transaction := none
  rotation := .fifo
  outOfStep := Vector.replicate 12 false
  monitors := Vector.replicate 12 (Monitor.reset false)
  recentBits := Vector.replicate 12 []
  conditions := Vector.replicate 12 Condition.reset
  intervalTimer := Config.intervalFrames
  qualifiers := Vector.replicate 2 Qualifier.reset
  lineOut := Vector.replicate 12 none
  sendModes := Vector.replicate 2 .silent
  systemOut := Vector.replicate 10 none
  feeds := Vector.replicate 10 .working
  events := EventQueue.reset
  window := WindowCopy.empty 0

end Sys2Proof.Machine
end

