-- ==== Sys2Proof/Machine/Operands.lean ====
section
/-! DEFINITION. The forms the part takes and sends: maintenance words (R68 to R71, R172), carrier frames (R135, R174),
the bits of an LSP attempt (R122), and the arguments of commands (R165). -/

namespace Sys2Proof.Machine

/-! ## Evaluation -/

/-- Apply a function to a byte that has first been computed.  It is plain application (force_eq in Laws/Operands.lean),
written so that Lean's kernel computes a long check byte by byte. -/
def force {α : Type} (c : Byte) (f : Byte → α) : α :=
  match c.toNat with
  | 0 => f 0
  | n + 1 => f (byte (n + 1))

/-! ## Maintenance words -/

/-- What a valid maintenance word says (R69): its kind with the fields the kind uses. -/
inductive SpanWord where
  | vacant
  | claim (k : Circuit) (c : Nat)
  | carry (k : Circuit) (c : Nat)
  | yield (k : Circuit)
  | decline (k : Circuit)
  | barred (detail : Nat)
  | loop
  | unloop
  deriving DecidableEq, Repr

/-- Whether the count of ones in a word is odd (R68). -/
def oddOnes (w : Half) : Bool :=
  (List.range 16).foldl (fun odd i => odd ^^ w.getLsbD i) false

/-- The kind code of a word: bits 15 to 12 (R172). -/
def wordKind (w : Half) : Nat := (w.extractLsb' 12 4).toNat

/-- The circuit field of a word: bits 11 to 8 (R172). -/
def wordCircuit (w : Half) : Nat := (w.extractLsb' 8 4).toNat

/-- The class field of a word: bits 7 to 5 (R172). -/
def wordClass (w : Half) : Nat := (w.extractLsb' 5 3).toNat

/-- The detail field of a word: bits 4 to 2 (R172). -/
def wordDetail (w : Half) : Nat := (w.extractLsb' 2 3).toNat

/-- The origin of a word: bit 1, 0 for end A and 1 for end B (R172). -/
def wordOrigin (w : Half) : Role := if w.getLsbD 1 then .endB else .endA

/-- The circuit that a word's circuit field names, if it names one (R71). -/
def namedCircuit (w : Half) : Option Circuit :=
  if h : wordCircuit w < 10 then some ⟨wordCircuit w, h⟩ else none

/-- What a word says, or none for an invalid word: an invalid kind code, circuit, class or detail, or a CLAIM of class
0 (R71).  Fields the kind does not use are ignored (R68). -/
def spanWord (w : Half) : Option SpanWord :=
  match wordKind w with
  | 1 => some .vacant
  | 2 => (namedCircuit w).bind fun k =>
      if 1 ≤ wordClass w ∧ wordClass w ≤ 4 then some (.claim k (wordClass w)) else none
  | 3 => (namedCircuit w).bind fun k => if wordClass w ≤ 4 then some (.carry k (wordClass w)) else none
  | 4 => (namedCircuit w).map .yield
  | 5 => (namedCircuit w).map .decline
  | 6 => if wordDetail w ≤ 4 then some (.barred (wordDetail w)) else none
  | 7 => some .loop
  | 8 => some .unloop
  | _ => none

/-- The word made of the given fields, its parity bit set so that the count of ones is odd (R68, R172). -/
def packWord (kind circuit cls detail : Nat) (role : Role) : Half :=
  let origin := match role with | .endA => 0 | .endB => 1
  let w : Half := BitVec.ofNat 16 (kind * 4096 + circuit * 256 + cls * 32 + detail * 4 + origin * 2)
  if oddOnes w then w else w ||| 1

/-- The maintenance word that an end of the given role sends for what it says: zero in each field the kind does not
use (R68, R69). -/
def SpanWord.encode (w : SpanWord) (role : Role) : Half :=
  match w with
  | .vacant => packWord 1 0 0 0 role
  | .claim k c => packWord 2 k.val c 0 role
  | .carry k c => packWord 3 k.val c 0 role
  | .yield k => packWord 4 k.val 0 0 role
  | .decline k => packWord 5 k.val 0 0 role
  | .barred d => packWord 6 0 0 d role
  | .loop => packWord 7 0 0 0 role
  | .unloop => packWord 8 0 0 0 role

/-- The bits of a word that decide equality: kind, origin and the fields the kind uses (R68); for an invalid kind
code all but parity (R145). -/
def comparedBits (w : Half) : Half :=
  match wordKind w with
  | 1 => 0xF002
  | 2 => 0xFFE2
  | 3 => 0xFFE2
  | 4 => 0xFF02
  | 5 => 0xFF02
  | 6 => 0xF01E
  | 7 => 0xF002
  | 8 => 0xF002
  | _ => 0xFFFE

/-- Whether two received words are the same for a qualifier (R68, R145). -/
def sameWord (v w : Half) : Bool := (v &&& comparedBits v) == (w &&& comparedBits w)

/-- The circuit and class that a far word claims, when it is CLAIM or CARRY (R3). -/
def claimOf (w : Option Half) : Option (Circuit × Nat) :=
  match w.bind spanWord with
  | some (.claim k c) => some (k, c)
  | some (.carry k c) => some (k, c)
  | _ => none

/-! ## Bits of a received stream -/

/-- The bits of a number in a field of the given width, most significant first. -/
def bitsOf (width n : Nat) : List Bool := (List.range width).map fun i => n.testBit (width - 1 - i)

/-- The eight bits of a byte in the order received (R137). -/
def byteBits (b : Byte) : List Bool := bitsOf 8 b.toNat

/-- The bits of bytes in the order received. -/
def bytesBits (l : List Byte) : List Bool := l.flatMap byteBits

/-- The bits of the alignment word. -/
def alignmentBits : List Bool := byteBits Config.alignmentWord

/-- Whether the byte that a hunting monitor takes afresh at each bit period is the alignment word at one of them (R137). -/
def holdsAlignmentWord : List Bool → Bool
  | [] => false
  | b :: rest => (b :: rest).take 8 == alignmentBits || holdsAlignmentWord rest

/-- The last seven bits of a list, all of a shorter one. -/
def lastSeven (l : List Bool) : List Bool := l.drop (l.length - 7)

/-! ## Carrier frames -/

/-- One bit of the CRC with generator x^8 + x^2 + x + 1 (R135). -/
def crcBit (c : Byte) : Byte := if c.msb then (c <<< 1) ^^^ 0x07 else c <<< 1

/-- One byte of the CRC, most significant bit first (R135). -/
def crcByte (c b : Byte) : Byte :=
  force (crcBit (crcBit (c ^^^ b))) fun c =>
  force (crcBit (crcBit c)) fun c =>
  force (crcBit (crcBit c)) fun c => crcBit (crcBit c)

/-- The CRC of a sequence of bytes, from a starting value (R135: initial value 0, no final inversion). -/
def crc (c : Byte) : List Byte → Byte
  | [] => c
  | b :: rest => force (crcByte c b) fun c => crc c rest

/-- The byte of a frame in a place. -/
def frameByte (f : Frame) (i : Fin 128) : Byte := tabGet f i

/-- The check of a frame: the CRC over bytes 0, 1, 2 and 4 to 127 (R135). -/
def frameCrc (f : Frame) : Byte := crc 0 (f.toList.take 3 ++ f.toList.drop 4)

/-- A frame's check is correct (R135). -/
def checkCorrect (f : Frame) : Bool := frameByte f 3 == frameCrc f

/-- A frame's alignment word is correct (R138, R174). -/
def alignmentCorrect (f : Frame) : Bool := frameByte f 0 == Config.alignmentWord

/-- A frame is good: alignment word and check both correct (R138). -/
def frameGood (f : Frame) : Bool := alignmentCorrect f && checkCorrect f

/-- The maintenance word of a frame: bytes 1 and 2 (R172, R174). -/
def frameWord (f : Frame) : Half := joinBytes (frameByte f 1) (frameByte f 2)

/-- A frame with its maintenance word replaced, its check byte as it was. -/
def putWord (f : Frame) (w : Half) : Frame := tabSet (tabSet f 1 (upperByte w)) 2 (lowerByte w)

/-- A frame with its maintenance word replaced and its check corrected by the difference that makes (R135): a correct
check stays correct and a wrong one wrong. -/
def replaceWord (f : Frame) (w : Half) : Frame :=
  tabSet (putWord f w) 3 (frameByte f 3 ^^^ frameCrc f ^^^ frameCrc (putWord f w))

/-- A frame with the given word and payload bytes, its check computed afresh. -/
def builtFrame (w : Half) (payload : Byte) : Frame :=
  let f := putWord (tabSet (Vector.replicate 128 payload) 0 Config.alignmentWord) w
  tabSet f 3 (frameCrc f)

/-- A filler frame: alignment word, own word, check byte and a payload of all ones (R142, R174). -/
def fillerFrame (w : Half) : Frame := builtFrame w Config.fillerByte

/-- The bits of a frame in the order received. -/
def frameBits (f : Frame) : List Bool := bytesBits f.toList

/-- The frame whose first bits are the given ones, the others 0. -/
def frameOfBits (l : List Bool) : Frame :=
  Vector.ofFn fun i => byte ((List.range 8).foldl (fun n j => 2 * n + (l.getD (8 * i.val + j) false).toNat) 0)

/-! ## The line-side management port's line -/

/-- The 24 bits of port number, index and value that an attempt carries (R122). -/
def attemptPayload (x : Transaction) : List Bool :=
  bitsOf 4 x.port.val ++ bitsOf 4 x.index.val ++ bitsOf 16 x.value.toNat

/-- Whether a list of bits holds an odd number of ones. -/
def oddBits (l : List Bool) : Bool := l.foldl (· ^^ ·) false

/-- LSP_DAT over the 26 periods the port drives before the turnaround: the start marker low, port, index and value, and
one period of odd parity over them (R122). -/
def attemptBits (x : Transaction) : List Bool :=
  false :: attemptPayload x ++ [!oddBits (attemptPayload x)]

/-- A period of the LSP clock within an attempt (R122): LSP_DAT driven to a level, a turnaround period, the acknowledge
period, an idle period. -/
inductive LspPeriod where
  | drive (level : Bool)
  | turnaround
  | acknowledge
  | idle
  deriving DecidableEq, Repr

/-- The 32 periods of an attempt in order (R122); that the port does not drive LSP_DAT in the acknowledge period is the model's
choice (assumption 32). -/
def attemptPeriods (x : Transaction) : List LspPeriod :=
  (attemptBits x).map .drive ++ [.turnaround, .turnaround, .acknowledge, .idle, .idle, .idle]

/-- The level that the port drives on LSP_DAT in a period: high in an idle one, none in a turnaround period, where it has
stopped driving (R122).  For the acknowledge period R122 names no level; the model leaves the line undriven there too, which
is its choice (assumption 32). -/
def LspPeriod.dat : LspPeriod → Option Bool
  | .drive level => some level
  | .turnaround => none
  | .acknowledge => none
  | .idle => some true

/-- Whether LSP_ACK must be found asserted in a period for the attempt to be acknowledged, where the port looks at it
(R122). -/
def LspPeriod.ack : LspPeriod → Option Bool
  | .turnaround => some false
  | .acknowledge => some true
  | .drive _ => none
  | .idle => none

/-- An attempt is acknowledged when the acknowledge line is found released in both turnaround periods and asserted in the
acknowledge period (R122). -/
def acknowledged (turnaround1 turnaround2 acknowledge : Bool) : Bool :=
  !turnaround1 && !turnaround2 && acknowledge

/-! ## Command arguments -/

/-- The circuit an argument names (R18). -/
def circuitArg (b : Byte) : Option Circuit := if h : b.toNat < 10 then some ⟨b.toNat, h⟩ else none

/-- The spare an argument names (R60, R92). -/
def spareArg (b : Byte) : Option Spare := if h : b.toNat < 2 then some ⟨b.toNat, h⟩ else none

/-- The port an argument names (R132). -/
def portArg (b : Byte) : Option Port := if h : b.toNat < 12 then some ⟨b.toNat, h⟩ else none

/-- A byte held within a range: the nearest value within it (R166). -/
def clampByte (low high : Nat) (b : Byte) : Byte :=
  if b.toNat < low then byte low else if high < b.toNat then byte high else b

/-- A 16-bit value held within a range (R166). -/
def clampHalf (low high : Nat) (v : Half) : Half :=
  if v.toNat < low then BitVec.ofNat 16 low else if high < v.toNat then BitVec.ofNat 16 high else v

/-- A byte held within 0 to n, as an index (R167, R168: select and index registers store the nearest value). -/
def clampIndex (n : Nat) (b : Byte) : Fin (n + 1) := ⟨min b.toNat n, by omega⟩

end Sys2Proof.Machine
end

