-- ==== Sys2Proof/Machine/Flags.lean ====
section
/-! DEFINITION. Flag sets and codes: reason sets (R59), the enumeration codes of records and views (R158, R171), the
condition flags, the sticky status bits (R169) and the interrupt line (R162). -/

namespace Sys2Proof.Machine

/-- A bit as a number. -/
def bit (b : Bool) : Nat := if b then 1 else 0

/-! ## Reason sets -/

/-- The six reasons in their order (R45, R59). -/
def allReasons : List Reason := [.off, .shut, .line, .silent, .setup, .far]

/-- Whether a reason is in a set. -/
def Reasons.has (r : Reasons) : Reason → Bool
  | .off => r.off
  | .shut => r.shut
  | .line => r.line
  | .silent => r.silent
  | .setup => r.setup
  | .far => r.far

/-- A set with a reason added (yes) or removed (no). -/
def Reasons.put (r : Reasons) (x : Reason) (b : Bool) : Reasons :=
  match x with
  | .off => { r with off := b }
  | .shut => { r with shut := b }
  | .line => { r with line := b }
  | .silent => { r with silent := b }
  | .setup => { r with setup := b }
  | .far => { r with far := b }

/-- Whether a set is empty. -/
def Reasons.isEmpty (r : Reasons) : Bool := !(r.off || r.shut || r.line || r.silent || r.setup || r.far)

/-- The place of a reason in the order (R158). -/
def Reason.code : Reason → Nat
  | .off => 0
  | .shut => 1
  | .line => 2
  | .silent => 3
  | .setup => 4
  | .far => 5

/-- A reason set as a flag set: bit 0 OFF to bit 5 FAR (R158, R171). -/
def Reasons.flags (r : Reasons) : Byte :=
  byte (bit r.off + 2 * bit r.shut + 4 * bit r.line + 8 * bit r.silent + 16 * bit r.setup + 32 * bit r.far)

/-- The detail of the BARRED word for a set: the first local reason present (R59, R69), none where there is none. -/
def Reasons.firstLocal (r : Reasons) : Option Nat :=
  if r.off then some 0
  else if r.shut then some 1
  else if r.line then some 2
  else if r.silent then some 3
  else if r.setup then some 4
  else none

/-! ## Enumeration codes -/

/-- A result code (R165). -/
def CommandResult.code : CommandResult → Byte
  | .done => 0
  | .badArg => 1
  | .state => 2
  | .noSpace => 3
  | .lower => 4
  | .unknown => 5

/-- A kind code (R175, Table 11-5). -/
def EventKind.code : EventKind → Nat
  | .condition => 1
  | .request => 2
  | .spare => 3
  | .reason => 4
  | .farWord => 5
  | .contestLost => 6
  | .transferDone => 7
  | .transferFailed => 8
  | .writeFailed => 9
  | .testResult => 10
  | .invalidWord => 11
  | .echo => 12
  | .accessRefused => 13
  | .restarted => 14
  | .returnUnanswered => 15
  | .overrun => 16

/-- A request state's code: its place in R5 (R158). -/
def RequestState.code : RequestState → Nat
  | .quiet => 0
  | .parked => 1
  | .queued => 2
  | .assigned _ => 3
  | .releasing _ => 4

/-- A request state's spare, or 15 (R158, R171). -/
def RequestState.spareCode : RequestState → Nat
  | .assigned s => s.val
  | .releasing s => s.val
  | _ => 15

/-- A request state byte: state in the upper half, spare or 15 in the lower (R158, R171). -/
def RequestState.byte (r : RequestState) : Byte := halves r.code r.spareCode

/-- An engine state's code: its place in R44 (R158). -/
def EngineState.code : EngineState → Nat
  | .free => 0
  | .preparing _ => 1
  | .bridged _ => 2
  | .carrying _ => 3
  | .returning _ => 4
  | .unavailable => 5
  | .testing _ => 6
  | .looped => 7

/-- The circuit an engine state holds (R45). -/
def EngineState.circuit : EngineState → Option Circuit
  | .preparing k => some k
  | .bridged k => some k
  | .carrying k => some k
  | .returning k => some k
  | _ => none

/-- A test phase's code (R158): its place in R93. -/
def TestPhase.code : TestPhase → Nat
  | .ask _ => 0
  | .run => 1
  | .ending _ => 2

/-- The test phase half of an engine state, or 15 (R158, R171). -/
def EngineState.phaseCode : EngineState → Nat
  | .testing ph => ph.code
  | _ => 15

/-- The byte with the circuit or 15 in the upper half and the test phase or 15 in the lower (R158, R171). -/
def EngineState.circuitByte (e : EngineState) : Byte :=
  halves (match e.circuit with | some k => k.val | none => 15) e.phaseCode

/-- A test result's code: its place in R44 (R158). -/
def TestResult.code : TestResult → Nat
  | .none => 0
  | .pass => 1
  | .fail => 2
  | .noLoop => 3
  | .overtaken => 4
  | .aborted => 5

/-- A transfer source's code: the circuit, or 10 for REST (R158, R171). -/
def TransferSource.code : TransferSource → Nat
  | .circuit k => k.val
  | .rest => 10

/-! ## Conditions, status, the interrupt line -/

/-- DOWN, IMPAIRED and raw-down of a port as a flag set (R158). -/
def Condition.flags (c : Condition) : Byte := byte (bit c.down + 2 * bit c.impaired + 4 * bit c.rawDown)

/-- The cond_class that a working port's conditions give (R2). -/
def Condition.cls (c : Condition) : Nat := if c.down then 3 else if c.impaired then 2 else 0

/-- Raw-down of a port as its two sources give it (R150). -/
def Monitor.rawDown (m : Monitor) : Bool :=
  m.signalLost || (match m.state with | .aligned _ => false | _ => true)

/-- The status register (R169). -/
def Registers.status (r : Registers) : Byte := byte (bit r.refusedWrite + 2 * bit r.overrunSeen)

/-- The PROTECT register (R166). -/
def Registers.protect (r : Registers) : Byte := byte (bit r.enable + 2 * bit r.hold + 4 * bit r.interruptEnable)

/-- Whether the event queue holds a record (R162). -/
def EventQueue.nonEmpty (q : EventQueue) : Bool := !q.places.isEmpty || q.overflow.isSome

/-- The interrupt line is asserted while the event queue holds a record and the interrupt enable is set (R162). -/
def State.interrupt (s : State) : Bool := s.events.nonEmpty && s.regs.interruptEnable

end Sys2Proof.Machine
end

