-- ==== Sys2Proof/Machine/Memory.lean ====
section
/-! DEFINITION. The context store (R106): twelve contexts of sixteen 16-bit context words, held as bytes at addresses.

The store keeps one canonical form: strictly rising addresses and no zero byte listed, an unlisted address reading as 0,
which is what every context word holds after a pin reset (R106).  Equal stores are therefore equal data.  The byte
addresses, and which byte of a word lies lower, are the model's own (assumption 5): software names a port and an index,
never an address. -/

namespace Sys2Proof.Machine

/-- What an address that is not listed reads as: 0, the value after a pin reset (R106). -/
def unlistedByte : Byte := 0

/-- The byte at an address. -/
def Memory.read : Memory → Nat → Byte
  | [], _ => unlistedByte
  | (b, v) :: rest, a => if b = a then v else Memory.read rest a

/-- Put a byte in front of a store whose addresses lie above it, unless it is what an unlisted address reads as. -/
def Memory.listed (a : Nat) (v : Byte) (rest : Memory) : Memory :=
  if v = unlistedByte then rest else (a, v) :: rest

/-- The store with the byte at an address replaced. -/
def Memory.write : Memory → Nat → Byte → Memory
  | [], a, v => Memory.listed a v []
  | (b, w) :: rest, a, v =>
    if a < b then Memory.listed a v ((b, w) :: rest)
    else if a = b then Memory.listed a v rest
    else (b, w) :: Memory.write rest a v

/-- The canonical form: addresses strictly rising, no entry equal to what an unlisted address reads as. -/
def Memory.wf : Memory → Bool
  | [] => true
  | (a, v) :: rest => v != unlistedByte && rest.all (fun c => a < c.1) && Memory.wf rest

/-- The address of the lower byte of context word i of context p. -/
def contextAddress (p : Port) (i : WordIndex) : Nat := (p.val * 16 + i.val) * 2

/-- Context word i of context p (R106). -/
def Memory.word (m : Memory) (p : Port) (i : WordIndex) : Half :=
  joinBytes (Memory.read m (contextAddress p i + 1)) (Memory.read m (contextAddress p i))

/-- The store with context word i of context p replaced (R106). -/
def Memory.setWord (m : Memory) (p : Port) (i : WordIndex) (v : Half) : Memory :=
  Memory.write (Memory.write m (contextAddress p i) (lowerByte v)) (contextAddress p i + 1) (upperByte v)

end Sys2Proof.Machine
end

