-- ==== Sys2Proof/Machine/Ops.lean ====
section
/-! DEFINITION. The named operations over the state: tables, derived fields, the event queue, and the turn in which one
event's changes are made and its event records are put in their order.

The block has no exception entry; what would be one, raising the interrupt line, is an effect of posting an event
(R162). -/

namespace Sys2Proof.Machine

/-! ## Tables -/

/-- Request record k. -/
def State.record (s : State) (k : Circuit) : Record := tabGet s.records k

/-- The state with request record k replaced. -/
def State.setRecord (s : State) (k : Circuit) (r : Record) : State := { s with records := tabSet s.records k r }

/-- The engine record of a spare. -/
def State.engine (s : State) (g : Spare) : Engine := tabGet s.engines g

/-- The state with a spare's engine record replaced. -/
def State.setEngine (s : State) (g : Spare) (e : Engine) : State := { s with engines := tabSet s.engines g e }

/-- The transfer engine of a spare: none is IDLE. -/
def State.transfer (s : State) (g : Spare) : Option Transfer := tabGet s.transfers g

/-- The state with a spare's transfer engine replaced. -/
def State.setTransfer (s : State) (g : Spare) (x : Option Transfer) : State :=
  { s with transfers := tabSet s.transfers g x }

/-- The word qualifier of a spare. -/
def State.qualifier (s : State) (g : Spare) : Qualifier := tabGet s.qualifiers g

/-- The state with a spare's word qualifier replaced. -/
def State.setQualifier (s : State) (g : Spare) (q : Qualifier) : State :=
  { s with qualifiers := tabSet s.qualifiers g q }

/-- The frame monitor of a port. -/
def State.monitor (s : State) (p : Port) : Monitor := tabGet s.monitors p

/-- The state with a port's frame monitor replaced. -/
def State.setMonitor (s : State) (p : Port) (m : Monitor) : State := { s with monitors := tabSet s.monitors p m }

/-- The condition fields of a port. -/
def State.condition (s : State) (p : Port) : Condition := tabGet s.conditions p

/-- The state with a port's condition fields replaced. -/
def State.setCondition (s : State) (p : Port) (c : Condition) : State :=
  { s with conditions := tabSet s.conditions p c }

/-- The state with a port's out-of-step flag set or cleared (R131). -/
def State.setOutOfStep (s : State) (p : Port) (b : Bool) : State := { s with outOfStep := tabSet s.outOfStep p b }

/-- The state with the pending queue of circuits replaced. -/
def State.setQueue (s : State) (q : List Circuit) : State := { s with queue := q }

/-- The state with its registers replaced. -/
def State.setRegs (s : State) (r : Registers) : State := { s with regs := r }

/-- The state with its bus side replaced. -/
def State.setBus (s : State) (b : Bus) : State := { s with bus := b }

/-- The state with its event queue replaced. -/
def State.setEvents (s : State) (q : EventQueue) : State := { s with events := q }

/-- Context word i of context p in the store (R106). -/
def State.contextWord (s : State) (p : Port) (i : WordIndex) : Half := s.store.word p i

/-! ## Derived fields -/

/-- The current far word on a spare says this, or nothing when it is NONE. -/
def State.farSays (s : State) (g : Spare) : Option SpanWord := (s.qualifier g).far.bind spanWord

/-- The circuit and class that the current far word on a spare claims (R3). -/
def State.farClaim (s : State) (g : Spare) : Option (Circuit × Nat) := claimOf (s.qualifier g).far

/-- The class that a claim names for circuit k: 0 for no claim or another circuit. -/
def claimedClass (k : Circuit) : Option (Circuit × Nat) → Nat
  | some (j, c) => if j = k then c else 0
  | none => 0

/-- far_class of record k (R3). -/
def State.farClass (s : State) (k : Circuit) : Nat :=
  max (claimedClass k (s.farClaim 0)) (claimedClass k (s.farClaim 1))

/-- local_class of a record (R4). -/
def Record.localClass (r : Record) : Nat := max r.condClass r.swClass

/-- local_class of record k (R4). -/
def State.localClass (s : State) (k : Circuit) : Nat := (s.record k).localClass

/-- eff_class of record k (R4). -/
def State.effClass (s : State) (k : Circuit) : Nat := max (s.localClass k) (s.farClass k)

/-- What spare g's engine says to the far end, or none in LOOPED (R70). -/
def State.ownSays (s : State) (g : Spare) : Option SpanWord :=
  match (s.engine g).state with
  | .free =>
    match s.farClaim g with
    | some (k, _) => if (s.record k).barred || (s.record k).declined then some (.decline k) else some .vacant
    | none => some .vacant
  | .preparing k => some (.claim k (s.effClass k))
  | .bridged k => some (.carry k (s.localClass k))
  | .carrying k => some (.carry k (s.localClass k))
  | .returning k => some (.yield k)
  | .unavailable =>
    match (s.engine g).reasons.firstLocal with
    | some d => some (.barred d)
    | none => some .vacant
  | .testing (.ask _) => some .loop
  | .testing .run => some .loop
  | .testing (.ending _) => some .unloop
  | .looped => none

/-- The own word on spare g, this end's role in its origin (R70, R72). -/
def State.ownWord (s : State) (g : Spare) : Option Half := (s.ownSays g).map fun w => w.encode s.role

/-- The bridge of spare g: the circuit whose transmit frames go out on it (R47). -/
def State.bridge (s : State) (g : Spare) : Option Circuit :=
  match (s.engine g).state with
  | .bridged k => some k
  | .carrying k => some k
  | .returning k => some k
  | _ => none

/-- The selector of spare g: the circuit whose system port receives from it (R47). -/
def State.selector (s : State) (g : Spare) : Option Circuit :=
  match (s.engine g).state with
  | .carrying k => some k
  | _ => none

/-- The loop of spare g (R47). -/
def State.loopOn (s : State) (g : Spare) : Bool := (s.engine g).state == .looped

/-- The line that system port k is to receive from: a spare whose selector names k, else the working line (R47). -/
def State.selectedFeed (s : State) (k : Circuit) : Feed :=
  if s.selector 0 = some k then .spare 0
  else if s.selector 1 = some k then .spare 1
  else .working

/-- A monitor is ALIGNED. -/
def Monitor.isAligned (m : Monitor) : Bool := match m.state with | .aligned _ => true | _ => false

/-- The return kind that three source classes give while eff_class is above 0 (R12). -/
def returnKindOf (condClass farClass : Nat) : ReturnKind :=
  if 0 < condClass ∨ 0 < farClass then .condition else .software

/-! ## The event queue -/

/-- Whether the event mask lets a kind through: bit n for kind code n+1, OVERRUN not maskable (R159, R166). -/
def State.unmasked (s : State) (kind : EventKind) : Bool :=
  kind == .overrun || s.regs.eventMask.getLsbD (kind.code - 1)

/-- Post one event: discard it if masked; else number it and store it, or lose it into the overflow record (R159,
R160).  After a pop at a full queue with an overflow record the places are full again, so an event that follows is lost
into a new overflow record by R160's table, where R161 says it is stored (assumption 31). -/
def State.post (s : State) (e : Event) : State :=
  if !s.unmasked e.kind then s
  else if s.events.places.length < Config.eventPlaces then
    s.setEvents { s.events with places := s.events.places ++ [{ sequence := s.events.next, event := e }],
                                next := s.events.next + 1 }
  else match s.events.overflow with
    | none =>
      { s.setEvents { s.events with overflow := some { sequence := s.events.next, lost := 1 },
                                    next := s.events.next + 1 }
        with regs := { s.regs with overrunSeen := true } }
    | some o =>
      if o.lost < Config.lostCap then
        s.setEvents { s.events with overflow := some { o with lost := o.lost + 1 }, next := s.events.next + 1 }
      else s

/-- Post events in order. -/
def State.postAll (s : State) (l : List Event) : State := l.foldl State.post s

/-- The overflow record as the ordinary record it becomes in a place (R158, R160). -/
def OverflowRecord.record (o : OverflowRecord) : EventRecord :=
  { sequence := o.sequence, event := { kind := .overrun, subject := 15, detail1 := byte o.lost, detail2 := 0 } }

/-- Remove the head record; a record in the overflow place moves into the freed place (R160, R161), which leaves no place
free for an event that follows (assumption 31). -/
def EventQueue.pop (q : EventQueue) : EventQueue :=
  match q.overflow with
  | none => { q with places := q.places.tail }
  | some o => { q with places := q.places.tail ++ [o.record], overflow := none }

/-! ## The events that report records and engines -/

/-- The subject byte of a port. -/
def subjectOf (p : Port) : Byte := byte p.val

/-- A REQUEST event for record k as the state now stands (R23, R158).  Its eff_class is the one after the port's change that
posts it; at an interval end a later port's change may follow (assumption 33). -/
def requestEvent (s : State) (k : Circuit) : Event :=
  { kind := .request, subject := subjectOf (workPort k), detail1 := (s.record k).state.byte,
    detail2 := byte (s.effClass k) }

/-- A SPARE event for spare g as the state now stands (R66, R158). -/
def spareEvent (s : State) (g : Spare) : Event :=
  { kind := .spare, subject := subjectOf (sparePort g), detail1 := byte (s.engine g).state.code,
    detail2 := (s.engine g).state.circuitByte }

/-- A REASON event: the set after the change, and the reason added (yes) or removed (no) (R158). -/
def reasonEvent (g : Spare) (after : Reasons) (x : Reason) (added : Bool) : Event :=
  { kind := .reason, subject := subjectOf (sparePort g), detail1 := after.flags,
    detail2 := halves (bit added) x.code }

/-- The REASON events that take one set to another, one for each reason added or removed, in the order of the reasons,
each carrying the set as it stands after that one change (R45). -/
def reasonEvents (g : Spare) (after : Reasons) : List Reason → Reasons → List Event
  | [], _ => []
  | x :: rest, now =>
    if now.has x = after.has x then reasonEvents g after rest now
    else reasonEvent g (now.put x (after.has x)) x (after.has x)
      :: reasonEvents g after rest (now.put x (after.has x))

/-- A TEST_RESULT event of this end's own test (R104, R158). -/
def testResultEvent (g : Spare) (r : TestResult) (errors : Nat) : Event :=
  { kind := .testResult, subject := subjectOf (sparePort g), detail1 := halves 0 r.code,
    detail2 := byte (min errors 255) }

/-- A TEST_RESULT event of a loop served for the far end (R103, R158). -/
def loopResultEvent (g : Spare) (r : TestResult) : Event :=
  { kind := .testResult, subject := subjectOf (sparePort g), detail1 := halves 1 r.code, detail2 := 0 }

/-- An event that carries a maintenance word: FAR_WORD, INVALID_WORD or ECHO (R158). -/
def wordEvent (kind : EventKind) (g : Spare) (w : Half) : Event :=
  { kind := kind, subject := subjectOf (sparePort g), detail1 := upperByte w, detail2 := lowerByte w }

/-! ## A turn

The events of one cause are posted in a fixed order (R66): for each spare the REQUEST events, the REASON events and
the SPARE events, spare 0's group before spare 1's, and TEST_RESULT, CONTEST_LOST and RETURN_UNANSWERED after every
event of the grant pass.  The REQUEST events of one record stand in the order of its states (R23).  A turn gathers them while
the changes are made. -/

/-- The place of an event in the order of its cause (R66). -/
inductive Slot where
  | requests (g : Spare)
  | reasons (g : Spare)
  | spares (g : Spare)
  deriving DecidableEq, Repr

/-- The slots in order (R66). -/
def slotOrder : List Slot :=
  [.requests 0, .reasons 0, .spares 0, .requests 1, .reasons 1, .spares 1]

/-- One event being taken: the state so far, the events gathered for this group, those that follow the grant pass, and
the spares on which adoption has been offered. -/
structure Turn where
  st      : State
  posts   : List (Slot × Event)
  late    : List Event
  offered : List Spare
  deriving DecidableEq, Repr

/-- A turn that begins on a state. -/
def State.turn (s : State) : Turn := { st := s, posts := [], late := [], offered := [] }

/-- Change the state of a turn. -/
def Turn.change (t : Turn) (f : State → State) : Turn := { t with st := f t.st }

/-- Gather an event in a slot. -/
def Turn.gather (t : Turn) (slot : Slot) (e : Event) : Turn := { t with posts := t.posts ++ [(slot, e)] }

/-- An earlier REQUEST of the record that e reports, gathered for a spare after g, is drawn into g's group, where it stands
before e (R23; assumption 17). -/
def drawForward (g : Spare) (e : Event) : Slot × Event → Slot × Event
  | (.requests h, old) => if old.subject = e.subject ∧ g < h then (.requests g, old) else (.requests h, old)
  | p => p

/-- Gather a REQUEST event in spare g's group, behind every REQUEST of the same record, so that the states of one record are
posted in the order entered (R23, R66). -/
def Turn.gatherRequest (t : Turn) (g : Spare) (e : Event) : Turn :=
  { t with posts := t.posts.map (drawForward g e) ++ [(.requests g, e)] }

/-- Gather an event that follows the grant pass. -/
def Turn.gatherLate (t : Turn) (e : Event) : Turn := { t with late := t.late ++ [e] }

/-- The gathered events in the order of R66. -/
def Turn.ordered (t : Turn) : List Event :=
  slotOrder.flatMap fun slot => (t.posts.filter fun p => p.1 = slot).map fun p => p.2

/-- Post the gathered events of the group. -/
def Turn.flush (t : Turn) : Turn := { t with st := t.st.postAll t.ordered, posts := [] }

/-- Post the events that follow the grant pass, and end the turn. -/
def Turn.close (t : Turn) : State := t.flush.st.postAll t.late

/-! ## Transfers -/

/-- Start a transfer on an idle transfer engine: cursor 0, nothing to resend, nothing in flight (R112). -/
def State.startTransfer (s : State) (g : Spare) (src : TransferSource) : State :=
  s.setTransfer g (some { source := src, cursor := 0, resend := [], inFlight := none })

/-- The transaction in flight marked abandoned, when it belongs to the transfer running on spare g (R115, R124). -/
def State.abandon (s : State) (g : Spare) : State :=
  match s.transaction, s.transfer g with
  | some x, some t =>
    if x.source = .transfer g ∧ t.inFlight.isSome then { s with transaction := some { x with abandoned := true } }
    else s
  | _, _ => s

/-- Cancel whatever transfer runs on spare g: its fields are discarded at once, a transaction in flight for it runs on,
abandoned (R115). -/
def State.cancelTransfer (s : State) (g : Spare) : State := (s.abandon g).setTransfer g none

/-! ## The line between two commands -/

/-- What the line-side management port does in one period of its present attempt: that attempt's period, and idle while no
transaction is on the line (R122). -/
def State.lspPeriod (s : State) (n : Nat) : LspPeriod :=
  match s.transaction with
  | some x => ((attemptPeriods x)[n]?).getD .idle
  | none => .idle

/-- The port drives its LSP clock while a transaction is on the line; the clock is idle otherwise (R122, R123). -/
def State.lspClockRuns (s : State) : Bool := s.transaction.isSome

/-! ## The feeds of the system ports (R144) -/

/-- The port of the line that a feed of system port k names. -/
def feedPort (k : Circuit) : Feed → Option Port
  | .working => some (workPort k)
  | .spare g => some (sparePort g)
  | .ones => none

/-- A frame may be in progress on the line that a feed of system port k names: its monitor is ALIGNED, and it is not the
port that stands at a frame boundary. -/
def State.feedInFrame (s : State) (boundary : Option Port) (k : Circuit) (f : Feed) : Bool :=
  match feedPort k f with
  | some p => (s.monitor p).isAligned && boundary != some p
  | none => false

/-- What system port k is fed from, with one port or none at a frame boundary: it stays on the line being left while a frame
of that line is in progress, and then has bytes of all ones while one of the new line is, as their monitors place them
(R144). -/
def State.followFeed (s : State) (boundary : Option Port) (k : Circuit) : Feed :=
  let f := tabGet s.feeds k
  if f = s.selectedFeed k then f
  else if s.feedInFrame boundary k f then f
  else if s.feedInFrame boundary k (s.selectedFeed k) then .ones
  else s.selectedFeed k

/-- Every system port's feed follows its selector (R144). -/
def State.followFeeds (s : State) (boundary : Option Port) : State :=
  { s with feeds := Vector.ofFn fun k => s.followFeed boundary k }

/-- Every system port's feed, as the end of an event leaves it: no port stands at a frame boundary (R144). -/
def State.settleFeeds (s : State) : State := s.followFeeds none

end Sys2Proof.Machine
end

