-- ==== Sys2Proof/Machine/LinePort.lean ====
section
/-! DEFINITION. The line-side management port (Chapter 7): offers, eligibility, the rotation and the start of a
transaction. -/

namespace Sys2Proof.Machine

/-- The port a source writes to and the index it offers: for a transfer engine the word at the cursor, then the lowest
index to resend (R113); for the FIFO its oldest entry (R125). -/
def Transfer.offer (t : Transfer) : Option WordIndex :=
  if t.inFlight.isSome then none
  else if h : t.cursor < 16 then some ⟨t.cursor, h⟩
  else t.resend.head?

/-- Whether the forward FIFO holds an entry addressed to a port (R125). -/
def State.fifoNames (s : State) (p : Port) : Bool := s.fifo.any fun e => e.port = p

/-- The index that spare g's transfer engine offers, where its offer is eligible: held back while the FIFO holds an
entry for its port (R125). -/
def State.eligibleOffer (s : State) (g : Spare) : Option WordIndex :=
  if s.fifoNames (sparePort g) then none else (s.transfer g).bind Transfer.offer

/-- The port whose context a source of spare g names (R111). -/
def contextOf (g : Spare) : TransferSource → Port
  | .circuit k => workPort k
  | .rest => sparePort g

/-- A transfer whose offered word has been started: in flight, the cursor past a main-pass word or the resend index
removed (R113). -/
def Transfer.started (t : Transfer) (i : WordIndex) : Transfer :=
  if t.cursor < 16 then { t with cursor := t.cursor + 1, inFlight := some i }
  else { t with resend := t.resend.filter (· ≠ i), inFlight := some i }

/-- Start a transaction of spare g's transfer engine, the value read from the store at this moment (R113, R126). -/
def State.startOffer (s : State) (g : Spare) (t : Transfer) (i : WordIndex) : State :=
  { s.setTransfer g (some (t.started i)) with
    transaction := some { source := .transfer g, port := sparePort g, index := i,
                          value := s.contextWord (contextOf g t.source) i, second := false, abandoned := false,
                          rate := s.regs.lspRate }
    rotation := .transfer g }

/-- Start a transaction of a forward entry, which leaves the FIFO (R126). -/
def State.startEntry (s : State) (e : ForwardEntry) (rest : List ForwardEntry) : State :=
  { s with fifo := rest
           transaction := some { source := .fifo, port := e.port, index := e.index, value := e.value,
                                 second := false, abandoned := false, rate := s.regs.lspRate }
           rotation := .fifo }

/-- Serve one source, if it has an eligible offer (R125, R126). -/
def State.serveSource (s : State) : PortSource → Option State
  | .transfer g =>
    match s.transfer g, s.eligibleOffer g with
    | some t, some i => some (s.startOffer g t i)
    | _, _ => none
  | .fifo =>
    match s.fifo with
    | e :: rest => some (s.startEntry e rest)
    | [] => none

/-- The sources considered, in order, after the one most recently served (R126). -/
def rotationAfter : PortSource → List PortSource
  | .transfer g => if g = 0 then [.transfer 1, .fifo, .transfer 0] else [.fifo, .transfer 0, .transfer 1]
  | .fifo => [.transfer 0, .transfer 1, .fifo]

/-- The choice of an idle port: the first source with an eligible offer in the rotation is served (R126).  A busy port
and a port without an eligible offer are left as they are. -/
def State.servePort (s : State) : State :=
  match s.transaction with
  | some _ => s
  | none => ((rotationAfter s.rotation).findSome? s.serveSource).getD s

/-- What the end of every event does: feeds follow the selectors (R144), and an idle port makes its choice on the offers
as they stand (R126; assumption 11). -/
def State.finish (s : State) : State := s.settleFeeds.servePort

end Sys2Proof.Machine
end

