-- ==== Sys2Proof/Machine/Engines.lean ====
section
/-! DEFINITION. The moves that request records and spare engines make together (Chapters 1 to 3, 5): entering and leaving
the pending queue, taking a circuit, letting it go, ending tests and loops, changing the reason set. -/

namespace Sys2Proof.Machine

/-! ## The pending queue -/

/-- Place circuit k at the end of its class group: after every entry of equal or higher class (R25). -/
def placeBack (cls : Circuit → Nat) (k : Circuit) : List Circuit → List Circuit
  | [] => [k]
  | j :: rest => if cls k ≤ cls j then j :: placeBack cls k rest else k :: j :: rest

/-- Place circuit k at the front of its class group: after every entry of higher class (R27). -/
def placeFront (cls : Circuit → Nat) (k : Circuit) : List Circuit → List Circuit
  | [] => [k]
  | j :: rest => if cls k < cls j then j :: placeFront cls k rest else k :: j :: rest

/-- Where a record enters the pending queue. -/
inductive Place where
  | back
  | front
  deriving DecidableEq, Repr

/-- The pending queue with circuit k taken out, and put in again where it is to be queued. -/
def State.requeue (s : State) (k : Circuit) (queued : Bool) (place : Place) : List Circuit :=
  let q := s.queue.filter (· ≠ k)
  if queued then
    match place with
    | .back => placeBack s.effClass k q
    | .front => placeFront s.effClass k q
  else q

/-! ## Request records -/

/-- The state a record takes while no engine holds its circuit (R6). -/
def State.restingState (s : State) (k : Circuit) : RequestState :=
  if s.effClass k = 0 then .quiet
  else if (s.record k).barred || (s.record k).declined then .parked
  else .queued

/-- Record k enters a state: its place in the pending queue follows, a return timer is discarded, and a REQUEST event is
gathered in spare g's group when state or spare field changes (R6 to R10, R23, R28). -/
def Turn.moveRecord (t : Turn) (g : Spare) (k : Circuit) (r : RequestState) (place : Place) : Turn :=
  let old := (t.st.record k).state
  let t := t.change fun s =>
    (s.setQueue (s.requeue k (r = .queued) place)).setRecord k { s.record k with state := r, returnTimer := none }
  if old = r then t else t.gatherRequest g (requestEvent t.st k)

/-- A record whose spare was taken from it is put back: QUEUED at the front of its class group, or QUIET (R9). -/
def Turn.putBack (t : Turn) (g : Spare) (k : Circuit) : Turn := t.moveRecord g k (t.st.restingState k) .front

/-- A record that stops being held otherwise: QUIET, PARKED, or QUEUED at the end of its class group (R10). -/
def Turn.release (t : Turn) (g : Spare) (k : Circuit) : Turn := t.moveRecord g k (t.st.restingState k) .back

/-- The return kind of record k recomputed while its eff_class is above 0 (R12). -/
def State.updateKind (s : State) (k : Circuit) : State :=
  if s.effClass k = 0 then s
  else s.setRecord k { s.record k with returnKind := returnKindOf (s.record k).condClass (s.farClass k) }

/-! ## Engine settings -/

/-- Spare g's engine enters a state with the given timers, and a SPARE event is gathered (R45). -/
def Turn.enterEngine (t : Turn) (g : Spare) (e : EngineState) (answer test : Option Nat) : Turn :=
  let t := t.change fun s =>
    s.setEngine g { s.engine g with state := e, answerTimer := answer, testTimer := test }
  t.gather (.spares g) (spareEvent t.st g)

/-- The answer timer as a start sets it: the answer timeout configured at this moment (R46). -/
def State.answerStart (s : State) : Option Nat := some (s.regs.answerTimeout.toNat * Config.per10ms)

/-- Spare g's engine stops holding its circuit and goes FREE: a circuit transfer is cancelled and a rest transfer starts
(R53, R55, R56, R57). -/
def Turn.letGo (t : Turn) (g : Spare) : Turn :=
  (t.change fun s => (s.cancelTransfer g).startTransfer g .rest).enterEngine g .free none none

/-- A test of this end's own ends with a result (R101, R104). -/
def Turn.endTest (t : Turn) (g : Spare) (r : TestResult) : Turn :=
  (t.change fun s => s.setEngine g { s.engine g with lastResult := r }).gatherLate
    (testResultEvent g r (t.st.engine g).errorCount)

/-- A loop served for the far end ends with a result (R103). -/
def Turn.endLoop (t : Turn) (g : Spare) (r : TestResult) : Turn := t.gatherLate (loopResultEvent g r)

/-- A test or a loop on spare g, if there is one, ends with a result (R49, R59, R101, R103). -/
def Turn.endTestOrLoop (t : Turn) (g : Spare) (r : TestResult) : Turn :=
  match (t.st.engine g).state with
  | .testing _ => t.endTest g r
  | .looped => t.endLoop g r
  | _ => t

/-! ## Taking a circuit -/

/-- Spare g's engine enters PREPARING for circuit k: a running transfer is cancelled, a circuit transfer starts, record
k becomes ASSIGNED with its return kind recomputed, a test or loop ends OVERTAKEN (R36, R39, R49, R50). -/
def Turn.enterPreparing (t : Turn) (g : Spare) (k : Circuit) : Turn :=
  let t := t.endTestOrLoop g .overtaken
  let t := t.change fun s => (s.cancelTransfer g).startTransfer g (.circuit k)
  let t := t.moveRecord g k (.assigned g) .back
  let t := t.change fun s => s.updateKind k
  t.enterEngine g (.preparing k) none none

/-! ## Adoption (R38 to R41) -/

/-- Spare g is held and given up for the same circuit on spare 0: its engine goes FREE and rests (R40). -/
def Turn.moveAway (t : Turn) (g : Spare) : Turn := t.letGo g

/-- The arbiter decides an offer of circuit k on spare g by the first row of R39 that applies. -/
def Turn.offer (t : Turn) (g : Spare) (k : Circuit) : Turn :=
  let t := { t with offered := t.offered ++ [g] }
  let r := t.st.record k
  if r.barred || r.declined then t
  else if t.st.effClass k = 0 then t
  else match r.state with
    | .assigned o => if g < o then (t.moveAway o).enterPreparing g k else t
    | .releasing o => if g < o then (t.moveAway o).enterPreparing g k else t
    | _ => t.enterPreparing g k

/-! ## The word contest (R83 to R85) -/

/-- Claim order: higher class first, then lower circuit number (R34). -/
def beforeClaim (a b : Circuit × Nat) : Bool := b.2 < a.2 || (a.2 == b.2 && a.1 < b.1)

/-- This end's claim in a contest on spare g: the class its own word carries, 0 in RETURNING (R84).  CARRYING decides no
contest: the step back of R79 comes first (R83). -/
def State.contestClaim (s : State) (g : Spare) : Option (Circuit × Nat) :=
  match (s.engine g).state with
  | .preparing k => some (k, s.effClass k)
  | .bridged k => some (k, s.localClass k)
  | .returning k => some (k, 0)
  | _ => none

/-- A CONTEST_LOST event: the lost circuit and the winning circuit (R85, R158). -/
def contestLostEvent (g : Spare) (lost won : Circuit) : Event :=
  { kind := .contestLost, subject := subjectOf (sparePort g), detail1 := byte lost.val, detail2 := byte won.val }

/-- Decide the contest on spare g, where its engine holds a circuit in PREPARING, BRIDGED or RETURNING and the current
far word claims another.  A lost contest revokes the circuit, puts its record back and offers the winner (R83 to
R85, R43). -/
def Turn.contest (t : Turn) (g : Spare) : Turn :=
  match t.st.contestClaim g, t.st.farClaim g with
  | some own, some far =>
    if own.1 = far.1 then t
    else if beforeClaim own far then t
    else ((((t.letGo g).putBack g own.1).offer g far.1).gatherLate (contestLostEvent g own.1 far.1))
  | _, _ => t

/-! ## Letting a circuit go -/

/-- A return of circuit k on spare g completes: FREE, resting, record k at rest (R55). -/
def Turn.completeReturn (t : Turn) (g : Spare) (k : Circuit) : Turn := (t.letGo g).release g k

/-- Whether the far end has already let circuit k go: its word is YIELD(k) or VACANT (R80). -/
def letGoWord (k : Circuit) : Option SpanWord → Bool
  | some (.yield j) => j = k
  | some .vacant => true
  | _ => false

/-- Spare g's engine enters RETURNING for circuit k, its record RELEASING; the return completes at once where the far
end has already let go, and a standing far claim is contested at class 0 (R54, R80, R83). -/
def Turn.enterReturning (t : Turn) (g : Spare) (k : Circuit) : Turn :=
  let t := t.moveRecord g k (.releasing g) .back
  let t := t.enterEngine g (.returning k) t.st.answerStart none
  if letGoWord k (t.st.farSays g) then t.completeReturn g k else t.contest g

/-- Spare g's engine drops circuit k at once, on a bar or a decline (R56), or has its grant revoked (R53). -/
def Turn.drop (t : Turn) (g : Spare) (k : Circuit) : Turn := (t.letGo g).release g k

/-! ## The reason set -/

/-- What leaving a usable state for UNAVAILABLE tears down (R59). -/
def Turn.tearDown (t : Turn) (g : Spare) : Turn :=
  match (t.st.engine g).state.circuit with
  | some k => (t.change fun s => (s.cancelTransfer g).startTransfer g .rest).putBack g k
  | none => t.endTestOrLoop g .aborted

/-- Spare g's reason set becomes the given one: the teardown on a first reason, a REASON event for each change, and entry
into UNAVAILABLE or FREE (R45, R59). -/
def Turn.setReasons (t : Turn) (g : Spare) (after : Reasons) : Turn :=
  let before := (t.st.engine g).reasons
  let usable : Bool := (t.st.engine g).state != .unavailable
  let t := if usable && !after.isEmpty then t.tearDown g else t
  let t := (reasonEvents g after allReasons before).foldl (fun t e => t.gather (.reasons g) e) t
  let t := t.change fun s => s.setEngine g { s.engine g with reasons := after }
  if usable && !after.isEmpty then t.enterEngine g .unavailable none none
  else if !usable && after.isEmpty then t.enterEngine g .free none none
  else t

/-- Add (yes) or remove (no) one reason (R59). -/
def Turn.putReason (t : Turn) (g : Spare) (x : Reason) (b : Bool) : Turn :=
  if (t.st.engine g).reasons.has x = b then t else t.setReasons g ((t.st.engine g).reasons.put x b)

/-! ## The reaction of a record to a change of its classes or flags -/

/-- The return timer that R13 starts for circuit k on spare g, or the return at once for a return delay of 0. -/
def Turn.startReturn (t : Turn) (g : Spare) (k : Circuit) : Turn :=
  if t.st.regs.returnDelay = 0 then t.enterReturning g k
  else t.change fun s =>
    s.setRecord k { s.record k with returnTimer := some (s.regs.returnDelay.toNat * Config.per5s) }

/-- What the fall of eff_class to 0 does to a circuit that spare g's engine holds in an ASSIGNED record (R11). -/
def Turn.classGone (t : Turn) (g : Spare) (k : Circuit) : Turn :=
  match (t.st.engine g).state with
  | .preparing _ => t.drop g k
  | .bridged _ => t.enterReturning g k
  | .carrying _ =>
    match (t.st.record k).returnKind with
    | .software => t.enterReturning g k
    | .condition => if t.st.regs.hold then t else t.startReturn g k
  | _ => t

/-- A record that spare g's engine holds, ASSIGNED, reacts: to a fall of its class to 0 as R11 lays down, to a class above
0 by dropping its return timer (R14), and to a class that was 0 before and still is not at all (assumption 15); a contest
whose own word has changed is decided again (R83). -/
def Turn.reactHeld (t : Turn) (g : Spare) (k : Circuit) (before : Nat) : Turn :=
  if t.st.effClass k = 0 then (if before = 0 then t else t.classGone g k).contest g
  else (t.change fun s => s.setRecord k { s.record k with returnTimer := none }).contest g

/-- A record that no engine holds reacts: it takes the state of R6, and a QUEUED record whose eff_class has changed
moves to the end of its new class group (R26). -/
def Turn.reactUnheld (t : Turn) (g : Spare) (k : Circuit) (changed : Bool) : Turn :=
  let r := t.st.restingState k
  if (t.st.record k).state = r ∧ ¬ (r = .queued ∧ changed = true) then t else t.moveRecord g k r .back

/-- Record k reacts to a change of its own classes or flags in an event of its own; before is the eff_class it had. -/
def Turn.react (t : Turn) (k : Circuit) (before : Nat) : Turn :=
  match (t.st.record k).state with
  | .assigned g => t.reactHeld g k before
  | .releasing _ => t
  | _ => t.reactUnheld 0 k (before != t.st.effClass k)

/-- A source of record k changes: a change of local_class clears its decline hold (R17), the return kind is recomputed
(R12), and the record reacts (R4). -/
def Turn.sourceChange (t : Turn) (k : Circuit) (f : Record → Record) : Turn :=
  let old := t.st.record k
  let before := t.st.effClass k
  let new := f old
  let new := if old.localClass = new.localClass then new else { new with declined := false }
  ((t.change fun s => (s.setRecord k new).updateKind k).react k before)

end Sys2Proof.Machine
end

