-- ==== Sys2Proof/Machine/Arbiter.lean ====
section
/-! DEFINITION. The spare arbiter's grant pass (R31 to R37), and the end of a turn. -/

namespace Sys2Proof.Machine

/-- A spare is open to head h with class c (R33). -/
def State.openTo (s : State) (g : Spare) (h : Circuit) (c : Nat) : Bool :=
  match s.farClaim g with
  | none => true
  | some (k, f) => k = h || beforeClaim (h, c) (k, f)

/-- The claim of a spare whose engine holds a circuit, with its holding class (R34). -/
def State.holdingClaim (s : State) (g : Spare) : Option (Circuit × Nat) :=
  match (s.engine g).state with
  | .preparing k => some (k, s.effClass k)
  | .bridged k => some (k, s.effClass k)
  | .carrying k => some (k, s.effClass k)
  | .returning k => some (k, 0)
  | _ => none

/-- The engine state is TESTING or LOOPED. -/
def EngineState.testingOrLooped : EngineState → Bool
  | .testing _ => true
  | .looped => true
  | _ => false

/-- A spare loses to h: its claim comes after (h, c) in claim order (R35). -/
def State.loses (s : State) (g : Spare) (h : Circuit) (c : Nat) : Bool :=
  match s.holdingClaim g with
  | some claim => beforeClaim (h, c) claim
  | none => false

/-- The spare that step 5 preempts: of two that lose, the one whose claim comes last (R35). -/
def State.victim (s : State) (h : Circuit) (c : Nat) : Option Spare :=
  match s.loses 0 h c, s.loses 1 h c with
  | false, false => none
  | true, false => some 0
  | false, true => some 1
  | true, true =>
    match s.holdingClaim 0, s.holdingClaim 1 with
    | some a, some b => if beforeClaim a b then some 1 else some 0
    | _, _ => none

/-- The lowest-numbered spare that is open to h and whose engine state passes a test (R32 steps 3 and 4). -/
def State.openSpareWhere (s : State) (h : Circuit) (c : Nat) (ok : EngineState → Bool) : Option Spare :=
  allSpares.find? fun g => s.openTo g h c && ok (s.engine g).state

/-- A preemption of spare g for head h: its record put back, the engine straight into PREPARING, and the contest that the
changed own word calls for (R37, R50, R83). -/
def Turn.preempt (t : Turn) (g : Spare) (h : Circuit) : Turn :=
  match (t.st.engine g).state.circuit with
  | some j => (((t.change fun s => s.cancelTransfer g).putBack g j).enterPreparing g h).flush.contest g
  | none => t

/-- One step of the pass, or none where the pass ends (R32). -/
def Turn.passStep (t : Turn) : Option Turn :=
  match t.st.queue with
  | [] => none
  | h :: _ =>
    let c := t.st.effClass h
    match t.st.openSpareWhere h c (· = .free) with
    | some g => some (t.enterPreparing g h)
    | none =>
      match t.st.openSpareWhere h c EngineState.testingOrLooped with
      | some g => some (t.enterPreparing g h)
      | none => (t.st.victim h c).map fun g => t.preempt g h

/-- The grant pass: its step repeated until it ends, the events of each move posted as it is made (R32). -/
def Turn.pass : Nat → Turn → Turn
  | 0, t => t
  | n + 1, t =>
    match t.passStep with
    | none => t
    | some t' => Turn.pass n t'.flush

/-- A grant pass run on a turn. -/
def Turn.grantPass (t : Turn) : Turn := Turn.pass Config.passBound t.flush

/-- Spare g has come to hold its circuit at class 0 (R31). -/
def State.heldAtZero (s : State) (g : Spare) : Bool :=
  match s.holdingClaim g with
  | some (_, 0) => true
  | _ => false

/-- What a change between two states calls a grant pass for at a record: its eff_class, its flags, its entering or leaving
the queue or a spare (R31). -/
def passDueAtRecord (a b : State) (k : Circuit) : Bool :=
  a.effClass k != b.effClass k || (a.record k).barred != (b.record k).barred
    || (a.record k).declined != (b.record k).declined || (a.record k).state != (b.record k).state

/-- What a change between two states calls a grant pass for at a spare: its engine becoming FREE, coming to hold at class
0, or its far word changing while FREE, TESTING or LOOPED (R31). -/
def passDueAtSpare (a b : State) (g : Spare) : Bool :=
  ((b.engine g).state == .free && (a.engine g).state != .free)
    || (b.heldAtZero g && !a.heldAtZero g)
    || (((b.engine g).state == .free || (b.engine g).state.testingOrLooped)
        && (a.qualifier g).far != (b.qualifier g).far)

/-- Whether a grant pass runs for a turn that began on the given state (R31). -/
def Turn.passDue (t : Turn) (before : State) : Bool :=
  allCircuits.any (passDueAtRecord before t.st) || allSpares.any (passDueAtSpare before t.st)
    || !t.offered.isEmpty

/-- The end of a turn: the group's events, the grant pass where one is called for, and the events that follow it (R31,
R66). -/
def Turn.settle (t : Turn) (before : State) : State :=
  let t := t.flush
  if t.passDue before then t.grantPass.close else t.close

/-- The end of a turn whose event is followed by a grant pass in every case (R21, R22, R62). -/
def Turn.settleWithPass (t : Turn) : State := t.grantPass.close

end Sys2Proof.Machine
end

