-- ==== Sys2Proof/Machine/Protocol.lean ====
section
/-! DEFINITION. The span protocol (Chapter 4, with the test states of Chapter 5) and the word qualifiers (section 8.4):
what one end does when a maintenance word is delivered to it. -/

namespace Sys2Proof.Machine

/-! ## A change of the current far word -/

/-- Make the current far word on spare g a word, or NONE. -/
def State.setFar (s : State) (g : Spare) (w : Option Half) : State :=
  s.setQualifier g { s.qualifier g with far := w }

/-- The circuits whose far_class a change of far word may change: the one claimed before, then the one claimed after
(R73 step 1; assumption 14). -/
def affected (old new : Option (Circuit × Nat)) : List Circuit :=
  match old, new with
  | some (k, _), some (j, _) => if k = j then [k] else [k, j]
  | some (k, _), none => [k]
  | none, some (j, _) => [j]
  | none, none => []

/-- Step 1 of R73 for one affected circuit: the return kind is recomputed, a claim on it clears its decline hold (R17), a
PARKED record so freed and a QUEUED record whose eff_class has changed react at once. -/
def Turn.refreshClass (t : Turn) (before : State) (g : Spare) (claimed : Bool) (k : Circuit) : Turn :=
  let t := t.change fun s => s.updateKind k
  let t := if claimed then t.change fun s => s.setRecord k { s.record k with declined := false } else t
  let changed := before.effClass k != t.st.effClass k
  let freed := (before.record k).declined && !(t.st.record k).declined
  match (t.st.record k).state with
  | .queued => if changed then t.reactUnheld g k true else t
  | .parked => if freed then t.reactUnheld g k true else t
  | _ => t

/-- Step 4 of R73 for one circuit whose class the change of far word touches: where its eff_class has changed, its record
reacts on the state that the engine's action has left.  A QUIET record whose claim is about to be offered for adoption
waits for the offer (R7). -/
def Turn.reactLater (t : Turn) (before : State) (g : Spare) (k : Circuit) : Turn :=
  if before.effClass k = t.st.effClass k then t
  else match (t.st.record k).state with
  | .assigned o => t.reactHeld o k (before.effClass k)
  | .releasing _ => t
  | .quiet =>
    if (t.st.engine g).state = .free ∧ (t.st.farClaim g).map (·.1) = some k ∧ g ∉ t.offered then t
    else t.reactUnheld g k false
  | _ => t.reactUnheld g k false

/-- A change of the current far word on spare g, with what happens between the first and the last reactions: the reason
update and the engine's action for a word taken (R73), the LINE reason for a declared DOWN (R63), the confirmation of a
loop (R94), nothing for an invalid word or an echo (R74). -/
def Turn.changeFar (t : Turn) (g : Spare) (w : Option Half) (act : Turn → Turn) : Turn :=
  let before := t.st
  let ks := affected (before.farClaim g) (claimOf w)
  let t := t.change fun s => s.setFar g w
  let t := ks.foldl (fun t k => t.refreshClass before g ((claimOf w).map (·.1) = some k) k) t
  ks.foldl (fun t k => t.reactLater before g k) (act t)

/-! ## Acting on a taken word -/

/-- A taken DECLINE(k) on spare g treats record k (R16, R81). -/
def Turn.decline (t : Turn) (g : Spare) (k : Circuit) : Turn :=
  let mark := fun (t : Turn) => t.change fun s => s.setRecord k { s.record k with declined := true }
  match (t.st.record k).state with
  | .assigned o => if o = g then (mark t).drop g k else t
  | .releasing o => if o = g then (mark t).drop g k else t
  | _ => (mark t).reactUnheld g k false

/-- Spare g's engine enters LOOPED for the far end's test (R102). -/
def Turn.enterLooped (t : Turn) (g : Spare) : Turn := t.enterEngine g .looped none none

/-- Spare g's engine enters FREE without having held a circuit: a test or a loop has ended (R99, R101, R103). -/
def Turn.becomeFree (t : Turn) (g : Spare) : Turn := t.enterEngine g .free none none

/-- A FREE engine acts (R76): a claim waits for the offer of step 5. -/
def Turn.actFree (t : Turn) (g : Spare) : SpanWord → Turn
  | .decline j => t.decline g j
  | .loop => t.enterLooped g
  | .vacant | .claim _ _ | .carry _ _ | .yield _ | .barred _ | .unloop => t

/-- An engine left UNAVAILABLE acts on a DECLINE alone (R76). -/
def Turn.actUnavailable (t : Turn) (g : Spare) : SpanWord → Turn
  | .decline j => t.decline g j
  | .vacant | .claim _ _ | .carry _ _ | .yield _ | .barred _ | .loop | .unloop => t

/-- An engine in PREPARING acts (R77): agreement changes nothing, another circuit's claim is contested. -/
def Turn.actPreparing (t : Turn) (g : Spare) : SpanWord → Turn
  | .claim _ _ | .carry _ _ => t.contest g
  | .decline j => t.decline g j
  | .vacant | .yield _ | .barred _ | .loop | .unloop => t

/-- An engine in BRIDGED k acts (R78). -/
def Turn.actBridged (t : Turn) (g : Spare) (k : Circuit) : SpanWord → Turn
  | .carry j _ => if j = k then t.enterEngine g (.carrying k) none none else t.contest g
  | .claim _ _ => t.contest g
  | .yield j => if j = k ∧ t.st.localClass k = 0 then t.enterReturning g k else t
  | .decline j => t.decline g j
  | .vacant | .barred _ | .loop | .unloop => t

/-- An engine in CARRYING k steps back to BRIDGED k, its answer timer started (R79). -/
def Turn.stepBack (t : Turn) (g : Spare) (k : Circuit) : Turn :=
  t.enterEngine g (.bridged k) t.st.answerStart none

/-- An engine in CARRYING k acts (R79). -/
def Turn.actCarrying (t : Turn) (g : Spare) (k : Circuit) : SpanWord → Turn
  | .carry j _ => if j = k then t else (t.stepBack g k).contest g
  | .claim _ _ => (t.stepBack g k).contest g
  | .yield j => if j = k ∧ t.st.localClass k = 0 then t.enterReturning g k else t
  | .decline j => t.decline g j
  | .vacant | .barred _ | .loop | .unloop => t

/-- A RETURNING engine re-bridges circuit k: BRIDGED with a fresh answer timer, record k ASSIGNED again (R80). -/
def Turn.rebridge (t : Turn) (g : Spare) (k : Circuit) : Turn :=
  let t := t.moveRecord g k (.assigned g) .back
  t.enterEngine g (.bridged k) t.st.answerStart none

/-- An engine in RETURNING k acts (R80). -/
def Turn.actReturning (t : Turn) (g : Spare) (k : Circuit) : SpanWord → Turn
  | .vacant => t.completeReturn g k
  | .yield j => if j = k then t.completeReturn g k else t
  | .claim j _ => if j = k then t.rebridge g k else t.contest g
  | .carry j c => if j = k then (if 0 < c then t.rebridge g k else t) else t.contest g
  | .decline j => t.decline g j
  | .barred _ | .loop | .unloop => t

/-- The result that a far word of no claim and no BARRED gives a test in phase RUN or END (R97, R99). -/
def TestPhase.released : TestPhase → TestResult
  | .ask _ => .aborted
  | .run => .aborted
  | .ending r => r

/-- A TESTING engine acts in phase ASK (R95), RUN (R97) or END (R99). -/
def Turn.actTesting (t : Turn) (g : Spare) (ph : TestPhase) : SpanWord → Turn
  | .claim _ _ | .carry _ _ => (t.endTest g .overtaken).becomeFree g
  | .loop =>
    match ph with
    | .ask _ => if t.st.role = .endA then t else (t.endTest g .overtaken).enterLooped g
    | .run => ((t.endTest g ph.released).becomeFree g).enterLooped g
    | .ending _ => ((t.endTest g ph.released).becomeFree g).enterLooped g
  | .vacant | .yield _ | .unloop =>
    match ph with
    | .ask _ => t
    | .run => (t.endTest g ph.released).becomeFree g
    | .ending _ => (t.endTest g ph.released).becomeFree g
  | .decline j =>
    match ph with
    | .ask _ => t.decline g j
    | .run => ((t.decline g j).endTest g ph.released).becomeFree g
    | .ending _ => ((t.decline g j).endTest g ph.released).becomeFree g
  | .barred _ => t

/-- A LOOPED engine acts (R103). -/
def Turn.actLooped (t : Turn) (g : Spare) : SpanWord → Turn
  | .claim _ _ | .carry _ _ => (t.endLoop g .overtaken).becomeFree g
  | .loop => (t.becomeFree g).enterLooped g
  | .vacant | .yield _ | .unloop => t.becomeFree g
  | .decline j => (t.decline g j).becomeFree g
  | .barred _ => t

/-- Spare g's engine acts on a taken word according to the state it stands in (R76 to R82, R95 to R103). -/
def Turn.act (t : Turn) (g : Spare) (w : SpanWord) : Turn :=
  match (t.st.engine g).state with
  | .free => t.actFree g w
  | .preparing _ => t.actPreparing g w
  | .bridged k => t.actBridged g k w
  | .carrying k => t.actCarrying g k w
  | .returning k => t.actReturning g k w
  | .unavailable => t.actUnavailable g w
  | .testing ph => t.actTesting g ph w
  | .looped => t.actLooped g w

/-- The reason set after a taken word: SILENT removed, FAR added by BARRED and removed by any other kind (R75). -/
def Reasons.taken (r : Reasons) (w : SpanWord) : Reasons :=
  { r with silent := false, far := match w with | .barred _ => true | _ => false }

/-- Update spare g's reasons for a taken word, if that changes them (R75). -/
def Turn.takeReasons (t : Turn) (g : Spare) (w : SpanWord) : Turn :=
  let r := (t.st.engine g).reasons
  if r = r.taken w then t else t.setReasons g (r.taken w)

/-- A PREPARING engine whose circuit has no class left has its grant revoked before it acts (R73 step 3). -/
def Turn.revokeIfGone (t : Turn) (g : Spare) : Turn :=
  match (t.st.engine g).state with
  | .preparing k => if t.st.effClass k = 0 then t.drop g k else t
  | _ => t

/-- Step 5 of R73: a FREE engine's standing far claim is offered for adoption, unless it has been in this event. -/
def Turn.offerStanding (t : Turn) (g : Spare) : Turn :=
  match t.st.farClaim g with
  | some (k, _) =>
    if (t.st.engine g).state = .free ∧ g ∉ t.offered then
      let t := t.offer g k
      match (t.st.record k).state with
      | .assigned _ => t
      | .releasing _ => t
      | _ => t.reactUnheld g k false
    else t
  | none => t

/-- A valid word of the other role is taken on spare g: the steps of R73 up to the grant pass. -/
def Turn.take (t : Turn) (g : Spare) (w : Half) (said : SpanWord) : Turn :=
  let t := t.change fun s => s.post (wordEvent .farWord g w)
  let t := t.changeFar g (some w) fun t => ((t.takeReasons g said).revokeIfGone g).act g said
  t.offerStanding g

/-! ## Delivery -/

/-- Loop confirmation: phase RUN, the test timer at the duration of the TEST command (R94). -/
def Turn.confirmLoop (t : Turn) (g : Spare) (d : Byte) : Turn :=
  t.enterEngine g (.testing .run) none (some (d.toNat * Config.per1s))

/-- The duration of a test in phase ASK (R94). -/
def EngineState.asking : EngineState → Option Byte
  | .testing (.ask d) => some d
  | _ => none

/-- A word is delivered to spare g's engine: invalid, an echo, the confirmation of a loop, or taken (R71 to R73, R94). -/
def Turn.deliver (t : Turn) (g : Spare) (w : Half) : Turn :=
  match spanWord w with
  | none => (t.change fun s => s.post (wordEvent .invalidWord g w)).changeFar g none id
  | some said =>
    if wordOrigin w = t.st.role then
      match said, (t.st.engine g).state.asking with
      | .loop, some d => t.changeFar g none fun t => t.confirmLoop g d
      | _, _ => (t.change fun s => s.post (wordEvent .echo g w)).changeFar g none id
    else t.take g w said

/-! ## Word qualifiers -/

/-- A qualifier whose run is broken (R146). -/
def Qualifier.broken (q : Qualifier) : Qualifier := { q with candidate := none, run := 0, settled := false }

/-- A qualifier that has received a word of correct parity in a good frame, before settling (R146). -/
def Qualifier.received (q : Qualifier) (w : Half) : Qualifier :=
  match q.candidate with
  | some c =>
    if sameWord c w then { q with run := min (q.run + 1) Config.runCap }
    else { q with candidate := some w, run := 1, settled := false }
  | none => { q with candidate := some w, run := 1, settled := false }

/-- Whether a candidate is settled now: not yet settled, its run at or above Q (R146). -/
def Qualifier.settles (q : Qualifier) (qCount : Byte) : Bool := !q.settled && qCount.toNat ≤ q.run

/-- The word a settling delivers: the candidate, where it differs from the current far word or that is NONE (R146). -/
def Qualifier.delivers (q : Qualifier) : Option Half :=
  match q.candidate, q.far with
  | some c, some f => if sameWord c f then none else some c
  | some c, none => some c
  | none, _ => none

/-- The qualifier of spare g acts on a good frame's word (R146). -/
def Turn.qualifyGood (t : Turn) (g : Spare) (w : Half) : Turn :=
  if !oddOnes w then t.change fun s => s.setQualifier g (s.qualifier g).broken
  else
    let q := (t.st.qualifier g).received w
    if q.settles t.st.regs.qCount then
      let t := t.change fun s => s.setQualifier g { q with settled := true }
      match q.delivers with
      | some c => t.deliver g c
      | none => t
    else t.change fun s => s.setQualifier g q

/-- The qualifier of spare g acts on an errored frame or on the monitor's departure from ALIGNED (R146). -/
def State.breakQualifier (s : State) (g : Spare) : State := s.setQualifier g (s.qualifier g).broken

end Sys2Proof.Machine
end

