-- ==== Sys2Proof/Machine/Conditions.lean ====
section
/-! DEFINITION. The condition unit (Chapter 9): raw-down, DOWN and IMPAIRED of each port, their timers, and where a change
goes. -/

namespace Sys2Proof.Machine

/-- A CONDITION event: the condition changed (0 DOWN, 1 IMPAIRED) and the flags after the change (R155, R158). -/
def conditionEvent (s : State) (p : Port) (which : Nat) : Event :=
  { kind := .condition, subject := subjectOf p, detail1 := byte which, detail2 := (s.condition p).flags }

/-- The condition unit writes cond_class of record k, which reacts with its grant pass (R2, R155).  Where an interval end
changes several ports, each change has its own pass (assumption 33). -/
def State.writeCondClass (s : State) (k : Circuit) (c : Nat) : State :=
  if (s.record k).condClass = c then s
  else (s.turn.sourceChange k fun r => { r with condClass := c }).settle s

/-- DOWN is declared on the port of spare g: the current far word becomes NONE and LINE is added, in one event (R63,
R147, R155). -/
def State.spareDown (s : State) (g : Spare) : State :=
  (s.turn.changeFar g none fun t => t.putReason g .line true).settle s

/-- DOWN is cleared on the port of spare g: LINE is removed (R63, R155). -/
def State.spareUp (s : State) (g : Spare) : State := (s.turn.putReason g .line false).settle s

/-- DOWN of port p is declared (yes) or cleared (no): CONDITION is posted and the change handed on (R155). -/
def State.setDown (s : State) (p : Port) (b : Bool) : State :=
  let s := s.setCondition p { s.condition p with down := b }
  let s := s.post (conditionEvent s p 0)
  match portUse p with
  | .working k => s.writeCondClass k (s.condition p).cls
  | .spare g => if b then s.spareDown g else s.spareUp g

/-- IMPAIRED of port p changes: CONDITION is posted, and a working port's cond_class written (R155). -/
def State.setImpaired (s : State) (p : Port) (b : Bool) : State :=
  let s := s.setCondition p { s.condition p with impaired := b }
  let s := s.post (conditionEvent s p 1)
  match portUse p with
  | .working k => s.writeCondClass k (s.condition p).cls
  | .spare _ => s

/-- Raw-down begins on port p: down seen becomes yes, and the onset delay starts or a running clear timer is removed
(R150, R151). -/
def State.rawDownBegins (s : State) (p : Port) : State :=
  let c := s.condition p
  if c.down then s.setCondition p { c with rawDown := true, downSeen := true, clearTimer := none }
  else
    let delay := (tabGet s.regs.onset p).toNat
    if delay = 0 then (s.setCondition p { c with rawDown := true, downSeen := true }).setDown p true
    else s.setCondition p { c with rawDown := true, downSeen := true, onsetTimer := some (delay * Config.per100ms) }

/-- Raw-down ends on port p: a running onset timer is removed, or the clear delay starts (R150, R152). -/
def State.rawDownEnds (s : State) (p : Port) : State :=
  let c := s.condition p
  if c.down then
    let delay := s.regs.clearDelay.toNat
    if delay = 0 then (s.setCondition p { c with rawDown := false }).setDown p false
    else s.setCondition p { c with rawDown := false, clearTimer := some (delay * Config.per10ms) }
  else s.setCondition p { c with rawDown := false, onsetTimer := none }

/-- The condition unit follows its two sources: raw-down begins or ends where they have changed it (R150). -/
def State.watch (s : State) (p : Port) : State :=
  let now := (s.monitor p).rawDown
  if now && !(s.condition p).rawDown then s.rawDownBegins p
  else if !now && (s.condition p).rawDown then s.rawDownEnds p
  else s

/-- IMPAIRED of a port after an interval with the given errored count (R154). -/
def Condition.impairedAfter (c : Condition) (errored : Nat) (setThr clearThr : Half) : Bool :=
  if c.downSeen then c.impaired
  else if c.impaired then decide (clearThr.toNat ≤ errored)
  else decide (setThr.toNat ≤ errored)

/-- What an interval end does for one port: IMPAIRED is evaluated on the count, the count restarts, and down seen becomes
yes where raw-down holds (R153). -/
def State.endInterval (s : State) (p : Port) : State :=
  let c := s.condition p
  let m := s.monitor p
  let after := c.impairedAfter m.errored s.regs.setThreshold s.regs.clearThreshold
  let s := (s.setMonitor p { m with errored := 0 }).setCondition p { c with downSeen := c.rawDown }
  if after = c.impaired then s else s.setImpaired p after

end Sys2Proof.Machine
end

