-- ==== Sys2Proof/Machine/Lines.lean ====
section
/-! DEFINITION. Frame monitors (section 8.2) and what the ports send and receive (section 8.3). -/

namespace Sys2Proof.Machine

/-! ## What the ports send (R141 to R143) -/

/-- The frame that spare g begins at a frame reference edge outside a loop: the bridged circuit's frame with the own word
in place and its check corrected, or a filler frame (R142). -/
def State.spareFrame (s : State) (g : Spare) (systemFrames : Vector Frame 10) : Frame :=
  let own := (s.ownWord g).getD 0
  match s.bridge g with
  | some k => replaceWord (tabGet systemFrames k) own
  | none => fillerFrame own

/-- How spare g goes on sending from a frame reference edge: the loop is entered after the frame in progress, through bytes
of all ones while the monitor is ALIGNED, and left for the new setting once the received frame has ended (R143).  That the
monitor is judged ALIGNED or not at this edge, and not when the loop was turned off, is the model's choice (assumption 23). -/
def State.modeAtEdge (s : State) (g : Spare) : SendMode :=
  let placed := (s.monitor (sparePort g)).isAligned
  match s.loopOn g, tabGet s.sendModes g with
  | true, .looping => .looping
  | true, .ones => if placed then .ones else .looping
  | true, .reference => if placed then .ones else .looping
  | true, .silent => if placed then .ones else .looping
  | false, .looping => if placed then .looping else .reference
  | false, .ones => .reference
  | false, .reference => .reference
  | false, .silent => .reference

/-- What a line port last sent, from a frame reference edge on: the frame it begins there, or in a loop what it last sent on
(R141, R142). -/
def State.lineAtEdge (s : State) (systemFrames : Vector Frame 10) (p : Port) : Option Carried :=
  match portUse p with
  | .working k => some (.frame (tabGet systemFrames k))
  | .spare g =>
    if s.modeAtEdge g = .reference then some (.frame (s.spareFrame g systemFrames)) else tabGet s.lineOut p

/-- The frames that begin on every line port at a frame reference edge (R135). -/
def State.beginFrames (s : State) (systemFrames : Vector Frame 10) : State :=
  { s with lineOut := Vector.ofFn fun p => s.lineAtEdge systemFrames p
           sendModes := Vector.ofFn fun g => s.modeAtEdge g }

/-- How spare g goes on sending where a received frame has ended or the first one begins: a loop that is off is left for bytes
of all ones, one that waits for a received frame begins with the next (R143; assumption 23). -/
def State.modeAfterFrame (s : State) (g : Spare) : SendMode :=
  match tabGet s.sendModes g, s.loopOn g with
  | .looping, false => .ones
  | .ones, true => .looping
  | mode, _ => mode

/-! ## What the received stream gives the ports (R143, R144) -/

/-- A frame as a system port receives it from a port: a spare's with its maintenance word cleared and its check corrected, a
working line's unchanged (R144). -/
def passedFrame (p : Port) (f : Frame) : Frame :=
  match portUse p with
  | .working _ => f
  | .spare _ => replaceWord f 0

/-- The first bits of a frame that is cut off before it is whole, as a system port receives them from a port: a working line's
unchanged, a spare's as passedFrame would have given them in their places, a correction of the check being the same whatever
follows (R135, R144). -/
def passedStart (p : Port) (l : List Bool) : List Bool :=
  match portUse p with
  | .working _ => l
  | .spare _ =>
    (frameBits (passedFrame p (frameOfBits l)) ++ l.drop (8 * Config.frameBytes)).take l.length

/-- The received stream of port p reaches the port itself, sent on unaltered while it loops, and the system ports fed from p;
its last bits are what a hunting monitor's next byte reaches back over (R137, R143, R144). -/
def State.carry (s : State) (p : Port) (received : List Bool) (looped passed : Carried) : State :=
  { s with
    recentBits := tabSet s.recentBits p (lastSeven (tabGet s.recentBits p ++ received))
    lineOut := match portUse p with
      | .working _ => s.lineOut
      | .spare g => if tabGet s.sendModes g = .looping then tabSet s.lineOut p (some looped) else s.lineOut
    systemOut := Vector.ofFn fun k =>
      if feedPort k (tabGet s.feeds k) = some p then some passed else tabGet s.systemOut k }

/-- A whole frame of port p reaches them (R143, R144). -/
def State.carryFrame (s : State) (p : Port) (f : Frame) : State :=
  s.carry p (byteBits (frameByte f 127)) (.frame f) (.frame (passedFrame p f))

/-- Bits that no monitor places reach them unchanged (R143, R144). -/
def State.carryBits (s : State) (p : Port) (l : List Bool) : State :=
  if l.isEmpty then s else s.carry p l (.bits l) (.bits l)

/-- The first bits of a frame that is cut off reach them (R139, R143, R144). -/
def State.carryStart (s : State) (p : Port) (l : List Bool) : State :=
  if l.isEmpty then s else s.carry p l (.bits l) (.bits (passedStart p l))

/-- Port p stands between two received frames, or where its first one begins: its crosspoint settings take effect, those that
the frame just ended has changed among them (R48, R143, R144). -/
def State.frameBoundary (s : State) (p : Port) : State :=
  let s := match portUse p with
    | .working _ => s
    | .spare g => { s with sendModes := tabSet s.sendModes g (s.modeAfterFrame g) }
  s.followFeeds (some p)

/-! ## Frame monitors -/

/-- A monitor in HUNTING, its position absent (R136). -/
def Monitor.hunt (m : Monitor) : Monitor := { m with state := .hunting, opening := false, miss := 0 }

/-- The neighbours act on a departure of monitor p from ALIGNED: the qualifier of a spare port, and the condition unit
(R140). -/
def State.departed (s : State) (p : Port) : State :=
  let s := match portUse p with
    | .working _ => s
    | .spare g => s.breakQualifier g
  s.watch p

/-- The test error count of spare g's engine grows by one in phase RUN, up to its cap (R97). -/
def State.countTestError (s : State) (g : Spare) : State :=
  let e := s.engine g
  match e.state with
  | .testing .run => s.setEngine g { e with errorCount := min (e.errorCount + 1) Config.testErrorCap }
  | _ => s

/-- A monitor after judging a frame: the miss count, the interval errored count up to its cap, and the position moved on.
The third confirmation has moved it past the first frame already (R136 to R138; assumption 9). -/
def Monitor.judged (m : Monitor) (position : Nat) (f : Frame) : Monitor :=
  { m with
    state := .aligned (if m.opening then position else position + Config.frameBytes)
    opening := false
    miss := if alignmentCorrect f then 0 else m.miss + 1
    errored := if frameGood f then m.errored else min (m.errored + 1) Config.intervalFrames }

/-- The neighbours of a spare port's monitor act on a judged frame (R140, R146): the qualifier, and in phase RUN the test
error count. -/
def State.judgedOnSpare (s : State) (g : Spare) (f : Frame) : State :=
  if frameGood f then (s.turn.qualifyGood g (frameWord f)).settle s
  else (s.breakQualifier g).countTestError g

/-- A whole frame received at the position of an ALIGNED monitor is judged (R138, R140).  It goes where the settings that it
began under take it; the neighbours act on it; and what they have set takes effect before the next frame (R48). -/
def State.judge (s : State) (p : Port) (position : Nat) (f : Frame) : State :=
  let s := (s.setMonitor p ((s.monitor p).judged position f)).carryFrame p f
  let s := match portUse p with
    | .working _ => s
    | .spare g => s.judgedOnSpare g f
  s.frameBoundary p

/-- The fourth consecutive mismatch takes an ALIGNED monitor to HUNTING at that byte (R138, R140), which no monitor places
(R144). -/
def State.loseAlignment (s : State) (p : Port) (b : Byte) : State :=
  ((s.setMonitor p (s.monitor p).hunt).carryBits p (byteBits b)).departed p

end Sys2Proof.Machine
end

