-- ==== Sys2Proof/Machine/Requests.lean ====
section
/-! DEFINITION. How a bus access and an internal event are taken (R163, R165, R170), and the request commands MOVE, FORCE,
CLEAR, BAR, UNBAR and RETURN (Chapter 1). -/

namespace Sys2Proof.Machine

/-! ## Taking an event -/

/-- A write access: taken whole, ready asserted, until the strobes are released (State.busStrobes); ignored while RESET is
asserted (R163). -/
def State.hostWrite (s : State) (f : State → State) : State :=
  let s := s.setBus { s.bus with ready := true }
  if s.inReset then s else f s

/-- A read access whose effects and value are given: the data lines then hold the value, ready asserted; while RESET is
asserted it reads 0 and does nothing (R163). -/
def State.hostRead (s : State) (f : State → State × Byte) : State :=
  if s.inReset then s.setBus { s.bus with ready := true, data := 0 }
  else
    let r := f s
    r.1.setBus { r.1.bus with ready := true, data := r.2 }

/-- An event inside the part: nothing happens while RESET holds every block at its reset values (R170). -/
def State.inService (s : State) (f : State → State) : State := if s.inReset then s else f s

/-- The state with the result register set (R165). -/
def State.withResult (s : State) (r : CommandResult) : State := s.setRegs { s.regs with result := r }

/-- A command: its code is stored in the command register and the command taken with all its consequences in the event of
the write (R165). -/
def State.hostCommand (s : State) (code : Byte) (body : State → State) : State :=
  s.hostWrite fun s => (body (s.setRegs { s.regs with command := code })).finish

/-- A command that takes a circuit: BAD_ARG and nothing changed for an argument above 9 (R18). -/
def State.withCircuit (s : State) (body : Circuit → State) : State :=
  match circuitArg s.regs.arg0 with
  | some k => body k
  | none => s.withResult .badArg

/-! ## The request commands -/

/-- MOVE k: sw_class becomes 1, unless a FORCE stands (R19). -/
def State.cmdMove (s : State) : State :=
  s.withCircuit fun k =>
    if (s.record k).swClass = 4 then s.withResult .lower
    else
      let s := s.withResult .done
      (s.turn.sourceChange k fun r => { r with swClass := 1 }).settle s

/-- FORCE k: sw_class becomes 4 (R19). -/
def State.cmdForce (s : State) : State :=
  s.withCircuit fun k =>
    let s := s.withResult .done
    (s.turn.sourceChange k fun r => { r with swClass := 4 }).settle s

/-- CLEAR k: sw_class becomes 0 and the decline hold is cleared (R19). -/
def State.cmdClear (s : State) : State :=
  s.withCircuit fun k =>
    let s := s.withResult .done
    (s.turn.sourceChange k fun r => { r with swClass := 0, declined := false }).settle s

/-- The record of circuit k is barred: a held circuit is dropped at once, another record takes the state of R6 (R20). -/
def Turn.bar (t : Turn) (k : Circuit) : Turn :=
  let t := t.change fun s => s.setRecord k { s.record k with barred := true }
  match (t.st.record k).state with
  | .assigned g => t.drop g k
  | .releasing g => t.drop g k
  | _ => t.reactUnheld 0 k false

/-- BAR k: STATE where already barred (R20). -/
def State.cmdBar (s : State) : State :=
  s.withCircuit fun k =>
    if (s.record k).barred then s.withResult .state
    else
      let s := s.withResult .done
      (s.turn.bar k).settle s

/-- The bar and the decline hold of circuit k are lifted: a PARKED record with a class becomes QUEUED (R21). -/
def Turn.unbar (t : Turn) (k : Circuit) : Turn :=
  let t := t.change fun s => s.setRecord k { s.record k with barred := false, declined := false }
  match (t.st.record k).state with
  | .assigned _ => t
  | .releasing _ => t
  | _ => t.reactUnheld 0 k false

/-- UNBAR k: DONE, and a grant pass in every case (R21). -/
def State.cmdUnbar (s : State) : State :=
  s.withCircuit fun k => ((s.withResult .done).turn.unbar k).settleWithPass

/-- The spare on which record k is class-0 held: ASSIGNED with eff_class 0, its engine CARRYING (R11, R15). -/
def State.classZeroHeld (s : State) (k : Circuit) : Option Spare :=
  match (s.record k).state with
  | .assigned g => if s.effClass k = 0 ∧ (s.engine g).state = .carrying k then some g else none
  | _ => none

/-- RETURN k: a class-0 held circuit starts its return; STATE in every other case (R15). -/
def State.cmdReturn (s : State) : State :=
  s.withCircuit fun k =>
    match s.classZeroHeld k with
    | some g =>
      let s := s.withResult .done
      (s.turn.enterReturning g k).settle s
    | none => s.withResult .state

/-! ## Meanings -/

/-- MOVE (R18, R19, R165). -/
def execMove (s : State) : Host.Outcome State Fault Refusal := .next (s.hostCommand 0x01 State.cmdMove)

/-- FORCE (R18, R19, R165). -/
def execForce (s : State) : Host.Outcome State Fault Refusal := .next (s.hostCommand 0x02 State.cmdForce)

/-- CLEAR (R18, R19, R165). -/
def execClear (s : State) : Host.Outcome State Fault Refusal := .next (s.hostCommand 0x03 State.cmdClear)

/-- BAR (R18, R20, R165). -/
def execBar (s : State) : Host.Outcome State Fault Refusal := .next (s.hostCommand 0x04 State.cmdBar)

/-- UNBAR (R18, R21, R165). -/
def execUnbar (s : State) : Host.Outcome State Fault Refusal := .next (s.hostCommand 0x05 State.cmdUnbar)

/-- RETURN (R15, R18, R165). -/
def execReturn (s : State) : Host.Outcome State Fault Refusal := .next (s.hostCommand 0x06 State.cmdReturn)

end Sys2Proof.Machine
end

