-- ==== Sys2Proof/Machine/Spares.lean ====
section
/-! DEFINITION. The spare commands SHUT, OPEN and CLEAR_FAULT (R60, R61), the test commands TEST and STOP_TEST (R92, R100),
RESTART (R22, R65) and the code that names no command (R165). -/

namespace Sys2Proof.Machine

/-- A command that takes a spare: BAD_ARG and nothing changed for an argument above 1 (R60, R100). -/
def State.withSpare (s : State) (body : Spare → State) : State :=
  match spareArg s.regs.arg0 with
  | some g => body g
  | none => s.withResult .badArg

/-- A command that adds or removes one reason: STATE where it is there already, or not there (R60). -/
def State.reasonCommand (s : State) (x : Reason) (b : Bool) : State :=
  s.withSpare fun g =>
    if (s.engine g).reasons.has x = b then s.withResult .state
    else
      let s := s.withResult .done
      (s.turn.putReason g x b).settle s

/-! ## Tests -/

/-- A spare may be tested while its far word is VACANT or NONE (R92). -/
def State.testable (s : State) (g : Spare) : Bool :=
  (s.engine g).state == .free && ((s.qualifier g).far.isNone || s.farSays g == some .vacant)

/-- The test of spare g starts, in phase ASK (R92). -/
def Turn.startTest (t : Turn) (g : Spare) (d : Byte) : Turn :=
  let t := t.change fun s => s.setEngine g { s.engine g with errorCount := 0, lastResult := .none }
  t.enterEngine g (.testing (.ask d)) t.st.answerStart none

/-- TEST s, d (R92). -/
def State.cmdTest (s : State) : State :=
  match spareArg s.regs.arg0 with
  | none => s.withResult .badArg
  | some g =>
    if s.regs.arg1 = 0 then s.withResult .badArg
    else if s.testable g then
      let s := s.withResult .done
      (s.turn.startTest g s.regs.arg1).settle s
    else s.withResult .state

/-- The test of spare g enters phase END with a pending result, its answer timer started (R98, R100). -/
def Turn.endPhase (t : Turn) (g : Spare) (pending : TestResult) : Turn :=
  t.enterEngine g (.testing (.ending pending)) t.st.answerStart none

/-- STOP_TEST s: a test in phase ASK or RUN enters END with ABORTED pending; STATE otherwise (R100). -/
def State.cmdStopTest (s : State) : State :=
  s.withSpare fun g =>
    let stop :=
      let s := s.withResult .done
      (s.turn.endPhase g .aborted).settle s
    match (s.engine g).state with
    | .testing (.ask _) => stop
    | .testing .run => stop
    | .testing (.ending _) => s.withResult .state
    | .free | .preparing _ | .bridged _ | .carrying _ | .returning _ | .unavailable | .looped => s.withResult .state

/-! ## RESTART -/

/-- A record as RESTART resets it, before its state is recomputed (R22). -/
def Record.restart (r : Record) : Record :=
  { r with swClass := 0, declined := false, returnTimer := none, returnKind := .condition }

/-- The reasons that RESTART leaves: OFF and SHUT as before, LINE where the spare's port is DOWN (R59, R65). -/
def Reasons.restart (r : Reasons) (down : Bool) : Reasons :=
  { r with line := down, silent := false, setup := false, far := false }

/-- Whether RESTART starts a rest transfer on spare g: its engine was holding a circuit, or a rest transfer is cancelled
(R65). -/
def State.restsAtRestart (s : State) (g : Spare) : Bool :=
  (s.engine g).state.circuit.isSome || ((s.transfer g).map (·.source)) == some .rest

/-- The engine record that RESTART leaves on spare g (R65): a test in progress is recorded ABORTED. -/
def State.restartedEngine (s : State) (g : Spare) : Engine :=
  let e := s.engine g
  let reasons := e.reasons.restart (s.condition (sparePort g)).down
  { e with
    state := if reasons.isEmpty then .free else .unavailable
    reasons := reasons
    answerTimer := none
    testTimer := none
    lastResult := match e.state with | .testing _ => .aborted | _ => e.lastResult }

/-- RESTART tears spare g's engine down and sets its transfer engine (R65, R118). -/
def State.restartEngine (s : State) (g : Spare) : State :=
  let rests := s.restsAtRestart g
  let s := (s.cancelTransfer g).setEngine g (s.restartedEngine g)
  if rests then s.startTransfer g .rest else s

/-- RESTART clears the qualifier of spare g, current far word and all (R147). -/
def State.restartQualifier (s : State) (g : Spare) : State := s.setQualifier g Qualifier.reset

/-- The state of record k recomputed from its class and bar (R22). -/
def State.recomputeRecord (s : State) (k : Circuit) : State :=
  s.setRecord k { s.record k with state := s.restingState k }

/-- The pending queue rebuilt: by class group, ascending circuit number within a group (R29). -/
def State.rebuiltQueue (s : State) : List Circuit :=
  (allCircuits.filter fun k => s.restingState k = .queued).foldl (fun q k => placeBack s.effClass k q) []

/-- The REQUEST events of RESTART: one for each record whose state or spare field differs, in circuit order (R22). -/
def restartRequests (before after : State) : List Event :=
  (allCircuits.filter fun k => (before.record k).state ≠ (after.record k).state).map (requestEvent after)

/-- The REASON, SPARE and TEST_RESULT events of RESTART for one engine (R65, R66, R103, R104). -/
def restartEngineEvents (before after : State) (g : Spare) : List Event :=
  let b := before.engine g
  let a := after.engine g
  reasonEvents g a.reasons allReasons b.reasons
    ++ (if b.state = a.state then [] else [spareEvent after g])
    ++ (match b.state with
      | .testing _ => [testResultEvent g .aborted b.errorCount]
      | .looped => [loopResultEvent g .aborted]
      | _ => [])

/-- The RESTARTED event (R158). -/
def restartedEvent : Event := { kind := .restarted, subject := 15, detail1 := 0, detail2 := 0 }

/-- What RESTART makes of records, engines, qualifiers and queue, before any event is posted (R22, R29, R65, R147). -/
def State.restarted (s : State) : State :=
  let s := allSpares.foldl State.restartQualifier s
  let s := allSpares.foldl State.restartEngine s
  let s := allCircuits.foldl (fun s k => s.setRecord k (s.record k).restart) s
  let s := s.setQueue s.rebuiltQueue
  allCircuits.foldl State.recomputeRecord s

/-- RESTART: the events of the teardown, RESTARTED, then a grant pass with its events (R22, R66). -/
def State.cmdRestart (s : State) : State :=
  let s := s.withResult .done
  let after := s.restarted
  let posted := after.postAll
    (restartRequests s after ++ restartEngineEvents s after 0 ++ restartEngineEvents s after 1 ++ [restartedEvent])
  posted.turn.settleWithPass

/-! ## Meanings -/

/-- SHUT (R60). -/
def execShut (s : State) : Host.Outcome State Fault Refusal :=
  .next (s.hostCommand 0x10 fun s => s.reasonCommand .shut true)

/-- OPEN (R60). -/
def execOpen (s : State) : Host.Outcome State Fault Refusal :=
  .next (s.hostCommand 0x11 fun s => s.reasonCommand .shut false)

/-- CLEAR_FAULT (R60, R61). -/
def execClearFault (s : State) : Host.Outcome State Fault Refusal :=
  .next (s.hostCommand 0x12 fun s => s.reasonCommand .setup false)

/-- TEST (R92). -/
def execTest (s : State) : Host.Outcome State Fault Refusal := .next (s.hostCommand 0x18 State.cmdTest)

/-- STOP_TEST (R100). -/
def execStopTest (s : State) : Host.Outcome State Fault Refusal := .next (s.hostCommand 0x19 State.cmdStopTest)

/-- RESTART (R22, R65, R118). -/
def execRestart (s : State) : Host.Outcome State Fault Refusal := .next (s.hostCommand 0x30 State.cmdRestart)

end Sys2Proof.Machine
end

