-- ==== Sys2Proof/Machine/Contexts.lean ====
section
/-! DEFINITION. Context writes and reads (section 6.1), RESYNC (R132), and the events of the line-side management port
(R122 to R131) with what they do to transfers (R113 to R116). -/

namespace Sys2Proof.Machine

/-! ## Context writes -/

/-- The spare whose engine is BRIDGED, CARRYING or RETURNING for circuit k (R107). -/
def State.bridgedOn (s : State) (k : Circuit) : Option Spare := allSpares.find? fun g => s.bridge g = some k

/-- The forward entries that a context write needs (R107). -/
def State.neededEntries (s : State) (p : Port) (i : WordIndex) (v : Half) : List ForwardEntry :=
  match portUse p with
  | .working k =>
    match s.bridgedOn k with
    | some g => [{ port := p, index := i, value := v }, { port := sparePort g, index := i, value := v }]
    | none => [{ port := p, index := i, value := v }]
  | .spare g =>
    if (s.engine g).state.circuit.isNone && (s.transfer g).isNone then [{ port := p, index := i, value := v }] else []

/-- The free places of the forward FIFO (R128). -/
def State.fifoFree (s : State) : Nat := Config.fifoPlaces - s.fifo.length

/-- An index put into a resend set, kept in ascending order with no duplicate (R108, R111). -/
def addResend (i : WordIndex) : List WordIndex → List WordIndex
  | [] => [i]
  | j :: rest => if i < j then i :: j :: rest else if i = j then j :: rest else j :: addResend i rest

/-- A running transfer of the context of port p takes index i into its resend set where it is below the cursor (R108,
R109). -/
def Transfer.written (g : Spare) (p : Port) (i : WordIndex) (t : Transfer) : Transfer :=
  if contextOf g t.source = p ∧ i.val < t.cursor then { t with resend := addResend i t.resend } else t

/-- A taken context write: the store, the forward entries and the resend sets (R108, R109). -/
def State.takeWrite (s : State) (p : Port) (i : WordIndex) (v : Half) : State :=
  { s with store := s.store.setWord p i v
           fifo := s.fifo ++ s.neededEntries p i v
           transfers := Vector.ofFn fun g => (s.transfer g).map (Transfer.written g p i) }

/-- An ACCESS_REFUSED event (R110, R158). -/
def accessRefusedEvent (p : Port) (i : WordIndex) : Event :=
  { kind := .accessRefused, subject := subjectOf p, detail1 := byte i.val, detail2 := 0 }

/-- A refused context write: the event and the sticky status, nothing else (R110, R169). -/
def State.refuseWrite (s : State) (p : Port) (i : WordIndex) : State :=
  (s.setRegs { s.regs with refusedWrite := true }).post (accessRefusedEvent p i)

/-- The context index register moved on, wrapping from 15 to 0 (R168). -/
def State.advanceIndex (s : State) : State := s.setRegs { s.regs with contextIndex := s.regs.contextIndex + 1 }

/-- A context write is committed: taken whole or refused whole, and the index register advanced (R106, R110, R168). -/
def State.commitWrite (s : State) (v : Half) : State :=
  let p := s.regs.contextPort
  let i := s.regs.contextIndex
  let s := if (s.neededEntries p i v).length ≤ s.fifoFree then s.takeWrite p i v else s.refuseWrite p i
  s.advanceIndex

/-- The context word that the port and index registers name (R168). -/
def State.selectedWord (s : State) : Half := s.contextWord s.regs.contextPort s.regs.contextIndex

/-! ## RESYNC -/

/-- The context that the unit on a port is meant to hold: its own, or that of the circuit that a spare's engine holds
(R132). -/
def State.meantContext (s : State) (p : Port) : Port :=
  match portUse p with
  | .working _ => p
  | .spare g =>
    match (s.engine g).state.circuit with
    | some k => workPort k
    | none => p

/-- The sixteen forward entries of a RESYNC, indices ascending, values as the store holds them (R132). -/
def State.resyncEntries (s : State) (p : Port) : List ForwardEntry :=
  allIndices.map fun i => { port := p, index := i, value := s.contextWord (s.meantContext p) i }

/-- RESYNC p (R132). -/
def State.cmdResync (s : State) : State :=
  match portArg s.regs.arg0 with
  | none => s.withResult .badArg
  | some p =>
    if s.fifoFree < 16 then s.withResult .noSpace
    else
      let s := { s with fifo := s.fifo ++ s.resyncEntries p }
      (s.setOutOfStep p false).withResult .done

/-! ## The end of a transaction -/

/-- A TRANSFER_DONE event (R119, R158). -/
def transferDoneEvent (g : Spare) (src : TransferSource) : Event :=
  { kind := .transferDone, subject := subjectOf (sparePort g), detail1 := byte src.code, detail2 := 0 }

/-- A TRANSFER_FAILED event (R119, R158). -/
def transferFailedEvent (g : Spare) (src : TransferSource) (i : WordIndex) : Event :=
  { kind := .transferFailed, subject := subjectOf (sparePort g), detail1 := byte src.code, detail2 := byte i.val }

/-- A WRITE_FAILED event (R130, R158). -/
def writeFailedEvent (p : Port) (i : WordIndex) : Event :=
  { kind := .writeFailed, subject := subjectOf p, detail1 := byte i.val, detail2 := 0 }

/-- The far end is seen to carry circuit k (R51). -/
def carriesWord (k : Circuit) : Option SpanWord → Bool
  | some (.carry j _) => j = k
  | _ => false

/-- A completed circuit transfer takes a PREPARING engine to CARRYING or BRIDGED, where the changed own word may call for
a contest; a completed rest transfer leaves the engine as it is (R51, R57, R83). -/
def Turn.transferCompleted (t : Turn) (g : Spare) (src : TransferSource) : Turn :=
  match src, (t.st.engine g).state with
  | .circuit k, .preparing j =>
    if k = j then
      if carriesWord k (t.st.farSays g) then t.enterEngine g (.carrying k) none none
      else (t.enterEngine g (.bridged k) t.st.answerStart none).contest g
    else t
  | _, _ => t

/-- A transfer completes: IDLE, TRANSFER_DONE, its port no longer out of step, and the completion handed to the engine
(R114, R131). -/
def State.completeTransfer (s : State) (g : Spare) (src : TransferSource) : State :=
  let s := ((s.setTransfer g none).setOutOfStep (sparePort g) false).post (transferDoneEvent g src)
  (s.turn.transferCompleted g src).settle s

/-- A transfer fails: IDLE, TRANSFER_FAILED, and SETUP added to the engine (R116, R52, R57). -/
def State.failTransfer (s : State) (g : Spare) (src : TransferSource) (i : WordIndex) : State :=
  let s := (s.setTransfer g none).post (transferFailedEvent g src i)
  (s.turn.putReason g .setup true).settle s

/-- The outcome of a transfer's own transaction: the transfer goes on, completes or fails (R114, R116). -/
def State.transferOutcome (s : State) (g : Spare) (i : WordIndex) (ack : Bool) : State :=
  match s.transfer g with
  | none => s
  | some t =>
    if !ack then s.failTransfer g t.source i
    else if t.cursor < 16 ∨ t.resend ≠ [] then s.setTransfer g (some { t with inFlight := none })
    else s.completeTransfer g t.source

/-- The outcome of a forward entry's transaction (R130). -/
def State.entryOutcome (s : State) (x : Transaction) (ack : Bool) : State :=
  if ack then s else (s.setOutOfStep x.port true).post (writeFailedEvent x.port x.index)

/-- A transaction ends: its record is cleared and its outcome handed to its source, discarded where abandoned (R127). -/
def State.handOver (s : State) (x : Transaction) (ack : Bool) : State :=
  let s := { s with transaction := none }
  match x.source with
  | .fifo => s.entryOutcome x ack
  | .transfer g => if x.abandoned then s else s.transferOutcome g x.index ack

/-- An attempt ends: an unacknowledged first attempt is followed at once by the second, at the LSP rate that then stands;
otherwise the transaction ends (R123, R133). -/
def State.attemptEnd (s : State) (ack : Bool) : State :=
  match s.transaction with
  | none => s
  | some x =>
    if !ack && !x.second then { s with transaction := some { x with second := true, rate := s.regs.lspRate } }
    else (s.handOver x ack).finish

/-! ## Meanings -/

/-- RESYNC (R132). -/
def execResync (s : State) : Host.Outcome State Fault Refusal := .next (s.hostCommand 0x20 State.cmdResync)

/-- LSP_TRANSACTION_START (R126): the choice of an idle port. -/
def execLspTransactionStart (s : State) : Host.Outcome State Fault Refusal := .next (s.inService State.servePort)

/-- LSP_ATTEMPT_END (R122, R123, R127). -/
def execLspAttemptEnd (turnaround1 turnaround2 acknowledge : Bool) (s : State) : Host.Outcome State Fault Refusal :=
  .next (s.inService fun s => s.attemptEnd (acknowledged turnaround1 turnaround2 acknowledge))

end Sys2Proof.Machine
end

