-- ==== Sys2Proof/Machine/Timers.lean ====
section
/-! DEFINITION. The passage of frame periods, the expiry of each timer (R13, R46, R98, R151, R152), the interval end
(R153), and the events of the received streams (R137 to R139). -/

namespace Sys2Proof.Machine

/-! ## Frame periods -/

/-- A running timer after one frame period (assumption 6). -/
def tick (t : Option Nat) : Option Nat := t.map fun n => n - 1

/-- A record after one frame period. -/
def Record.tick (r : Record) : Record := { r with returnTimer := Machine.tick r.returnTimer }

/-- An engine after one frame period. -/
def Engine.tick (e : Engine) : Engine :=
  { e with answerTimer := Machine.tick e.answerTimer, testTimer := Machine.tick e.testTimer }

/-- The condition fields of a port after one frame period. -/
def Condition.tick (c : Condition) : Condition :=
  { c with onsetTimer := Machine.tick c.onsetTimer, clearTimer := Machine.tick c.clearTimer }

/-- Every timer after one frame period (assumption 6). -/
def State.tickTimers (s : State) : State :=
  { s with records := s.records.map Record.tick
           engines := s.engines.map Engine.tick
           conditions := s.conditions.map Condition.tick
           intervalTimer := s.intervalTimer - 1 }

/-- A frame period that passes with the monitor of spare g out of ALIGNED counts against its test (R97, R140). -/
def State.countUnaligned (s : State) (g : Spare) : State :=
  if (s.monitor (sparePort g)).isAligned then s else s.countTestError g

/-- A frame reference edge: one frame period has passed, and a frame begins on every line port (R135, R140 to R143). -/
def State.referenceEdge (s : State) (systemFrames : Vector Frame 10) : State :=
  ((allSpares.foldl State.countUnaligned s.tickTimers).beginFrames systemFrames).finish

/-! ## Expiries -/

/-- A RETURN_UNANSWERED event (R55, R158). -/
def returnUnansweredEvent (g : Spare) (k : Circuit) : Event :=
  { kind := .returnUnanswered, subject := subjectOf (sparePort g), detail1 := byte k.val, detail2 := 0 }

/-- The answer timer of spare g's engine has expired: SILENT in BRIDGED (R58), the return completed unanswered in
RETURNING (R55), NO_LOOP in phase ASK (R96), the pending result recorded in phase END (R99). -/
def Turn.answerExpired (t : Turn) (g : Spare) : Turn :=
  match (t.st.engine g).state with
  | .bridged _ => t.putReason g .silent true
  | .returning k => (t.completeReturn g k).gatherLate (returnUnansweredEvent g k)
  | .testing (.ask _) => (t.endTest g .noLoop).becomeFree g
  | .testing (.ending r) => (t.endTest g r).becomeFree g
  | .testing .run | .free | .preparing _ | .carrying _ | .unavailable | .looped => t

/-- The answer timer of spare g's engine expires, if it runs; a stopped timer does not (R46). -/
def State.answerExpiry (s : State) (g : Spare) : State :=
  if (s.engine g).answerTimer.isSome then ((s.turn.answerExpired g).settle s).finish else s

/-- The return timer of record k has expired: its engine goes RETURNING, from CARRYING (R13), or from BRIDGED where it has
stepped back with the timer running (R54; assumption 15). -/
def Turn.returnExpired (t : Turn) (k : Circuit) : Turn :=
  match (t.st.record k).state with
  | .assigned g =>
    if (t.st.engine g).state = .carrying k ∨ (t.st.engine g).state = .bridged k then t.enterReturning g k else t
  | .quiet | .parked | .queued | .releasing _ => t

/-- The return timer of record k expires, if it runs (R13). -/
def State.returnExpiry (s : State) (k : Circuit) : State :=
  if (s.record k).returnTimer.isSome then ((s.turn.returnExpired k).settle s).finish else s

/-- The result that an error count gives against the test limit (R98). -/
def testVerdict (errors : Nat) (limit : Byte) : TestResult := if errors ≤ limit.toNat then .pass else .fail

/-- The test timer of spare g's engine expires in phase RUN, if it runs: phase END with PASS or FAIL pending (R98). -/
def State.testExpiry (s : State) (g : Spare) : State :=
  match (s.engine g).state, (s.engine g).testTimer with
  | .testing .run, some _ =>
    ((s.turn.endPhase g (testVerdict (s.engine g).errorCount s.regs.testLimit)).settle s).finish
  | _, _ => s

/-- The onset timer of port p expires, if it runs: DOWN is declared (R151). -/
def State.onsetExpiry (s : State) (p : Port) : State :=
  if (s.condition p).onsetTimer.isSome then
    ((s.setCondition p { s.condition p with onsetTimer := none }).setDown p true).finish
  else s

/-- The clear timer of port p expires, if it runs: DOWN is cleared (R152). -/
def State.clearExpiry (s : State) (p : Port) : State :=
  if (s.condition p).clearTimer.isSome then
    ((s.setCondition p { s.condition p with clearTimer := none }).setDown p false).finish
  else s

/-- The interval ends: every port in ascending order, and a new interval begins (R153).  Each port's change runs its own grant
pass before the next port's (R155), which is the model's choice between R155 and R31 with R32 (assumption 33). -/
def State.intervalEnds (s : State) : State :=
  ({ allPorts.foldl State.endInterval s with intervalTimer := Config.intervalFrames }).finish

/-! ## The received stream -/

/-- Whether the alignment word stands in the bits that port p receives: at one of their bit periods the last eight bits
received, some of which an earlier command may have brought, are that word (R137; assumption 34). -/
def State.findsAlignmentWord (s : State) (p : Port) (received : List Bool) : Bool :=
  holdsAlignmentWord (tabGet s.recentBits p ++ received)

/-- Bits reach a monitor that is not in ALIGNED, which places none of them, and pass under the settings that now stand (R143,
R144).  The alignment word among them takes a searching monitor in HUNTING to CHECKING (R137); bits behind the match, which
a well-formed command does not bring, are received in CHECKING.  In CHECKING they are bytes before the position, which are
not examined (R137).  In ALIGNED a frame is passed whole, or as far as it has come, by the command that ends it. -/
def State.receiveBits (s : State) (p : Port) (received : List Bool) : State :=
  let m := s.monitor p
  match m.state with
  | .hunting =>
    let found := s.findsAlignmentWord p received
    let s := s.carryBits p received
    if found ∧ m.signalLost = false then
      (s.setMonitor p { m with state := .checking Config.frameBytes, confirm := 0 }).finish
    else s
  | .checking _ => s.carryBits p received
  | .aligned _ => s

/-- Bytes reach a monitor in CHECKING, the last at its position: it confirms alignment, the third time entering ALIGNED, or
sends the monitor back to HUNTING (R137); entry into ALIGNED reaches the condition unit (R140).  None of the bytes is in a
placed frame but the third confirmation's word, which begins the first one (R144); a loop that waits for a received frame
begins with it, and one that is off has been left (R143; assumption 23). -/
def State.checkByte (s : State) (p : Port) (before : List Byte) (b : Byte) : State :=
  let m := s.monitor p
  match m.state with
  | .checking position =>
    if b = Config.alignmentWord then
      if m.confirm + 1 = Config.confirmations then
        ((((s.carryBits p (bytesBits before)).setMonitor p
          { m with state := .aligned (position + Config.frameBytes), opening := true, confirm := m.confirm + 1,
                   miss := 0 }).watch p).frameBoundary p).finish
      else
        ((s.carryBits p (bytesBits (before ++ [b]))).setMonitor p
          { m with state := .checking (position + Config.frameBytes), confirm := m.confirm + 1 }).finish
    else ((s.carryBits p (bytesBits (before ++ [b]))).setMonitor p { m with state := .hunting, confirm := 0 }).finish
  | .hunting | .aligned _ => s

/-- A whole frame has been received at the position of a monitor in ALIGNED.  Where its alignment word is the fourth
mismatch in a row, alignment was lost at that byte and the frame is not judged (R138). -/
def State.frameReceived (s : State) (p : Port) (f : Frame) : State :=
  let m := s.monitor p
  match m.state with
  | .aligned position =>
    if m.miss = Config.missCap ∧ alignmentCorrect f = false then (s.loseAlignment p (frameByte f 0)).finish
    else (s.judge p position f).finish
  | .hunting | .checking _ => s

/-- A mismatching byte at the position of a monitor in ALIGNED whose miss count is 3 loses alignment (R138); an earlier
mismatch is counted when its frame is judged. -/
def State.alignedByte (s : State) (p : Port) (b : Byte) : State :=
  let m := s.monitor p
  match m.state with
  | .aligned _ =>
    if m.miss = Config.missCap ∧ b ≠ Config.alignmentWord then (s.loseAlignment p b).finish else s
  | .hunting | .checking _ => s

/-- The level of a signal-lost input, a pin that RESET does not drive. -/
def State.setSignalLost (s : State) (p : Port) (b : Bool) : State :=
  s.setMonitor p { s.monitor p with signalLost := b }

/-- The bits of the frame that a monitor in ALIGNED is receiving, those given having come since the port's last command: the
third confirmation brought the first frame's alignment word (R137; assumption 9). -/
def Monitor.frameSoFar (m : Monitor) (before : List Bool) : List Bool :=
  if m.opening then alignmentBits ++ before else before

/-- Signal-lost of port p is asserted after the given bits, its monitor having searched them or not: the monitor goes from
CHECKING or ALIGNED to HUNTING at once, its counts 0 (R139), and raw-down begins where it did not hold (R150).  A search
that has found the alignment word among the bits had entered CHECKING (R137).  The bits of a frame partly received have been
passed as a frame's (R144). -/
def State.loseSignal (s : State) (p : Port) (searched : Bool) (before : List Bool) : State :=
  let m := s.monitor p
  let hunted : Monitor := { m with state := .hunting, opening := false, confirm := 0, miss := 0 }
  match m.state with
  | .aligned _ => (((s.carryStart p (m.frameSoFar before)).setMonitor p hunted).departed p).finish
  | .checking _ => (((s.carryBits p before).setMonitor p hunted).watch p).finish
  | .hunting =>
    let m := if searched ∧ s.findsAlignmentWord p before then hunted else m
    (((s.carryBits p before).setMonitor p m).watch p).finish

/-! ## Meanings -/

/-- FRAME_REFERENCE_EDGE (R135, R140 to R143). -/
def execFrameReferenceEdge (systemFrames : Vector Frame 10) (s : State) : Host.Outcome State Fault Refusal :=
  .next (s.inService fun s => s.referenceEdge systemFrames)

/-- ANSWER_TIMER_EXPIRY (R46, R55, R58, R96, R99). -/
def execAnswerTimerExpiry (g : Spare) (s : State) : Host.Outcome State Fault Refusal :=
  .next (s.inService fun s => s.answerExpiry g)

/-- RETURN_TIMER_EXPIRY (R13). -/
def execReturnTimerExpiry (k : Circuit) (s : State) : Host.Outcome State Fault Refusal :=
  .next (s.inService fun s => s.returnExpiry k)

/-- TEST_TIMER_EXPIRY (R98). -/
def execTestTimerExpiry (g : Spare) (s : State) : Host.Outcome State Fault Refusal :=
  .next (s.inService fun s => s.testExpiry g)

/-- ONSET_TIMER_EXPIRY (R151). -/
def execOnsetTimerExpiry (p : Port) (s : State) : Host.Outcome State Fault Refusal :=
  .next (s.inService fun s => s.onsetExpiry p)

/-- CLEAR_TIMER_EXPIRY (R152). -/
def execClearTimerExpiry (p : Port) (s : State) : Host.Outcome State Fault Refusal :=
  .next (s.inService fun s => s.clearExpiry p)

/-- INTERVAL_END (R153). -/
def execIntervalEnd (s : State) : Host.Outcome State Fault Refusal := .next (s.inService State.intervalEnds)

/-- HUNTING_MATCH (R137), and the bits that a port receives before another command changes where they go (R143, R144;
assumption 10). -/
def execHuntingMatch (p : Port) (received : List Bool) (s : State) (before : List Bool := []) :
    Host.Outcome State Fault Refusal :=
  .next (s.inService fun s => s.receiveBits p (before ++ received))

/-- CHECKING_ALIGNMENT_WORD (R137). -/
def execCheckingAlignmentWord (p : Port) (b : Byte) (s : State) (before : List Byte := []) :
    Host.Outcome State Fault Refusal :=
  .next (s.inService fun s => s.checkByte p before b)

/-- FRAME_JUDGED (R138, R140, R146). -/
def execFrameJudged (p : Port) (f : Frame) (s : State) : Host.Outcome State Fault Refusal :=
  .next (s.inService fun s => s.frameReceived p f)

/-- ALIGNMENT_LOST (R138). -/
def execAlignmentLost (p : Port) (b : Byte) (s : State) : Host.Outcome State Fault Refusal :=
  .next (s.inService fun s => s.alignedByte p b)

/-- SIGNAL_LOST_ASSERTED (R139): the level is the pin's, followed also while RESET is low; its effects wait for service. -/
def execSignalLostAsserted (p : Port) (s : State) (before : List Bool := []) : Host.Outcome State Fault Refusal :=
  .next ((s.setSignalLost p true).inService fun t => t.loseSignal p (!(s.monitor p).signalLost) before)

/-- SIGNAL_LOST_RELEASED (R139): the search begins with the next byte; the monitor stays in HUNTING. -/
def execSignalLostReleased (p : Port) (s : State) : Host.Outcome State Fault Refusal :=
  .next (s.setSignalLost p false)

end Sys2Proof.Machine
end

