-- ==== Sys2Proof/Machine/Window.lean ====
section
/-! DEFINITION. The register window (Chapter 11) and the event window (R161): what a read returns and does, and what a
write does, at every one of the 128 locations. -/

namespace Sys2Proof.Machine

/-! ## Views -/

/-- A remaining time in steps, rounded up, as a byte (R13, R46, R93).  A timer that is absent reads 0: R167 says so of the return
timer alone, and of the answer and test timers it is the model's choice (assumption 35). -/
def stepsLeft (per : Nat) (t : Option Nat) : Byte := byte (((t.getD 0) + per - 1) / per)

/-- Twelve flags as a bitmap, bit p for port p, bits 12 to 15 reading 0 (R167). -/
def bitmap (f : Port → Bool) : Half :=
  BitVec.ofNat 16 (allPorts.foldl (fun n p => n + bit (f p) * 2 ^ p.val) 0)

/-- The circuit view's flags byte (R171): barred, declined, return kind SOFTWARE, return timer running. -/
def Record.flags (r : Record) : Byte :=
  byte (bit r.barred + 2 * bit r.declined + 4 * bit (r.returnKind == .software) + 8 * bit r.returnTimer.isSome)

/-- The entry of the pending queue at the queue index, or 15 (R30). -/
def State.queueEntry (s : State) : Byte :=
  match s.queue[s.regs.queueIndex.val]? with
  | some k => byte k.val
  | none => 15

/-- The 16-bit quantity whose lower address is given (R164, R171). -/
def State.quantity (s : State) (a : Nat) : Option Half :=
  let g := s.regs.spareSelect
  match a with
  | 0x0A => some s.regs.setThreshold
  | 0x0C => some s.regs.clearThreshold
  | 0x0E => some s.regs.eventMask
  | 0x14 => some (bitmap fun p => tabGet s.outOfStep p)
  | 0x16 => some (bitmap fun p => (s.condition p).rawDown)
  | 0x18 => some (bitmap fun p => (s.condition p).down)
  | 0x1A => some (bitmap fun p => (s.condition p).impaired)
  | 0x47 => some (BitVec.ofNat 16 (s.engine g).errorCount)
  | 0x49 => some ((s.ownWord g).getD 0)
  | 0x4B => some ((s.qualifier g).far.getD 0)
  | 0x62 => some s.selectedWord
  | _ => none

/-- The upper addresses of the 16-bit quantities (R164, R171): a read there returns the read holding byte. -/
def upperAddresses : List Nat := [0x0B, 0x0D, 0x0F, 0x15, 0x17, 0x19, 0x1B, 0x48, 0x4A, 0x4C, 0x63]

/-- The transfer view's source byte: circuit, 10 REST, 15 IDLE (R171). -/
def sourceByte (t : Option Transfer) : Byte :=
  match t with
  | some x => byte x.source.code
  | none => 15

/-- The transfer view's in-flight byte: the index, or 255 for none (R171). -/
def inFlightByte (t : Option Transfer) : Byte :=
  match t.bind (·.inFlight) with
  | some i => byte i.val
  | none => 255

/-- The value of a byte-wide location (R171, Table 11-1); an unassigned location reads 0 (R163). -/
def State.location (s : State) (a : Nat) : Byte :=
  let r := s.regs
  let k := r.circuitSelect
  let e := s.engine r.spareSelect
  let t := s.transfer r.spareSelect
  match a with
  | 0x00 => r.command
  | 0x01 => r.arg0
  | 0x02 => r.arg1
  | 0x03 => r.result.code
  | 0x04 => r.protect
  | 0x05 => r.qCount
  | 0x06 => r.answerTimeout
  | 0x07 => r.returnDelay
  | 0x08 => r.clearDelay
  | 0x09 => r.testLimit
  | 0x10 => r.lspRate
  | 0x11 => match s.role with | .endA => 0 | .endB => 1
  | 0x12 => r.status
  | 0x13 => byte s.fifoFree
  | 0x1C => byte s.queue.length
  | 0x1D => byte r.queueIndex.val
  | 0x1E => s.queueEntry
  | 0x30 => byte k.val
  | 0x31 => byte (s.record k).condClass
  | 0x32 => byte (s.record k).swClass
  | 0x33 => byte (s.farClass k)
  | 0x34 => byte (s.localClass k)
  | 0x35 => byte (s.effClass k)
  | 0x36 => (s.record k).flags
  | 0x37 => (s.record k).state.byte
  | 0x38 => stepsLeft Config.per5s (s.record k).returnTimer
  | 0x40 => byte r.spareSelect.val
  | 0x41 => byte e.state.code
  | 0x42 => e.state.circuitByte
  | 0x43 => e.reasons.flags
  | 0x44 => byte e.lastResult.code
  | 0x45 => stepsLeft Config.per10ms e.answerTimer
  | 0x46 => stepsLeft Config.per1s e.testTimer
  | 0x4D => sourceByte t
  | 0x4E => byte ((t.map (·.cursor)).getD 0)
  | 0x4F => byte ((t.map (·.resend.length)).getD 0)
  | 0x50 => inFlightByte t
  | 0x60 => byte r.contextPort.val
  | 0x61 => byte r.contextIndex.val
  | 0x70 => s.window.sequence
  | 0x71 => s.window.kind
  | 0x72 => s.window.subject
  | 0x73 => s.window.detail1
  | 0x74 => s.window.detail2
  | a => if h : 0x20 ≤ a ∧ a < 0x2C then tabGet r.onset ⟨a - 0x20, by omega⟩ else 0

/-! ## The event window -/

/-- The window copy of a stored record, unconsumed (R161, R175). -/
def EventRecord.copy (r : EventRecord) : WindowCopy :=
  { sequence := r.sequence, kind := byte r.event.kind.code, subject := r.event.subject,
    detail1 := r.event.detail1, detail2 := r.event.detail2, consumed := false }

/-- Reading the kind byte makes the window copy: of the head record, or of the empty record (R161). -/
def State.copyHead (s : State) : State :=
  { s with window := match s.events.places with
      | r :: _ => r.copy
      | [] => WindowCopy.empty s.events.next }

/-- Reading the second detail byte of an unconsumed copy pops the head record and marks the copy consumed (R161). -/
def State.popEvent (s : State) : State :=
  if s.window.consumed then s
  else { s.setEvents s.events.pop with window := { s.window with consumed := true } }

/-! ## Reads -/

/-- A read of a location: what it does, and the value it returns (R163, R164, R168, R161). -/
def State.readAt (s : State) (a : Nat) : State × Byte :=
  match s.quantity a with
  | some v =>
    let s := s.setBus { s.bus with readHolding := upperByte v }
    (if a = 0x62 then s.advanceIndex else s, lowerByte v)
  | none =>
    if upperAddresses.contains a then (s, s.bus.readHolding)
    else if a = 0x71 then (s.copyHead, s.copyHead.window.kind)
    else if a = 0x74 then (s.popEvent, s.window.detail2)
    else (s, s.location a)

/-- A read access at an address (R163). -/
def State.busRead (s : State) (a : Address) : State := s.hostRead fun s => s.readAt a.toNat

/-! ## Writes -/

/-- The 16-bit value a write of a lower address commits: the written byte and the write holding byte (R164). -/
def State.committed (s : State) (low : Byte) : Half := joinBytes s.bus.writeHolding low

/-- A commit of the set threshold: held within 1 to 8000, and a clear threshold no longer below it lowered (R154). -/
def Registers.setSetThreshold (r : Registers) (v : Half) : Registers :=
  let v := clampHalf 1 8000 v
  { r with setThreshold := v, clearThreshold := if v ≤ r.clearThreshold then v - 1 else r.clearThreshold }

/-- A commit of the clear threshold, held below the set threshold (R154). -/
def Registers.setClearThreshold (r : Registers) (v : Half) : Registers :=
  { r with clearThreshold := if r.setThreshold ≤ v then r.setThreshold - 1 else v }

/-- The event mask as a commit stores it: the OVERRUN bit reads 1 (R166). -/
def storedMask (v : Half) : Half := v ||| 0x8000

/-- Two put-back records placed together: each at the front of its class group, the lower-numbered circuit first where
both are in one group (R27). -/
def Turn.placeTogether (t : Turn) (j k : Circuit) : Turn :=
  let front := fun (t : Turn) (c : Circuit) =>
    if (t.st.record c).state = .queued then t.change fun s => s.setQueue (s.requeue c true .front) else t
  if j < k then front (front t k) j else front (front t j) k

/-- Clearing the enable adds OFF to both engines, and the two records put back are placed together (R27, R62). -/
def Turn.disable (t : Turn) : Turn :=
  let held0 := (t.st.engine 0).state.circuit
  let held1 := (t.st.engine 1).state.circuit
  let t := (t.putReason 0 .off true).putReason 1 .off true
  match held0, held1 with
  | some j, some k => t.placeTogether j k
  | _, _ => t

/-- Setting the enable removes OFF from both engines (R62). -/
def Turn.enable (t : Turn) : Turn := (t.putReason 0 .off false).putReason 1 .off false

/-- A write of PROTECT: the three bits are stored, and a change of the enable acts on both engines, followed by one grant
pass (R62, R166).  The interrupt line follows by itself (R162). -/
def State.writeProtect (s : State) (v : Byte) : State :=
  let was := s.regs.enable
  let s := s.setRegs { s.regs with enable := v.getLsbD 0, hold := v.getLsbD 1, interruptEnable := v.getLsbD 2 }
  if v.getLsbD 0 = was then s
  else if v.getLsbD 0 then s.turn.enable.settleWithPass.finish
  else s.turn.disable.settleWithPass.finish

/-- A write of the status register clears each sticky bit written with a 1 (R169). -/
def Registers.clearStatus (r : Registers) (v : Byte) : Registers :=
  { r with refusedWrite := r.refusedWrite && !v.getLsbD 0, overrunSeen := r.overrunSeen && !v.getLsbD 1 }

/-- The command that a code names is taken (R165, R173); a code that names none leaves UNKNOWN. -/
def State.runCode (s : State) (code : Byte) : State :=
  match code.toNat with
  | 0x01 => s.cmdMove
  | 0x02 => s.cmdForce
  | 0x03 => s.cmdClear
  | 0x04 => s.cmdBar
  | 0x05 => s.cmdUnbar
  | 0x06 => s.cmdReturn
  | 0x10 => s.reasonCommand .shut true
  | 0x11 => s.reasonCommand .shut false
  | 0x12 => s.reasonCommand .setup false
  | 0x18 => s.cmdTest
  | 0x19 => s.cmdStopTest
  | 0x20 => s.cmdResync
  | 0x30 => s.cmdRestart
  | _ => s.withResult .unknown

/-- A write of a byte to the command register (R165). -/
def State.writeCommand (s : State) (code : Byte) : State :=
  ((s.setRegs { s.regs with command := code }).runCode code).finish

/-- A write of a register that holds its value within a range (R166 to R168). -/
def Registers.store (r : Registers) (a : Nat) (v : Byte) : Registers :=
  match a with
  | 0x01 => { r with arg0 := v }
  | 0x02 => { r with arg1 := v }
  | 0x05 => { r with qCount := clampByte 3 15 v }
  | 0x06 => { r with answerTimeout := clampByte 1 255 v }
  | 0x07 => { r with returnDelay := v }
  | 0x08 => { r with clearDelay := v }
  | 0x09 => { r with testLimit := v }
  | 0x10 => { r with lspRate := clampByte 0 3 v }
  | 0x1D => { r with queueIndex := clampIndex 15 v }
  | 0x30 => { r with circuitSelect := clampIndex 9 v }
  | 0x40 => { r with spareSelect := clampIndex 1 v }
  | 0x60 => { r with contextPort := clampIndex 11 v }
  | 0x61 => { r with contextIndex := clampIndex 15 v }
  | a => if h : 0x20 ≤ a ∧ a < 0x2C then { r with onset := tabSet r.onset ⟨a - 0x20, by omega⟩ (clampByte 0 100 v) }
         else r

/-- A write of a location: what it does at each address (R163, R164, R166, R171). -/
def State.writeAt (s : State) (a : Nat) (v : Byte) : State :=
  match a with
  | 0x00 => s.writeCommand v
  | 0x04 => s.writeProtect v
  | 0x0A => s.setRegs (s.regs.setSetThreshold (s.committed v))
  | 0x0C => s.setRegs (s.regs.setClearThreshold (s.committed v))
  | 0x0E => s.setRegs { s.regs with eventMask := storedMask (s.committed v) }
  | 0x12 => s.setRegs (s.regs.clearStatus v)
  | 0x62 => (s.commitWrite (s.committed v)).finish
  | 0x0B | 0x0D | 0x0F | 0x63 => s.setBus { s.bus with writeHolding := v }
  | a => s.setRegs (s.regs.store a v)

/-- A write access at an address (R163). -/
def State.busWrite (s : State) (a : Address) (v : Byte) : State := s.hostWrite fun s => s.writeAt a.toNat v

/-- The bus with its strobes at the given levels, an address and a byte on its lines (R163): chip select with one strobe is an
access; with both it is ignored, ready asserted in the usual way; without chip select or without a strobe the access is
over and ready is released (assumption 24). -/
def State.busStrobes (s : State) (a : Address) (v : Byte) (x : Strobes) : State :=
  match x.chipSelect, x.read, x.write with
  | true, false, true => s.busWrite a v
  | true, true, false => s.busRead a
  | true, true, true => s.setBus { s.bus with ready := true }
  | true, false, false => s.setBus { s.bus with ready := false }
  | false, _, _ => s.setBus { s.bus with ready := false }

/-! ## Meanings -/

/-- UNKNOWN_COMMAND (R165): the code written to the command register. -/
def execUnknownCommand (code : Byte) (s : State) : Host.Outcome State Fault Refusal := .next (s.busWrite 0x00 code)

/-- PROTECT_ENABLE_SET (R62): the byte written to PROTECT. -/
def execProtectEnableSet (v : Byte) (s : State) : Host.Outcome State Fault Refusal := .next (s.busWrite 0x04 v)

/-- PROTECT_ENABLE_CLEARED (R62): the byte written to PROTECT. -/
def execProtectEnableCleared (v : Byte) (s : State) : Host.Outcome State Fault Refusal := .next (s.busWrite 0x04 v)

/-- RETURN_MODE_WRITE (R13): the byte written to PROTECT. -/
def execReturnModeWrite (v : Byte) (s : State) : Host.Outcome State Fault Refusal := .next (s.busWrite 0x04 v)

/-- INTERRUPT_ENABLE_WRITE (R162): the byte written to PROTECT. -/
def execInterruptEnableWrite (v : Byte) (s : State) : Host.Outcome State Fault Refusal := .next (s.busWrite 0x04 v)

/-- SET_THRESHOLD_WRITE (R154). -/
def execSetThresholdWrite (low : Byte) (s : State) : Host.Outcome State Fault Refusal := .next (s.busWrite 0x0A low)

/-- CLEAR_THRESHOLD_WRITE (R154). -/
def execClearThresholdWrite (low : Byte) (s : State) : Host.Outcome State Fault Refusal :=
  .next (s.busWrite 0x0C low)

/-- STATUS_WRITE_ONE_TO_CLEAR (R169). -/
def execStatusWriteOneToClear (v : Byte) (s : State) : Host.Outcome State Fault Refusal := .next (s.busWrite 0x12 v)

/-- CONFIGURATION_WRITE (R163, R166 to R168). -/
def execConfigurationWrite (a : Address) (v : Byte) (s : State) (x : Strobes := .writing) :
    Host.Outcome State Fault Refusal :=
  .next (s.busStrobes a v x)

/-- WRITE_HOLDING_BYTE (R164). -/
def execWriteHoldingByte (a : Address) (v : Byte) (s : State) : Host.Outcome State Fault Refusal :=
  .next (s.busWrite a v)

/-- LOWER_ADDRESS_READ (R164). -/
def execLowerAddressRead (a : Address) (s : State) : Host.Outcome State Fault Refusal := .next (s.busRead a)

/-- CONTEXT_WRITE_COMMIT (R106 to R110, R168). -/
def execContextWriteCommit (low : Byte) (s : State) : Host.Outcome State Fault Refusal := .next (s.busWrite 0x62 low)

/-- CONTEXT_DATA_READ (R168). -/
def execContextDataRead (s : State) : Host.Outcome State Fault Refusal := .next (s.busRead 0x62)

/-- EVENT_KIND_READ (R161). -/
def execEventKindRead (s : State) : Host.Outcome State Fault Refusal := .next (s.busRead 0x71)

/-- EVENT_POP (R161). -/
def execEventPop (s : State) : Host.Outcome State Fault Refusal := .next (s.busRead 0x74)

end Sys2Proof.Machine
end

