-- ==== Sys2Proof/Machine/Reset.lean ====
section
/-! DEFINITION. The RESET pin and the ROLE strap (R170). -/

namespace Sys2Proof.Machine

/-- Assertion of RESET: every block at its pin-reset values, an LSP attempt ended at once (R123, R170).  The commands that
wait outside, and the levels of the signal-lost pins, are not the block's to reset (assumption 4). -/
def State.assertReset (s : State) : State :=
  { State.reset with
    pending := s.pending
    monitors := Vector.ofFn fun p => Monitor.reset (s.monitor p).signalLost }

/-- The release of RESET, in one event: ROLE is sampled, the interval timer starts, and raw-down begins on every port in
ascending order with its effects (R149, R170).  RESET that is not asserted cannot be released. -/
def State.releaseReset (s : State) (strap : Role) : State :=
  if s.inReset then
    (allPorts.foldl State.watch
      { s with inReset := false, role := strap, intervalTimer := Config.intervalFrames }).finish
  else s

/-- PIN_RESET (R170). -/
def execPinReset (s : State) : Host.Outcome State Fault Refusal := .next s.assertReset

/-- RESET_RELEASE (R149, R170). -/
def execResetRelease (strap : Role) (s : State) : Host.Outcome State Fault Refusal := .next (s.releaseReset strap)

end Sys2Proof.Machine
end

