-- ==== Sys2Proof/Machine/Dispatch.lean ====
section
/-! DEFINITION. One arm for each command: a direct call of its meaning. -/

namespace Sys2Proof.Machine

def exec (i : Instr) (s : State) : Host.Outcome State Fault Refusal :=
  match i with
  -- the request commands (Chapter 1)
  | .move => Sys2Proof.Machine.execMove s
  | .force => Sys2Proof.Machine.execForce s
  | .clear => Sys2Proof.Machine.execClear s
  | .bar => Sys2Proof.Machine.execBar s
  | .unbar => Sys2Proof.Machine.execUnbar s
  | .returnCircuit => Sys2Proof.Machine.execReturn s
  -- the spare and test commands, RESYNC, RESTART (Chapters 3, 5, 7)
  | .shut => Sys2Proof.Machine.execShut s
  | .openSpare => Sys2Proof.Machine.execOpen s
  | .clearFault => Sys2Proof.Machine.execClearFault s
  | .test => Sys2Proof.Machine.execTest s
  | .stopTest => Sys2Proof.Machine.execStopTest s
  | .resync => Sys2Proof.Machine.execResync s
  | .restart => Sys2Proof.Machine.execRestart s
  | .unknownCommand code => Sys2Proof.Machine.execUnknownCommand code s
  -- the register window (Chapters 10, 11)
  | .protectEnableSet value => Sys2Proof.Machine.execProtectEnableSet value s
  | .protectEnableCleared value => Sys2Proof.Machine.execProtectEnableCleared value s
  | .returnModeWrite value => Sys2Proof.Machine.execReturnModeWrite value s
  | .interruptEnableWrite value => Sys2Proof.Machine.execInterruptEnableWrite value s
  | .setThresholdWrite low => Sys2Proof.Machine.execSetThresholdWrite low s
  | .clearThresholdWrite low => Sys2Proof.Machine.execClearThresholdWrite low s
  | .statusWriteOneToClear value => Sys2Proof.Machine.execStatusWriteOneToClear value s
  | .configurationWrite address value strobes => Sys2Proof.Machine.execConfigurationWrite address value s strobes
  | .writeHoldingByte address value => Sys2Proof.Machine.execWriteHoldingByte address value s
  | .lowerAddressRead address => Sys2Proof.Machine.execLowerAddressRead address s
  | .contextWriteCommit low => Sys2Proof.Machine.execContextWriteCommit low s
  | .contextDataRead => Sys2Proof.Machine.execContextDataRead s
  | .eventKindRead => Sys2Proof.Machine.execEventKindRead s
  | .eventPop => Sys2Proof.Machine.execEventPop s
  -- pins and received streams (Chapters 8, 11)
  | .pinReset => Sys2Proof.Machine.execPinReset s
  | .resetRelease strap => Sys2Proof.Machine.execResetRelease strap s
  | .signalLostAsserted port before => Sys2Proof.Machine.execSignalLostAsserted port s before
  | .signalLostReleased port => Sys2Proof.Machine.execSignalLostReleased port s
  | .frameReferenceEdge systemFrames => Sys2Proof.Machine.execFrameReferenceEdge systemFrames s
  | .huntingMatch port received before => Sys2Proof.Machine.execHuntingMatch port received s before
  | .checkingAlignmentWord port received before => Sys2Proof.Machine.execCheckingAlignmentWord port received s before
  | .frameJudged port frame => Sys2Proof.Machine.execFrameJudged port frame s
  | .alignmentLost port received => Sys2Proof.Machine.execAlignmentLost port received s
  -- timers (Chapters 1, 3, 5, 9)
  | .answerTimerExpiry spare => Sys2Proof.Machine.execAnswerTimerExpiry spare s
  | .returnTimerExpiry circuit => Sys2Proof.Machine.execReturnTimerExpiry circuit s
  | .testTimerExpiry spare => Sys2Proof.Machine.execTestTimerExpiry spare s
  | .onsetTimerExpiry port => Sys2Proof.Machine.execOnsetTimerExpiry port s
  | .clearTimerExpiry port => Sys2Proof.Machine.execClearTimerExpiry port s
  | .intervalEnd => Sys2Proof.Machine.execIntervalEnd s
  -- the line-side management port (Chapter 7)
  | .lspTransactionStart => Sys2Proof.Machine.execLspTransactionStart s
  | .lspAttemptEnd turnaround1 turnaround2 acknowledge => Sys2Proof.Machine.execLspAttemptEnd turnaround1 turnaround2 acknowledge s

end Sys2Proof.Machine
end

