-- ==== Sys2Proof/Safety.lean ====
section
/-! DEFINITION. What the chapters say holds at all times: the invariants of the part, block by block, and a legal state.

Each predicate cites the rule whose sentence it states.  They are stated over every state, so a claim that a step keeps
them is about every legal state, not only those that a run reaches. -/

namespace Sys2Proof.Machine

/-! ## Reset and the end of an event -/

/-- While RESET is asserted every block holds its reset values (R170).  The waiting commands, the ready output (R163) and the
levels of the signal-lost inputs (assumption 4) are not the block's to hold. -/
def State.HeldInReset (s : State) : Prop :=
  s.inReset = true →
    s = { State.reset with
          pending := s.pending
          bus := { Bus.reset with ready := s.bus.ready }
          monitors := Vector.ofFn fun p => Monitor.reset (s.monitor p).signalLost }

/-- An idle port has no eligible offer standing (R126). -/
def State.PortServed (s : State) : Prop :=
  s.transaction = none → s.fifo = [] ∧ ∀ g : Spare, s.eligibleOffer g = none

/-- The monitor of the line that a feed of system port k names is ALIGNED: it places a frame in progress. -/
def State.FeedPlaced (s : State) (k : Circuit) (f : Feed) : Prop :=
  ∃ p, feedPort k f = some p ∧ (s.monitor p).isAligned = true

/-- System port k has its selected line, or the line being left to the end of a frame in progress, or bytes of all ones up to
the next frame of the new line (R144). -/
def State.FeedFollows (s : State) (k : Circuit) : Prop :=
  tabGet s.feeds k = s.selectedFeed k ∨ s.FeedPlaced k (tabGet s.feeds k)
    ∨ (tabGet s.feeds k = .ones ∧ s.FeedPlaced k (s.selectedFeed k))

/-- The last event has been taken whole: no eligible offer stands at an idle port, and no system port waits for its selected
line but for a frame in progress (R126, R144). -/
def State.EventOver (s : State) : Prop := s.PortServed ∧ ∀ k : Circuit, s.FeedFollows k

/-! ## Events (R157, R160) -/

/-- At most 31 ordinary records; the overflow place is used only while they are all full, its lost count 1 to 255. -/
def EventQueue.Bounded (q : EventQueue) : Prop :=
  q.places.length ≤ Config.eventPlaces ∧
    ∀ o ∈ q.overflow, q.places.length = Config.eventPlaces ∧ 1 ≤ o.lost ∧ o.lost ≤ Config.lostCap

/-! ## The forward FIFO, the context store, the registers -/

/-- The forward FIFO holds at most 16 entries (R128). -/
def State.FifoBounded (s : State) : Prop := s.fifo.length ≤ Config.fifoPlaces

/-- The context store is in its canonical form (assumption 5). -/
def State.StoreCanonical (s : State) : Prop := Memory.wf s.store = true

/-- Every configuration register is within its range, the clear threshold below the set threshold, and the OVERRUN bit of
the mask reads 1 (R154, R166). -/
def Registers.InRange (r : Registers) : Prop :=
  3 ≤ r.qCount.toNat ∧ r.qCount.toNat ≤ 15 ∧ 1 ≤ r.answerTimeout.toNat ∧ r.lspRate.toNat ≤ 3 ∧
    1 ≤ r.setThreshold.toNat ∧ r.setThreshold.toNat ≤ 8000 ∧ r.clearThreshold.toNat < r.setThreshold.toNat ∧
    r.eventMask.getLsbD 15 = true ∧ ∀ p : Port, (tabGet r.onset p).toNat ≤ 100

/-! ## Records, queue and engines -/

/-- The reason set is non-empty exactly when the engine is UNAVAILABLE (R45). -/
def State.ReasonsAgree (s : State) : Prop :=
  ∀ g : Spare, (s.engine g).reasons.isEmpty = false ↔ (s.engine g).state = .unavailable

/-- OFF stands on both engines exactly while protection is disabled (R62). -/
def State.OffAgrees (s : State) : Prop := ∀ g : Spare, (s.engine g).reasons.off = !s.regs.enable

/-- LINE stands on an engine exactly while its port is DOWN (R59, R63). -/
def State.LineAgrees (s : State) : Prop :=
  ∀ g : Spare, (s.engine g).reasons.line = (s.condition (sparePort g)).down

/-- Whether an engine state goes with a record that is ASSIGNED (yes) or RELEASING (no) for circuit k (R5). -/
def EngineState.holdsAs (e : EngineState) (k : Circuit) (assigned : Bool) : Bool :=
  match e with
  | .preparing j => j == k && assigned
  | .bridged j => j == k && assigned
  | .carrying j => j == k && assigned
  | .returning j => j == k && !assigned
  | _ => false

/-- Record k is ASSIGNED with spare g exactly when spare g's engine is PREPARING, BRIDGED or CARRYING for k, and RELEASING
with spare g exactly when it is RETURNING for k (R5). -/
def State.HoldingAgrees (s : State) : Prop :=
  ∀ (k : Circuit) (g : Spare),
    ((s.record k).state = .assigned g ↔ (s.engine g).state.holdsAs k true = true) ∧
    ((s.record k).state = .releasing g ↔ (s.engine g).state.holdsAs k false = true)

/-- A record that no engine holds is in the state of R6; a barred or declined record is not held (R5, R6). -/
def State.RestingAgrees (s : State) : Prop :=
  ∀ k : Circuit,
    match (s.record k).state with
    | .assigned _ => (s.record k).barred = false ∧ (s.record k).declined = false
    | .releasing _ => (s.record k).barred = false ∧ (s.record k).declined = false
    | r => r = s.restingState k

/-- The pending queue holds each circuit at most once, and circuit k exactly when record k is QUEUED; along it eff_class
never increases (R24). -/
def State.QueueAgrees (s : State) : Prop :=
  s.queue.Nodup ∧ (∀ k : Circuit, k ∈ s.queue ↔ (s.record k).state = .queued) ∧
    s.queue.Pairwise fun j k => s.effClass k ≤ s.effClass j

/-- The classes are those of R1: cond_class 0, 2 or 3, and sw_class 0, 1 or 4. -/
def State.ClassesInRange (s : State) : Prop :=
  ∀ k : Circuit, (s.record k).condClass ∈ [0, 2, 3] ∧ (s.record k).swClass ∈ [0, 1, 4]

/-- cond_class of record k is what the conditions of working port k give (R2). -/
def State.CondAgrees (s : State) : Prop :=
  ∀ k : Circuit, (s.record k).condClass = (s.condition (workPort k)).cls

/-- No circuit whose eff_class is 0 is prepared (R11, R53). -/
def State.ClassZeroAgrees (s : State) : Prop :=
  ∀ (g : Spare) (k : Circuit), (s.engine g).state = .preparing k → s.effClass k ≠ 0

/-- A return timer runs only on a record of class 0 whose engine carries the circuit (R11, R13, R14), or has stepped back from
carrying it (assumption 15). -/
def State.ReturnTimersAgree (s : State) : Prop :=
  ∀ k : Circuit, (s.record k).returnTimer ≠ none →
    s.effClass k = 0 ∧ ∃ g : Spare, (s.record k).state = .assigned g ∧
      ((s.engine g).state = .carrying k ∨ (s.engine g).state = .bridged k)

/-- An answer timer runs exactly in BRIDGED, RETURNING and test phases ASK and END (R46), a test timer exactly in phase
RUN (R44, R93). -/
def State.EngineTimersAgree (s : State) : Prop :=
  ∀ g : Spare,
    (s.engine g).answerTimer.isSome =
      (match (s.engine g).state with
        | .bridged _ => true
        | .returning _ => true
        | .testing (.ask _) => true
        | .testing (.ending _) => true
        | _ => false) ∧
    (s.engine g).testTimer.isSome = ((s.engine g).state == .testing .run)

/-- No far claim stands that a contest would still decide against this end, nor one of another circuit under CARRYING
(R79, R83). -/
def State.ContestsDecided (s : State) : Prop :=
  ∀ g : Spare,
    match (s.engine g).state, s.farClaim g with
    | .carrying k, some (j, _) => k = j
    | _, some far => ∀ own ∈ s.contestClaim g, own.1 = far.1 ∨ beforeClaim own far = true
    | _, none => True

/-! ## Transfers and the line-side management port -/

/-- A circuit transfer runs exactly in PREPARING, of the circuit prepared (R49, R51, R115). -/
def State.TransfersAgree (s : State) : Prop :=
  ∀ (g : Spare) (k : Circuit),
    (s.engine g).state = .preparing k ↔ (s.transfer g).map (·.source) = some (.circuit k)

/-- A rest transfer runs only while the engine holds no circuit (R57). -/
def State.RestsAgree (s : State) : Prop :=
  ∀ g : Spare, (s.transfer g).map (·.source) = some .rest → (s.engine g).state.circuit = none

/-- The cursor never exceeds 16, the resend set is ascending and below the cursor, and a transfer with its main pass
over has a word to send or in flight (R111, R114). -/
def Transfer.Bounded (t : Transfer) : Prop :=
  t.cursor ≤ 16 ∧ (∀ i ∈ t.resend, i.val < t.cursor) ∧ t.resend.Pairwise (· < ·) ∧
    (∀ i ∈ t.inFlight, i.val < t.cursor) ∧ (t.cursor = 16 → t.resend ≠ [] ∨ t.inFlight ≠ none)

/-- Every running transfer is bounded (R111). -/
def State.TransfersBounded (s : State) : Prop := ∀ g : Spare, ∀ t ∈ s.transfer g, t.Bounded

/-- The in-flight marker of a transfer engine is the index of the transaction that the port carries for it (R111, R115,
R124). -/
def State.InFlightAgrees (s : State) : Prop :=
  ∀ g : Spare,
    (s.transfer g).bind (·.inFlight) =
      match s.transaction with
      | some x => if x.source = .transfer g ∧ x.abandoned = false then some x.index else none
      | none => none

/-! ## Monitors, qualifiers, conditions -/

/-- Counts within their ranges (R136), a port with signal-lost asserted hunting (R139), and a first frame being received only
in ALIGNED (assumption 9). -/
def Monitor.Legal (m : Monitor) : Prop :=
  m.confirm ≤ 3 ∧ m.miss ≤ 3 ∧ m.errored ≤ Config.intervalFrames ∧ (m.signalLost = true → m.state = .hunting) ∧
    (∀ n, m.state = .checking n → m.confirm < 3) ∧ (m.opening = true → m.isAligned = true)

/-- The candidate is none exactly when the run is 0; the run stops at 15; an unsettled word is the only one a run of 0
leaves (R145). -/
def Qualifier.Legal (q : Qualifier) : Prop :=
  (q.candidate = none ↔ q.run = 0) ∧ q.run ≤ Config.runCap ∧ (q.run = 0 → q.settled = false)

/-- Raw-down is what its two sources give (R150); while RESET is asserted it is no (R149). -/
def State.RawDownAgrees (s : State) : Prop :=
  ∀ p : Port, (s.condition p).rawDown = (!s.inReset && (s.monitor p).rawDown)

/-- Down seen is yes while raw-down holds; an onset timer runs only while raw-down holds on a clear port, a clear timer
only while raw-down is absent on a DOWN port (R150, R153). -/
def Condition.Legal (c : Condition) : Prop :=
  (c.rawDown = true → c.downSeen = true) ∧ (c.onsetTimer ≠ none ↔ c.rawDown = true ∧ c.down = false) ∧
    (c.clearTimer ≠ none ↔ c.rawDown = false ∧ c.down = true)

/-- Of the bits received on a port, as many are kept as a byte at the next bit period can reach back over (R137). -/
def State.RecentBounded (s : State) : Prop := ∀ p : Port, (tabGet s.recentBits p).length ≤ 7

/-- What the monitors, the qualifiers and the condition unit keep together (R136, R137, R139, R145, R149, R150). -/
structure State.LinesLegal (s : State) : Prop where
  reset : s.HeldInReset
  monitors : ∀ p : Port, (s.monitor p).Legal
  qualifiers : ∀ g : Spare, (s.qualifier g).Legal
  conditions : ∀ p : Port, (s.condition p).Legal
  rawDown : s.RawDownAgrees
  recent : s.RecentBounded

/-- A current far word is a valid word of the far end's role (R71, R72, R73). -/
def State.FarWordsLegal (s : State) : Prop :=
  ∀ g : Spare, ∀ w ∈ (s.qualifier g).far, (spanWord w).isSome = true ∧ wordOrigin w ≠ s.role

/-! ## The datapath -/

/-- Each circuit is held by at most one spare, so no system port is selected onto two (R5, R47). -/
def State.OneSelector (s : State) : Prop :=
  ∀ k : Circuit, ¬ (s.selector 0 = some k ∧ s.selector 1 = some k)

/-- What holds of records, queue, engines and far words together: the agreement of Chapters 1 to 4. -/
structure State.Agreement (s : State) : Prop where
  reasons : s.ReasonsAgree
  holding : s.HoldingAgrees
  resting : s.RestingAgrees
  queue : s.QueueAgrees

/-- What holds of records, engines, conditions and far words beside their agreement: the classes, the standing reasons, the
timers and the contests (R1, R2, R11, R13, R46, R59, R62, R63, R83). -/
structure State.ProtocolLegal (s : State) : Prop where
  agreement : s.Agreement
  classes : s.ClassesInRange
  off : s.OffAgrees
  line : s.LineAgrees
  cond : s.CondAgrees
  classZero : s.ClassZeroAgrees
  returnTimers : s.ReturnTimersAgree
  engineTimers : s.EngineTimersAgree
  contests : s.ContestsDecided

/-- What holds of the transfer engines and the port beside the agreement of records and engines (R49, R57, R111, R115). -/
structure State.TransfersLegal (s : State) : Prop where
  agreement : s.Agreement
  circuits : s.TransfersAgree
  rests : s.RestsAgree
  bounded : s.TransfersBounded
  inFlight : s.InFlightAgrees

end Sys2Proof.Machine
end

