-- ==== Sys2Proof/WellFormed.lean ====
section
/-! DEFINITION. Which commands stand for the row they are named after.

A command's meaning is decided by its operands alone, so an ill-formed one still has the effect of the access or byte
it carries; it is only filed under the wrong row (a byte written to PROTECT with its enable bit 0, called
PROTECT_ENABLE_SET).  Assumption 2 says so. -/

namespace Sys2Proof

/-- The codes that name a command (R173, Table 11-3). -/
def commandCodes : List Byte := [0x01, 0x02, 0x03, 0x04, 0x05, 0x06, 0x10, 0x11, 0x12, 0x18, 0x19, 0x20, 0x30]

/-- The upper addresses of the 16-bit quantities that software may write (R164, R171): set threshold, clear
threshold, event mask, context data. -/
def writableUpper : List Address := [0x0B, 0x0D, 0x0F, 0x63]

/-- The lower addresses of the 16-bit quantities (R164, R171), context data apart: a read there is a row of its own. -/
def lowerAddresses : List Address :=
  [0x0A, 0x0C, 0x0E, 0x14, 0x16, 0x18, 0x1A, 0x47, 0x49, 0x4B]

/-- The addresses whose writes are rows of their own: COMMAND, PROTECT, SETTHR L, CLRTHR L, STATUS, CXDATA L. -/
def ownRowAddresses : List Address := [0x00, 0x04, 0x0A, 0x0C, 0x12, 0x62]

/-- Whether the given bits complete the alignment word as their last byte, some of it before them where they alone are fewer
than eight, and do so for the first time (R137). -/
def completesAlignmentWord (before received : List Bool) : Bool :=
  !received.isEmpty && (before.isEmpty || received.length == 8)
    && received == Machine.alignmentBits.drop (8 - received.length)
    && !Machine.holdsAlignmentWord (before ++ received).dropLast

/-- Whether a command is an instance of the row it is named after. -/
def Instr.wellFormed : Instr → Bool
  | .unknownCommand code => !commandCodes.contains code
  | .protectEnableSet value => value.getLsbD 0
  | .protectEnableCleared value => !value.getLsbD 0
  | .configurationWrite address _ strobes =>
      if strobes == .writing then !ownRowAddresses.contains address && !writableUpper.contains address
      else strobes != .reading
  | .writeHoldingByte address _ => writableUpper.contains address
  | .lowerAddressRead address => lowerAddresses.contains address
  | .huntingMatch _ received before => completesAlignmentWord before received
  | .checkingAlignmentWord _ _ before => decide (before.length < Config.frameBytes)
  | .alignmentLost _ received => received != Config.alignmentWord
  | .move | .force | .clear | .bar | .unbar | .returnCircuit | .shut | .openSpare | .clearFault | .test | .stopTest
  | .resync | .restart | .returnModeWrite _ | .interruptEnableWrite _ | .setThresholdWrite _
  | .clearThresholdWrite _ | .statusWriteOneToClear _ | .contextWriteCommit _ | .contextDataRead | .eventKindRead
  | .eventPop | .pinReset | .resetRelease _ | .signalLostAsserted _ _ | .signalLostReleased _ | .frameReferenceEdge _
  | .frameJudged _ _ | .answerTimerExpiry _ | .returnTimerExpiry _ | .testTimerExpiry _
  | .onsetTimerExpiry _ | .clearTimerExpiry _ | .intervalEnd | .lspTransactionStart | .lspAttemptEnd _ _ _ => true

end Sys2Proof
end

