-- ==== Sys2Proof/Certificates/Slice0/Obligations.lean ====
section
/-! DEFINITION. The statements for the provers.  Each is about exec, about step, or about an operation that the meanings
share; a statement of what a command does says that exec answers a next state and what that state holds.  Wherever a
remaining time appears it is in frame periods (assumption 6), and a monitor's position is numbered as assumption 9 says. -/

open Sys2Proof Sys2Proof.Machine

namespace Sys2Proof.Machine

/-! ## Words the statements are made of -/

/-- The registers with a command's code and its result (R165). -/
def Registers.answering (r : Registers) (code : Byte) (result : CommandResult) : Registers :=
  { r with command := code, result := result }

/-- The state after a command that is refused: its code, its result, ready asserted, and nothing else (R165). -/
def State.refusedWith (s : State) (code : Byte) (result : CommandResult) : State :=
  { s with bus := { s.bus with ready := true }, regs := s.regs.answering code result }

/-- The state after a write access that changes registers alone. -/
def State.withRegsWritten (s : State) (r : Registers) : State :=
  { s with bus := { s.bus with ready := true }, regs := r }

/-- The state after a read access that changes nothing but the data lines. -/
def State.showing (s : State) (value : Byte) : State :=
  { s with bus := { s.bus with ready := true, data := value } }

/-- What no reaction of records, engines and arbiter touches: ports, conditions, monitors, contexts, flags, the window, and
of the registers all but the sticky overrun-seen bit, which posting may set. -/
def State.SameSurroundings (s t : State) : Prop :=
  t.pending = s.pending ∧ t.inReset = s.inReset ∧ t.role = s.role ∧ t.store = s.store ∧ t.monitors = s.monitors
    ∧ t.recentBits = s.recentBits ∧ t.conditions = s.conditions ∧ t.intervalTimer = s.intervalTimer
    ∧ t.lineOut = s.lineOut ∧ t.sendModes = s.sendModes ∧ t.systemOut = s.systemOut ∧ t.window = s.window ∧ t.fifo <:+ s.fifo

/-- A command that is taken leaves, of the registers, its code and DONE, and perhaps the sticky overrun-seen bit. -/
def State.TookCommand (s t : State) (code : Byte) : Prop :=
  t.regs = { s.regs.answering code .done with overrunSeen := t.regs.overrunSeen }
    ∧ t.bus = { s.bus with ready := true }

/-- A forward entry's transaction as it starts (R126). -/
def ForwardEntry.started (e : ForwardEntry) (rate : Byte) : Transaction :=
  { source := .fifo, port := e.port, index := e.index, value := e.value, second := false, abandoned := false,
    rate := rate }

/-- The rotation TE0, TE1, FIFO, TE0, … after each source (R126). -/
def servingOrder : PortSource → List PortSource
  | .transfer 0 => [.transfer 1, .fifo, .transfer 0]
  | .transfer 1 => [.fifo, .transfer 0, .transfer 1]
  | .fifo => [.transfer 0, .transfer 1, .fifo]

/-- The index a transfer engine offers: the cursor's in the main pass, then the lowest index to resend, and none while a
word is in flight (R113). -/
def Transfer.offers (x : Transfer) (i : WordIndex) : Prop :=
  x.inFlight = none ∧ (x.cursor = i.val ∨ (16 ≤ x.cursor ∧ x.resend.head? = some i))

/-- Whether a source has an eligible offer (R125). -/
def State.hasOffer (s : State) : PortSource → Prop
  | .fifo => s.fifo ≠ []
  | .transfer g => (∀ e ∈ s.fifo, e.port ≠ sparePort g) ∧ ∃ x i, s.transfer g = some x ∧ x.offers i

/-- The 24 bits of an attempt as one number: port, index, value (R122). -/
def Transaction.payload (x : Transaction) : Nat := (x.port.val * 16 + x.index.val) * 65536 + x.value.toNat

/-- The 32 periods of an attempt: start marker low, 24 bits most significant first, odd parity over them, two turnaround
periods, the acknowledge period, three idle periods (R122). -/
def Transaction.periods (x : Transaction) : List LspPeriod :=
  let ones := ((List.range 24).filter fun i => x.payload.testBit i).length
  .drive false :: (List.range 24).map (fun i => .drive (x.payload.testBit (23 - i)))
    ++ [.drive (decide (ones % 2 = 0)), .turnaround, .turnaround, .acknowledge, .idle, .idle, .idle]

/-- An acknowledged attempt: released in both turnaround periods, asserted in the acknowledge period (R122). -/
def acknowledgedBy (turnaround1 turnaround2 acknowledge : Bool) : Prop :=
  turnaround1 = false ∧ turnaround2 = false ∧ acknowledge = true

/-- The window copy of the empty record (R161). -/
def emptyCopy (next : Byte) : WindowCopy :=
  { sequence := next, kind := 0, subject := 15, detail1 := 0, detail2 := 0, consumed := true }

/-- A maintenance word's five invalid cases (R71). -/
def InvalidWord (w : Half) : Prop :=
  let kind := w.toNat / 4096
  let circuit := w.toNat / 256 % 16
  let cls := w.toNat / 32 % 8
  let detail := w.toNat / 4 % 8
  kind = 0 ∨ 9 ≤ kind
    ∨ ((kind = 2 ∨ kind = 3 ∨ kind = 4 ∨ kind = 5) ∧ 9 < circuit)
    ∨ ((kind = 2 ∨ kind = 3) ∧ 4 < cls)
    ∨ (kind = 2 ∧ cls = 0)
    ∨ (kind = 6 ∧ 4 < detail)

/-- The fields of a maintenance word as Table 11-2 places them: kind 15 to 12, circuit 11 to 8, class 7 to 5, detail 4 to 2,
origin bit 1 (R172). -/
def wordFields (w : Half) : Nat × Nat × Nat × Nat × Nat :=
  (w.toNat / 4096, w.toNat / 256 % 16, w.toNat / 32 % 8, w.toNat / 4 % 8, w.toNat / 2 % 2)

/-- The bits of bytes in the order received: each byte most significant bit first (R137). -/
def onTheWire (l : List Byte) : List Bool :=
  l.flatMap fun b => [b.getLsbD 7, b.getLsbD 6, b.getLsbD 5, b.getLsbD 4, b.getLsbD 3, b.getLsbD 2, b.getLsbD 1, b.getLsbD 0]

/-- At one of the bit periods in which port p receives these bits, the last eight bits received are the alignment word 0xD3,
bits that an earlier command brought counting too (R137, R174; assumption 34). -/
def State.SeesAlignmentWord (s : State) (p : Port) (l : List Bool) : Prop :=
  ∃ n, 0 < n ∧ n ≤ l.length
    ∧ [true, true, false, true, false, false, true, true] <:+ tabGet s.recentBits p ++ l.take n

/-- The bits received so far of the frame that a monitor in ALIGNED is receiving: the third confirmation brought the first
frame's alignment word (R137, R139). -/
def Monitor.received (m : Monitor) (l : List Bool) : List Bool :=
  if m.opening then [true, true, false, true, false, false, true, true] ++ l else l

/-- The bytes over which a frame's check is computed, 0, 1, 2, 4, 5, …, 127, as one number (R135). -/
def checkedNumber (f : Frame) : Nat :=
  (f.toList.take 3 ++ f.toList.drop 4).foldl (fun n b => n * 256 + b.toNat) 0

/-- A frame as a spare passes it on: bytes 1 and 2 zero, the others but the check as received, a correct check correct and a
wrong one wrong (R144). -/
def PassedOn (f f' : Frame) : Prop :=
  tabGet f' 1 = 0 ∧ tabGet f' 2 = 0 ∧ (∀ i : Fin 128, i = 0 ∨ 4 ≤ i.val → tabGet f' i = tabGet f i)
    ∧ (tabGet f' 3 = frameCrc f' ↔ tabGet f 3 = frameCrc f)

/-- What a spare port sends on of its own received stream changes at the end of a received frame, or at the beginning of the
first one: a loop that is off goes over to bytes of all ones, one that waits begins (R143). -/
def switchedMode (mode : SendMode) (loop : Bool) : SendMode :=
  if mode = .looping ∧ loop = false then .ones else if mode = .ones ∧ loop = true then .looping else mode

/-- The count of ones in a word. -/
def onesOf (w : Half) : Nat := ((List.range 16).filter fun i => w.getLsbD i).length

/-- What a word says has its fields within their ranges (R68, R69). -/
def SpanWord.InRange : SpanWord → Prop
  | .claim _ c => 1 ≤ c ∧ c ≤ 4
  | .carry _ c => c ≤ 4
  | .barred d => d ≤ 4
  | _ => True

/-- The fields a word is sent with: kind, circuit, class and detail, zero where the kind does not use them (R68, R69). -/
def SpanWord.sentFields : SpanWord → Nat × Nat × Nat × Nat
  | .vacant => (1, 0, 0, 0)
  | .claim k c => (2, k.val, c, 0)
  | .carry k c => (3, k.val, c, 0)
  | .yield k => (4, k.val, 0, 0)
  | .decline k => (5, k.val, 0, 0)
  | .barred d => (6, 0, 0, d)
  | .loop => (7, 0, 0, 0)
  | .unloop => (8, 0, 0, 0)

/-- The state after a command starts a return that the far end has not yet answered (R54). -/
def State.Returning (s t : State) (g : Spare) (k : Circuit) : Prop :=
  t.engine g = { s.engine g with state := .returning k,
                                 answerTimer := some (s.regs.answerTimeout.toNat * 80), testTimer := none }
    ∧ t.record k = { s.record k with state := .releasing g, returnTimer := none }
    ∧ t.ownWord g = some ((SpanWord.yield k).encode s.role)

/-- The state after a return has completed in the same event: FREE, resting, the record QUIET (R55, R80). -/
def State.Returned (s t : State) (g : Spare) (k : Circuit) : Prop :=
  t.engine g = { s.engine g with state := .free, answerTimer := none, testTimer := none }
    ∧ t.record k = { s.record k with state := .quiet, returnTimer := none }
    ∧ (t.transfer g).map (·.source) = some .rest

/-- The records and the engine of the other spare are as they were. -/
def State.OthersAsBefore (s t : State) (g : Spare) (k : Circuit) : Prop :=
  (∀ j, j ≠ k → t.record j = s.record j) ∧ (∀ h, h ≠ g → t.engine h = s.engine h) ∧ t.queue = s.queue
    ∧ t.qualifiers = s.qualifiers ∧ t.outOfStep = s.outOfStep

/-- Circuit k before every entry of equal or lower class and behind every higher one (R27). -/
def placedFirst (cls : Circuit → Nat) (k : Circuit) (q : List Circuit) : List Circuit :=
  (q.filter fun j => cls k < cls j) ++ k :: q.filter fun j => cls j ≤ cls k

/-- Circuit k behind every other entry of equal or higher class and before every lower one (R25, R26). -/
def placedLast (cls : Circuit → Nat) (c : Nat) (k : Circuit) (q : List Circuit) : List Circuit :=
  (q.filter fun j => j ≠ k ∧ c ≤ cls j) ++ k :: q.filter fun j => j ≠ k ∧ cls j < c

/-- The circuits that the two engines hold, those with a class alone, in ascending order. -/
def State.heldWaiting (s : State) : List Circuit :=
  allCircuits.filter fun k =>
    s.effClass k ≠ 0 ∧ ((s.engine 0).state.circuit = some k ∨ (s.engine 1).state.circuit = some k)

/-- What the fall of eff_class of circuit k to 0 leaves, its record ASSIGNED with spare g; the first state is the one before,
its record with the new classes (R11, R12, R13, R53, R54). -/
def State.Fell (s t : State) (g : Spare) (k : Circuit) : Prop :=
  let returns := if s.farSays g = some .vacant ∨ s.farSays g = some (.yield k) then s.Returned t g k
    else s.Returning t g k
  let stays := fun timer : Option Nat =>
    t.engine g = s.engine g ∧ t.record k = { s.record k with returnTimer := timer }
  s.OthersAsBefore t g k
    ∧ ((s.engine g).state = .preparing k → s.Returned t g k)
    ∧ ((s.engine g).state = .bridged k → returns)
    ∧ ((s.engine g).state = .carrying k →
        ((s.record k).returnKind = .software → returns)
        ∧ ((s.record k).returnKind = .condition → s.regs.hold = true → stays (s.record k).returnTimer)
        ∧ ((s.record k).returnKind = .condition → s.regs.hold = false → s.regs.returnDelay = 0 → returns)
        ∧ ((s.record k).returnKind = .condition → s.regs.hold = false → s.regs.returnDelay ≠ 0 →
            stays (some (s.regs.returnDelay.toNat * 40000))))

/-- The state that RESTART leaves record k in before its grant pass (R22). -/
def State.restedState (s : State) (k : Circuit) : RequestState :=
  if (s.record k).condClass = 0 then .quiet else if (s.record k).barred then .parked else .queued

/-- The queue that RESTART rebuilds: class 3, then class 2, each in ascending circuit number (R29). -/
def State.restedQueue (s : State) : List Circuit :=
  (allCircuits.filter fun k => (s.record k).condClass = 3 ∧ (s.record k).barred = false)
    ++ allCircuits.filter fun k => (s.record k).condClass = 2 ∧ (s.record k).barred = false

/-- The reasons that RESTART leaves on spare g (R65). -/
def State.restedReasons (s : State) (g : Spare) : Reasons :=
  { off := (s.engine g).reasons.off, shut := (s.engine g).reasons.shut, line := (s.condition (sparePort g)).down,
    silent := false, setup := false, far := false }

/-- The grants of the pass that ends RESTART: its FREE spares and the queue, in order (R22, R65). -/
def State.restedGrants (s : State) : List (Spare × Circuit) :=
  (allSpares.filter fun g => (s.restedReasons g).flags = 0).zip s.restedQueue

/-- The events of RESTART at spare g: the reasons changed in their order, SPARE where the state changed, the result of a test
or of a loop (R66, R103, R104). -/
def State.restedEvents (s : State) (g : Spare) : List Event :=
  let e := s.engine g
  let usable : Bool := (s.restedReasons g).flags == 0
  let port := byte (10 + g.val)
  reasonEvents g (s.restedReasons g) [.off, .shut, .line, .silent, .setup, .far] e.reasons
    ++ (if e.state = (if usable then .free else .unavailable) then []
        else [{ kind := .spare, subject := port, detail1 := if usable then 0 else 5, detail2 := 0xFF }])
    ++ (match e.state with
      | .testing _ => [{ kind := .testResult, subject := port, detail1 := 5, detail2 := byte (min e.errorCount 255) }]
      | .looped => [{ kind := .testResult, subject := port, detail1 := 0x15, detail2 := 0 }]
      | _ => [])

/-- A turn took the word: it is the current far word, FAR_WORD is posted before every other event, SILENT is removed, and FAR
added by BARRED and removed by any other kind (R73, R75). -/
def State.TookWord (s : State) (u : Turn) (g : Spare) (w : Half) (said : SpanWord) : Prop :=
  u.st.qualifier g = { s.qualifier g with far := some w }
    ∧ u.st.events = (s.post { kind := .farWord, subject := byte (10 + g.val), detail1 := BitVec.ofNat 8 (w.toNat / 256),
                              detail2 := BitVec.ofNat 8 w.toNat }).events
    ∧ (u.st.engine g).reasons = { (s.engine g).reasons with
        silent := false, far := match said with | .barred _ => true | _ => false }

/-- A test of spare g ended with the given result in the given state, reported after every other event (R101, R104). -/
def State.TestEnded (s : State) (u : Turn) (g : Spare) (result : TestResult) : Prop :=
  (u.st.engine g).lastResult = result ∧ (u.st.engine g).answerTimer = none ∧ (u.st.engine g).testTimer = none
    ∧ (u.st.engine g).errorCount = (s.engine g).errorCount
    ∧ testResultEvent g result (s.engine g).errorCount ∈ u.late

/-- The engine of spare g has met the claim of circuit k: FREE, or PREPARING k by adoption, which follows where no spare holds
a circuit, k is not barred and a class is left (R38, R39). -/
def State.ClaimMet (s : State) (u : Turn) (g : Spare) (k : Circuit) : Prop :=
  ((u.st.engine g).state = .free ∨ (u.st.engine g).state = .preparing k)
    ∧ ((∀ h, (s.engine h).state.circuit = none) → (s.record k).barred = false → u.st.effClass k ≠ 0 →
        (u.st.engine g).state = .preparing k ∧ (u.st.record k).state = .assigned g)

/-- The engine of spare g has taken circuit h, in PREPARING with its circuit transfer at cursor 0; the record is ASSIGNED and
out of the queue; the other engine, the other records and the order of the queue are as they were (R36). -/
def Turn.Took (t t' : Turn) (g : Spare) (h : Circuit) : Prop :=
  (t'.st.engine g).state = .preparing h ∧ (t'.st.engine g).answerTimer = none ∧ (t'.st.engine g).testTimer = none
    ∧ (t'.st.engine g).lastResult = (match (t.st.engine g).state with
        | .testing _ => .overtaken
        | _ => (t.st.engine g).lastResult)
    ∧ t'.st.transfer g = some { source := .circuit h, cursor := 0, resend := [], inFlight := none }
    ∧ (t'.st.record h).state = .assigned g ∧ t'.st.queue = t.st.queue.filter (fun j => j ≠ h)
    ∧ (∀ j, j ≠ h → t'.st.record j = t.st.record j) ∧ ∀ i, i ≠ g → t'.st.engine i = t.st.engine i

end Sys2Proof.Machine

/-! ## The block -/

/-- A step takes the command at the front of the queue and is exec of it on the queue's rest.  On an empty queue the block
idles, which is the model's choice (assumption 7). -/
def Obligations.StepRunsFrontCommand : Prop :=
  (∀ (c : Instr) (rest : List Instr) (s : State),
    step { s with pending := c :: rest } = exec c { s with pending := rest })
  ∧ ∀ s : State, s.pending = [] → step s = .next s

/-- Every command answers a next state, and leaves the queue of waiting commands to the step.  The queue itself, and that a
pin reset leaves it as it is, are the model's choices (assumptions 3 and 4). -/
def Obligations.EveryCommandAnswersNext : Prop :=
  ∀ (c : Instr) (s : State), ∃ t, exec c s = .next t ∧ t.pending = s.pending

/-! ## Reset -/

/-- The values the chapters give for a pin reset: records, queue, engines, own words, transfers, contexts, FIFO, port,
flags, monitors, conditions, qualifiers, event queue, window copy, registers, holding bytes. -/
def Obligations.ResetValues : Prop :=
  let s := State.reset
  (∀ k : Circuit, s.record k = { condClass := 0, swClass := 0, barred := false, declined := false, state := .quiet,
                                 returnTimer := none, returnKind := .condition }
      ∧ s.farClass k = 0 ∧ s.localClass k = 0 ∧ s.effClass k = 0)
  ∧ s.queue = []
  ∧ (∀ g : Spare, (s.engine g).state = .unavailable ∧ (s.engine g).reasons.flags = 1
      ∧ (s.engine g).answerTimer = none ∧ (s.engine g).testTimer = none ∧ (s.engine g).errorCount = 0
      ∧ (s.engine g).lastResult = .none ∧ s.ownSays g = some (.barred 0) ∧ s.transfer g = none
      ∧ s.qualifier g = { candidate := none, run := 0, settled := false, far := none }
      ∧ s.bridge g = none ∧ s.selector g = none ∧ s.loopOn g = false)
  ∧ (∀ (p : Port) (i : WordIndex), s.contextWord p i = 0)
  ∧ s.fifo = [] ∧ s.fifoFree = 16 ∧ s.transaction = none ∧ s.rotation = .fifo
  ∧ (∀ p : Port, tabGet s.outOfStep p = false ∧ (s.monitor p).state = .hunting ∧ (s.monitor p).confirm = 0
      ∧ (s.monitor p).miss = 0 ∧ (s.monitor p).errored = 0
      ∧ s.condition p = { rawDown := false, down := false, impaired := false, onsetTimer := none, clearTimer := none,
                          downSeen := false }
      ∧ tabGet s.regs.onset p = 0)
  ∧ s.intervalTimer = 8000
  ∧ s.events = { places := [], overflow := none, next := 0 } ∧ s.window = emptyCopy 0 ∧ s.interrupt = false
  ∧ s.regs.command = 0 ∧ s.regs.arg0 = 0 ∧ s.regs.arg1 = 0 ∧ s.regs.result = .done ∧ s.regs.protect = 0
  ∧ s.regs.qCount = 5 ∧ s.regs.answerTimeout = 10 ∧ s.regs.returnDelay = 60 ∧ s.regs.clearDelay = 10
  ∧ s.regs.testLimit = 0 ∧ s.regs.setThreshold = 80 ∧ s.regs.clearThreshold = 8 ∧ s.regs.eventMask = 0xFFFF
  ∧ s.regs.lspRate = 0 ∧ s.regs.status = 0 ∧ s.regs.queueIndex = 0 ∧ s.regs.circuitSelect = 0
  ∧ s.regs.spareSelect = 0 ∧ s.regs.contextPort = 0 ∧ s.regs.contextIndex = 0
  ∧ s.bus.readHolding = 0 ∧ s.bus.writeHolding = 0

/-- The state after a pin reset meets every invariant that a statement below says each step keeps.  What it holds of pins and
bus that the manual gives no reset value is the model's choice (assumption 4). -/
def Obligations.ResetMeetsTheInvariants : Prop :=
  let s := State.reset
  s.HeldInReset ∧ s.EventOver ∧ s.events.Bounded ∧ s.FifoBounded ∧ s.StoreCanonical ∧ s.regs.InRange ∧ s.LinesLegal
    ∧ s.FarWordsLegal ∧ s.Agreement ∧ s.ProtocolLegal ∧ s.TransfersLegal

/-- RESET asserted takes every block to its reset values from any state.  The model's choices (assumption 4): the waiting
commands and the levels of the signal-lost pins are kept, and role, data lines and ready take the values of State.reset. -/
def Obligations.PinResetFromAnyState : Prop :=
  ∀ s : State, ∃ t, exec .pinReset s = .next t ∧ t.inReset = true ∧ t.pending = s.pending
    ∧ (∀ p : Port, t.monitor p = { (State.reset.monitor p) with signalLost := (s.monitor p).signalLost })
    ∧ { t with pending := [], monitors := State.reset.monitors } = State.reset

/-- The release of RESET: the role is sampled, the interval timer starts, and raw-down of every port is what its two sources
give.  From the reset state (assumption 3): DOWN is declared on every port in ascending order, records 0 to 9 join the
class-3 group in circuit order without a grant, both engines add LINE beside OFF, their own words staying BARRED(OFF).
While RESET is released, a release changes nothing, which is the model's choice (assumption 21). -/
def Obligations.ReleaseFromReset : Prop :=
  (∀ (s : State) (r : Role), s.inReset = true → ∃ t, exec (.resetRelease r) s = .next t ∧ t.inReset = false
    ∧ t.role = r ∧ t.intervalTimer = 8000 ∧ t.pending = s.pending ∧ t.monitors = s.monitors ∧ t.store = s.store
    ∧ ∀ p : Port, (t.condition p).rawDown = ((s.monitor p).signalLost || !(s.monitor p).isAligned))
  ∧ (∀ r : Role, ∃ t, exec (.resetRelease r) State.reset = .next t ∧ t.inReset = false ∧ t.role = r
    ∧ t.intervalTimer = 8000
    ∧ (∀ p : Port, (t.condition p).rawDown = true ∧ (t.condition p).down = true ∧ (t.condition p).downSeen = true)
    ∧ (∀ k : Circuit, (t.record k).condClass = 3 ∧ (t.record k).state = .queued)
    ∧ t.queue = [0, 1, 2, 3, 4, 5, 6, 7, 8, 9]
    ∧ (∀ g : Spare, (t.engine g).state = .unavailable ∧ (t.engine g).reasons.flags = 5
        ∧ t.ownSays g = some (.barred 0))
    ∧ t.events.places.map (fun e => (e.event.kind, e.event.subject))
        = ([0, 1, 2, 3, 4, 5, 6, 7, 8, 9] : List Byte).flatMap (fun p => [(.condition, p), (.request, p)])
          ++ [(.condition, 10), (.reason, 10), (.condition, 11), (.reason, 11)]
    ∧ t.interrupt = false)
  ∧ ∀ (s : State) (r : Role), s.inReset = false → exec (.resetRelease r) s = .next s

/-- While RESET is asserted, writes are ignored and reads return 0, ready being asserted, and no event inside the part has an
effect.  That CONFIGURATION_WRITE carries the strobes is the model's choice (assumption 24). -/
def Obligations.NothingHappensUnderReset : Prop :=
  ∀ s : State, s.inReset = true →
    (∀ (v : Byte) (a : Address), ∀ c ∈ ([.move, .force, .clear, .bar, .unbar, .returnCircuit, .shut, .openSpare,
        .clearFault, .test, .stopTest, .resync, .restart, .unknownCommand v, .protectEnableSet v,
        .protectEnableCleared v, .returnModeWrite v, .interruptEnableWrite v, .setThresholdWrite v,
        .clearThresholdWrite v, .statusWriteOneToClear v, .configurationWrite a v .writing,
        .configurationWrite a v .both, .writeHoldingByte a v, .contextWriteCommit v] : List Instr),
      exec c s = .next { s with bus := { s.bus with ready := true } })
    ∧ (∀ (a : Address) (v : Byte), ∀ c ∈ ([.lowerAddressRead a, .contextDataRead, .eventKindRead, .eventPop,
        .configurationWrite a v .reading] : List Instr),
      exec c s = .next (s.showing 0))
    ∧ ∀ (g : Spare) (k : Circuit) (p : Port) (d e : List Bool) (l : List Byte) (b : Byte) (f : Frame)
        (v : Vector Frame 10) (x y z : Bool),
      ∀ c ∈ ([.frameReferenceEdge v, .huntingMatch p d e, .checkingAlignmentWord p b l, .frameJudged p f,
        .alignmentLost p b, .answerTimerExpiry g, .returnTimerExpiry k, .testTimerExpiry g, .onsetTimerExpiry p,
        .clearTimerExpiry p, .intervalEnd, .lspTransactionStart, .lspAttemptEnd x y z] : List Instr),
      exec c s = .next s

/-! ## The register window -/

/-- A write of a byte-wide register stores the nearest value within its range; argument, select and index registers store
theirs; a write of the status register clears each sticky bit written with a 1; writes to unassigned and to read-only
locations are ignored; and nothing else changes.  A set threshold is held within 1 to 8000 and lowers a clear threshold that
is no longer below it; a clear threshold is held below the set threshold.  Chip select with both strobes is ignored, ready
asserted; ready is released with the strobes or with chip select.  That CONFIGURATION_WRITE brings these bus cases too is the
model's choice (assumption 24). -/
def Obligations.RegisterWrites : Prop :=
  ∀ (s : State) (v : Byte), s.inReset = false →
    let r := s.regs
    let stores := fun (a : Address) (r : Registers) =>
      exec (.configurationWrite a v .writing) s = .next (s.withRegsWritten r)
    stores 0x01 { r with arg0 := v } ∧ stores 0x02 { r with arg1 := v }
    ∧ stores 0x05 { r with qCount := byte (max 3 (min 15 v.toNat)) }
    ∧ stores 0x06 { r with answerTimeout := byte (max 1 v.toNat) }
    ∧ stores 0x07 { r with returnDelay := v } ∧ stores 0x08 { r with clearDelay := v }
    ∧ stores 0x09 { r with testLimit := v } ∧ stores 0x10 { r with lspRate := byte (min 3 v.toNat) }
    ∧ (∀ p : Port, stores (BitVec.ofNat 7 (0x20 + p.val))
        { r with onset := tabSet r.onset p (byte (min 100 v.toNat)) })
    ∧ stores 0x1D { r with queueIndex := Fin.ofNat 16 (min 15 v.toNat) }
    ∧ stores 0x30 { r with circuitSelect := Fin.ofNat 10 (min 9 v.toNat) }
    ∧ stores 0x40 { r with spareSelect := Fin.ofNat 2 (min 1 v.toNat) }
    ∧ stores 0x60 { r with contextPort := Fin.ofNat 12 (min 11 v.toNat) }
    ∧ stores 0x61 { r with contextIndex := Fin.ofNat 16 (min 15 v.toNat) }
    ∧ exec (.statusWriteOneToClear v) s = .next (s.withRegsWritten
        { r with refusedWrite := r.refusedWrite && !v.getLsbD 0, overrunSeen := r.overrunSeen && !v.getLsbD 1 })
    ∧ (∀ a : Address, a.toNat ∉ [0x00, 0x01, 0x02, 0x04, 0x05, 0x06, 0x07, 0x08, 0x09, 0x0A, 0x0B, 0x0C, 0x0D, 0x0E,
        0x0F, 0x10, 0x12, 0x1D, 0x30, 0x40, 0x60, 0x61, 0x62, 0x63] →
        ¬ (0x20 ≤ a.toNat ∧ a.toNat ≤ 0x2B) → stores a r)
    ∧ (r.InRange →
        let value := s.bus.writeHolding.toNat * 256 + v.toNat
        let set := max 1 (min 8000 value)
        exec (.setThresholdWrite v) s = .next (s.withRegsWritten
          { r with setThreshold := BitVec.ofNat 16 set,
                   clearThreshold := if set ≤ r.clearThreshold.toNat then BitVec.ofNat 16 (set - 1)
                                     else r.clearThreshold })
        ∧ exec (.clearThresholdWrite v) s = .next (s.withRegsWritten
          { r with clearThreshold :=
              BitVec.ofNat 16 (if r.setThreshold.toNat ≤ value then r.setThreshold.toNat - 1 else value) }))
    ∧ (∀ a : Address, exec (.configurationWrite a v .both) s = .next { s with bus := { s.bus with ready := true } })
    ∧ ∀ (a : Address) (x : Strobes), x.chipSelect = false ∨ (x.read = false ∧ x.write = false) →
        exec (.configurationWrite a v x) s = .next { s with bus := { s.bus with ready := false } }

/-- The 16-bit quantities and the holding bytes: a read of the lower address returns bits 7 to 0 and holds bits 15 to 8, a
read of the upper address returns the byte held, a write of a writable upper address holds the byte, and the event mask is
committed of both with its OVERRUN bit reading 1.  That the read of an upper address is LOWER_ADDRESS_READ at its address is
the model's choice (assumption 28). -/
def Obligations.SixteenBitQuantities : Prop :=
  (∀ s : State, ∀ a ∈ ([0x0A, 0x0C, 0x0E, 0x14, 0x16, 0x18, 0x1A, 0x47, 0x49, 0x4B] : List Address),
    s.inReset = false → ∃ q : Half, s.quantity a.toNat = some q ∧ exec (.lowerAddressRead a) s = .next
      { s with bus := { s.bus with ready := true, data := BitVec.ofNat 8 q.toNat,
                                   readHolding := BitVec.ofNat 8 (q.toNat / 256) } })
  ∧ (∀ s : State, ∀ a ∈ ([0x0B, 0x0D, 0x0F, 0x15, 0x17, 0x19, 0x1B, 0x48, 0x4A, 0x4C, 0x63] : List Address),
    s.inReset = false → exec (.lowerAddressRead a) s = .next (s.showing s.bus.readHolding))
  ∧ (∀ (s : State) (v : Byte), ∀ a ∈ ([0x0B, 0x0D, 0x0F, 0x63] : List Address), s.inReset = false →
    exec (.writeHoldingByte a v) s = .next { s with bus := { s.bus with ready := true, writeHolding := v } })
  ∧ ∀ (s : State) (low : Byte), s.inReset = false → exec (.configurationWrite 0x0E low .writing) s = .next
      (s.withRegsWritten { s.regs with
        eventMask := BitVec.ofNat 16 (s.bus.writeHolding.toNat * 256 + low.toNat) ||| 0x8000 })

/-- The views: each bitmap shows bit p for port p, bits 12 to 15 reading 0; the other 16-bit quantities show their registers
and fields; a read of a byte-wide location returns the state as it stands and changes nothing, an unassigned location
reading 0.  A plain read of such a location has no row of its own; that it is LOWER_ADDRESS_READ at its address is the
model's choice (assumption 28), and so is that an answer or test timer that is absent reads 0 (assumption 35). -/
def Obligations.ViewsShowTheState : Prop :=
  (∀ s : State,
    let shows := fun (a : Nat) (f : Port → Bool) => ∃ q : Half, s.quantity a = some q ∧
      (∀ p : Port, q.getLsbD p.val = f p) ∧ ∀ i, 12 ≤ i → q.getLsbD i = false
    shows 0x14 (fun p => tabGet s.outOfStep p) ∧ shows 0x16 (fun p => (s.condition p).rawDown)
    ∧ shows 0x18 (fun p => (s.condition p).down) ∧ shows 0x1A (fun p => (s.condition p).impaired)
    ∧ s.quantity 0x0A = some s.regs.setThreshold ∧ s.quantity 0x0C = some s.regs.clearThreshold
    ∧ s.quantity 0x0E = some s.regs.eventMask
    ∧ s.quantity 0x47 = some (BitVec.ofNat 16 (s.engine s.regs.spareSelect).errorCount)
    ∧ s.quantity 0x49 = some ((s.ownWord s.regs.spareSelect).getD 0)
    ∧ s.quantity 0x4B = some ((s.qualifier s.regs.spareSelect).far.getD 0)
    ∧ s.quantity 0x62 = some (s.contextWord s.regs.contextPort s.regs.contextIndex))
  ∧ ∀ s : State, s.inReset = false →
    let k := s.regs.circuitSelect
    let r := s.record k
    let e := s.engine s.regs.spareSelect
    let x := s.transfer s.regs.spareSelect
    let reads := fun (a : Address) (v : Byte) => exec (.lowerAddressRead a) s = .next (s.showing v)
    reads 0x00 s.regs.command ∧ reads 0x01 s.regs.arg0 ∧ reads 0x02 s.regs.arg1 ∧ reads 0x03 s.regs.result.code
    ∧ reads 0x04 (byte (s.regs.enable.toNat + 2 * s.regs.hold.toNat + 4 * s.regs.interruptEnable.toNat))
    ∧ reads 0x05 s.regs.qCount ∧ reads 0x06 s.regs.answerTimeout ∧ reads 0x07 s.regs.returnDelay
    ∧ reads 0x08 s.regs.clearDelay ∧ reads 0x09 s.regs.testLimit ∧ reads 0x10 s.regs.lspRate
    ∧ reads 0x11 (match s.role with | .endA => 0 | .endB => 1)
    ∧ reads 0x12 (byte (s.regs.refusedWrite.toNat + 2 * s.regs.overrunSeen.toNat))
    ∧ reads 0x13 (byte (16 - s.fifo.length))
    ∧ reads 0x1C (byte s.queue.length) ∧ reads 0x1D (byte s.regs.queueIndex.val)
    ∧ reads 0x1E (match s.queue[s.regs.queueIndex.val]? with | some j => byte j.val | none => 15)
    ∧ (∀ p : Port, reads (BitVec.ofNat 7 (0x20 + p.val)) (tabGet s.regs.onset p))
    ∧ reads 0x30 (byte k.val)
    ∧ reads 0x31 (byte r.condClass) ∧ reads 0x32 (byte r.swClass) ∧ reads 0x33 (byte (s.farClass k))
    ∧ reads 0x34 (byte (max r.condClass r.swClass))
    ∧ reads 0x35 (byte (max (max r.condClass r.swClass) (s.farClass k)))
    ∧ reads 0x36 (byte (r.barred.toNat + 2 * r.declined.toNat + 4 * (r.returnKind == .software).toNat
        + 8 * r.returnTimer.isSome.toNat))
    ∧ reads 0x37 (match r.state with
        | .quiet => 0x0F | .parked => 0x1F | .queued => 0x2F
        | .assigned g => byte (0x30 + g.val) | .releasing g => byte (0x40 + g.val))
    ∧ reads 0x38 (match r.returnTimer with | some n => byte ((n + 39999) / 40000) | none => 0)
    ∧ reads 0x40 (byte s.regs.spareSelect.val)
    ∧ reads 0x41 (match e.state with
        | .free => 0 | .preparing _ => 1 | .bridged _ => 2 | .carrying _ => 3 | .returning _ => 4
        | .unavailable => 5 | .testing _ => 6 | .looped => 7)
    ∧ reads 0x42 (match e.state with
        | .preparing j => byte (16 * j.val + 15) | .bridged j => byte (16 * j.val + 15)
        | .carrying j => byte (16 * j.val + 15) | .returning j => byte (16 * j.val + 15)
        | .testing (.ask _) => 0xF0 | .testing .run => 0xF1 | .testing (.ending _) => 0xF2
        | .free => 0xFF | .unavailable => 0xFF | .looped => 0xFF)
    ∧ reads 0x43 (byte (e.reasons.off.toNat + 2 * e.reasons.shut.toNat + 4 * e.reasons.line.toNat
        + 8 * e.reasons.silent.toNat + 16 * e.reasons.setup.toNat + 32 * e.reasons.far.toNat))
    ∧ reads 0x44 (match e.lastResult with
        | .none => 0 | .pass => 1 | .fail => 2 | .noLoop => 3 | .overtaken => 4 | .aborted => 5)
    ∧ reads 0x45 (match e.answerTimer with | some n => byte ((n + 79) / 80) | none => 0)
    ∧ reads 0x46 (match e.testTimer with | some n => byte ((n + 7999) / 8000) | none => 0)
    ∧ reads 0x4D (match x with
        | some y => (match y.source with | .circuit j => byte j.val | .rest => 10)
        | none => 15)
    ∧ reads 0x4E (match x with | some y => byte y.cursor | none => 0)
    ∧ reads 0x4F (match x with | some y => byte y.resend.length | none => 0)
    ∧ reads 0x50 (match x.bind (·.inFlight) with | some i => byte i.val | none => 255)
    ∧ reads 0x60 (byte s.regs.contextPort.val) ∧ reads 0x61 (byte s.regs.contextIndex.val)
    ∧ ∀ a : Address, (a.toNat = 0x1F ∨ (0x2C ≤ a.toNat ∧ a.toNat ≤ 0x2F) ∨ (0x39 ≤ a.toNat ∧ a.toNat ≤ 0x3F)
        ∨ (0x51 ≤ a.toNat ∧ a.toNat ≤ 0x5F) ∨ (0x64 ≤ a.toNat ∧ a.toNat ≤ 0x6F) ∨ 0x75 ≤ a.toNat) → reads a 0

/-! ## PROTECT -/

/-- A PROTECT write that leaves the enable as it is stores the return mode and the interrupt enable and tears nothing down;
the interrupt line follows the new enable.  Each PROTECT row carries the whole byte written (assumption 22). -/
def Obligations.ProtectWritesKeepingTheEnable : Prop :=
  ∀ (s : State) (v : Byte), s.inReset = false → v.getLsbD 0 = s.regs.enable →
    ∀ c ∈ ([.protectEnableSet v, .protectEnableCleared v, .returnModeWrite v, .interruptEnableWrite v] : List Instr),
      ∃ t, exec c s = .next t
        ∧ t = s.withRegsWritten { s.regs with hold := v.getLsbD 1, interruptEnable := v.getLsbD 2 }
        ∧ (t.interrupt = true ↔ (s.events.places ≠ [] ∨ s.events.overflow ≠ none) ∧ v.getLsbD 2 = true)

/-- Clearing the enable adds OFF to both engines: both are UNAVAILABLE, every crosspoint setting is off, and no record is
held. A record that was held is put back: QUIET without a class, else QUEUED at the front of its class group, the
lower-numbered of two in one group first, its return timer discarded.  The other records, and every class, bar and decline
hold, are as before. -/
def Obligations.ClearingTheEnableTakesBothSpares : Prop :=
  ∀ (s : State) (v : Byte), s.inReset = false → s.Agreement → s.regs.enable = true → v.getLsbD 0 = false →
    ∃ t, exec (.protectEnableCleared v) s = .next t
      ∧ t.regs = { s.regs with enable := false, hold := v.getLsbD 1, interruptEnable := v.getLsbD 2,
                               overrunSeen := t.regs.overrunSeen }
      ∧ (∀ g : Spare, (t.engine g).state = .unavailable
          ∧ (t.engine g).reasons = { (s.engine g).reasons with off := true }
          ∧ t.bridge g = none ∧ t.selector g = none ∧ t.loopOn g = false)
      ∧ (∀ (k : Circuit) (g : Spare), (t.record k).state ≠ .assigned g ∧ (t.record k).state ≠ .releasing g)
      ∧ (∀ (k : Circuit) (g : Spare), (s.engine g).state.circuit = some k → t.record k = { s.record k with
          state := if s.effClass k = 0 then .quiet else .queued, returnTimer := none })
      ∧ (∀ k : Circuit, (∀ g : Spare, (s.engine g).state.circuit ≠ some k) → t.record k = s.record k)
      ∧ t.queue = s.heldWaiting.foldr (placedFirst s.effClass) s.queue
      ∧ s.SameSurroundings t ∧ t.qualifiers = s.qualifiers ∧ t.outOfStep = s.outOfStep

/-- Setting the enable removes OFF from both engines: one left without a reason is FREE, or has been granted a circuit by the
pass that follows; one with a reason left stays UNAVAILABLE. -/
def Obligations.SettingTheEnableFreesBothSpares : Prop :=
  ∀ (s : State) (v : Byte), s.inReset = false → s.Agreement → s.OffAgrees → s.regs.enable = false →
    v.getLsbD 0 = true →
    ∃ t, exec (.protectEnableSet v) s = .next t
      ∧ t.regs = { s.regs with enable := true, hold := v.getLsbD 1, interruptEnable := v.getLsbD 2,
                               overrunSeen := t.regs.overrunSeen }
      ∧ (∀ g : Spare, (t.engine g).reasons = { (s.engine g).reasons with off := false }
          ∧ (if (t.engine g).reasons.flags = 0
             then (t.engine g).state = .free ∨ ∃ k, (t.engine g).state = .preparing k
             else (t.engine g).state = .unavailable))
      ∧ (s.queue = [] → ∀ k : Circuit, t.record k = s.record k)
      ∧ (∀ k : Circuit, (t.record k).condClass = (s.record k).condClass ∧ (t.record k).swClass = (s.record k).swClass
          ∧ (t.record k).barred = (s.record k).barred ∧ (t.record k).declined = (s.record k).declined)
      ∧ s.SameSurroundings t ∧ t.qualifiers = s.qualifiers ∧ t.outOfStep = s.outOfStep

/-! ## Commands refused -/

/-- A command refused leaves its result and changes nothing.  With an argument out of range: BAD_ARG.  In the present state:
MOVE under a FORCE, BAR of a barred circuit, RETURN of a circuit that is not class-0 held, TEST and STOP_TEST in the wrong
engine state, RESYNC without sixteen places, a code that names no command.  (SHUT, OPEN and CLEAR_FAULT have a statement of
their own.) -/
def Obligations.RefusedCommandsChangeNothing : Prop :=
  ∀ s : State, s.inReset = false → s.EventOver →
    (9 < s.regs.arg0.toNat →
      exec .move s = .next (s.refusedWith 0x01 .badArg) ∧ exec .force s = .next (s.refusedWith 0x02 .badArg)
      ∧ exec .clear s = .next (s.refusedWith 0x03 .badArg) ∧ exec .bar s = .next (s.refusedWith 0x04 .badArg)
      ∧ exec .unbar s = .next (s.refusedWith 0x05 .badArg)
      ∧ exec .returnCircuit s = .next (s.refusedWith 0x06 .badArg))
    ∧ (1 < s.regs.arg0.toNat ∨ s.regs.arg1 = 0 → exec .test s = .next (s.refusedWith 0x18 .badArg))
    ∧ (1 < s.regs.arg0.toNat → exec .stopTest s = .next (s.refusedWith 0x19 .badArg))
    ∧ (11 < s.regs.arg0.toNat → exec .resync s = .next (s.refusedWith 0x20 .badArg))
    ∧ (∀ k : Circuit, s.regs.arg0.toNat = k.val →
      ((s.record k).swClass = 4 → exec .move s = .next (s.refusedWith 0x01 .lower))
      ∧ ((s.record k).barred = true → exec .bar s = .next (s.refusedWith 0x04 .state))
      ∧ ((¬ ∃ g, (s.record k).state = .assigned g ∧ s.effClass k = 0 ∧ (s.engine g).state = .carrying k) →
          exec .returnCircuit s = .next (s.refusedWith 0x06 .state)))
    ∧ (∀ g : Spare, s.regs.arg0.toNat = g.val →
      (s.regs.arg1 ≠ 0 →
        ¬ ((s.engine g).state = .free ∧ ((s.qualifier g).far = none ∨ s.farSays g = some .vacant)) →
          exec .test s = .next (s.refusedWith 0x18 .state))
      ∧ ((∀ d, (s.engine g).state ≠ .testing (.ask d)) → (s.engine g).state ≠ .testing .run →
          exec .stopTest s = .next (s.refusedWith 0x19 .state)))
    ∧ (∀ p : Port, s.regs.arg0.toNat = p.val → s.fifo ≠ [] → exec .resync s = .next (s.refusedWith 0x20 .noSpace))
    ∧ ∀ code : Byte, code.toNat ∉ [0x01, 0x02, 0x03, 0x04, 0x05, 0x06, 0x10, 0x11, 0x12, 0x18, 0x19, 0x20, 0x30] →
        exec (.unknownCommand code) s = .next (s.refusedWith code .unknown)

/-! ## Request commands -/

/-- MOVE, FORCE and CLEAR write sw_class of the circuit and leave DONE; a change of local_class clears the decline hold, and
CLEAR clears it in every case; the return kind names the sources while a class is left, SOFTWARE for sw_class alone, and
keeps what it was without one.  No other source class or bar changes, and nothing outside the records, the engines, the
queue and the port. -/
def Obligations.SourceCommandsTaken : Prop :=
  ∀ (s : State) (k : Circuit), s.inReset = false → s.regs.arg0.toNat = k.val →
    let wrote := fun (t : State) (code : Byte) (sw : Nat) (declined : Bool) =>
      s.TookCommand t code ∧ (t.record k).swClass = sw ∧ (t.record k).declined = declined
      ∧ (t.record k).returnKind = (if 0 < (s.record k).condClass ∨ 0 < s.farClass k then .condition
          else if 0 < sw then .software else (s.record k).returnKind)
      ∧ (∀ j, (t.record j).condClass = (s.record j).condClass ∧ (t.record j).barred = (s.record j).barred)
      ∧ (∀ j, j ≠ k → (t.record j).swClass = (s.record j).swClass ∧ (t.record j).declined = (s.record j).declined)
      ∧ s.SameSurroundings t ∧ t.qualifiers = s.qualifiers ∧ t.outOfStep = s.outOfStep
    let kept := fun (sw : Nat) =>
      (s.record k).declined && decide (max (s.record k).condClass sw = s.localClass k)
    ((s.record k).swClass ≠ 4 → ∃ t, exec .move s = .next t ∧ wrote t 0x01 1 (kept 1))
    ∧ (∃ t, exec .force s = .next t ∧ wrote t 0x02 4 (kept 4))
    ∧ ∃ t, exec .clear s = .next t ∧ wrote t 0x03 0 false

/-- MOVE, FORCE and CLEAR on a circuit that waits or is quiet, while no spare can be granted: the record is QUIET without a
class, PARKED with one if barred or still declined, and otherwise QUEUED behind every entry of equal or higher class and
before every lower one, or in the place it had where its class is the same.  The decline hold survives only a MOVE or FORCE
that leaves local_class as it was. -/
def Obligations.SourceCommandsPlaceTheRecord : Prop :=
  ∀ (s : State) (k : Circuit), s.inReset = false → s.Agreement → s.regs.arg0.toNat = k.val →
    (∀ g : Spare, (s.engine g).state = .unavailable) →
    (∀ g : Spare, (s.record k).state ≠ .assigned g ∧ (s.record k).state ≠ .releasing g) →
    let placed := fun (t : State) (sw : Nat) (declined : Bool) =>
      let c := max (max (s.record k).condClass sw) (s.farClass k)
      let others := s.queue.filter fun j => j ≠ k
      if c = 0 then (t.record k).state = .quiet ∧ t.queue = others
      else if (s.record k).barred = true ∨ declined = true then (t.record k).state = .parked ∧ t.queue = others
      else (t.record k).state = .queued ∧ t.queue =
        if (s.record k).state = .queued ∧ c = s.effClass k then s.queue else placedLast s.effClass c k s.queue
    let kept := fun (sw : Nat) =>
      (s.record k).declined && decide (max (s.record k).condClass sw = s.localClass k)
    ((s.record k).swClass ≠ 4 → ∃ t, exec .move s = .next t ∧ placed t 1 (kept 1))
    ∧ (∃ t, exec .force s = .next t ∧ placed t 4 (kept 4))
    ∧ ∃ t, exec .clear s = .next t ∧ placed t 0 false

/-- BAR of a circuit that is not barred: barred, DONE, off every spare at once, PARKED with a class and QUIET without, out of
the queue.  UNBAR: both flags cleared whether or not either was set, DONE, and the record no longer PARKED: one that was is
QUEUED or granted, and while no spare can be granted QUEUED at the end of its class group.  No class changes, and no flag of
another record. -/
def Obligations.BarAndUnbarTaken : Prop :=
  ∀ (s : State) (k : Circuit), s.inReset = false → s.regs.arg0.toNat = k.val →
    let others := fun t : State =>
      (∀ j, (t.record j).condClass = (s.record j).condClass ∧ (t.record j).swClass = (s.record j).swClass)
      ∧ (∀ j, j ≠ k → (t.record j).barred = (s.record j).barred ∧ (t.record j).declined = (s.record j).declined)
      ∧ s.SameSurroundings t ∧ t.qualifiers = s.qualifiers ∧ t.outOfStep = s.outOfStep
    (s.Agreement → (s.record k).barred = false →
      ∃ t, exec .bar s = .next t ∧ s.TookCommand t 0x04 ∧ (t.record k).barred = true
        ∧ (t.record k).declined = (s.record k).declined
        ∧ (t.record k).state = (if s.effClass k = 0 then .quiet else .parked) ∧ k ∉ t.queue
        ∧ (∀ g : Spare, (t.engine g).state.circuit ≠ some k) ∧ others t)
    ∧ ∃ t, exec .unbar s = .next t ∧ s.TookCommand t 0x05 ∧ (t.record k).barred = false
        ∧ (t.record k).declined = false ∧ (t.record k).state ≠ .parked ∧ others t
        ∧ (s.Agreement → (s.record k).state = .parked →
            ((t.record k).state = .queued ∨ ∃ g, (t.record k).state = .assigned g)
            ∧ ((∀ g : Spare, (s.engine g).state = .unavailable) → (t.record k).state = .queued
                ∧ t.queue = placedLast s.effClass (s.effClass k) k s.queue))

/-- RETURN of a class-0 held circuit, and the expiry of its return timer, nothing waiting and no other circuit claimed by the
far end: the engine goes RETURNING with a fresh answer timer, sending YIELD, the selector off and the bridge on, the record
RELEASING; where the far end has already let go, the return completes in the same event.  RETURN leaves DONE.  A return
timer that does not run has no expiry, and one that runs may expire early (assumption 6), also in an engine that has stepped
back to BRIDGED (assumption 15). -/
def Obligations.ReturnsStart : Prop :=
  ∀ (s : State) (k : Circuit), s.inReset = false →
    ((s.record k).returnTimer = none → exec (.returnTimerExpiry k) s = .next s)
    ∧ ∀ g : Spare, (s.record k).state = .assigned g → s.effClass k = 0 → s.queue = [] →
      (∀ j c, s.farClaim g = some (j, c) → j = k) →
      let started := fun t : State =>
        (if s.farSays g = some .vacant ∨ s.farSays g = some (.yield k) then s.Returned t g k
         else s.Returning t g k ∧ t.bridge g = some k ∧ t.selector g = none)
        ∧ s.OthersAsBefore t g k ∧ s.SameSurroundings t
      ((s.engine g).state = .carrying k → s.regs.arg0.toNat = k.val →
        ∃ t, exec .returnCircuit s = .next t ∧ s.TookCommand t 0x06 ∧ started t)
      ∧ ((s.engine g).state = .carrying k ∨ (s.engine g).state = .bridged k → (s.record k).returnTimer ≠ none →
        ∃ t, exec (.returnTimerExpiry k) s = .next t ∧ started t)

/-- The fall of eff_class of a held circuit to 0, by a CLEAR of its software class, by the clearing of DOWN or of IMPAIRED on its
line, or by a far word that no longer claims it, nothing waiting and no other circuit claimed by the far end: in PREPARING
the grant is revoked, in BRIDGED the engine goes RETURNING, in CARRYING by return kind and mode: SOFTWARE at once, CONDITION
in AUTO by the return timer, at once for a return delay of 0, and in HOLD not at all.  The return kind is the one that stood
before the fall.  A return completes at once where the far end has let go.  The interval end is one that changes no other
port's IMPAIRED.  The far words are VACANT and UNLOOP, on which a holding engine does nothing of its own, and CARRY at class
0 outside BRIDGED.  Remaining times are in frame periods (assumption 6). -/
def Obligations.ClassFallsToZero : Prop :=
  ∀ (s : State) (g : Spare) (k : Circuit), s.inReset = false → (s.record k).state = .assigned g →
    (s.engine g).state.circuit = some k → s.effClass k ≠ 0 → s.queue = [] →
    (∀ j f, s.farClaim g = some (j, f) → j = k) →
    (s.farClass k = 0 →
      ((s.record k).condClass = 0 → s.regs.arg0.toNat = k.val →
        ∃ t, exec .clear s = .next t ∧ s.TookCommand t 0x03 ∧ s.SameSurroundings t
          ∧ (s.setRecord k { s.record k with swClass := 0, declined := false }).Fell t g k)
      ∧ ((s.record k).swClass = 0 → (s.condition (workPort k)).clearTimer ≠ none →
          (s.condition (workPort k)).impaired = false →
        ∃ t, exec (.clearTimerExpiry (workPort k)) s = .next t
          ∧ (s.setRecord k { s.record k with condClass := 0, declined := false }).Fell t g k)
      ∧ ((s.record k).swClass = 0 → (s.condition (workPort k)).impaired = true →
          (s.condition (workPort k)).down = false → (s.condition (workPort k)).downSeen = false →
          (s.monitor (workPort k)).errored < s.regs.clearThreshold.toNat →
          (∀ p, p ≠ workPort k → (s.condition p).downSeen = true
            ∨ ((s.condition p).impaired = true ∧ s.regs.clearThreshold.toNat ≤ (s.monitor p).errored)
            ∨ ((s.condition p).impaired = false ∧ (s.monitor p).errored < s.regs.setThreshold.toNat)) →
        ∃ t, exec .intervalEnd s = .next t
          ∧ (s.setRecord k { s.record k with condClass := 0, declined := false }).Fell t g k))
    ∧ ∀ (f : Frame) (n : Nat) (w : Half) (said : SpanWord), s.localClass k = 0 → (s.record k).declined = false →
        (∀ h, h ≠ g → ∀ c, s.farClaim h ≠ some (k, c)) → (s.engine g).reasons.flags = 0 →
        (s.monitor (sparePort g)).state = .aligned n → tabGet f 0 = 0xD3 → tabGet f 3 = frameCrc f →
        w = joinBytes (tabGet f 1) (tabGet f 2) → onesOf w % 2 = 1 → spanWord w = some said → wordOrigin w ≠ s.role →
        said = .vacant ∨ said = .unloop ∨ (said = .carry k 0 ∧ (s.engine g).state ≠ .bridged k) →
        (s.qualifier g).candidate = some w → (s.qualifier g).settled = false →
        s.regs.qCount.toNat ≤ min ((s.qualifier g).run + 1) 15 →
        ∃ t, exec (.frameJudged (sparePort g) f) s = .next t
          ∧ (s.setQualifier g { candidate := some w, run := min ((s.qualifier g).run + 1) 15, settled := true,
                                far := some w }).Fell t g k

/-! ## Spare, test and port commands -/

/-- SHUT, OPEN and CLEAR_FAULT: BAD_ARG above 1; otherwise taken when the reason is absent, present and present, adding SHUT,
removing SHUT and removing SETUP, and refused with STATE in the other case.  They are taken in every engine state and
whether protection is enabled or disabled; a first reason makes the engine UNAVAILABLE, and one left with no reason is FREE
or has been granted a circuit by the pass that follows. -/
def Obligations.SpareCommands : Prop :=
  ∀ s : State, s.inReset = false → s.EventOver → s.Agreement →
    (1 < s.regs.arg0.toNat → exec .shut s = .next (s.refusedWith 0x10 .badArg)
      ∧ exec .openSpare s = .next (s.refusedWith 0x11 .badArg)
      ∧ exec .clearFault s = .next (s.refusedWith 0x12 .badArg))
    ∧ ∀ g : Spare, s.regs.arg0.toNat = g.val →
      let now := (s.engine g).reasons
      let took := fun (t : State) (code : Byte) (after : Reasons) =>
        s.TookCommand t code ∧ (t.engine g).reasons = after
        ∧ (if after.flags = 0 then (t.engine g).state = .free ∨ ∃ k, (t.engine g).state = .preparing k
           else (t.engine g).state = .unavailable)
        ∧ (∀ h, h ≠ g → (t.engine h).reasons = (s.engine h).reasons)
        ∧ (∀ k, (t.record k).condClass = (s.record k).condClass ∧ (t.record k).swClass = (s.record k).swClass
            ∧ (t.record k).barred = (s.record k).barred ∧ (t.record k).declined = (s.record k).declined)
        ∧ s.SameSurroundings t ∧ t.qualifiers = s.qualifiers ∧ t.outOfStep = s.outOfStep
      (now.shut = false → ∃ t, exec .shut s = .next t ∧ took t 0x10 { now with shut := true })
      ∧ (now.shut = true → exec .shut s = .next (s.refusedWith 0x10 .state))
      ∧ (now.shut = true → ∃ t, exec .openSpare s = .next t ∧ took t 0x11 { now with shut := false })
      ∧ (now.shut = false → exec .openSpare s = .next (s.refusedWith 0x11 .state))
      ∧ (now.setup = true → ∃ t, exec .clearFault s = .next t ∧ took t 0x12 { now with setup := false })
      ∧ (now.setup = false → exec .clearFault s = .next (s.refusedWith 0x12 .state))

/-- TEST of a FREE spare whose far word is VACANT or NONE: TESTING in phase ASK with its duration kept, the error count 0, the
last result NONE, the answer timer started, LOOP sent.  STOP_TEST in phase ASK or RUN: phase END with ABORTED pending, the
answer timer started, UNLOOP sent.  Each leaves DONE and posts a SPARE event, and nothing else changes; where the last event
was over, the transfers, the port and the feeds stay too, so that a rest transfer runs on. -/
def Obligations.TestCommandsTaken : Prop :=
  ∀ (s : State) (g : Spare), s.inReset = false → s.regs.arg0.toNat = g.val →
    let others := fun t : State =>
      (∀ h, h ≠ g → t.engine h = s.engine h) ∧ t.records = s.records ∧ t.queue = s.queue
      ∧ s.SameSurroundings t ∧ t.qualifiers = s.qualifiers ∧ t.outOfStep = s.outOfStep
      ∧ (s.EventOver → t.transfers = s.transfers ∧ t.fifo = s.fifo ∧ t.transaction = s.transaction
          ∧ t.rotation = s.rotation ∧ t.feeds = s.feeds)
    let reported := fun (t : State) (phase : Byte) =>
      t.events = (s.post { kind := .spare, subject := byte (10 + g.val), detail1 := 6, detail2 := phase }).events
    (s.regs.arg1 ≠ 0 → (s.engine g).state = .free →
      (s.qualifier g).far = none ∨ s.farSays g = some .vacant →
      ∃ t, exec .test s = .next t ∧ s.TookCommand t 0x18
        ∧ t.engine g = { s.engine g with state := .testing (.ask s.regs.arg1), errorCount := 0, lastResult := .none,
                                         answerTimer := some (s.regs.answerTimeout.toNat * 80), testTimer := none }
        ∧ t.ownWord g = some (SpanWord.loop.encode s.role) ∧ reported t 0xF0 ∧ others t)
    ∧ ((s.engine g).state = .testing .run ∨ (∃ d, (s.engine g).state = .testing (.ask d)) →
      ∃ t, exec .stopTest s = .next t ∧ s.TookCommand t 0x19
        ∧ t.engine g = { s.engine g with state := .testing (.ending .aborted),
                                         answerTimer := some (s.regs.answerTimeout.toNat * 80), testTimer := none }
        ∧ t.ownWord g = some (SpanWord.unloop.encode s.role) ∧ reported t 0xF2 ∧ others t)

/-- RESYNC with sixteen places free: sixteen entries for indices 0 to 15 with the values the store holds, of context p or of
the circuit that a spare's engine holds; the port's flag cleared; DONE.  A busy port keeps its transaction; an idle port
takes the first entry in the same event. -/
def Obligations.ResyncTaken : Prop :=
  ∀ (s : State) (p : Port), s.inReset = false → s.EventOver → s.regs.arg0.toNat = p.val → s.fifo = [] →
    ∃ (t : State) (from_ : Port) (entries : List ForwardEntry), exec .resync s = .next t
      ∧ (∀ k, portUse p = .working k → from_ = p)
      ∧ (∀ g, portUse p = .spare g → from_ = match (s.engine g).state.circuit with | some k => workPort k | none => p)
      ∧ entries = (List.finRange 16).map (fun i => { port := p, index := i, value := s.contextWord from_ i })
      ∧ s.TookCommand t 0x20
      ∧ tabGet t.outOfStep p = false ∧ (∀ q, q ≠ p → tabGet t.outOfStep q = tabGet s.outOfStep q)
      ∧ (∀ x, s.transaction = some x → t.fifo = entries ∧ t.transaction = some x)
      ∧ (s.transaction = none → t.fifo = entries.tail
          ∧ t.transaction = (entries.head?).map fun e => e.started s.regs.lspRate)
      ∧ t.transfers = s.transfers ∧ t.records = s.records ∧ t.engines = s.engines ∧ t.queue = s.queue
      ∧ t.qualifiers = s.qualifiers ∧ t.events = s.events ∧ t.store = s.store ∧ t.monitors = s.monitors
      ∧ t.conditions = s.conditions

/-- RESTART: DONE; every record loses its software class, decline hold, return timer and return kind and keeps its
conditions' class and its bar; both qualifiers are cleared with their far words; each engine keeps OFF and SHUT, has LINE
where its port is DOWN, and is UNAVAILABLE with a reason and otherwise FREE or granted a circuit; a test is recorded
ABORTED; ports, contexts, flags and configuration are left as they are.  Records are recomputed and the queue rebuilt in class
order, ascending within a class; the FREE spares take its first circuits.  A spare that was holding, or resting, and is not
granted rests.  The events: REQUEST in circuit order, each engine's, RESTARTED, then the grants'. -/
def Obligations.RestartTaken : Prop :=
  ∀ s : State, s.inReset = false → s.ClassesInRange →
    ∃ t, exec .restart s = .next t ∧ s.TookCommand t 0x30
      ∧ (∀ k : Circuit, (t.record k).condClass = (s.record k).condClass ∧ (t.record k).barred = (s.record k).barred
          ∧ (t.record k).swClass = 0 ∧ (t.record k).declined = false ∧ (t.record k).returnTimer = none
          ∧ (t.record k).returnKind = .condition)
      ∧ (∀ g : Spare, t.qualifier g = { candidate := none, run := 0, settled := false, far := none }
          ∧ (t.engine g).reasons = s.restedReasons g
          ∧ (t.engine g).answerTimer = none ∧ (t.engine g).testTimer = none
          ∧ (t.engine g).errorCount = (s.engine g).errorCount
          ∧ (t.engine g).lastResult = (match (s.engine g).state with
              | .testing _ => .aborted
              | _ => (s.engine g).lastResult))
      ∧ (∀ g k, (g, k) ∈ s.restedGrants → (t.engine g).state = .preparing k ∧ (t.record k).state = .assigned g
          ∧ (t.transfer g).map (·.source) = some (.circuit k))
      ∧ (∀ g, (∀ k, (g, k) ∉ s.restedGrants) →
          (t.engine g).state = (if (s.restedReasons g).flags = 0 then .free else .unavailable)
          ∧ (t.transfer g).map (·.source) =
              if (s.engine g).state.circuit ≠ none ∨ (s.transfer g).map (·.source) = some .rest then some .rest
              else none)
      ∧ (∀ k, (∀ g, (g, k) ∉ s.restedGrants) → (t.record k).state = s.restedState k)
      ∧ t.queue = s.restedQueue.drop s.restedGrants.length
      ∧ t.events = (s.postAll (
          (allCircuits.filter fun k => (s.record k).state ≠ s.restedState k).map (fun k =>
            { kind := .request, subject := byte k.val, detail1 := (s.restedState k).byte,
              detail2 := byte (s.record k).condClass })
          ++ s.restedEvents 0 ++ s.restedEvents 1
          ++ [{ kind := .restarted, subject := 15, detail1 := 0, detail2 := 0 }]
          ++ s.restedGrants.flatMap fun (g, k) =>
            [{ kind := .request, subject := byte k.val, detail1 := byte (0x30 + g.val),
               detail2 := byte (s.record k).condClass },
             { kind := .spare, subject := byte (10 + g.val), detail1 := 1, detail2 := byte (16 * k.val + 15) }])).events
      ∧ s.SameSurroundings t ∧ t.outOfStep = s.outOfStep

/-! ## Contexts -/

/-- A context write is taken whole or refused whole.  Taken, where the FIFO has the places R107 asks for: the store holds the
value, and no other context word changes; the index joins the resend set of each transfer of that context whose cursor has
passed it; on a busy port the entries join the FIFO, and an idle port, the last event over, starts the first of them in the
same event.  Refused: the store and the FIFO keep what they hold,
ACCESS_REFUSED is posted and the sticky bit set.  Both advance the index register. -/
def Obligations.ContextWrites : Prop :=
  ∀ (s : State) (low : Byte), s.inReset = false → s.StoreCanonical →
    s.transaction ≠ none ∨ (s.EventOver ∧ s.TransfersBounded) →
    let p := s.regs.contextPort
    let i := s.regs.contextIndex
    let v := joinBytes s.bus.writeHolding low
    let entry := fun q : Port => ({ port := q, index := i, value := v } : ForwardEntry)
    ∀ needs : List ForwardEntry,
      (∀ k, portUse p = .working k → needs = entry p :: (match s.bridgedOn k with
          | some g => [entry (sparePort g)]
          | none => [])) →
      (∀ g, portUse p = .spare g → needs =
          if (s.engine g).state.circuit = none ∧ s.transfer g = none then [entry p] else []) →
      ∃ t, exec (.contextWriteCommit low) s = .next t
        ∧ t.regs.contextIndex = i + 1
        ∧ t.bus = { s.bus with ready := true }
        ∧ t.records = s.records ∧ t.engines = s.engines ∧ t.queue = s.queue ∧ t.qualifiers = s.qualifiers
        ∧ t.monitors = s.monitors ∧ t.conditions = s.conditions ∧ t.outOfStep = s.outOfStep
        ∧ (if needs.length ≤ 16 - s.fifo.length then
            (∀ q j, t.contextWord q j = if q = p ∧ j = i then v else s.contextWord q j)
            ∧ (∀ x, s.transaction = some x → t.transaction = some x ∧ t.fifo = s.fifo ++ needs
                ∧ t.rotation = s.rotation)
            ∧ (s.transaction = none → t.transaction = needs.head?.map (fun e => e.started s.regs.lspRate)
                ∧ t.fifo = needs.tail ∧ t.rotation = if needs = [] then s.rotation else .fifo)
            ∧ t.events = s.events ∧ t.regs.refusedWrite = s.regs.refusedWrite
            ∧ (∀ g y, s.transfer g = some y → ∃ y', t.transfer g = some y' ∧ y'.source = y.source
                ∧ y'.cursor = y.cursor ∧ y'.inFlight = y.inFlight
                ∧ ∀ j, j ∈ y'.resend ↔ j ∈ y.resend ∨ (j = i ∧ contextOf g y.source = p ∧ i.val < y.cursor))
            ∧ (∀ g, s.transfer g = none → t.transfer g = none)
          else
            t.store = s.store ∧ t.fifo = s.fifo ∧ t.transfers = s.transfers ∧ t.transaction = s.transaction
            ∧ t.regs.refusedWrite = true
            ∧ t.events = (s.post { kind := .accessRefused, subject := byte p.val, detail1 := byte i.val,
                                   detail2 := 0 }).events)

/-- A context read returns the low byte of the word that the port and index registers name, holds its upper byte, and then
advances the index; nothing else changes.  Only a context write and a pin reset change the context store; the other
commands named are the write of the context data location under another row's name (assumption 2). -/
def Obligations.ContextReadsAndTheStore : Prop :=
  (∀ s : State, s.inReset = false →
    let w := s.contextWord s.regs.contextPort s.regs.contextIndex
    exec .contextDataRead s = .next
      { s with
        bus := { s.bus with ready := true, data := BitVec.ofNat 8 w.toNat, readHolding := BitVec.ofNat 8 (w.toNat / 256) }
        regs := { s.regs with contextIndex := s.regs.contextIndex + 1 } })
  ∧ ∀ (c : Instr) (s t : State), exec c s = .next t → t.store = s.store
    ∨ c = .pinReset ∨ (∃ low, c = .contextWriteCommit low) ∨ (∃ v, c = .configurationWrite 0x62 v .writing)
    ∨ ∃ v, c = .writeHoldingByte 0x62 v

/-! ## The line-side management port -/

/-- An idle port serves the first source with an eligible offer in the rotation after the one it served last: a forward entry
leaves the FIFO with what it captured; a transfer's word is read from the store at the start, its cursor or resend set
moving on.  A busy port, and one without an eligible offer, change nothing. -/
def Obligations.PortServesInRotation : Prop :=
  ∀ s : State, s.inReset = false →
    (∀ x, s.transaction = some x → exec .lspTransactionStart s = .next s)
    ∧ ((∀ src, ¬ s.hasOffer src) → exec .lspTransactionStart s = .next s)
    ∧ ∀ before src after, s.transaction = none → servingOrder s.rotation = before ++ src :: after →
        (∀ b ∈ before, ¬ s.hasOffer b) →
        (∀ e rest, src = .fifo → s.fifo = e :: rest →
          exec .lspTransactionStart s = .next { s with
            fifo := rest, transaction := some (e.started s.regs.lspRate), rotation := .fifo })
        ∧ ∀ g y i, src = .transfer g → s.hasOffer src → s.transfer g = some y → y.offers i →
          exec .lspTransactionStart s = .next { s with
            transfers := tabSet s.transfers g (some { y with
              inFlight := some i
              cursor := if y.cursor < 16 then y.cursor + 1 else y.cursor
              resend := if y.cursor < 16 then y.resend else y.resend.filter (· ≠ i) })
            transaction := some { source := .transfer g, port := sparePort g, index := i,
                                  value := s.contextWord (contextOf g y.source) i, second := false,
                                  abandoned := false, rate := s.regs.lspRate }
            rotation := .transfer g }

/-- An attempt takes 32 periods: the start marker low, port, index and value most significant bit first, odd parity, two
turnaround periods and the acknowledge period, in which the port does not drive LSP_DAT, which for the acknowledge period is the
model's choice (assumption 32), and three idle periods, LSP_DAT high; without a transaction the line is idle.  An unacknowledged first attempt is followed at once by the second, with the
same port, index and value and the LSP rate that then stands; an abandoned transaction's outcome is discarded.  That the end
of an attempt at an idle port changes nothing is the model's choice (assumption 20). -/
def Obligations.AttemptsAreRetriedOnce : Prop :=
  (∀ (s : State) (x : Transaction), s.transaction = some x → (List.range 32).map s.lspPeriod = x.periods)
  ∧ (∀ (s : State) (n : Nat), s.transaction = none → s.lspPeriod n = .idle ∧ s.lspClockRuns = false)
  ∧ (∀ level, (LspPeriod.drive level).dat = some level) ∧ LspPeriod.idle.dat = some true
  ∧ LspPeriod.turnaround.dat = none ∧ LspPeriod.acknowledge.dat = none
  ∧ ∀ (s : State) (a b c : Bool), s.inReset = false →
    (s.transaction = none → exec (.lspAttemptEnd a b c) s = .next s)
    ∧ (∀ x, s.transaction = some x → x.second = false → ¬ acknowledgedBy a b c →
        exec (.lspAttemptEnd a b c) s = .next { s with
          transaction := some { x with second := true, rate := s.regs.lspRate } })
    ∧ ∀ x g, s.transaction = some x → x.source = .transfer g → x.abandoned = true →
        acknowledgedBy a b c ∨ x.second = true →
        ∃ t, exec (.lspAttemptEnd a b c) s = .next t ∧ t.records = s.records ∧ t.engines = s.engines
          ∧ t.queue = s.queue ∧ t.events = s.events ∧ t.outOfStep = s.outOfStep ∧ t.regs = s.regs
          ∧ t.store = s.store ∧ ∀ h, (t.transfer h).map (·.source) = (s.transfer h).map (·.source)

/-- The outcome of a forward entry: acknowledged, it is finished and no flag changes; failed on both attempts, its port is
marked out of step and WRITE_FAILED is posted. -/
def Obligations.ForwardEntryOutcomes : Prop :=
  ∀ (s : State) (a b c : Bool) (x : Transaction), s.inReset = false → s.transaction = some x → x.source = .fifo →
    (acknowledgedBy a b c → ∃ t, exec (.lspAttemptEnd a b c) s = .next t ∧ t.outOfStep = s.outOfStep
      ∧ t.events = s.events ∧ t.regs = s.regs ∧ t.records = s.records ∧ t.engines = s.engines ∧ t.queue = s.queue
      ∧ s.SameSurroundings t)
    ∧ (¬ acknowledgedBy a b c → x.second = true → ∃ t, exec (.lspAttemptEnd a b c) s = .next t
      ∧ t.outOfStep = tabSet s.outOfStep x.port true
      ∧ t.events = (s.post { kind := .writeFailed, subject := byte x.port.val, detail1 := byte x.index.val,
                             detail2 := 0 }).events
      ∧ t.records = s.records ∧ t.engines = s.engines ∧ t.queue = s.queue ∧ s.SameSurroundings t)

/-- The outcome of a transfer's word.  Acknowledged with words left, the transfer goes on.  Acknowledged as the last, the
transfer is over, its port no longer out of step, TRANSFER_DONE posted; a rest transfer leaves the engine alone, a circuit
transfer, where the far end claims no other circuit or one that loses to this end's local class, takes a PREPARING engine to
CARRYING where the far end carries the circuit and otherwise to BRIDGED with the answer timer started, TRANSFER_DONE before
that step's SPARE event.  Failed, SETUP makes the engine UNAVAILABLE. -/
def Obligations.TransferOutcomes : Prop :=
  ∀ (s : State) (a b c : Bool) (x : Transaction) (g : Spare) (y : Transfer), s.inReset = false →
    s.transaction = some x → x.source = .transfer g → x.abandoned = false → s.transfer g = some y →
    (acknowledgedBy a b c → y.cursor < 16 ∨ y.resend ≠ [] →
      ∃ t, exec (.lspAttemptEnd a b c) s = .next t ∧ (t.transfer g).map (·.source) = some y.source
        ∧ t.engines = s.engines ∧ t.records = s.records ∧ t.queue = s.queue ∧ t.events = s.events
        ∧ t.outOfStep = s.outOfStep ∧ s.SameSurroundings t)
    ∧ (acknowledgedBy a b c → ¬ (y.cursor < 16 ∨ y.resend ≠ []) → y.source = .rest →
      ∃ t, exec (.lspAttemptEnd a b c) s = .next t ∧ t.transfer g = none
        ∧ t.outOfStep = tabSet s.outOfStep (sparePort g) false
        ∧ t.events = (s.post { kind := .transferDone, subject := byte (10 + g.val), detail1 := 10, detail2 := 0 }).events
        ∧ t.engines = s.engines ∧ t.records = s.records ∧ t.queue = s.queue ∧ s.SameSurroundings t)
    ∧ (∀ k, acknowledgedBy a b c → ¬ (y.cursor < 16 ∨ y.resend ≠ []) → y.source = .circuit k →
      (s.engine g).state = .preparing k →
      (∀ j f, s.farClaim g = some (j, f) → j = k ∨ beforeClaim (k, s.localClass k) (j, f) = true) →
      let reported := fun (t : State) (entered : Byte) => t.events = (s.postAll [
        { kind := .transferDone, subject := byte (10 + g.val), detail1 := byte k.val, detail2 := 0 },
        { kind := .spare, subject := byte (10 + g.val), detail1 := entered, detail2 := byte (16 * k.val + 15) }]).events
      ∃ t, exec (.lspAttemptEnd a b c) s = .next t ∧ t.transfer g = none
        ∧ t.outOfStep = tabSet s.outOfStep (sparePort g) false
        ∧ ((∃ f, s.farSays g = some (.carry k f)) →
            t.engine g = { s.engine g with state := .carrying k, answerTimer := none, testTimer := none }
            ∧ reported t 3)
        ∧ ((¬ ∃ f, s.farSays g = some (.carry k f)) →
            t.engine g = { s.engine g with state := .bridged k, testTimer := none,
                                           answerTimer := some (s.regs.answerTimeout.toNat * 80) }
            ∧ reported t 2)
        ∧ (∀ h, h ≠ g → t.engine h = s.engine h) ∧ t.records = s.records ∧ t.queue = s.queue
        ∧ s.SameSurroundings t)
    ∧ (s.Agreement → ¬ acknowledgedBy a b c → x.second = true →
      ∃ t, exec (.lspAttemptEnd a b c) s = .next t ∧ (t.engine g).state = .unavailable
        ∧ (t.engine g).reasons = { (s.engine g).reasons with setup := true }
        ∧ (∀ k, (s.engine g).state.circuit = some k → (t.transfer g).map (·.source) = some .rest)
        ∧ ((s.engine g).state.circuit = none → t.transfer g = none)
        ∧ t.outOfStep = s.outOfStep ∧ s.SameSurroundings t)

/-! ## Events -/

/-- The event window: reading the kind byte copies the head record, or the empty record with the next sequence number; reading
the second detail byte returns the copy's and, where the copy is unconsumed, pops the head, a record in the overflow place
moving into the newest place.  That the reads of the other window locations are LOWER_ADDRESS_READ at their addresses is the
model's choice (assumption 28). -/
def Obligations.EventWindowReads : Prop :=
  (∀ (s : State) (r : EventRecord) (rest : List EventRecord), s.inReset = false → s.events.places = r :: rest →
    exec .eventKindRead s = .next { s with
      bus := { s.bus with ready := true, data := byte r.event.kind.code }
      window := { sequence := r.sequence, kind := byte r.event.kind.code, subject := r.event.subject,
                  detail1 := r.event.detail1, detail2 := r.event.detail2, consumed := false } })
  ∧ (∀ s : State, s.inReset = false → s.events.places = [] →
    exec .eventKindRead s = .next { s with
      bus := { s.bus with ready := true, data := 0 }, window := emptyCopy s.events.next })
  ∧ (∀ s : State, s.inReset = false → s.window.consumed = true →
    exec .eventPop s = .next (s.showing s.window.detail2))
  ∧ (∀ s : State, s.inReset = false → s.window.consumed = false → s.events.overflow = none →
    exec .eventPop s = .next { s.showing s.window.detail2 with
      window := { s.window with consumed := true }
      events := { s.events with places := s.events.places.tail } })
  ∧ (∀ (s : State) (o : OverflowRecord), s.inReset = false → s.window.consumed = false →
    s.events.overflow = some o →
    exec .eventPop s = .next { s.showing s.window.detail2 with
      window := { s.window with consumed := true }
      events := { places := s.events.places.tail ++ [{ sequence := o.sequence, event :=
                    { kind := .overrun, subject := 15, detail1 := byte o.lost, detail2 := 0 } }]
                  overflow := none, next := s.events.next } })
  ∧ ∀ s : State, s.inReset = false →
      exec (.lowerAddressRead 0x70) s = .next (s.showing s.window.sequence)
      ∧ exec (.lowerAddressRead 0x72) s = .next (s.showing s.window.subject)
      ∧ exec (.lowerAddressRead 0x73) s = .next (s.showing s.window.detail1)

/-- The placing of an event: a masked one is discarded; one that passes is stored in the newest place; at a full queue it is
lost into an OVERRUN record that takes its number, then counted up to 255, then lost uncounted with its number returned.
A pop moves the overflow record into the place it frees, and the overflow record is never the head.  Together the last two
decide the meeting of R161, a pop before an event at a full queue, as the model chose (assumption 31): the places are full
again, and the event is lost. -/
def Obligations.EventPlacement : Prop :=
  (∀ (s : State) (e : Event), e.kind ≠ .overrun → s.regs.eventMask.getLsbD (e.kind.code - 1) = false → s.post e = s)
  ∧ (∀ (s : State) (e : Event), e.kind = .overrun ∨ s.regs.eventMask.getLsbD (e.kind.code - 1) = true →
    (s.events.places.length < 31 → s.post e = { s with events :=
        { s.events with places := s.events.places ++ [{ sequence := s.events.next, event := e }],
                        next := s.events.next + 1 } })
    ∧ (31 ≤ s.events.places.length → s.events.overflow = none → s.post e = { s with
        events := { s.events with overflow := some { sequence := s.events.next, lost := 1 },
                                  next := s.events.next + 1 }
        regs := { s.regs with overrunSeen := true } })
    ∧ (∀ o, 31 ≤ s.events.places.length → s.events.overflow = some o → o.lost < 255 → s.post e = { s with events :=
        { s.events with overflow := some { o with lost := o.lost + 1 }, next := s.events.next + 1 } })
    ∧ ∀ o, 31 ≤ s.events.places.length → s.events.overflow = some o → 255 ≤ o.lost → s.post e = s)
  ∧ ∀ (q : EventQueue) (o : OverflowRecord), q.Bounded → q.overflow = some o →
    q.places ≠ [] ∧ q.pop.overflow = none ∧ q.pop.next = q.next
    ∧ q.pop.places = q.places.tail ++ [{ sequence := o.sequence, event :=
        { kind := .overrun, subject := 15, detail1 := byte o.lost, detail2 := 0 } }]

/-! ## Lines -/

/-- Signal-lost: an assertion takes the monitor from CHECKING or ALIGNED to HUNTING at once, its position absent and its
counts 0, so that a frame partly received is not judged, and the same from a search that found the alignment word among the
bits before the assertion; while it is asserted the monitor does not search, and bits only pass; a release changes the level
alone, and a byte received after it may end the search, taken afresh at every bit period.  No other monitor changes.
Raw-down holds from the assertion on.  That FRAME_JUDGED has no effect in HUNTING, the numbering of the position, and that a
byte reaches back over bits received before the release, are the model's choices (assumptions 20, 9 and 34). -/
def Obligations.SignalLost : Prop :=
  (∀ (s : State) (p : Port) (l : List Bool), s.inReset = false → s.RecentBounded →
    let found := (s.monitor p).signalLost = false ∧ s.SeesAlignmentWord p l
    ∃ t, exec (.signalLostAsserted p l) s = .next t
      ∧ (t.monitor p).state = .hunting ∧ (t.monitor p).signalLost = true
      ∧ ((s.monitor p).state ≠ .hunting ∨ found →
          (t.monitor p).confirm = 0 ∧ (t.monitor p).miss = 0 ∧ (t.monitor p).opening = false)
      ∧ ((s.monitor p).state = .hunting → ¬ found → t.monitor p = { s.monitor p with signalLost := true })
      ∧ (t.monitor p).errored = (s.monitor p).errored
      ∧ (t.condition p).rawDown = true
      ∧ ∀ q, q ≠ p → t.monitor q = s.monitor q ∧ t.condition q = s.condition q)
  ∧ (∀ (s : State) (p : Port) (f : Frame), (s.monitor p).state = .hunting → exec (.frameJudged p f) s = .next s)
  ∧ (∀ (s : State) (p : Port) (d e : List Bool), (s.monitor p).signalLost = true →
      (s.monitor p).state = .hunting → ∃ t, exec (.huntingMatch p d e) s = .next t
        ∧ t = { s with recentBits := t.recentBits, lineOut := t.lineOut, systemOut := t.systemOut })
  ∧ (∀ (s : State) (p : Port), exec (.signalLostReleased p) s = .next { s with
      monitors := tabSet s.monitors p { s.monitor p with signalLost := false } })
  ∧ ∀ (s : State) (p : Port) (d e : List Bool), s.inReset = false → (s.monitor p).state = .hunting →
      s.SeesAlignmentWord p (e ++ d) →
      ∃ t u, exec (.signalLostReleased p) s = .next t ∧ exec (.huntingMatch p d e) t = .next u
        ∧ (u.monitor p).state = .checking 128 ∧ (u.monitor p).confirm = 0

/-- The search for alignment: the first byte, taken afresh at every bit period, that is the alignment word takes HUNTING to
CHECKING with confirm count 0; each confirmation adds one, the third entering ALIGNED; a mismatch returns to HUNTING.  No
other monitor changes.  Bits that end no search only pass, in CHECKING too; a byte event of another monitor state has no
effect (assumption 20).  Of the bits received the last seven are kept for the next byte to reach back over (assumption 34). -/
def Obligations.AlignmentSearch : Prop :=
  ∀ (s : State) (p : Port) (d e : List Bool) (l : List Byte) (b : Byte), s.inReset = false → s.RecentBounded →
    let m := s.monitor p
    let keeps := fun (t : State) (bits : List Bool) =>
      tabGet t.recentBits p <:+ tabGet s.recentBits p ++ bits
      ∧ (tabGet t.recentBits p).length = min 7 ((tabGet s.recentBits p).length + bits.length)
    ∃ t u, exec (.huntingMatch p d e) s = .next t ∧ exec (.checkingAlignmentWord p b l) s = .next u
      ∧ (∀ q, q ≠ p → t.monitor q = s.monitor q ∧ u.monitor q = s.monitor q
          ∧ tabGet t.recentBits q = tabGet s.recentBits q ∧ tabGet u.recentBits q = tabGet s.recentBits q)
      ∧ (m.state = .hunting → m.signalLost = false → s.SeesAlignmentWord p (e ++ d) →
          t.monitor p = { m with state := .checking 128, confirm := 0 })
      ∧ ((m.state = .hunting ∧ (m.signalLost = true ∨ ¬ s.SeesAlignmentWord p (e ++ d))) ∨ (∃ n, m.state = .checking n) →
          t = { s with recentBits := t.recentBits, lineOut := t.lineOut, systemOut := t.systemOut })
      ∧ ((∀ n, m.state ≠ .aligned n) → keeps t (e ++ d))
      ∧ ((∃ n, m.state = .aligned n) → t = s)
      ∧ ((∀ n, m.state ≠ .checking n) → u = s)
      ∧ (∀ n, m.state = .checking n → b = 0xD3 → m.confirm < 2 →
          u.monitor p = { m with state := .checking (n + 128), confirm := m.confirm + 1 })
      ∧ (∀ n, m.state = .checking n → b = 0xD3 → m.confirm = 2 →
          u.monitor p = { m with state := .aligned (n + 128), opening := true, confirm := 3, miss := 0 })
      ∧ (∀ n, m.state = .checking n → b ≠ 0xD3 →
          u.monitor p = { m with state := .hunting, confirm := 0 } ∧ keeps u (onTheWire (l ++ [b])))

/-- The judging of frames: good resets the miss count; a wrong alignment word adds one to it; either error adds one to the
interval errored count, up to 8000; the fourth mismatch in a row takes the monitor to HUNTING and its frame is not judged,
under either row's name, and a mismatch row short of the fourth has no effect (assumption 20); the confirm count stays as it
was (assumption 27).  The position moves on 128 bytes after each frame, the third confirmation having moved it past the first
(assumption 9).  No other monitor changes.
The check that frames are judged by is the CRC-8 of x^8 + x^2 + x + 1, initial value 0, over all bytes but the check: those
bytes and the CRC behind them are together a sum of shifted copies of the generator. -/
def Obligations.FramesAreJudged : Prop :=
  (∀ f : Frame, ∃ shifts : List Nat,
    checkedNumber f * 256 ^^^ (frameCrc f).toNat = shifts.foldl (fun sum n => sum ^^^ 0x107 <<< n) 0)
  ∧ ∀ (s : State) (p : Port) (f : Frame) (b : Byte) (n : Nat), s.inReset = false → (s.monitor p).state = .aligned n →
    let m := s.monitor p
    let aligned := decide (tabGet f 0 = 0xD3)
    let checked := decide (tabGet f 3 = frameCrc f)
    ∃ t u, exec (.frameJudged p f) s = .next t ∧ exec (.alignmentLost p b) s = .next u
      ∧ (∀ q, q ≠ p → t.monitor q = s.monitor q ∧ u.monitor q = s.monitor q)
      ∧ (if m.miss = 3 ∧ aligned = false then t.monitor p = { m with state := .hunting, opening := false, miss := 0 }
         else t.monitor p = { m with state := .aligned (if m.opening then n else n + 128)
                                     opening := false
                                     miss := if aligned then 0 else m.miss + 1
                                     errored := if aligned && checked then m.errored else min (m.errored + 1) 8000 })
      ∧ (if m.miss = 3 ∧ b ≠ 0xD3 then u.monitor p = { m with state := .hunting, opening := false, miss := 0 }
         else u = s)

/-- The word qualifier: a good frame whose word has correct parity adds one to the run of the same word, up to 15, or begins
a run of one; a parity failure, an errored frame and a departure from ALIGNED break the run, that by a frame whose alignment
word is the fourth mismatch in a row among them (assumption 20).  Settling happens once a run, when it has reached Q.  In phase RUN an errored frame adds one to the test error count, up to 65535. -/
def Obligations.QualifierFollowsFrames : Prop :=
  (∀ (s : State) (g : Spare) (f : Frame) (b : Byte) (l : List Bool) (n : Nat) (c : Instr), s.inReset = false →
    (s.monitor (sparePort g)).state = .aligned n →
    c = .signalLostAsserted (sparePort g) l
      ∨ ((s.monitor (sparePort g)).miss = 3 ∧ b ≠ 0xD3 ∧ c = .alignmentLost (sparePort g) b)
      ∨ ((s.monitor (sparePort g)).miss = 3 ∧ tabGet f 0 ≠ 0xD3 ∧ c = .frameJudged (sparePort g) f) →
    ∃ t, exec c s = .next t ∧ (t.qualifier g).candidate = none ∧ (t.qualifier g).run = 0
      ∧ (t.qualifier g).settled = false)
  ∧ ∀ (s : State) (g : Spare) (f : Frame) (n : Nat), s.inReset = false →
    (s.monitor (sparePort g)).state = .aligned n → ¬ ((s.monitor (sparePort g)).miss = 3 ∧ tabGet f 0 ≠ 0xD3) →
    let q := s.qualifier g
    let w := joinBytes (tabGet f 1) (tabGet f 2)
    let good := tabGet f 0 = 0xD3 ∧ tabGet f 3 = frameCrc f
    let settledAt := fun (run : Nat) (settled : Bool) => settled || decide (s.regs.qCount.toNat ≤ run)
    ∃ t, exec (.frameJudged (sparePort g) f) s = .next t
      ∧ (¬ good ∨ onesOf w % 2 = 0 →
          t.qualifier g = { candidate := none, run := 0, settled := false, far := q.far })
      ∧ (good → onesOf w % 2 = 1 → ∀ c, q.candidate = some c → sameWord c w = true →
          (t.qualifier g).candidate = some c ∧ (t.qualifier g).run = min (q.run + 1) 15
          ∧ (t.qualifier g).settled = settledAt (min (q.run + 1) 15) q.settled)
      ∧ (good → onesOf w % 2 = 1 → (∀ c, q.candidate = some c → sameWord c w = false) →
          (t.qualifier g).candidate = some w ∧ (t.qualifier g).run = 1
          ∧ (t.qualifier g).settled = settledAt 1 false)
      ∧ (¬ good → (t.engine g) = (if (s.engine g).state = .testing .run then
          { s.engine g with errorCount := min ((s.engine g).errorCount + 1) 65535 } else s.engine g))
      ∧ ∀ h, h ≠ g → t.qualifier h = s.qualifier h

/-- Delivery: a settled candidate that differs from the current far word, or finds none, is delivered in the same event.  An
invalid word and an echo of this end's role make the far word NONE, with INVALID_WORD and ECHO; any other word becomes it,
with FAR_WORD; each is posted before any other event of the delivery (assumption 16).  An echo of LOOP in phase ASK confirms
the loop: phase RUN with the test timer at the test's duration, and no ECHO.  A candidate that is the same as the far word
delivers nothing. -/
def Obligations.DeliveriesSetTheFarWord : Prop :=
  ∀ (s : State) (g : Spare) (f : Frame) (n : Nat) (c : Half), s.inReset = false →
    (s.monitor (sparePort g)).state = .aligned n → tabGet f 0 = 0xD3 → tabGet f 3 = frameCrc f →
    onesOf (joinBytes (tabGet f 1) (tabGet f 2)) % 2 = 1 →
    (s.qualifier g).candidate = some c → sameWord c (joinBytes (tabGet f 1) (tabGet f 2)) = true →
    (s.qualifier g).settled = false → s.regs.qCount.toNat ≤ min ((s.qualifier g).run + 1) 15 →
    ∃ t, exec (.frameJudged (sparePort g) f) s = .next t
      ∧ ((∃ w, (s.qualifier g).far = some w ∧ sameWord c w = true) →
          (t.qualifier g).far = (s.qualifier g).far ∧ t.events = s.events ∧ t.records = s.records)
      ∧ ((∀ w, (s.qualifier g).far = some w → sameWord c w = false) →
          let echo : Prop := c.getLsbD 1 = (s.role == .endB)
          let confirms : Prop := spanWord c = some .loop ∧ ∃ d, (s.engine g).state = .testing (.ask d)
          let first := fun (kind : EventKind) => ∃ l : List Event, t.events = (s.postAll (
            { kind := kind, subject := byte (10 + g.val), detail1 := BitVec.ofNat 8 (c.toNat / 256),
              detail2 := BitVec.ofNat 8 c.toNat } :: l)).events
          (InvalidWord c → (t.qualifier g).far = none ∧ first .invalidWord)
          ∧ (¬ InvalidWord c → echo → ¬ confirms → (t.qualifier g).far = none ∧ first .echo)
          ∧ (¬ InvalidWord c → echo → confirms → (t.qualifier g).far = none
              ∧ (s.queue = [] → s.farClaim g = none → ∀ d, (s.engine g).state = .testing (.ask d) →
                  t.engine g = { s.engine g with state := .testing .run, answerTimer := none,
                                                 testTimer := some (d.toNat * 8000) }
                  ∧ t.events = (s.post { kind := .spare, subject := byte (10 + g.val), detail1 := 6,
                                         detail2 := 0xF1 }).events))
          ∧ (¬ InvalidWord c → ¬ echo → (t.qualifier g).far = some c ∧ first .farWord))

/-- System ports receive the line that feeds them: a working line's frames unchanged, a carrying spare's with bytes 1 and 2
zero and the check corrected, so that a correct check stays correct and a wrong one wrong, and bits that no monitor places
unchanged.  Where signal-lost cuts a frame off, a carrying spare passes what it would have passed of the whole frame, the
first frame's alignment word, which the third confirmation brought, among it.  Whole frames and runs of bits, which go where
the feeds of their own moment take them, are the model's choice (assumption 10).  A feed follows a changed selector at the end of a frame of the line being left, through bytes of all
ones while the new line has a frame in progress, and joins the new line at the end of such a frame. -/
def Obligations.SystemPortsReceive : Prop :=
  (∀ (s : State) (p : Port) (f : Frame) (n : Nat) (k : Circuit), s.inReset = false →
    (s.monitor p).state = .aligned n → ¬ ((s.monitor p).miss = 3 ∧ tabGet f 0 ≠ 0xD3) →
    ∃ t, exec (.frameJudged p f) s = .next t
      ∧ (tabGet s.feeds k = .working → p = workPort k → tabGet t.systemOut k = some (.frame f))
      ∧ (∀ g, tabGet s.feeds k = .spare g → p = sparePort g →
          ∃ f', tabGet t.systemOut k = some (.frame f') ∧ PassedOn f f')
      ∧ (feedPort k (tabGet s.feeds k) ≠ some p → tabGet t.systemOut k = tabGet s.systemOut k)
      ∧ (tabGet s.feeds k = t.selectedFeed k → tabGet t.feeds k = t.selectedFeed k)
      ∧ (feedPort k (tabGet s.feeds k) = some p → tabGet s.feeds k ≠ t.selectedFeed k → tabGet t.feeds k =
          if ∃ q, feedPort k (t.selectedFeed k) = some q ∧ (t.monitor q).isAligned = true then .ones
          else t.selectedFeed k)
      ∧ (tabGet s.feeds k = .ones → feedPort k (t.selectedFeed k) = some p → tabGet t.feeds k = t.selectedFeed k))
  ∧ ∀ (s : State) (p : Port) (d e : List Bool) (l : List Byte) (b : Byte) (k : Circuit), s.inReset = false →
    let m := s.monitor p
    let fed := fun (t : State) (bits : List Bool) => tabGet t.systemOut k =
      if feedPort k (tabGet s.feeds k) = some p then some (.bits bits) else tabGet s.systemOut k
    ((∀ n, m.state ≠ .aligned n) → e ++ d ≠ [] → ∃ t, exec (.huntingMatch p d e) s = .next t ∧ fed t (e ++ d))
    ∧ (∀ n, m.state = .checking n → l ≠ [] → ∃ t, exec (.checkingAlignmentWord p b l) s = .next t
        ∧ fed t (onTheWire (if b = 0xD3 ∧ m.confirm = 2 then l else l ++ [b])))
    ∧ (∀ n, m.state = .aligned n → m.miss = 3 → b ≠ 0xD3 →
        ∃ t, exec (.alignmentLost p b) s = .next t ∧ fed t (onTheWire [b]))
    ∧ ((∀ n, m.state ≠ .aligned n) → d ≠ [] → ∃ t, exec (.signalLostAsserted p d) s = .next t ∧ fed t d)
    ∧ ∀ n, m.state = .aligned n → m.received d ≠ [] → ∃ t, exec (.signalLostAsserted p d) s = .next t
        ∧ (p.val < 10 → fed t (m.received d))
        ∧ (10 ≤ p.val → ∀ f : Frame, m.received d <+: onTheWire f.toList →
            ∃ f', PassedOn f f' ∧ fed t ((onTheWire f'.toList).take (m.received d).length))

/-! ## Conditions -/

/-- The expiry of a running onset timer declares DOWN, that of a running clear timer clears it; the timer is then absent, and
the other conditions of every port are as before.  On a spare's port the declaration adds LINE, which makes the engine
UNAVAILABLE, and the clearing removes a LINE that stands, which leaves an engine without a reason FREE or granted a circuit.
A timer that does not run has no expiry (assumption 6). -/
def Obligations.OnsetAndClearExpiry : Prop :=
  ∀ (s : State) (p : Port), s.inReset = false →
    ((s.condition p).onsetTimer = none → exec (.onsetTimerExpiry p) s = .next s)
    ∧ ((s.condition p).clearTimer = none → exec (.clearTimerExpiry p) s = .next s)
    ∧ ((s.condition p).onsetTimer ≠ none → ∃ t, exec (.onsetTimerExpiry p) s = .next t
        ∧ t.conditions = tabSet s.conditions p { s.condition p with onsetTimer := none, down := true }
        ∧ t.monitors = s.monitors ∧ t.store = s.store
        ∧ (∀ k, portUse p = .working k → (t.record k).condClass = 3)
        ∧ ∀ g, portUse p = .spare g → (t.qualifier g).far = none
            ∧ (s.Agreement → (t.engine g).state = .unavailable
                ∧ (t.engine g).reasons = { (s.engine g).reasons with line := true }))
    ∧ ((s.condition p).clearTimer ≠ none → ∃ t, exec (.clearTimerExpiry p) s = .next t
        ∧ t.conditions = tabSet s.conditions p { s.condition p with clearTimer := none, down := false }
        ∧ t.monitors = s.monitors ∧ t.store = s.store ∧ t.qualifiers = s.qualifiers
        ∧ (∀ k, portUse p = .working k → (t.record k).condClass = if (s.condition p).impaired then 2 else 0)
        ∧ ∀ g, portUse p = .spare g → s.Agreement →
            (t.engine g).reasons = { (s.engine g).reasons with line := false }
            ∧ ((s.engine g).reasons.line = true →
                if (t.engine g).reasons.flags = 0
                then (t.engine g).state = .free ∨ ∃ k, (t.engine g).state = .preparing k
                else (t.engine g).state = .unavailable))

/-- The interval end: for every port IMPAIRED is evaluated on the count by the thresholds, not where raw-down was seen; the
counts restart at 0, down seen becomes what raw-down is, and a new interval of 8000 frame periods begins. -/
def Obligations.IntervalEnds : Prop :=
  ∀ s : State, s.inReset = false → ∃ t, exec .intervalEnd s = .next t ∧ t.intervalTimer = 8000
    ∧ (∀ p : Port, t.monitor p = { s.monitor p with errored := 0 })
    ∧ (∀ p : Port,
        let c := s.condition p
        let n := (s.monitor p).errored
        t.condition p = { c with
          downSeen := c.rawDown
          impaired := if c.downSeen then c.impaired
                      else if c.impaired then decide (s.regs.clearThreshold.toNat ≤ n)
                      else decide (s.regs.setThreshold.toNat ≤ n) })
    ∧ t.store = s.store ∧ t.qualifiers = s.qualifiers ∧ t.outOfStep = s.outOfStep

/-- Raw-down follows its two sources: the third confirmation of a port whose raw-down held ends it, which starts the clear
delay of a DOWN port, or clears it at once for a delay of 0, and removes a running onset timer; the fourth mismatch, under
either row's name (assumption 20), and signal-lost begin it, which starts the onset delay of a clear port, or declares DOWN
at once for a delay of 0, and removes a running clear timer.  Where raw-down held already, signal-lost leaves the condition
as it was. -/
def Obligations.RawDownFollowsItsSources : Prop :=
  ∀ (s : State) (p : Port) (n : Nat), s.inReset = false → (s.monitor p).signalLost = false →
    let c := s.condition p
    ((s.monitor p).state = .checking n → (s.monitor p).confirm = 2 → c.rawDown = true →
      ∀ l, ∃ t, exec (.checkingAlignmentWord p 0xD3 l) s = .next t ∧ t.condition p =
        if c.down then
          if s.regs.clearDelay = 0 then { c with rawDown := false, down := false }
          else { c with rawDown := false, clearTimer := some (s.regs.clearDelay.toNat * 80) }
        else { c with rawDown := false, onsetTimer := none })
    ∧ (∀ (f : Frame) (b : Byte) (d : List Bool) (a : Instr), c.rawDown = false →
        ((s.monitor p).state = .aligned n ∧ (s.monitor p).miss = 3 ∧ b ≠ 0xD3 ∧ a = .alignmentLost p b)
          ∨ ((s.monitor p).state = .aligned n ∧ (s.monitor p).miss = 3 ∧ tabGet f 0 ≠ 0xD3 ∧ a = .frameJudged p f)
          ∨ a = .signalLostAsserted p d →
        ∃ t, exec a s = .next t ∧ t.condition p =
          if c.down then { c with rawDown := true, downSeen := true, clearTimer := none }
          else if tabGet s.regs.onset p = 0 then { c with rawDown := true, downSeen := true, down := true }
          else { c with rawDown := true, downSeen := true,
                        onsetTimer := some ((tabGet s.regs.onset p).toNat * 800) })
    ∧ (c.rawDown = true → ∀ d, ∃ t, exec (.signalLostAsserted p d) s = .next t ∧ t.condition p = c)

/-! ## Timers -/

/-- The engine timers' expiry.  The answer timer: in BRIDGED the engine becomes UNAVAILABLE with SILENT and its unit rests;
with nothing waiting, in RETURNING the return of a circuit without a class completes with RETURN_UNANSWERED, in phase ASK
the test ends NO_LOOP, in phase END its pending result is recorded.  The test timer in phase RUN: phase END with PASS
pending where the error count is at or below the test limit and FAIL where it is above, the answer timer started, UNLOOP
sent.  A timer that does not run has no expiry (assumption 6). -/
def Obligations.EngineTimersExpire : Prop :=
  ∀ (s : State) (g : Spare), s.inReset = false →
    ((s.engine g).state ≠ .testing .run ∨ (s.engine g).testTimer = none →
      exec (.testTimerExpiry g) s = .next s)
    ∧ ((s.engine g).state = .testing .run → (s.engine g).testTimer ≠ none →
      ∃ t, exec (.testTimerExpiry g) s = .next t
        ∧ t.engine g = { s.engine g with
            state := .testing (.ending (if (s.engine g).errorCount ≤ s.regs.testLimit.toNat then .pass else .fail))
            answerTimer := some (s.regs.answerTimeout.toNat * 80), testTimer := none }
        ∧ t.ownWord g = some (SpanWord.unloop.encode s.role)
        ∧ (∀ h, h ≠ g → t.engine h = s.engine h) ∧ t.records = s.records ∧ t.queue = s.queue
        ∧ t.qualifiers = s.qualifiers ∧ t.outOfStep = s.outOfStep ∧ s.SameSurroundings t)
    ∧ ((s.engine g).answerTimer = none → exec (.answerTimerExpiry g) s = .next s)
    ∧ ((s.engine g).answerTimer ≠ none → ∃ t, exec (.answerTimerExpiry g) s = .next t
      ∧ s.SameSurroundings t
      ∧ (∀ k, s.Agreement → (s.engine g).state = .bridged k →
          (t.engine g).state = .unavailable ∧ (t.engine g).reasons = { (s.engine g).reasons with silent := true }
          ∧ t.bridge g = none ∧ (t.transfer g).map (·.source) = some .rest)
      ∧ (∀ k, (s.engine g).state = .returning k → (s.record k).state = .releasing g → s.queue = [] →
          s.effClass k = 0 → s.Returned t g k ∧ s.OthersAsBefore t g k
          ∧ t.events = (s.postAll [
              { kind := .request, subject := byte k.val, detail1 := 0x0F, detail2 := 0 },
              { kind := .spare, subject := byte (10 + g.val), detail1 := 0, detail2 := 0xFF },
              { kind := .returnUnanswered, subject := byte (10 + g.val), detail1 := byte k.val, detail2 := 0 }]).events)
      ∧ (∀ d, (s.engine g).state = .testing (.ask d) → s.queue = [] → t.records = s.records
          ∧ t.engine g = { s.engine g with state := .free, answerTimer := none, testTimer := none,
                                           lastResult := .noLoop })
      ∧ (∀ r, (s.engine g).state = .testing (.ending r) → s.queue = [] → t.records = s.records
          ∧ t.engine g = { s.engine g with state := .free, answerTimer := none, testTimer := none,
                                           lastResult := r }))

/-! ## The frame reference -/

/-- Working port k transmits system port k's frames unchanged, whatever the state of record k, of the engines and of the
enable; a bridge sends a copy on the spare as well, every byte of it the circuit's but the maintenance word and the check.
A loop sends the received frames and unplaced bits unaltered, those of a frame that signal-lost cuts off among them.  It is
entered after the frame in progress: through bytes of all ones to the next received frame, or to the first one, while the
monitor places frames, else at once; it is left after the received frame in progress, or before the first one, through bytes
of all ones to the next edge, else at the next edge.  The line is shown by whole frames and runs of bits (assumption 10);
ones left unplaced change at an edge, and the monitor is judged there and where a frame begins (assumption 23). -/
def Obligations.LinePortsSend : Prop :=
  (∀ (s : State) (frames : Vector Frame 10), s.inReset = false →
    ∃ t, exec (.frameReferenceEdge frames) s = .next t
      ∧ (∀ k : Circuit, tabGet t.lineOut (workPort k) = some (.frame (tabGet frames k)))
      ∧ (∀ (g : Spare) (k : Circuit), s.bridge g = some k → tabGet s.sendModes g ≠ .looping →
          ∃ f, tabGet t.lineOut (sparePort g) = some (.frame f)
            ∧ ∀ i : Fin 128, i = 0 ∨ 4 ≤ i.val → tabGet f i = tabGet (tabGet frames k) i)
      ∧ ∀ g : Spare,
          let placed := (s.monitor (sparePort g)).isAligned
          (s.loopOn g = true → tabGet t.sendModes g =
              if tabGet s.sendModes g = .looping ∨ placed = false then .looping else .ones)
          ∧ (s.loopOn g = false → tabGet t.sendModes g =
              if tabGet s.sendModes g = .looping ∧ placed = true then .looping else .reference)
          ∧ (tabGet t.sendModes g ≠ .reference →
              tabGet t.lineOut (sparePort g) = tabGet s.lineOut (sparePort g)))
  ∧ (∀ (s : State) (g : Spare) (f : Frame) (n : Nat), s.inReset = false →
    (s.monitor (sparePort g)).state = .aligned n → ¬ ((s.monitor (sparePort g)).miss = 3 ∧ tabGet f 0 ≠ 0xD3) →
    ∃ t, exec (.frameJudged (sparePort g) f) s = .next t
      ∧ tabGet t.lineOut (sparePort g) =
          (if tabGet s.sendModes g = .looping then some (.frame f) else tabGet s.lineOut (sparePort g))
      ∧ tabGet t.sendModes g = switchedMode (tabGet s.sendModes g) (t.loopOn g))
  ∧ ∀ (s : State) (g : Spare) (d e : List Bool) (l : List Byte) (b : Byte), s.inReset = false →
    let m := s.monitor (sparePort g)
    let sends := fun (t : State) (bits : List Bool) => tabGet t.lineOut (sparePort g) =
      if tabGet s.sendModes g = .looping then some (.bits bits) else tabGet s.lineOut (sparePort g)
    ((∀ n, m.state ≠ .aligned n) → e ++ d ≠ [] →
        ∃ t, exec (.huntingMatch (sparePort g) d e) s = .next t ∧ sends t (e ++ d) ∧ t.sendModes = s.sendModes)
    ∧ (∀ n, m.state = .checking n → l ≠ [] → ∃ t, exec (.checkingAlignmentWord (sparePort g) b l) s = .next t
        ∧ sends t (onTheWire (if b = 0xD3 ∧ m.confirm = 2 then l else l ++ [b]))
        ∧ tabGet t.sendModes g = if b = 0xD3 ∧ m.confirm = 2
            then switchedMode (tabGet s.sendModes g) (t.loopOn g) else tabGet s.sendModes g)
    ∧ (∀ n, m.state = .aligned n → m.miss = 3 → b ≠ 0xD3 →
        ∃ t, exec (.alignmentLost (sparePort g) b) s = .next t ∧ sends t (onTheWire [b]) ∧ t.sendModes = s.sendModes)
    ∧ ((∀ n, m.state ≠ .aligned n) → d ≠ [] →
        ∃ t, exec (.signalLostAsserted (sparePort g) d) s = .next t ∧ sends t d ∧ t.sendModes = s.sendModes)
    ∧ ∀ n, m.state = .aligned n → m.received d ≠ [] →
        ∃ t, exec (.signalLostAsserted (sparePort g) d) s = .next t ∧ sends t (m.received d)
          ∧ t.sendModes = s.sendModes

/-- A spare port out of a loop sends at the edge: with a bridge the circuit's frame with the own word in bytes 1 and 2 and
its check corrected, without one a filler frame with the own word and a correct check.  Every running timer has one frame
period less to run, and in phase RUN a period with the monitor out of ALIGNED counts as an error.  The count in frame
periods and the whole frames are the model's choice (assumptions 6 and 10). -/
def Obligations.FrameReferenceEdge : Prop :=
  ∀ (s : State) (frames : Vector Frame 10), s.inReset = false →
    ∃ t, exec (.frameReferenceEdge frames) s = .next t
      ∧ (∀ (g : Spare) (w : Half), tabGet s.sendModes g ≠ .looping → s.ownWord g = some w →
          ∃ f, tabGet t.lineOut (sparePort g) = some (.frame f) ∧ joinBytes (tabGet f 1) (tabGet f 2) = w
            ∧ (s.bridge g = none → tabGet f 0 = 0xD3 ∧ (∀ i : Fin 128, 4 ≤ i.val → tabGet f i = 0xFF)
                ∧ tabGet f 3 = frameCrc f)
            ∧ ∀ k, s.bridge g = some k →
                (∀ i : Fin 128, i = 0 ∨ 4 ≤ i.val → tabGet f i = tabGet (tabGet frames k) i)
                ∧ (tabGet f 3 = frameCrc f ↔ tabGet (tabGet frames k) 3 = frameCrc (tabGet frames k)))
      ∧ t.intervalTimer = s.intervalTimer - 1
      ∧ (∀ k, t.record k = { s.record k with returnTimer := (s.record k).returnTimer.map (· - 1) })
      ∧ (∀ p, t.condition p = { s.condition p with onsetTimer := (s.condition p).onsetTimer.map (· - 1),
                                                   clearTimer := (s.condition p).clearTimer.map (· - 1) })
      ∧ (∀ g, t.engine g = { s.engine g with
          answerTimer := (s.engine g).answerTimer.map (· - 1)
          testTimer := (s.engine g).testTimer.map (· - 1)
          errorCount := if (s.engine g).state = .testing .run ∧ (s.monitor (sparePort g)).isAligned = false
                        then min ((s.engine g).errorCount + 1) 65535 else (s.engine g).errorCount })
      ∧ t.monitors = s.monitors ∧ t.store = s.store ∧ t.qualifiers = s.qualifiers ∧ t.queue = s.queue
      ∧ t.events = s.events ∧ t.regs = s.regs

/-! ## The arbiter and the span protocol -/

/-- One step of the grant pass.  With an empty queue it ends.  Otherwise the head takes the lowest-numbered FREE spare that is
open to it; else the lowest-numbered open spare in a test or a loop; else the spare preempted is one whose claim comes after
the head's, of two such the one whose claim comes last; else it ends. -/
def Obligations.GrantPassStep : Prop :=
  ∀ t : Turn, (t.st.queue = [] → t.passStep = none)
    ∧ ∀ (h : Circuit) (rest : List Circuit), t.st.queue = h :: rest →
      let c := t.st.effClass h
      let isOpen := fun g : Spare => ∀ k f, t.st.farClaim g = some (k, f) → k = h ∨ beforeClaim (h, c) (k, f) = true
      let free := fun g : Spare => isOpen g ∧ (t.st.engine g).state = .free
      let tested := fun g : Spare =>
        isOpen g ∧ ((∃ ph, (t.st.engine g).state = .testing ph) ∨ (t.st.engine g).state = .looped)
      let loses := fun (g : Spare) (claim : Circuit × Nat) =>
        t.st.holdingClaim g = some claim ∧ beforeClaim (h, c) claim = true
      let granted := fun g : Spare => ∃ t', t.passStep = some t' ∧ t.Took t' g h
      (∀ g, free g → (∀ i, i < g → ¬ free i) → granted g)
      ∧ ((∀ g, ¬ free g) → ∀ g, tested g → (∀ i, i < g → ¬ tested i) → granted g)
      ∧ ((∀ g, ¬ free g ∧ ¬ tested g) → ∀ g claim, loses g claim →
          (∀ i claim', i ≠ g → loses i claim' → beforeClaim claim' claim = true) →
          t.passStep = some (t.preempt g h))
      ∧ ((∀ g, ¬ free g ∧ ¬ tested g) → (∀ g claim, ¬ loses g claim) → t.passStep = none)

/-- A preemption against whose head no far claim of another circuit stands in claim order: the record that held the spare
goes to the front of its class group or QUIET, the engine straight into PREPARING for the head with a circuit transfer at
cursor 0 and no timer. -/
def Obligations.PreemptionPutsBack : Prop :=
  ∀ (t : Turn) (g : Spare) (j h : Circuit), (t.st.engine g).state.circuit = some j → j ≠ h →
    (t.st.record j).barred = false → (t.st.record j).declined = false →
    (∀ k f, t.st.farClaim g = some (k, f) → k = h ∨ beforeClaim (h, t.st.effClass h) (k, f) = true) →
    ((t.preempt g h).st.engine g).state = .preparing h
      ∧ ((t.preempt g h).st.engine g).answerTimer = none
      ∧ (t.preempt g h).st.transfer g = some { source := .circuit h, cursor := 0, resend := [], inFlight := none }
      ∧ ((t.preempt g h).st.record h).state = .assigned g
      ∧ ((t.preempt g h).st.record j).state = (if t.st.effClass j = 0 then .quiet else .queued)
      ∧ ((t.preempt g h).st.record j).returnTimer = none
      ∧ (t.preempt g h).st.queue = (if t.st.effClass j = 0 then t.st.queue.filter fun i => i ≠ j
          else placeFront t.st.effClass j (t.st.queue.filter fun i => i ≠ j)).filter fun i => i ≠ h

/-- Adoption, by the first row that applies: a barred or declined circuit is not adopted, nor one without a class, nor one
held on the lower-numbered spare; one held on the higher-numbered spare moves, that spare going FREE and resting; any other
is granted. -/
def Obligations.AdoptionFollowsTheTable : Prop :=
  ∀ (t : Turn) (g : Spare) (k : Circuit),
    let r := t.st.record k
    let u := t.offer g k
    u.offered = t.offered ++ [g]
    ∧ (r.barred = true ∨ r.declined = true → u.st = t.st)
    ∧ (t.st.effClass k = 0 → u.st = t.st)
    ∧ (∀ o, o < g → r.state = .assigned o ∨ r.state = .releasing o → u.st = t.st)
    ∧ (r.barred = false → r.declined = false → t.st.effClass k ≠ 0 →
        (∀ o, g < o → r.state = .assigned o ∨ r.state = .releasing o →
          (u.st.engine o).state = .free ∧ (u.st.transfer o).map (·.source) = some .rest
          ∧ (u.st.engine g).state = .preparing k ∧ (u.st.record k).state = .assigned g
          ∧ (u.st.record k).returnTimer = none)
        ∧ (r.state = .quiet ∨ r.state = .queued → t.Took u g k))

/-- The word contest compares the claims of the two words: this end's at its eff_class in PREPARING, its local_class in
BRIDGED and 0 in RETURNING.  Won, nothing changes.  Lost, the circuit is put back and the winner is offered: the engine is
FREE, or PREPARING for the winner where it is adopted; CONTEST_LOST follows. -/
def Obligations.ContestsAreDecidedByTheWords : Prop :=
  ∀ (t : Turn) (g : Spare),
    (∀ k, ((t.st.engine g).state = .preparing k → t.st.contestClaim g = some (k, t.st.effClass k))
      ∧ ((t.st.engine g).state = .bridged k → t.st.contestClaim g = some (k, t.st.localClass k))
      ∧ ((t.st.engine g).state = .returning k → t.st.contestClaim g = some (k, 0)))
    ∧ (t.st.farClaim g = none → t.contest g = t)
    ∧ ∀ (k j : Circuit) (c f : Nat), t.st.contestClaim g = some (k, c) → t.st.farClaim g = some (j, f) → k ≠ j →
      (beforeClaim (k, c) (j, f) = true → t.contest g = t)
      ∧ (beforeClaim (k, c) (j, f) = false → (t.st.record k).barred = false → (t.st.record k).declined = false →
          let u := t.contest g
          (u.st.record k).state = (if t.st.effClass k = 0 then .quiet else .queued)
          ∧ ((u.st.engine g).state = .free ∨ (u.st.engine g).state = .preparing j)
          ∧ ((t.st.record j).barred = false → (t.st.record j).declined = false → t.st.effClass j ≠ 0 →
              (t.st.record j).state = .quiet ∨ (t.st.record j).state = .queued →
              (u.st.engine g).state = .preparing j ∧ (u.st.record j).state = .assigned g)
          ∧ u.late = t.late ++ [{ kind := .contestLost, subject := byte (10 + g.val), detail1 := byte k.val,
                                  detail2 := byte j.val }])

/-- What an engine that holds circuit k does on a taken word, after the update of its reasons: a BARRED word has been taken by
that update and does nothing more, and YIELD of another circuit does nothing.  A claim of another circuit is contested; it takes
CARRYING back to BRIDGED first, its answer timer started, and is contested at this end's local class: won, the engine stays
so; lost, the circuit is put back and the engine FREE, or PREPARING for the winner, and CONTEST_LOST follows.  DECLINE of
another circuit leaves the engines alone: it parks a circuit that no spare holds, and one held on the other spare is left. -/
def Obligations.HoldingEnginesActOnWords : Prop :=
  ∀ (t : Turn) (g : Spare) (k : Circuit) (w : SpanWord), t.st.farSays g = some w →
    let e := t.st.engine g
    let timeout := some (t.st.regs.answerTimeout.toNat * 80)
    let u := t.act g w
    (e.state.circuit = some k → (∃ r, w = .barred r) ∨ (∃ j, j ≠ k ∧ w = .yield j) → u = t)
    ∧ (e.state = .preparing k ∨ e.state = .bridged k ∨ e.state = .returning k →
        (∃ j c, j ≠ k ∧ (w = .claim j c ∨ w = .carry j c)) → u = t.contest g)
    ∧ (e.state = .preparing k →
        (∃ c, w = .claim k c ∨ w = .carry k c) ∨ w = .vacant ∨ (∃ j, w = .yield j) ∨ w = .loop ∨ w = .unloop → u = t)
    ∧ (e.state = .bridged k →
        ((∃ c, w = .carry k c) → u.st.engine g = { e with state := .carrying k, answerTimer := none, testTimer := none })
        ∧ ((∃ c, w = .claim k c) ∨ w = .vacant ∨ w = .loop ∨ w = .unloop → u = t))
    ∧ (e.state = .carrying k →
        ((∃ c, w = .claim k c) →
          u.st.engine g = { e with state := .bridged k, answerTimer := timeout, testTimer := none })
        ∧ ((∃ c, w = .carry k c) ∨ w = .vacant ∨ w = .loop ∨ w = .unloop → u = t)
        ∧ ∀ j c, j ≠ k → w = .claim j c ∨ w = .carry j c →
          (beforeClaim (k, t.st.localClass k) (j, c) = true →
            u.st.engine g = { e with state := .bridged k, answerTimer := timeout, testTimer := none }
            ∧ u.st.records = t.st.records ∧ u.st.transfers = t.st.transfers ∧ u.late = t.late)
          ∧ (beforeClaim (k, t.st.localClass k) (j, c) = false →
              (t.st.record k).barred = false → (t.st.record k).declined = false →
            (u.st.record k).state = (if t.st.effClass k = 0 then .quiet else .queued)
            ∧ ((u.st.engine g).state = .free ∨ (u.st.engine g).state = .preparing j)
            ∧ ((t.st.record j).barred = false → (t.st.record j).declined = false → t.st.effClass j ≠ 0 →
                (t.st.record j).state = .quiet ∨ (t.st.record j).state = .queued →
                (u.st.engine g).state = .preparing j ∧ (u.st.record j).state = .assigned g)
            ∧ u.late = t.late ++ [{ kind := .contestLost, subject := byte (10 + g.val), detail1 := byte k.val,
                                    detail2 := byte j.val }]))
    ∧ (e.state = .bridged k ∨ e.state = .carrying k → w = .yield k →
        (t.st.localClass k ≠ 0 → u = t)
        ∧ (t.st.localClass k = 0 → (u.st.engine g).state = .free ∧ (u.st.transfer g).map (·.source) = some .rest))
    ∧ (e.state = .returning k →
        (w = .yield k ∨ w = .vacant → (u.st.engine g).state = .free ∧ (u.st.transfer g).map (·.source) = some .rest)
        ∧ ((∃ c, w = .claim k c ∨ (w = .carry k c ∧ 0 < c)) →
          u.st.engine g = { e with state := .bridged k, answerTimer := timeout, testTimer := none }
          ∧ (u.st.record k).state = .assigned g)
        ∧ (w = .carry k 0 ∨ w = .loop ∨ w = .unloop → u = t))
    ∧ (e.state.circuit = some k → (t.st.record k).state = .assigned g ∨ (t.st.record k).state = .releasing g →
        w = .decline k → (u.st.engine g).state = .free ∧ (u.st.transfer g).map (·.source) = some .rest
          ∧ (u.st.record k).declined = true
          ∧ (u.st.record k).state = (if t.st.effClass k = 0 then .quiet else .parked))
    ∧ (e.state.circuit = some k → ∀ j, j ≠ k → w = .decline j →
        ((∃ h, h ≠ g ∧ ((t.st.record j).state = .assigned h ∨ (t.st.record j).state = .releasing h)) → u = t)
        ∧ ((∀ h, (t.st.record j).state ≠ .assigned h ∧ (t.st.record j).state ≠ .releasing h) →
            (u.st.record j).declined = true
            ∧ (u.st.record j).state = (if t.st.effClass j = 0 then .quiet else .parked)
            ∧ u.st.engines = t.st.engines ∧ ∀ i, i ≠ j → u.st.record i = t.st.record i))

/-- What an engine that holds no circuit does on a taken word, before the grant pass.  Every taken word becomes the current
far word, with FAR_WORD first, removes SILENT, and adds or removes FAR; BARRED leaves any engine UNAVAILABLE, a held circuit
put back, unless the other spare's far claim of it is adopted, and its unit resting, a test ABORTED.  An engine that is FREE, or becomes FREE on the word, loops on LOOP and meets
a claim by adoption; one left with a reason stays UNAVAILABLE.  A test in phase ASK is ended by a claim, and at end B by
LOOP; in RUN and END by every word.  A loop is ended by every word, and by LOOP begun again. -/
def Obligations.IdleEnginesActOnWords : Prop :=
  ∀ (s : State) (g : Spare) (w : Half) (said : SpanWord), s.Agreement → spanWord w = some said →
    wordOrigin w ≠ s.role →
    let e := s.engine g
    let u := s.turn.take g w said
    let i := (u.st.engine g).state
    let lets := said = .vacant ∨ (∃ j, said = .yield j) ∨ (∃ j, said = .decline j) ∨ said = .unloop
    let claims := fun k : Circuit => (∃ c, said = .claim k c) ∨ ∃ c, said = .carry k c
    s.TookWord u g w said
    ∧ ((∃ r, said = .barred r) → i = .unavailable
        ∧ (∀ k, e.state.circuit = some k → (u.st.transfer g).map (·.source) = some .rest
            ∧ let atRest := (u.st.record k).state = if u.st.effClass k = 0 then .quiet else .queued
              ((∀ h c, h ≠ g → s.farClaim h ≠ some (k, c)) → atRest)
              ∧ ∀ h c, h ≠ g → s.farClaim h = some (k, c) →
                  atRest ∨ ((u.st.record k).state = .assigned h ∧ (u.st.engine h).state = .preparing k))
        ∧ (∀ ph, e.state = .testing ph → s.TestEnded u g .aborted)
        ∧ (e.state = .looped → loopResultEvent g .aborted ∈ u.late))
    ∧ (e.state = .free ∨ e.state = .unavailable → (¬ ∃ r, said = .barred r) →
        ((u.st.engine g).reasons.flags ≠ 0 → i = .unavailable)
        ∧ ((u.st.engine g).reasons.flags = 0 →
            (lets → i = .free) ∧ (said = .loop → i = .looped) ∧ ∀ k, claims k → s.ClaimMet u g k))
    ∧ (∀ d, e.state = .testing (.ask d) →
        (lets ∨ (said = .loop ∧ s.role = .endA) → u.st.engine g = e)
        ∧ (said = .loop → s.role = .endB → i = .looped ∧ s.TestEnded u g .overtaken)
        ∧ ∀ k, claims k → s.ClaimMet u g k ∧ s.TestEnded u g .overtaken)
    ∧ (∀ ph result, e.state = .testing ph → (ph = .run ∧ result = .aborted) ∨ ph = .ending result →
        (lets → i = .free ∧ s.TestEnded u g result) ∧ (said = .loop → i = .looped ∧ s.TestEnded u g result)
        ∧ ∀ k, claims k → s.ClaimMet u g k ∧ s.TestEnded u g .overtaken)
    ∧ (e.state = .looped → (lets → i = .free) ∧ (said = .loop → i = .looped)
        ∧ ∀ k, claims k → s.ClaimMet u g k ∧ loopResultEvent g .overtaken ∈ u.late)
    ∧ ∀ j, said = .decline j →
        (∀ h, h ≠ g → (s.record j).state ≠ .assigned h ∧ (s.record j).state ≠ .releasing h) → (u.st.record j).declined = true

/-! ## Maintenance words and claims -/

/-- The maintenance word's fields occupy the bits of Table 11-2, unused fields zero, the count of ones odd; reading what was
written gives it back with its origin; the word travels in bytes 1 and 2 of a frame, bits 15 to 8 first. -/
def Obligations.MaintenanceWordLayout : Prop :=
  (∀ (w : SpanWord) (r : Role), w.InRange →
    wordFields (w.encode r) = (w.sentFields.1, w.sentFields.2.1, w.sentFields.2.2.1, w.sentFields.2.2.2,
      match r with | .endA => 0 | .endB => 1)
    ∧ onesOf (w.encode r) % 2 = 1
    ∧ spanWord (w.encode r) = some w ∧ wordOrigin (w.encode r) = r)
  ∧ (∀ (w : Half) (f : Frame), frameWord (putWord f w) = w
    ∧ tabGet (putWord f w) 1 = BitVec.ofNat 8 (w.toNat / 256) ∧ tabGet (putWord f w) 2 = BitVec.ofNat 8 w.toNat)
  ∧ SpanWord.vacant.encode .endA = 0x1000 ∧ SpanWord.vacant.encode .endB = 0x1003
  ∧ (SpanWord.claim 5 3).encode .endA = 0x2560 ∧ (SpanWord.barred 2).encode .endA = 0x6008

/-- A word is invalid in the five cases of R71 and in no other, and two words of one valid kind are the same exactly when
their origins and the fields their kind uses are equal. -/
def Obligations.WordsAreReadByTheirFields : Prop :=
  (∀ w : Half, spanWord w = none ↔ InvalidWord w)
  ∧ ∀ v w : Half, spanWord v ≠ none → spanWord w ≠ none →
      (sameWord v w = true ↔ spanWord v = spanWord w ∧ v.getLsbD 1 = w.getLsbD 1)

/-- The classes: far_class is the largest class that a current far word of either spare, a CLAIM or a CARRY, names for the
circuit, and 0 if none does; local_class and eff_class are the larger of their two.  Claim order: higher class first, then
lower circuit number; no two claims on different circuits are equal.  A spare's claim is the circuit it holds with its
holding class: its eff_class in PREPARING, BRIDGED and CARRYING, 0 in RETURNING; an engine that holds nothing has no
claim. -/
def Obligations.ClassesAndClaimOrder : Prop :=
  (∀ (s : State) (k : Circuit),
    let names := fun (g : Spare) (c : Nat) => s.farSays g = some (.claim k c) ∨ s.farSays g = some (.carry k c)
    (∀ g c, names g c → c ≤ s.farClass k) ∧ ((∃ g, names g (s.farClass k)) ∨ s.farClass k = 0)
    ∧ s.localClass k = max (s.record k).condClass (s.record k).swClass
    ∧ s.effClass k = max (s.localClass k) (s.farClass k))
  ∧ (∀ a b : Circuit × Nat, beforeClaim a b = true ↔ b.2 < a.2 ∨ (a.2 = b.2 ∧ a.1 < b.1))
  ∧ (∀ a b : Circuit × Nat, a.1 ≠ b.1 → (beforeClaim a b = true ↔ ¬ beforeClaim b a = true))
  ∧ ∀ (s : State) (g : Spare),
      (∀ k, (s.engine g).state = .preparing k ∨ (s.engine g).state = .bridged k ∨ (s.engine g).state = .carrying k →
        s.holdingClaim g = some (k, s.effClass k))
      ∧ (∀ k, (s.engine g).state = .returning k → s.holdingClaim g = some (k, 0))
      ∧ ((s.engine g).state.circuit = none → s.holdingClaim g = none)

/-- The own word of each engine state, and the crosspoint settings: bridge k in BRIDGED, CARRYING and RETURNING k, selector
k in CARRYING k, the loop in LOOPED, and none in any other state; system port k is to receive from the spare whose selector
names it, and from its working line without one. -/
def Obligations.OwnWordsAndCrosspoint : Prop :=
  (∀ (s : State) (g : Spare) (k : Circuit),
    (s.bridge g = some k ↔
      (s.engine g).state = .bridged k ∨ (s.engine g).state = .carrying k ∨ (s.engine g).state = .returning k)
    ∧ (s.selector g = some k ↔ (s.engine g).state = .carrying k)
    ∧ (s.loopOn g = true ↔ (s.engine g).state = .looped)
    ∧ (s.OneSelector → s.selector g = some k → s.selectedFeed k = .spare g)
    ∧ ((∀ h, s.selector h ≠ some k) → s.selectedFeed k = .working))
  ∧ ∀ (s : State) (g : Spare),
    let sends := fun w : SpanWord => s.ownWord g = some (w.encode s.role)
    ((s.engine g).state = .free → match s.farClaim g with
      | some (k, _) => sends (if (s.record k).barred || (s.record k).declined then .decline k else .vacant)
      | none => sends .vacant)
    ∧ (∀ k, (s.engine g).state = .preparing k → sends (.claim k (s.effClass k)))
    ∧ (∀ k, (s.engine g).state = .bridged k ∨ (s.engine g).state = .carrying k → sends (.carry k (s.localClass k)))
    ∧ (∀ k, (s.engine g).state = .returning k → sends (.yield k))
    ∧ ((s.engine g).state = .unavailable →
        let r := (s.engine g).reasons
        sends (if r.off then .barred 0 else if r.shut then .barred 1 else if r.line then .barred 2
               else if r.silent then .barred 3 else if r.setup then .barred 4 else .vacant))
    ∧ (∀ d, (s.engine g).state = .testing (.ask d) → sends .loop)
    ∧ ((s.engine g).state = .testing .run → sends .loop)
    ∧ (∀ r, (s.engine g).state = .testing (.ending r) → sends .unloop)
    ∧ ((s.engine g).state = .looped → s.ownWord g = none)

/-! ## Invariants that every step keeps -/

/-- What the chapters say of records, engines, conditions and far words together stays so: besides their agreement, the
classes are in range, OFF stands while protection is disabled and LINE while the port is DOWN, cond_class is what the
conditions give, no circuit without a class is prepared, each timer runs only where it may, and every contest stands
decided.  A return timer in BRIDGED is the model's reading (assumption 15). -/
def Obligations.ProtocolStaysLegal : Prop :=
  ∀ s t : State, s.ProtocolLegal → step s = .next t → t.ProtocolLegal

/-- The event queue stays within its bounds: 31 ordinary records, the overflow place used only while they are all full, a lost
count of 1 to 255.  The registers stay within their ranges, the clear threshold below the set threshold and the OVERRUN bit of
the mask reading 1; the forward FIFO holds at most 16 entries; the context store keeps its one form (assumption 5). -/
def Obligations.EventsRegistersFifoAndStoreStayLegal : Prop :=
  ∀ s t : State, step s = .next t →
    (s.events.Bounded → t.events.Bounded)
    ∧ (s.regs.InRange → s.FifoBounded → s.StoreCanonical → t.regs.InRange ∧ t.FifoBounded ∧ t.StoreCanonical)

/-- Monitors, qualifiers and conditions stay legal: counts within their ranges, a lost signal hunting, a candidate exactly
with a run, raw-down what its two sources give, each delay timer only in its case, a first frame being received only in ALIGNED
(assumption 9), and every block at its reset values while RESET is asserted, the role and the data lines at the values that
the model names (assumption 4).  Seven bits at most are kept of each port's stream (assumption 34). -/
def Obligations.LinesStayLegal : Prop := ∀ s t : State, s.LinesLegal → step s = .next t → t.LinesLegal

/-- A current far word stays a valid word of the far end's role.  With it goes that every block stays at its reset values
while RESET is asserted, the role and the data lines at the values that the model names (assumption 4), since the role is
sampled at the release of RESET. -/
def Obligations.FarWordsStayLegal : Prop :=
  ∀ s t : State, s.HeldInReset → s.FarWordsLegal → step s = .next t → t.HeldInReset ∧ t.FarWordsLegal

/-- Every event is taken whole: after it no eligible offer stands at an idle port (assumption 11), and every system port has
its selected line, or the line being left while that has a frame in progress, or bytes of all ones while the selected line
has. -/
def Obligations.EventsAreTakenWhole : Prop := ∀ s t : State, s.EventOver → step s = .next t → t.EventOver

/-- Records, queue and engines agree after every step: the reason set is non-empty exactly in UNAVAILABLE; a record is
ASSIGNED or RELEASING with a spare exactly while that spare's engine holds its circuit so; a record that no engine holds is
in the state of its class and flags; the queue holds exactly the QUEUED records, once each, in class order. -/
def Obligations.RecordsQueueAndEnginesAgree : Prop :=
  ∀ s t : State, s.Agreement → step s = .next t → t.Agreement

/-- The transfers keep with the engines and the port: a circuit transfer runs exactly in PREPARING, of the circuit prepared; a
rest transfer only while no circuit is held; cursor, resend set and in-flight marker stay in bounds; the marker is the
index on the line. -/
def Obligations.TransfersStayWithTheEngines : Prop :=
  ∀ s t : State, s.TransfersLegal → step s = .next t → t.TransfersLegal
end

