-- ==== Sys2Proof/Laws/State.lean ====
section
/-! SUPPORT. What each named update of the state does to each field, one lemma a field, and what it does to each table
entry.  Every lemma about a field holds by definition, so no proof over the model unfolds a record update. -/

namespace Sys2Proof

/-- The entry just set is the entry read. -/
@[simp] theorem tabGet_tabSet_same {α : Type} {n : Nat} (v : Vector α n) (i : Fin n) (x : α) :
    tabGet (tabSet v i x) i = x := by
  simp [tabGet, tabSet]

/-- Setting one entry leaves every other entry. -/
@[simp] theorem tabGet_tabSet_other {α : Type} {n : Nat} (v : Vector α n) {i j : Fin n} (x : α) (h : i ≠ j) :
    tabGet (tabSet v i x) j = tabGet v j := by
  have hij : i.val ≠ j.val := fun e => h (Fin.ext e)
  simp [tabGet, tabSet, hij]

/-- Reading an entry of a table that has had one entry set. -/
theorem tabGet_tabSet {α : Type} {n : Nat} (v : Vector α n) (i j : Fin n) (x : α) :
    tabGet (tabSet v i x) j = if i = j then x else tabGet v j := by
  by_cases h : i = j
  · subst h; simp
  · simp [h]

/-- Two tables with the same entries are the same table. -/
theorem tab_ext {α : Type} {n : Nat} {v w : Vector α n} (h : ∀ i : Fin n, tabGet v i = tabGet w i) : v = w := by
  ext i hi
  exact h ⟨i, hi⟩

/-- Setting an entry to what it is changes nothing. -/
@[simp] theorem tabSet_tabGet {α : Type} {n : Nat} (v : Vector α n) (i : Fin n) : tabSet v i (tabGet v i) = v := by
  refine tab_ext fun j => ?_
  rw [tabGet_tabSet]
  split
  · next h => rw [h]
  · rfl

/-- Of two settings of one entry the later stands. -/
@[simp] theorem tabSet_tabSet_same {α : Type} {n : Nat} (v : Vector α n) (i : Fin n) (x y : α) :
    tabSet (tabSet v i x) i y = tabSet v i y := by
  refine tab_ext fun j => ?_
  simp only [tabGet_tabSet]
  split <;> rfl

/-- An entry of a table built from a function. -/
@[simp] theorem tabGet_ofFn {α : Type} {n : Nat} (f : Fin n → α) (i : Fin n) : tabGet (Vector.ofFn f) i = f i := by
  simp [tabGet]

/-- An entry of a mapped table. -/
@[simp] theorem tabGet_map {α β : Type} {n : Nat} (f : α → β) (v : Vector α n) (i : Fin n) :
    tabGet (v.map f) i = f (tabGet v i) := by
  simp [tabGet]

/-- An entry of a table of one value. -/
@[simp] theorem tabGet_replicate {α : Type} {n : Nat} (x : α) (i : Fin n) :
    tabGet (Vector.replicate n x) i = x := by
  simp [tabGet]

end Sys2Proof

namespace Sys2Proof.Machine

/-! ## setRecord -/

@[simp] theorem State.setRecord_pending (s : State) (k : Circuit) (r : Record) :
    (s.setRecord k r).pending = s.pending := rfl
@[simp] theorem State.setRecord_inReset (s : State) (k : Circuit) (r : Record) :
    (s.setRecord k r).inReset = s.inReset := rfl
@[simp] theorem State.setRecord_role (s : State) (k : Circuit) (r : Record) : (s.setRecord k r).role = s.role := rfl
@[simp] theorem State.setRecord_regs (s : State) (k : Circuit) (r : Record) : (s.setRecord k r).regs = s.regs := rfl
@[simp] theorem State.setRecord_bus (s : State) (k : Circuit) (r : Record) : (s.setRecord k r).bus = s.bus := rfl
@[simp] theorem State.setRecord_records (s : State) (k : Circuit) (r : Record) :
    (s.setRecord k r).records = tabSet s.records k r := rfl
@[simp] theorem State.setRecord_queue (s : State) (k : Circuit) (r : Record) :
    (s.setRecord k r).queue = s.queue := rfl
@[simp] theorem State.setRecord_engines (s : State) (k : Circuit) (r : Record) :
    (s.setRecord k r).engines = s.engines := rfl
@[simp] theorem State.setRecord_transfers (s : State) (k : Circuit) (r : Record) :
    (s.setRecord k r).transfers = s.transfers := rfl
@[simp] theorem State.setRecord_store (s : State) (k : Circuit) (r : Record) :
    (s.setRecord k r).store = s.store := rfl
@[simp] theorem State.setRecord_fifo (s : State) (k : Circuit) (r : Record) : (s.setRecord k r).fifo = s.fifo := rfl
@[simp] theorem State.setRecord_transaction (s : State) (k : Circuit) (r : Record) :
    (s.setRecord k r).transaction = s.transaction := rfl
@[simp] theorem State.setRecord_rotation (s : State) (k : Circuit) (r : Record) :
    (s.setRecord k r).rotation = s.rotation := rfl
@[simp] theorem State.setRecord_outOfStep (s : State) (k : Circuit) (r : Record) :
    (s.setRecord k r).outOfStep = s.outOfStep := rfl
@[simp] theorem State.setRecord_monitors (s : State) (k : Circuit) (r : Record) :
    (s.setRecord k r).monitors = s.monitors := rfl
@[simp] theorem State.setRecord_conditions (s : State) (k : Circuit) (r : Record) :
    (s.setRecord k r).conditions = s.conditions := rfl
@[simp] theorem State.setRecord_recentBits (s : State) (k : Circuit) (r : Record) :
    (s.setRecord k r).recentBits = s.recentBits := rfl
@[simp] theorem State.setRecord_intervalTimer (s : State) (k : Circuit) (r : Record) :
    (s.setRecord k r).intervalTimer = s.intervalTimer := rfl
@[simp] theorem State.setRecord_qualifiers (s : State) (k : Circuit) (r : Record) :
    (s.setRecord k r).qualifiers = s.qualifiers := rfl
@[simp] theorem State.setRecord_lineOut (s : State) (k : Circuit) (r : Record) :
    (s.setRecord k r).lineOut = s.lineOut := rfl
@[simp] theorem State.setRecord_sendModes (s : State) (k : Circuit) (r : Record) :
    (s.setRecord k r).sendModes = s.sendModes := rfl
@[simp] theorem State.setRecord_systemOut (s : State) (k : Circuit) (r : Record) :
    (s.setRecord k r).systemOut = s.systemOut := rfl
@[simp] theorem State.setRecord_feeds (s : State) (k : Circuit) (r : Record) :
    (s.setRecord k r).feeds = s.feeds := rfl
@[simp] theorem State.setRecord_events (s : State) (k : Circuit) (r : Record) :
    (s.setRecord k r).events = s.events := rfl
@[simp] theorem State.setRecord_window (s : State) (k : Circuit) (r : Record) :
    (s.setRecord k r).window = s.window := rfl

@[simp] theorem State.setRecord_record_same (s : State) (k : Circuit) (r : Record) :
    (s.setRecord k r).record k = r := tabGet_tabSet_same _ _ _
@[simp] theorem State.setRecord_record_other (s : State) {k j : Circuit} (r : Record) (hne : k ≠ j) :
    (s.setRecord k r).record j = s.record j := tabGet_tabSet_other _ _ hne
theorem State.setRecord_record (s : State) (k j : Circuit) (r : Record) :
    (s.setRecord k r).record j = if k = j then r else s.record j := tabGet_tabSet _ _ _ _
@[simp] theorem State.setRecord_record_self (s : State) (k : Circuit) : s.setRecord k (s.record k) = s := by
  simp [State.setRecord, State.record]
@[simp] theorem State.setRecord_record_twice (s : State) (k : Circuit) (r : Record) (y : Record) :
    (s.setRecord k r).setRecord k y = s.setRecord k y := by
  simp [State.setRecord]
@[simp] theorem State.setRecord_engine (s : State) (k : Circuit) (r : Record) (g : Spare) :
    (s.setRecord k r).engine g = s.engine g := rfl
@[simp] theorem State.setRecord_transfer (s : State) (k : Circuit) (r : Record) (g : Spare) :
    (s.setRecord k r).transfer g = s.transfer g := rfl
@[simp] theorem State.setRecord_qualifier (s : State) (k : Circuit) (r : Record) (g : Spare) :
    (s.setRecord k r).qualifier g = s.qualifier g := rfl
@[simp] theorem State.setRecord_monitor (s : State) (k : Circuit) (r : Record) (p : Port) :
    (s.setRecord k r).monitor p = s.monitor p := rfl
@[simp] theorem State.setRecord_condition (s : State) (k : Circuit) (r : Record) (p : Port) :
    (s.setRecord k r).condition p = s.condition p := rfl
@[simp] theorem State.setRecord_contextWord (s : State) (k : Circuit) (r : Record) (a : Port) (i : WordIndex) :
    (s.setRecord k r).contextWord a i = s.contextWord a i := rfl
@[simp] theorem State.setRecord_farClaim (s : State) (k : Circuit) (r : Record) (g : Spare) :
    (s.setRecord k r).farClaim g = s.farClaim g := rfl
@[simp] theorem State.setRecord_farSays (s : State) (k : Circuit) (r : Record) (g : Spare) :
    (s.setRecord k r).farSays g = s.farSays g := rfl
@[simp] theorem State.setRecord_farClass (s : State) (k : Circuit) (r : Record) (j : Circuit) :
    (s.setRecord k r).farClass j = s.farClass j := rfl

/-! ## setEngine -/

@[simp] theorem State.setEngine_pending (s : State) (g : Spare) (e : Engine) :
    (s.setEngine g e).pending = s.pending := rfl
@[simp] theorem State.setEngine_inReset (s : State) (g : Spare) (e : Engine) :
    (s.setEngine g e).inReset = s.inReset := rfl
@[simp] theorem State.setEngine_role (s : State) (g : Spare) (e : Engine) : (s.setEngine g e).role = s.role := rfl
@[simp] theorem State.setEngine_regs (s : State) (g : Spare) (e : Engine) : (s.setEngine g e).regs = s.regs := rfl
@[simp] theorem State.setEngine_bus (s : State) (g : Spare) (e : Engine) : (s.setEngine g e).bus = s.bus := rfl
@[simp] theorem State.setEngine_records (s : State) (g : Spare) (e : Engine) :
    (s.setEngine g e).records = s.records := rfl
@[simp] theorem State.setEngine_queue (s : State) (g : Spare) (e : Engine) : (s.setEngine g e).queue = s.queue := rfl
@[simp] theorem State.setEngine_engines (s : State) (g : Spare) (e : Engine) :
    (s.setEngine g e).engines = tabSet s.engines g e := rfl
@[simp] theorem State.setEngine_transfers (s : State) (g : Spare) (e : Engine) :
    (s.setEngine g e).transfers = s.transfers := rfl
@[simp] theorem State.setEngine_store (s : State) (g : Spare) (e : Engine) : (s.setEngine g e).store = s.store := rfl
@[simp] theorem State.setEngine_fifo (s : State) (g : Spare) (e : Engine) : (s.setEngine g e).fifo = s.fifo := rfl
@[simp] theorem State.setEngine_transaction (s : State) (g : Spare) (e : Engine) :
    (s.setEngine g e).transaction = s.transaction := rfl
@[simp] theorem State.setEngine_rotation (s : State) (g : Spare) (e : Engine) :
    (s.setEngine g e).rotation = s.rotation := rfl
@[simp] theorem State.setEngine_outOfStep (s : State) (g : Spare) (e : Engine) :
    (s.setEngine g e).outOfStep = s.outOfStep := rfl
@[simp] theorem State.setEngine_monitors (s : State) (g : Spare) (e : Engine) :
    (s.setEngine g e).monitors = s.monitors := rfl
@[simp] theorem State.setEngine_conditions (s : State) (g : Spare) (e : Engine) :
    (s.setEngine g e).conditions = s.conditions := rfl
@[simp] theorem State.setEngine_recentBits (s : State) (g : Spare) (e : Engine) :
    (s.setEngine g e).recentBits = s.recentBits := rfl
@[simp] theorem State.setEngine_intervalTimer (s : State) (g : Spare) (e : Engine) :
    (s.setEngine g e).intervalTimer = s.intervalTimer := rfl
@[simp] theorem State.setEngine_qualifiers (s : State) (g : Spare) (e : Engine) :
    (s.setEngine g e).qualifiers = s.qualifiers := rfl
@[simp] theorem State.setEngine_lineOut (s : State) (g : Spare) (e : Engine) :
    (s.setEngine g e).lineOut = s.lineOut := rfl
@[simp] theorem State.setEngine_sendModes (s : State) (g : Spare) (e : Engine) :
    (s.setEngine g e).sendModes = s.sendModes := rfl
@[simp] theorem State.setEngine_systemOut (s : State) (g : Spare) (e : Engine) :
    (s.setEngine g e).systemOut = s.systemOut := rfl
@[simp] theorem State.setEngine_feeds (s : State) (g : Spare) (e : Engine) : (s.setEngine g e).feeds = s.feeds := rfl
@[simp] theorem State.setEngine_events (s : State) (g : Spare) (e : Engine) :
    (s.setEngine g e).events = s.events := rfl
@[simp] theorem State.setEngine_window (s : State) (g : Spare) (e : Engine) :
    (s.setEngine g e).window = s.window := rfl

@[simp] theorem State.setEngine_record (s : State) (g : Spare) (e : Engine) (k : Circuit) :
    (s.setEngine g e).record k = s.record k := rfl
@[simp] theorem State.setEngine_engine_same (s : State) (g : Spare) (e : Engine) :
    (s.setEngine g e).engine g = e := tabGet_tabSet_same _ _ _
@[simp] theorem State.setEngine_engine_other (s : State) {g h : Spare} (e : Engine) (hne : g ≠ h) :
    (s.setEngine g e).engine h = s.engine h := tabGet_tabSet_other _ _ hne
theorem State.setEngine_engine (s : State) (g h : Spare) (e : Engine) :
    (s.setEngine g e).engine h = if g = h then e else s.engine h := tabGet_tabSet _ _ _ _
@[simp] theorem State.setEngine_engine_self (s : State) (g : Spare) : s.setEngine g (s.engine g) = s := by
  simp [State.setEngine, State.engine]
@[simp] theorem State.setEngine_engine_twice (s : State) (g : Spare) (e : Engine) (y : Engine) :
    (s.setEngine g e).setEngine g y = s.setEngine g y := by
  simp [State.setEngine]
@[simp] theorem State.setEngine_transfer (s : State) (g : Spare) (e : Engine) (h : Spare) :
    (s.setEngine g e).transfer h = s.transfer h := rfl
@[simp] theorem State.setEngine_qualifier (s : State) (g : Spare) (e : Engine) (h : Spare) :
    (s.setEngine g e).qualifier h = s.qualifier h := rfl
@[simp] theorem State.setEngine_monitor (s : State) (g : Spare) (e : Engine) (p : Port) :
    (s.setEngine g e).monitor p = s.monitor p := rfl
@[simp] theorem State.setEngine_condition (s : State) (g : Spare) (e : Engine) (p : Port) :
    (s.setEngine g e).condition p = s.condition p := rfl
@[simp] theorem State.setEngine_contextWord (s : State) (g : Spare) (e : Engine) (a : Port) (i : WordIndex) :
    (s.setEngine g e).contextWord a i = s.contextWord a i := rfl
@[simp] theorem State.setEngine_farClaim (s : State) (g : Spare) (e : Engine) (h : Spare) :
    (s.setEngine g e).farClaim h = s.farClaim h := rfl
@[simp] theorem State.setEngine_farSays (s : State) (g : Spare) (e : Engine) (h : Spare) :
    (s.setEngine g e).farSays h = s.farSays h := rfl
@[simp] theorem State.setEngine_farClass (s : State) (g : Spare) (e : Engine) (k : Circuit) :
    (s.setEngine g e).farClass k = s.farClass k := rfl
@[simp] theorem State.setEngine_localClass (s : State) (g : Spare) (e : Engine) (k : Circuit) :
    (s.setEngine g e).localClass k = s.localClass k := rfl
@[simp] theorem State.setEngine_effClass (s : State) (g : Spare) (e : Engine) (k : Circuit) :
    (s.setEngine g e).effClass k = s.effClass k := rfl

/-! ## setTransfer -/

@[simp] theorem State.setTransfer_pending (s : State) (g : Spare) (x : Option Transfer) :
    (s.setTransfer g x).pending = s.pending := rfl
@[simp] theorem State.setTransfer_inReset (s : State) (g : Spare) (x : Option Transfer) :
    (s.setTransfer g x).inReset = s.inReset := rfl
@[simp] theorem State.setTransfer_role (s : State) (g : Spare) (x : Option Transfer) :
    (s.setTransfer g x).role = s.role := rfl
@[simp] theorem State.setTransfer_regs (s : State) (g : Spare) (x : Option Transfer) :
    (s.setTransfer g x).regs = s.regs := rfl
@[simp] theorem State.setTransfer_bus (s : State) (g : Spare) (x : Option Transfer) :
    (s.setTransfer g x).bus = s.bus := rfl
@[simp] theorem State.setTransfer_records (s : State) (g : Spare) (x : Option Transfer) :
    (s.setTransfer g x).records = s.records := rfl
@[simp] theorem State.setTransfer_queue (s : State) (g : Spare) (x : Option Transfer) :
    (s.setTransfer g x).queue = s.queue := rfl
@[simp] theorem State.setTransfer_engines (s : State) (g : Spare) (x : Option Transfer) :
    (s.setTransfer g x).engines = s.engines := rfl
@[simp] theorem State.setTransfer_transfers (s : State) (g : Spare) (x : Option Transfer) :
    (s.setTransfer g x).transfers = tabSet s.transfers g x := rfl
@[simp] theorem State.setTransfer_store (s : State) (g : Spare) (x : Option Transfer) :
    (s.setTransfer g x).store = s.store := rfl
@[simp] theorem State.setTransfer_fifo (s : State) (g : Spare) (x : Option Transfer) :
    (s.setTransfer g x).fifo = s.fifo := rfl
@[simp] theorem State.setTransfer_transaction (s : State) (g : Spare) (x : Option Transfer) :
    (s.setTransfer g x).transaction = s.transaction := rfl
@[simp] theorem State.setTransfer_rotation (s : State) (g : Spare) (x : Option Transfer) :
    (s.setTransfer g x).rotation = s.rotation := rfl
@[simp] theorem State.setTransfer_outOfStep (s : State) (g : Spare) (x : Option Transfer) :
    (s.setTransfer g x).outOfStep = s.outOfStep := rfl
@[simp] theorem State.setTransfer_monitors (s : State) (g : Spare) (x : Option Transfer) :
    (s.setTransfer g x).monitors = s.monitors := rfl
@[simp] theorem State.setTransfer_conditions (s : State) (g : Spare) (x : Option Transfer) :
    (s.setTransfer g x).conditions = s.conditions := rfl
@[simp] theorem State.setTransfer_recentBits (s : State) (g : Spare) (x : Option Transfer) :
    (s.setTransfer g x).recentBits = s.recentBits := rfl
@[simp] theorem State.setTransfer_intervalTimer (s : State) (g : Spare) (x : Option Transfer) :
    (s.setTransfer g x).intervalTimer = s.intervalTimer := rfl
@[simp] theorem State.setTransfer_qualifiers (s : State) (g : Spare) (x : Option Transfer) :
    (s.setTransfer g x).qualifiers = s.qualifiers := rfl
@[simp] theorem State.setTransfer_lineOut (s : State) (g : Spare) (x : Option Transfer) :
    (s.setTransfer g x).lineOut = s.lineOut := rfl
@[simp] theorem State.setTransfer_sendModes (s : State) (g : Spare) (x : Option Transfer) :
    (s.setTransfer g x).sendModes = s.sendModes := rfl
@[simp] theorem State.setTransfer_systemOut (s : State) (g : Spare) (x : Option Transfer) :
    (s.setTransfer g x).systemOut = s.systemOut := rfl
@[simp] theorem State.setTransfer_feeds (s : State) (g : Spare) (x : Option Transfer) :
    (s.setTransfer g x).feeds = s.feeds := rfl
@[simp] theorem State.setTransfer_events (s : State) (g : Spare) (x : Option Transfer) :
    (s.setTransfer g x).events = s.events := rfl
@[simp] theorem State.setTransfer_window (s : State) (g : Spare) (x : Option Transfer) :
    (s.setTransfer g x).window = s.window := rfl

@[simp] theorem State.setTransfer_record (s : State) (g : Spare) (x : Option Transfer) (k : Circuit) :
    (s.setTransfer g x).record k = s.record k := rfl
@[simp] theorem State.setTransfer_engine (s : State) (g : Spare) (x : Option Transfer) (h : Spare) :
    (s.setTransfer g x).engine h = s.engine h := rfl
@[simp] theorem State.setTransfer_transfer_same (s : State) (g : Spare) (x : Option Transfer) :
    (s.setTransfer g x).transfer g = x := tabGet_tabSet_same _ _ _
@[simp] theorem State.setTransfer_transfer_other (s : State) {g h : Spare} (x : Option Transfer) (hne : g ≠ h) :
    (s.setTransfer g x).transfer h = s.transfer h := tabGet_tabSet_other _ _ hne
theorem State.setTransfer_transfer (s : State) (g h : Spare) (x : Option Transfer) :
    (s.setTransfer g x).transfer h = if g = h then x else s.transfer h := tabGet_tabSet _ _ _ _
@[simp] theorem State.setTransfer_transfer_self (s : State) (g : Spare) : s.setTransfer g (s.transfer g) = s := by
  simp [State.setTransfer, State.transfer]
@[simp] theorem State.setTransfer_transfer_twice (s : State) (g : Spare) (x : Option Transfer) (y : Option Transfer) :
    (s.setTransfer g x).setTransfer g y = s.setTransfer g y := by
  simp [State.setTransfer]
@[simp] theorem State.setTransfer_qualifier (s : State) (g : Spare) (x : Option Transfer) (h : Spare) :
    (s.setTransfer g x).qualifier h = s.qualifier h := rfl
@[simp] theorem State.setTransfer_monitor (s : State) (g : Spare) (x : Option Transfer) (p : Port) :
    (s.setTransfer g x).monitor p = s.monitor p := rfl
@[simp] theorem State.setTransfer_condition (s : State) (g : Spare) (x : Option Transfer) (p : Port) :
    (s.setTransfer g x).condition p = s.condition p := rfl
@[simp] theorem State.setTransfer_contextWord (s : State) (g : Spare) (x : Option Transfer) (a : Port) (i : WordIndex) :
    (s.setTransfer g x).contextWord a i = s.contextWord a i := rfl
@[simp] theorem State.setTransfer_farClaim (s : State) (g : Spare) (x : Option Transfer) (h : Spare) :
    (s.setTransfer g x).farClaim h = s.farClaim h := rfl
@[simp] theorem State.setTransfer_farSays (s : State) (g : Spare) (x : Option Transfer) (h : Spare) :
    (s.setTransfer g x).farSays h = s.farSays h := rfl
@[simp] theorem State.setTransfer_farClass (s : State) (g : Spare) (x : Option Transfer) (k : Circuit) :
    (s.setTransfer g x).farClass k = s.farClass k := rfl
@[simp] theorem State.setTransfer_localClass (s : State) (g : Spare) (x : Option Transfer) (k : Circuit) :
    (s.setTransfer g x).localClass k = s.localClass k := rfl
@[simp] theorem State.setTransfer_effClass (s : State) (g : Spare) (x : Option Transfer) (k : Circuit) :
    (s.setTransfer g x).effClass k = s.effClass k := rfl

/-! ## setQualifier -/

@[simp] theorem State.setQualifier_pending (s : State) (g : Spare) (q : Qualifier) :
    (s.setQualifier g q).pending = s.pending := rfl
@[simp] theorem State.setQualifier_inReset (s : State) (g : Spare) (q : Qualifier) :
    (s.setQualifier g q).inReset = s.inReset := rfl
@[simp] theorem State.setQualifier_role (s : State) (g : Spare) (q : Qualifier) :
    (s.setQualifier g q).role = s.role := rfl
@[simp] theorem State.setQualifier_regs (s : State) (g : Spare) (q : Qualifier) :
    (s.setQualifier g q).regs = s.regs := rfl
@[simp] theorem State.setQualifier_bus (s : State) (g : Spare) (q : Qualifier) :
    (s.setQualifier g q).bus = s.bus := rfl
@[simp] theorem State.setQualifier_records (s : State) (g : Spare) (q : Qualifier) :
    (s.setQualifier g q).records = s.records := rfl
@[simp] theorem State.setQualifier_queue (s : State) (g : Spare) (q : Qualifier) :
    (s.setQualifier g q).queue = s.queue := rfl
@[simp] theorem State.setQualifier_engines (s : State) (g : Spare) (q : Qualifier) :
    (s.setQualifier g q).engines = s.engines := rfl
@[simp] theorem State.setQualifier_transfers (s : State) (g : Spare) (q : Qualifier) :
    (s.setQualifier g q).transfers = s.transfers := rfl
@[simp] theorem State.setQualifier_store (s : State) (g : Spare) (q : Qualifier) :
    (s.setQualifier g q).store = s.store := rfl
@[simp] theorem State.setQualifier_fifo (s : State) (g : Spare) (q : Qualifier) :
    (s.setQualifier g q).fifo = s.fifo := rfl
@[simp] theorem State.setQualifier_transaction (s : State) (g : Spare) (q : Qualifier) :
    (s.setQualifier g q).transaction = s.transaction := rfl
@[simp] theorem State.setQualifier_rotation (s : State) (g : Spare) (q : Qualifier) :
    (s.setQualifier g q).rotation = s.rotation := rfl
@[simp] theorem State.setQualifier_outOfStep (s : State) (g : Spare) (q : Qualifier) :
    (s.setQualifier g q).outOfStep = s.outOfStep := rfl
@[simp] theorem State.setQualifier_monitors (s : State) (g : Spare) (q : Qualifier) :
    (s.setQualifier g q).monitors = s.monitors := rfl
@[simp] theorem State.setQualifier_conditions (s : State) (g : Spare) (q : Qualifier) :
    (s.setQualifier g q).conditions = s.conditions := rfl
@[simp] theorem State.setQualifier_recentBits (s : State) (g : Spare) (q : Qualifier) :
    (s.setQualifier g q).recentBits = s.recentBits := rfl
@[simp] theorem State.setQualifier_intervalTimer (s : State) (g : Spare) (q : Qualifier) :
    (s.setQualifier g q).intervalTimer = s.intervalTimer := rfl
@[simp] theorem State.setQualifier_qualifiers (s : State) (g : Spare) (q : Qualifier) :
    (s.setQualifier g q).qualifiers = tabSet s.qualifiers g q := rfl
@[simp] theorem State.setQualifier_lineOut (s : State) (g : Spare) (q : Qualifier) :
    (s.setQualifier g q).lineOut = s.lineOut := rfl
@[simp] theorem State.setQualifier_sendModes (s : State) (g : Spare) (q : Qualifier) :
    (s.setQualifier g q).sendModes = s.sendModes := rfl
@[simp] theorem State.setQualifier_systemOut (s : State) (g : Spare) (q : Qualifier) :
    (s.setQualifier g q).systemOut = s.systemOut := rfl
@[simp] theorem State.setQualifier_feeds (s : State) (g : Spare) (q : Qualifier) :
    (s.setQualifier g q).feeds = s.feeds := rfl
@[simp] theorem State.setQualifier_events (s : State) (g : Spare) (q : Qualifier) :
    (s.setQualifier g q).events = s.events := rfl
@[simp] theorem State.setQualifier_window (s : State) (g : Spare) (q : Qualifier) :
    (s.setQualifier g q).window = s.window := rfl

@[simp] theorem State.setQualifier_record (s : State) (g : Spare) (q : Qualifier) (k : Circuit) :
    (s.setQualifier g q).record k = s.record k := rfl
@[simp] theorem State.setQualifier_engine (s : State) (g : Spare) (q : Qualifier) (h : Spare) :
    (s.setQualifier g q).engine h = s.engine h := rfl
@[simp] theorem State.setQualifier_transfer (s : State) (g : Spare) (q : Qualifier) (h : Spare) :
    (s.setQualifier g q).transfer h = s.transfer h := rfl
@[simp] theorem State.setQualifier_qualifier_same (s : State) (g : Spare) (q : Qualifier) :
    (s.setQualifier g q).qualifier g = q := tabGet_tabSet_same _ _ _
@[simp] theorem State.setQualifier_qualifier_other (s : State) {g h : Spare} (q : Qualifier) (hne : g ≠ h) :
    (s.setQualifier g q).qualifier h = s.qualifier h := tabGet_tabSet_other _ _ hne
theorem State.setQualifier_qualifier (s : State) (g h : Spare) (q : Qualifier) :
    (s.setQualifier g q).qualifier h = if g = h then q else s.qualifier h := tabGet_tabSet _ _ _ _
@[simp] theorem State.setQualifier_qualifier_self (s : State) (g : Spare) : s.setQualifier g (s.qualifier g) = s := by
  simp [State.setQualifier, State.qualifier]
@[simp] theorem State.setQualifier_qualifier_twice (s : State) (g : Spare) (q : Qualifier) (y : Qualifier) :
    (s.setQualifier g q).setQualifier g y = s.setQualifier g y := by
  simp [State.setQualifier]
@[simp] theorem State.setQualifier_monitor (s : State) (g : Spare) (q : Qualifier) (p : Port) :
    (s.setQualifier g q).monitor p = s.monitor p := rfl
@[simp] theorem State.setQualifier_condition (s : State) (g : Spare) (q : Qualifier) (p : Port) :
    (s.setQualifier g q).condition p = s.condition p := rfl
@[simp] theorem State.setQualifier_contextWord (s : State) (g : Spare) (q : Qualifier) (a : Port) (i : WordIndex) :
    (s.setQualifier g q).contextWord a i = s.contextWord a i := rfl

/-! ## setMonitor -/

@[simp] theorem State.setMonitor_pending (s : State) (p : Port) (m : Monitor) :
    (s.setMonitor p m).pending = s.pending := rfl
@[simp] theorem State.setMonitor_inReset (s : State) (p : Port) (m : Monitor) :
    (s.setMonitor p m).inReset = s.inReset := rfl
@[simp] theorem State.setMonitor_role (s : State) (p : Port) (m : Monitor) : (s.setMonitor p m).role = s.role := rfl
@[simp] theorem State.setMonitor_regs (s : State) (p : Port) (m : Monitor) : (s.setMonitor p m).regs = s.regs := rfl
@[simp] theorem State.setMonitor_bus (s : State) (p : Port) (m : Monitor) : (s.setMonitor p m).bus = s.bus := rfl
@[simp] theorem State.setMonitor_records (s : State) (p : Port) (m : Monitor) :
    (s.setMonitor p m).records = s.records := rfl
@[simp] theorem State.setMonitor_queue (s : State) (p : Port) (m : Monitor) :
    (s.setMonitor p m).queue = s.queue := rfl
@[simp] theorem State.setMonitor_engines (s : State) (p : Port) (m : Monitor) :
    (s.setMonitor p m).engines = s.engines := rfl
@[simp] theorem State.setMonitor_transfers (s : State) (p : Port) (m : Monitor) :
    (s.setMonitor p m).transfers = s.transfers := rfl
@[simp] theorem State.setMonitor_store (s : State) (p : Port) (m : Monitor) :
    (s.setMonitor p m).store = s.store := rfl
@[simp] theorem State.setMonitor_fifo (s : State) (p : Port) (m : Monitor) : (s.setMonitor p m).fifo = s.fifo := rfl
@[simp] theorem State.setMonitor_transaction (s : State) (p : Port) (m : Monitor) :
    (s.setMonitor p m).transaction = s.transaction := rfl
@[simp] theorem State.setMonitor_rotation (s : State) (p : Port) (m : Monitor) :
    (s.setMonitor p m).rotation = s.rotation := rfl
@[simp] theorem State.setMonitor_outOfStep (s : State) (p : Port) (m : Monitor) :
    (s.setMonitor p m).outOfStep = s.outOfStep := rfl
@[simp] theorem State.setMonitor_monitors (s : State) (p : Port) (m : Monitor) :
    (s.setMonitor p m).monitors = tabSet s.monitors p m := rfl
@[simp] theorem State.setMonitor_conditions (s : State) (p : Port) (m : Monitor) :
    (s.setMonitor p m).conditions = s.conditions := rfl
@[simp] theorem State.setMonitor_recentBits (s : State) (p : Port) (m : Monitor) :
    (s.setMonitor p m).recentBits = s.recentBits := rfl
@[simp] theorem State.setMonitor_intervalTimer (s : State) (p : Port) (m : Monitor) :
    (s.setMonitor p m).intervalTimer = s.intervalTimer := rfl
@[simp] theorem State.setMonitor_qualifiers (s : State) (p : Port) (m : Monitor) :
    (s.setMonitor p m).qualifiers = s.qualifiers := rfl
@[simp] theorem State.setMonitor_lineOut (s : State) (p : Port) (m : Monitor) :
    (s.setMonitor p m).lineOut = s.lineOut := rfl
@[simp] theorem State.setMonitor_sendModes (s : State) (p : Port) (m : Monitor) :
    (s.setMonitor p m).sendModes = s.sendModes := rfl
@[simp] theorem State.setMonitor_systemOut (s : State) (p : Port) (m : Monitor) :
    (s.setMonitor p m).systemOut = s.systemOut := rfl
@[simp] theorem State.setMonitor_feeds (s : State) (p : Port) (m : Monitor) :
    (s.setMonitor p m).feeds = s.feeds := rfl
@[simp] theorem State.setMonitor_events (s : State) (p : Port) (m : Monitor) :
    (s.setMonitor p m).events = s.events := rfl
@[simp] theorem State.setMonitor_window (s : State) (p : Port) (m : Monitor) :
    (s.setMonitor p m).window = s.window := rfl

@[simp] theorem State.setMonitor_record (s : State) (p : Port) (m : Monitor) (k : Circuit) :
    (s.setMonitor p m).record k = s.record k := rfl
@[simp] theorem State.setMonitor_engine (s : State) (p : Port) (m : Monitor) (g : Spare) :
    (s.setMonitor p m).engine g = s.engine g := rfl
@[simp] theorem State.setMonitor_transfer (s : State) (p : Port) (m : Monitor) (g : Spare) :
    (s.setMonitor p m).transfer g = s.transfer g := rfl
@[simp] theorem State.setMonitor_qualifier (s : State) (p : Port) (m : Monitor) (g : Spare) :
    (s.setMonitor p m).qualifier g = s.qualifier g := rfl
@[simp] theorem State.setMonitor_monitor_same (s : State) (p : Port) (m : Monitor) :
    (s.setMonitor p m).monitor p = m := tabGet_tabSet_same _ _ _
@[simp] theorem State.setMonitor_monitor_other (s : State) {p q : Port} (m : Monitor) (hne : p ≠ q) :
    (s.setMonitor p m).monitor q = s.monitor q := tabGet_tabSet_other _ _ hne
theorem State.setMonitor_monitor (s : State) (p q : Port) (m : Monitor) :
    (s.setMonitor p m).monitor q = if p = q then m else s.monitor q := tabGet_tabSet _ _ _ _
@[simp] theorem State.setMonitor_monitor_self (s : State) (p : Port) : s.setMonitor p (s.monitor p) = s := by
  simp [State.setMonitor, State.monitor]
@[simp] theorem State.setMonitor_monitor_twice (s : State) (p : Port) (m : Monitor) (y : Monitor) :
    (s.setMonitor p m).setMonitor p y = s.setMonitor p y := by
  simp [State.setMonitor]
@[simp] theorem State.setMonitor_condition (s : State) (p : Port) (m : Monitor) (q : Port) :
    (s.setMonitor p m).condition q = s.condition q := rfl
@[simp] theorem State.setMonitor_contextWord (s : State) (p : Port) (m : Monitor) (a : Port) (i : WordIndex) :
    (s.setMonitor p m).contextWord a i = s.contextWord a i := rfl
@[simp] theorem State.setMonitor_farClaim (s : State) (p : Port) (m : Monitor) (g : Spare) :
    (s.setMonitor p m).farClaim g = s.farClaim g := rfl
@[simp] theorem State.setMonitor_farSays (s : State) (p : Port) (m : Monitor) (g : Spare) :
    (s.setMonitor p m).farSays g = s.farSays g := rfl
@[simp] theorem State.setMonitor_farClass (s : State) (p : Port) (m : Monitor) (k : Circuit) :
    (s.setMonitor p m).farClass k = s.farClass k := rfl
@[simp] theorem State.setMonitor_localClass (s : State) (p : Port) (m : Monitor) (k : Circuit) :
    (s.setMonitor p m).localClass k = s.localClass k := rfl
@[simp] theorem State.setMonitor_effClass (s : State) (p : Port) (m : Monitor) (k : Circuit) :
    (s.setMonitor p m).effClass k = s.effClass k := rfl

/-! ## setCondition -/

@[simp] theorem State.setCondition_pending (s : State) (p : Port) (c : Condition) :
    (s.setCondition p c).pending = s.pending := rfl
@[simp] theorem State.setCondition_inReset (s : State) (p : Port) (c : Condition) :
    (s.setCondition p c).inReset = s.inReset := rfl
@[simp] theorem State.setCondition_role (s : State) (p : Port) (c : Condition) :
    (s.setCondition p c).role = s.role := rfl
@[simp] theorem State.setCondition_regs (s : State) (p : Port) (c : Condition) :
    (s.setCondition p c).regs = s.regs := rfl
@[simp] theorem State.setCondition_bus (s : State) (p : Port) (c : Condition) :
    (s.setCondition p c).bus = s.bus := rfl
@[simp] theorem State.setCondition_records (s : State) (p : Port) (c : Condition) :
    (s.setCondition p c).records = s.records := rfl
@[simp] theorem State.setCondition_queue (s : State) (p : Port) (c : Condition) :
    (s.setCondition p c).queue = s.queue := rfl
@[simp] theorem State.setCondition_engines (s : State) (p : Port) (c : Condition) :
    (s.setCondition p c).engines = s.engines := rfl
@[simp] theorem State.setCondition_transfers (s : State) (p : Port) (c : Condition) :
    (s.setCondition p c).transfers = s.transfers := rfl
@[simp] theorem State.setCondition_store (s : State) (p : Port) (c : Condition) :
    (s.setCondition p c).store = s.store := rfl
@[simp] theorem State.setCondition_fifo (s : State) (p : Port) (c : Condition) :
    (s.setCondition p c).fifo = s.fifo := rfl
@[simp] theorem State.setCondition_transaction (s : State) (p : Port) (c : Condition) :
    (s.setCondition p c).transaction = s.transaction := rfl
@[simp] theorem State.setCondition_rotation (s : State) (p : Port) (c : Condition) :
    (s.setCondition p c).rotation = s.rotation := rfl
@[simp] theorem State.setCondition_outOfStep (s : State) (p : Port) (c : Condition) :
    (s.setCondition p c).outOfStep = s.outOfStep := rfl
@[simp] theorem State.setCondition_monitors (s : State) (p : Port) (c : Condition) :
    (s.setCondition p c).monitors = s.monitors := rfl
@[simp] theorem State.setCondition_conditions (s : State) (p : Port) (c : Condition) :
    (s.setCondition p c).conditions = tabSet s.conditions p c := rfl
@[simp] theorem State.setCondition_intervalTimer (s : State) (p : Port) (c : Condition) :
    (s.setCondition p c).intervalTimer = s.intervalTimer := rfl
@[simp] theorem State.setCondition_qualifiers (s : State) (p : Port) (c : Condition) :
    (s.setCondition p c).qualifiers = s.qualifiers := rfl
@[simp] theorem State.setCondition_lineOut (s : State) (p : Port) (c : Condition) :
    (s.setCondition p c).lineOut = s.lineOut := rfl
@[simp] theorem State.setCondition_sendModes (s : State) (p : Port) (c : Condition) :
    (s.setCondition p c).sendModes = s.sendModes := rfl
@[simp] theorem State.setCondition_recentBits (s : State) (p : Port) (c : Condition) :
    (s.setCondition p c).recentBits = s.recentBits := rfl
@[simp] theorem State.setCondition_systemOut (s : State) (p : Port) (c : Condition) :
    (s.setCondition p c).systemOut = s.systemOut := rfl
@[simp] theorem State.setCondition_feeds (s : State) (p : Port) (c : Condition) :
    (s.setCondition p c).feeds = s.feeds := rfl
@[simp] theorem State.setCondition_events (s : State) (p : Port) (c : Condition) :
    (s.setCondition p c).events = s.events := rfl
@[simp] theorem State.setCondition_window (s : State) (p : Port) (c : Condition) :
    (s.setCondition p c).window = s.window := rfl

@[simp] theorem State.setCondition_record (s : State) (p : Port) (c : Condition) (k : Circuit) :
    (s.setCondition p c).record k = s.record k := rfl
@[simp] theorem State.setCondition_engine (s : State) (p : Port) (c : Condition) (g : Spare) :
    (s.setCondition p c).engine g = s.engine g := rfl
@[simp] theorem State.setCondition_transfer (s : State) (p : Port) (c : Condition) (g : Spare) :
    (s.setCondition p c).transfer g = s.transfer g := rfl
@[simp] theorem State.setCondition_qualifier (s : State) (p : Port) (c : Condition) (g : Spare) :
    (s.setCondition p c).qualifier g = s.qualifier g := rfl
@[simp] theorem State.setCondition_monitor (s : State) (p : Port) (c : Condition) (q : Port) :
    (s.setCondition p c).monitor q = s.monitor q := rfl
@[simp] theorem State.setCondition_condition_same (s : State) (p : Port) (c : Condition) :
    (s.setCondition p c).condition p = c := tabGet_tabSet_same _ _ _
@[simp] theorem State.setCondition_condition_other (s : State) {p q : Port} (c : Condition) (hne : p ≠ q) :
    (s.setCondition p c).condition q = s.condition q := tabGet_tabSet_other _ _ hne
theorem State.setCondition_condition (s : State) (p q : Port) (c : Condition) :
    (s.setCondition p c).condition q = if p = q then c else s.condition q := tabGet_tabSet _ _ _ _
@[simp] theorem State.setCondition_condition_self (s : State) (p : Port) : s.setCondition p (s.condition p) = s := by
  simp [State.setCondition, State.condition]
@[simp] theorem State.setCondition_condition_twice (s : State) (p : Port) (c : Condition) (y : Condition) :
    (s.setCondition p c).setCondition p y = s.setCondition p y := by
  simp [State.setCondition]
@[simp] theorem State.setCondition_contextWord (s : State) (p : Port) (c : Condition) (a : Port) (i : WordIndex) :
    (s.setCondition p c).contextWord a i = s.contextWord a i := rfl
@[simp] theorem State.setCondition_farClaim (s : State) (p : Port) (c : Condition) (g : Spare) :
    (s.setCondition p c).farClaim g = s.farClaim g := rfl
@[simp] theorem State.setCondition_farSays (s : State) (p : Port) (c : Condition) (g : Spare) :
    (s.setCondition p c).farSays g = s.farSays g := rfl
@[simp] theorem State.setCondition_farClass (s : State) (p : Port) (c : Condition) (k : Circuit) :
    (s.setCondition p c).farClass k = s.farClass k := rfl
@[simp] theorem State.setCondition_localClass (s : State) (p : Port) (c : Condition) (k : Circuit) :
    (s.setCondition p c).localClass k = s.localClass k := rfl
@[simp] theorem State.setCondition_effClass (s : State) (p : Port) (c : Condition) (k : Circuit) :
    (s.setCondition p c).effClass k = s.effClass k := rfl

/-! ## setOutOfStep -/

@[simp] theorem State.setOutOfStep_pending (s : State) (p : Port) (b : Bool) :
    (s.setOutOfStep p b).pending = s.pending := rfl
@[simp] theorem State.setOutOfStep_inReset (s : State) (p : Port) (b : Bool) :
    (s.setOutOfStep p b).inReset = s.inReset := rfl
@[simp] theorem State.setOutOfStep_role (s : State) (p : Port) (b : Bool) : (s.setOutOfStep p b).role = s.role := rfl
@[simp] theorem State.setOutOfStep_regs (s : State) (p : Port) (b : Bool) : (s.setOutOfStep p b).regs = s.regs := rfl
@[simp] theorem State.setOutOfStep_bus (s : State) (p : Port) (b : Bool) : (s.setOutOfStep p b).bus = s.bus := rfl
@[simp] theorem State.setOutOfStep_records (s : State) (p : Port) (b : Bool) :
    (s.setOutOfStep p b).records = s.records := rfl
@[simp] theorem State.setOutOfStep_queue (s : State) (p : Port) (b : Bool) :
    (s.setOutOfStep p b).queue = s.queue := rfl
@[simp] theorem State.setOutOfStep_engines (s : State) (p : Port) (b : Bool) :
    (s.setOutOfStep p b).engines = s.engines := rfl
@[simp] theorem State.setOutOfStep_transfers (s : State) (p : Port) (b : Bool) :
    (s.setOutOfStep p b).transfers = s.transfers := rfl
@[simp] theorem State.setOutOfStep_store (s : State) (p : Port) (b : Bool) :
    (s.setOutOfStep p b).store = s.store := rfl
@[simp] theorem State.setOutOfStep_fifo (s : State) (p : Port) (b : Bool) : (s.setOutOfStep p b).fifo = s.fifo := rfl
@[simp] theorem State.setOutOfStep_transaction (s : State) (p : Port) (b : Bool) :
    (s.setOutOfStep p b).transaction = s.transaction := rfl
@[simp] theorem State.setOutOfStep_rotation (s : State) (p : Port) (b : Bool) :
    (s.setOutOfStep p b).rotation = s.rotation := rfl
@[simp] theorem State.setOutOfStep_outOfStep (s : State) (p : Port) (b : Bool) :
    (s.setOutOfStep p b).outOfStep = tabSet s.outOfStep p b := rfl
@[simp] theorem State.setOutOfStep_monitors (s : State) (p : Port) (b : Bool) :
    (s.setOutOfStep p b).monitors = s.monitors := rfl
@[simp] theorem State.setOutOfStep_conditions (s : State) (p : Port) (b : Bool) :
    (s.setOutOfStep p b).conditions = s.conditions := rfl
@[simp] theorem State.setOutOfStep_recentBits (s : State) (p : Port) (b : Bool) :
    (s.setOutOfStep p b).recentBits = s.recentBits := rfl
@[simp] theorem State.setOutOfStep_intervalTimer (s : State) (p : Port) (b : Bool) :
    (s.setOutOfStep p b).intervalTimer = s.intervalTimer := rfl
@[simp] theorem State.setOutOfStep_qualifiers (s : State) (p : Port) (b : Bool) :
    (s.setOutOfStep p b).qualifiers = s.qualifiers := rfl
@[simp] theorem State.setOutOfStep_lineOut (s : State) (p : Port) (b : Bool) :
    (s.setOutOfStep p b).lineOut = s.lineOut := rfl
@[simp] theorem State.setOutOfStep_sendModes (s : State) (p : Port) (b : Bool) :
    (s.setOutOfStep p b).sendModes = s.sendModes := rfl
@[simp] theorem State.setOutOfStep_systemOut (s : State) (p : Port) (b : Bool) :
    (s.setOutOfStep p b).systemOut = s.systemOut := rfl
@[simp] theorem State.setOutOfStep_feeds (s : State) (p : Port) (b : Bool) :
    (s.setOutOfStep p b).feeds = s.feeds := rfl
@[simp] theorem State.setOutOfStep_events (s : State) (p : Port) (b : Bool) :
    (s.setOutOfStep p b).events = s.events := rfl
@[simp] theorem State.setOutOfStep_window (s : State) (p : Port) (b : Bool) :
    (s.setOutOfStep p b).window = s.window := rfl

@[simp] theorem State.setOutOfStep_record (s : State) (p : Port) (b : Bool) (k : Circuit) :
    (s.setOutOfStep p b).record k = s.record k := rfl
@[simp] theorem State.setOutOfStep_engine (s : State) (p : Port) (b : Bool) (g : Spare) :
    (s.setOutOfStep p b).engine g = s.engine g := rfl
@[simp] theorem State.setOutOfStep_transfer (s : State) (p : Port) (b : Bool) (g : Spare) :
    (s.setOutOfStep p b).transfer g = s.transfer g := rfl
@[simp] theorem State.setOutOfStep_qualifier (s : State) (p : Port) (b : Bool) (g : Spare) :
    (s.setOutOfStep p b).qualifier g = s.qualifier g := rfl
@[simp] theorem State.setOutOfStep_monitor (s : State) (p : Port) (b : Bool) (q : Port) :
    (s.setOutOfStep p b).monitor q = s.monitor q := rfl
@[simp] theorem State.setOutOfStep_condition (s : State) (p : Port) (b : Bool) (q : Port) :
    (s.setOutOfStep p b).condition q = s.condition q := rfl
@[simp] theorem State.setOutOfStep_contextWord (s : State) (p : Port) (b : Bool) (a : Port) (i : WordIndex) :
    (s.setOutOfStep p b).contextWord a i = s.contextWord a i := rfl
@[simp] theorem State.setOutOfStep_farClaim (s : State) (p : Port) (b : Bool) (g : Spare) :
    (s.setOutOfStep p b).farClaim g = s.farClaim g := rfl
@[simp] theorem State.setOutOfStep_farSays (s : State) (p : Port) (b : Bool) (g : Spare) :
    (s.setOutOfStep p b).farSays g = s.farSays g := rfl
@[simp] theorem State.setOutOfStep_farClass (s : State) (p : Port) (b : Bool) (k : Circuit) :
    (s.setOutOfStep p b).farClass k = s.farClass k := rfl
@[simp] theorem State.setOutOfStep_localClass (s : State) (p : Port) (b : Bool) (k : Circuit) :
    (s.setOutOfStep p b).localClass k = s.localClass k := rfl
@[simp] theorem State.setOutOfStep_effClass (s : State) (p : Port) (b : Bool) (k : Circuit) :
    (s.setOutOfStep p b).effClass k = s.effClass k := rfl

/-! ## setQueue -/

@[simp] theorem State.setQueue_pending (s : State) (l : List Circuit) : (s.setQueue l).pending = s.pending := rfl
@[simp] theorem State.setQueue_inReset (s : State) (l : List Circuit) : (s.setQueue l).inReset = s.inReset := rfl
@[simp] theorem State.setQueue_role (s : State) (l : List Circuit) : (s.setQueue l).role = s.role := rfl
@[simp] theorem State.setQueue_regs (s : State) (l : List Circuit) : (s.setQueue l).regs = s.regs := rfl
@[simp] theorem State.setQueue_bus (s : State) (l : List Circuit) : (s.setQueue l).bus = s.bus := rfl
@[simp] theorem State.setQueue_records (s : State) (l : List Circuit) : (s.setQueue l).records = s.records := rfl
@[simp] theorem State.setQueue_queue (s : State) (l : List Circuit) : (s.setQueue l).queue = l := rfl
@[simp] theorem State.setQueue_engines (s : State) (l : List Circuit) : (s.setQueue l).engines = s.engines := rfl
@[simp] theorem State.setQueue_transfers (s : State) (l : List Circuit) :
    (s.setQueue l).transfers = s.transfers := rfl
@[simp] theorem State.setQueue_store (s : State) (l : List Circuit) : (s.setQueue l).store = s.store := rfl
@[simp] theorem State.setQueue_fifo (s : State) (l : List Circuit) : (s.setQueue l).fifo = s.fifo := rfl
@[simp] theorem State.setQueue_transaction (s : State) (l : List Circuit) :
    (s.setQueue l).transaction = s.transaction := rfl
@[simp] theorem State.setQueue_rotation (s : State) (l : List Circuit) : (s.setQueue l).rotation = s.rotation := rfl
@[simp] theorem State.setQueue_outOfStep (s : State) (l : List Circuit) :
    (s.setQueue l).outOfStep = s.outOfStep := rfl
@[simp] theorem State.setQueue_monitors (s : State) (l : List Circuit) : (s.setQueue l).monitors = s.monitors := rfl
@[simp] theorem State.setQueue_conditions (s : State) (l : List Circuit) :
    (s.setQueue l).conditions = s.conditions := rfl
@[simp] theorem State.setQueue_recentBits (s : State) (l : List Circuit) :
    (s.setQueue l).recentBits = s.recentBits := rfl
@[simp] theorem State.setQueue_intervalTimer (s : State) (l : List Circuit) :
    (s.setQueue l).intervalTimer = s.intervalTimer := rfl
@[simp] theorem State.setQueue_qualifiers (s : State) (l : List Circuit) :
    (s.setQueue l).qualifiers = s.qualifiers := rfl
@[simp] theorem State.setQueue_lineOut (s : State) (l : List Circuit) : (s.setQueue l).lineOut = s.lineOut := rfl
@[simp] theorem State.setQueue_sendModes (s : State) (l : List Circuit) :
    (s.setQueue l).sendModes = s.sendModes := rfl
@[simp] theorem State.setQueue_systemOut (s : State) (l : List Circuit) :
    (s.setQueue l).systemOut = s.systemOut := rfl
@[simp] theorem State.setQueue_feeds (s : State) (l : List Circuit) : (s.setQueue l).feeds = s.feeds := rfl
@[simp] theorem State.setQueue_events (s : State) (l : List Circuit) : (s.setQueue l).events = s.events := rfl
@[simp] theorem State.setQueue_window (s : State) (l : List Circuit) : (s.setQueue l).window = s.window := rfl

@[simp] theorem State.setQueue_record (s : State) (l : List Circuit) (k : Circuit) :
    (s.setQueue l).record k = s.record k := rfl
@[simp] theorem State.setQueue_engine (s : State) (l : List Circuit) (g : Spare) :
    (s.setQueue l).engine g = s.engine g := rfl
@[simp] theorem State.setQueue_transfer (s : State) (l : List Circuit) (g : Spare) :
    (s.setQueue l).transfer g = s.transfer g := rfl
@[simp] theorem State.setQueue_qualifier (s : State) (l : List Circuit) (g : Spare) :
    (s.setQueue l).qualifier g = s.qualifier g := rfl
@[simp] theorem State.setQueue_monitor (s : State) (l : List Circuit) (p : Port) :
    (s.setQueue l).monitor p = s.monitor p := rfl
@[simp] theorem State.setQueue_condition (s : State) (l : List Circuit) (p : Port) :
    (s.setQueue l).condition p = s.condition p := rfl
@[simp] theorem State.setQueue_contextWord (s : State) (l : List Circuit) (a : Port) (i : WordIndex) :
    (s.setQueue l).contextWord a i = s.contextWord a i := rfl
@[simp] theorem State.setQueue_farClaim (s : State) (l : List Circuit) (g : Spare) :
    (s.setQueue l).farClaim g = s.farClaim g := rfl
@[simp] theorem State.setQueue_farSays (s : State) (l : List Circuit) (g : Spare) :
    (s.setQueue l).farSays g = s.farSays g := rfl
@[simp] theorem State.setQueue_farClass (s : State) (l : List Circuit) (k : Circuit) :
    (s.setQueue l).farClass k = s.farClass k := rfl
@[simp] theorem State.setQueue_localClass (s : State) (l : List Circuit) (k : Circuit) :
    (s.setQueue l).localClass k = s.localClass k := rfl
@[simp] theorem State.setQueue_effClass (s : State) (l : List Circuit) (k : Circuit) :
    (s.setQueue l).effClass k = s.effClass k := rfl

/-! ## setRegs -/

@[simp] theorem State.setRegs_pending (s : State) (r : Registers) : (s.setRegs r).pending = s.pending := rfl
@[simp] theorem State.setRegs_inReset (s : State) (r : Registers) : (s.setRegs r).inReset = s.inReset := rfl
@[simp] theorem State.setRegs_role (s : State) (r : Registers) : (s.setRegs r).role = s.role := rfl
@[simp] theorem State.setRegs_regs (s : State) (r : Registers) : (s.setRegs r).regs = r := rfl
@[simp] theorem State.setRegs_bus (s : State) (r : Registers) : (s.setRegs r).bus = s.bus := rfl
@[simp] theorem State.setRegs_records (s : State) (r : Registers) : (s.setRegs r).records = s.records := rfl
@[simp] theorem State.setRegs_queue (s : State) (r : Registers) : (s.setRegs r).queue = s.queue := rfl
@[simp] theorem State.setRegs_engines (s : State) (r : Registers) : (s.setRegs r).engines = s.engines := rfl
@[simp] theorem State.setRegs_transfers (s : State) (r : Registers) : (s.setRegs r).transfers = s.transfers := rfl
@[simp] theorem State.setRegs_store (s : State) (r : Registers) : (s.setRegs r).store = s.store := rfl
@[simp] theorem State.setRegs_fifo (s : State) (r : Registers) : (s.setRegs r).fifo = s.fifo := rfl
@[simp] theorem State.setRegs_transaction (s : State) (r : Registers) :
    (s.setRegs r).transaction = s.transaction := rfl
@[simp] theorem State.setRegs_rotation (s : State) (r : Registers) : (s.setRegs r).rotation = s.rotation := rfl
@[simp] theorem State.setRegs_outOfStep (s : State) (r : Registers) : (s.setRegs r).outOfStep = s.outOfStep := rfl
@[simp] theorem State.setRegs_monitors (s : State) (r : Registers) : (s.setRegs r).monitors = s.monitors := rfl
@[simp] theorem State.setRegs_conditions (s : State) (r : Registers) : (s.setRegs r).conditions = s.conditions := rfl
@[simp] theorem State.setRegs_recentBits (s : State) (r : Registers) : (s.setRegs r).recentBits = s.recentBits := rfl
@[simp] theorem State.setRegs_intervalTimer (s : State) (r : Registers) :
    (s.setRegs r).intervalTimer = s.intervalTimer := rfl
@[simp] theorem State.setRegs_qualifiers (s : State) (r : Registers) : (s.setRegs r).qualifiers = s.qualifiers := rfl
@[simp] theorem State.setRegs_lineOut (s : State) (r : Registers) : (s.setRegs r).lineOut = s.lineOut := rfl
@[simp] theorem State.setRegs_sendModes (s : State) (r : Registers) : (s.setRegs r).sendModes = s.sendModes := rfl
@[simp] theorem State.setRegs_systemOut (s : State) (r : Registers) : (s.setRegs r).systemOut = s.systemOut := rfl
@[simp] theorem State.setRegs_feeds (s : State) (r : Registers) : (s.setRegs r).feeds = s.feeds := rfl
@[simp] theorem State.setRegs_events (s : State) (r : Registers) : (s.setRegs r).events = s.events := rfl
@[simp] theorem State.setRegs_window (s : State) (r : Registers) : (s.setRegs r).window = s.window := rfl

@[simp] theorem State.setRegs_record (s : State) (r : Registers) (k : Circuit) :
    (s.setRegs r).record k = s.record k := rfl
@[simp] theorem State.setRegs_engine (s : State) (r : Registers) (g : Spare) :
    (s.setRegs r).engine g = s.engine g := rfl
@[simp] theorem State.setRegs_transfer (s : State) (r : Registers) (g : Spare) :
    (s.setRegs r).transfer g = s.transfer g := rfl
@[simp] theorem State.setRegs_qualifier (s : State) (r : Registers) (g : Spare) :
    (s.setRegs r).qualifier g = s.qualifier g := rfl
@[simp] theorem State.setRegs_monitor (s : State) (r : Registers) (p : Port) :
    (s.setRegs r).monitor p = s.monitor p := rfl
@[simp] theorem State.setRegs_condition (s : State) (r : Registers) (p : Port) :
    (s.setRegs r).condition p = s.condition p := rfl
@[simp] theorem State.setRegs_contextWord (s : State) (r : Registers) (a : Port) (i : WordIndex) :
    (s.setRegs r).contextWord a i = s.contextWord a i := rfl
@[simp] theorem State.setRegs_farClaim (s : State) (r : Registers) (g : Spare) :
    (s.setRegs r).farClaim g = s.farClaim g := rfl
@[simp] theorem State.setRegs_farSays (s : State) (r : Registers) (g : Spare) :
    (s.setRegs r).farSays g = s.farSays g := rfl
@[simp] theorem State.setRegs_farClass (s : State) (r : Registers) (k : Circuit) :
    (s.setRegs r).farClass k = s.farClass k := rfl
@[simp] theorem State.setRegs_localClass (s : State) (r : Registers) (k : Circuit) :
    (s.setRegs r).localClass k = s.localClass k := rfl
@[simp] theorem State.setRegs_effClass (s : State) (r : Registers) (k : Circuit) :
    (s.setRegs r).effClass k = s.effClass k := rfl

/-! ## setBus -/

@[simp] theorem State.setBus_pending (s : State) (b : Bus) : (s.setBus b).pending = s.pending := rfl
@[simp] theorem State.setBus_inReset (s : State) (b : Bus) : (s.setBus b).inReset = s.inReset := rfl
@[simp] theorem State.setBus_role (s : State) (b : Bus) : (s.setBus b).role = s.role := rfl
@[simp] theorem State.setBus_regs (s : State) (b : Bus) : (s.setBus b).regs = s.regs := rfl
@[simp] theorem State.setBus_bus (s : State) (b : Bus) : (s.setBus b).bus = b := rfl
@[simp] theorem State.setBus_records (s : State) (b : Bus) : (s.setBus b).records = s.records := rfl
@[simp] theorem State.setBus_queue (s : State) (b : Bus) : (s.setBus b).queue = s.queue := rfl
@[simp] theorem State.setBus_engines (s : State) (b : Bus) : (s.setBus b).engines = s.engines := rfl
@[simp] theorem State.setBus_transfers (s : State) (b : Bus) : (s.setBus b).transfers = s.transfers := rfl
@[simp] theorem State.setBus_store (s : State) (b : Bus) : (s.setBus b).store = s.store := rfl
@[simp] theorem State.setBus_fifo (s : State) (b : Bus) : (s.setBus b).fifo = s.fifo := rfl
@[simp] theorem State.setBus_transaction (s : State) (b : Bus) : (s.setBus b).transaction = s.transaction := rfl
@[simp] theorem State.setBus_rotation (s : State) (b : Bus) : (s.setBus b).rotation = s.rotation := rfl
@[simp] theorem State.setBus_outOfStep (s : State) (b : Bus) : (s.setBus b).outOfStep = s.outOfStep := rfl
@[simp] theorem State.setBus_monitors (s : State) (b : Bus) : (s.setBus b).monitors = s.monitors := rfl
@[simp] theorem State.setBus_conditions (s : State) (b : Bus) : (s.setBus b).conditions = s.conditions := rfl
@[simp] theorem State.setBus_recentBits (s : State) (b : Bus) : (s.setBus b).recentBits = s.recentBits := rfl
@[simp] theorem State.setBus_intervalTimer (s : State) (b : Bus) : (s.setBus b).intervalTimer = s.intervalTimer := rfl
@[simp] theorem State.setBus_qualifiers (s : State) (b : Bus) : (s.setBus b).qualifiers = s.qualifiers := rfl
@[simp] theorem State.setBus_lineOut (s : State) (b : Bus) : (s.setBus b).lineOut = s.lineOut := rfl
@[simp] theorem State.setBus_sendModes (s : State) (b : Bus) : (s.setBus b).sendModes = s.sendModes := rfl
@[simp] theorem State.setBus_systemOut (s : State) (b : Bus) : (s.setBus b).systemOut = s.systemOut := rfl
@[simp] theorem State.setBus_feeds (s : State) (b : Bus) : (s.setBus b).feeds = s.feeds := rfl
@[simp] theorem State.setBus_events (s : State) (b : Bus) : (s.setBus b).events = s.events := rfl
@[simp] theorem State.setBus_window (s : State) (b : Bus) : (s.setBus b).window = s.window := rfl

@[simp] theorem State.setBus_record (s : State) (b : Bus) (k : Circuit) :
    (s.setBus b).record k = s.record k := rfl
@[simp] theorem State.setBus_engine (s : State) (b : Bus) (g : Spare) :
    (s.setBus b).engine g = s.engine g := rfl
@[simp] theorem State.setBus_transfer (s : State) (b : Bus) (g : Spare) :
    (s.setBus b).transfer g = s.transfer g := rfl
@[simp] theorem State.setBus_qualifier (s : State) (b : Bus) (g : Spare) :
    (s.setBus b).qualifier g = s.qualifier g := rfl
@[simp] theorem State.setBus_monitor (s : State) (b : Bus) (p : Port) :
    (s.setBus b).monitor p = s.monitor p := rfl
@[simp] theorem State.setBus_condition (s : State) (b : Bus) (p : Port) :
    (s.setBus b).condition p = s.condition p := rfl
@[simp] theorem State.setBus_contextWord (s : State) (b : Bus) (a : Port) (i : WordIndex) :
    (s.setBus b).contextWord a i = s.contextWord a i := rfl
@[simp] theorem State.setBus_farClaim (s : State) (b : Bus) (g : Spare) :
    (s.setBus b).farClaim g = s.farClaim g := rfl
@[simp] theorem State.setBus_farSays (s : State) (b : Bus) (g : Spare) :
    (s.setBus b).farSays g = s.farSays g := rfl
@[simp] theorem State.setBus_farClass (s : State) (b : Bus) (k : Circuit) :
    (s.setBus b).farClass k = s.farClass k := rfl
@[simp] theorem State.setBus_localClass (s : State) (b : Bus) (k : Circuit) :
    (s.setBus b).localClass k = s.localClass k := rfl
@[simp] theorem State.setBus_effClass (s : State) (b : Bus) (k : Circuit) :
    (s.setBus b).effClass k = s.effClass k := rfl

/-! ## setEvents -/

@[simp] theorem State.setEvents_pending (s : State) (q : EventQueue) : (s.setEvents q).pending = s.pending := rfl
@[simp] theorem State.setEvents_inReset (s : State) (q : EventQueue) : (s.setEvents q).inReset = s.inReset := rfl
@[simp] theorem State.setEvents_role (s : State) (q : EventQueue) : (s.setEvents q).role = s.role := rfl
@[simp] theorem State.setEvents_regs (s : State) (q : EventQueue) : (s.setEvents q).regs = s.regs := rfl
@[simp] theorem State.setEvents_bus (s : State) (q : EventQueue) : (s.setEvents q).bus = s.bus := rfl
@[simp] theorem State.setEvents_records (s : State) (q : EventQueue) : (s.setEvents q).records = s.records := rfl
@[simp] theorem State.setEvents_queue (s : State) (q : EventQueue) : (s.setEvents q).queue = s.queue := rfl
@[simp] theorem State.setEvents_engines (s : State) (q : EventQueue) : (s.setEvents q).engines = s.engines := rfl
@[simp] theorem State.setEvents_transfers (s : State) (q : EventQueue) :
    (s.setEvents q).transfers = s.transfers := rfl
@[simp] theorem State.setEvents_store (s : State) (q : EventQueue) : (s.setEvents q).store = s.store := rfl
@[simp] theorem State.setEvents_fifo (s : State) (q : EventQueue) : (s.setEvents q).fifo = s.fifo := rfl
@[simp] theorem State.setEvents_transaction (s : State) (q : EventQueue) :
    (s.setEvents q).transaction = s.transaction := rfl
@[simp] theorem State.setEvents_rotation (s : State) (q : EventQueue) : (s.setEvents q).rotation = s.rotation := rfl
@[simp] theorem State.setEvents_outOfStep (s : State) (q : EventQueue) :
    (s.setEvents q).outOfStep = s.outOfStep := rfl
@[simp] theorem State.setEvents_monitors (s : State) (q : EventQueue) : (s.setEvents q).monitors = s.monitors := rfl
@[simp] theorem State.setEvents_conditions (s : State) (q : EventQueue) :
    (s.setEvents q).conditions = s.conditions := rfl
@[simp] theorem State.setEvents_recentBits (s : State) (q : EventQueue) :
    (s.setEvents q).recentBits = s.recentBits := rfl
@[simp] theorem State.setEvents_intervalTimer (s : State) (q : EventQueue) :
    (s.setEvents q).intervalTimer = s.intervalTimer := rfl
@[simp] theorem State.setEvents_qualifiers (s : State) (q : EventQueue) :
    (s.setEvents q).qualifiers = s.qualifiers := rfl
@[simp] theorem State.setEvents_lineOut (s : State) (q : EventQueue) : (s.setEvents q).lineOut = s.lineOut := rfl
@[simp] theorem State.setEvents_sendModes (s : State) (q : EventQueue) :
    (s.setEvents q).sendModes = s.sendModes := rfl
@[simp] theorem State.setEvents_systemOut (s : State) (q : EventQueue) :
    (s.setEvents q).systemOut = s.systemOut := rfl
@[simp] theorem State.setEvents_feeds (s : State) (q : EventQueue) : (s.setEvents q).feeds = s.feeds := rfl
@[simp] theorem State.setEvents_events (s : State) (q : EventQueue) : (s.setEvents q).events = q := rfl
@[simp] theorem State.setEvents_window (s : State) (q : EventQueue) : (s.setEvents q).window = s.window := rfl

@[simp] theorem State.setEvents_record (s : State) (q : EventQueue) (k : Circuit) :
    (s.setEvents q).record k = s.record k := rfl
@[simp] theorem State.setEvents_engine (s : State) (q : EventQueue) (g : Spare) :
    (s.setEvents q).engine g = s.engine g := rfl
@[simp] theorem State.setEvents_transfer (s : State) (q : EventQueue) (g : Spare) :
    (s.setEvents q).transfer g = s.transfer g := rfl
@[simp] theorem State.setEvents_qualifier (s : State) (q : EventQueue) (g : Spare) :
    (s.setEvents q).qualifier g = s.qualifier g := rfl
@[simp] theorem State.setEvents_monitor (s : State) (q : EventQueue) (p : Port) :
    (s.setEvents q).monitor p = s.monitor p := rfl
@[simp] theorem State.setEvents_condition (s : State) (q : EventQueue) (p : Port) :
    (s.setEvents q).condition p = s.condition p := rfl
@[simp] theorem State.setEvents_contextWord (s : State) (q : EventQueue) (a : Port) (i : WordIndex) :
    (s.setEvents q).contextWord a i = s.contextWord a i := rfl
@[simp] theorem State.setEvents_farClaim (s : State) (q : EventQueue) (g : Spare) :
    (s.setEvents q).farClaim g = s.farClaim g := rfl
@[simp] theorem State.setEvents_farSays (s : State) (q : EventQueue) (g : Spare) :
    (s.setEvents q).farSays g = s.farSays g := rfl
@[simp] theorem State.setEvents_farClass (s : State) (q : EventQueue) (k : Circuit) :
    (s.setEvents q).farClass k = s.farClass k := rfl
@[simp] theorem State.setEvents_localClass (s : State) (q : EventQueue) (k : Circuit) :
    (s.setEvents q).localClass k = s.localClass k := rfl
@[simp] theorem State.setEvents_effClass (s : State) (q : EventQueue) (k : Circuit) :
    (s.setEvents q).effClass k = s.effClass k := rfl

end Sys2Proof.Machine
end

