-- ==== Sys2Proof/Laws/Frames.lean ====
section
/-! SUPPORT. What the moves of records and engines leave alone.

State.still keeps of a state what no move of a turn touches: it blanks the places that moves write (a record's state, timer
and return kind, the queue, the engines, the transfers, the abandoned mark).  Two states with the same still part agree
in every other field, so one equation for each move is its whole frame: a field is read off it by congrArg.
State.base blanks further what the posting of events and a change of far word write. -/

namespace Sys2Proof.Machine

/-! ## What stays -/

/-- A record without its state, timer and return kind. -/
def Record.classes (r : Record) : Record := { r with state := .quiet, returnTimer := none, returnKind := .condition }

/-- A state without what the moves of records and engines write. -/
def State.still (s : State) : State :=
  { s with records := s.records.map Record.classes
           queue := []
           engines := Vector.replicate 2 Engine.reset
           transfers := Vector.replicate 2 none
           transaction := s.transaction.map fun x => { x with abandoned := false } }

/-- A state without, besides, what posting an event and changing a far word write: the events, the overrun-seen bit, the
decline holds and the current far words. -/
def State.coarse (s : State) : State :=
  { s with events := EventQueue.reset
           regs := { s.regs with overrunSeen := false }
           records := s.records.map fun r => { r with declined := false }
           qualifiers := s.qualifiers.map fun q => { q with far := none } }

/-- A state without what any reaction of the protocol writes. -/
def State.base (s : State) : State := s.still.coarse

theorem State.base_of_still {s t : State} (h : s.still = t.still) : s.base = t.base := congrArg State.coarse h

/-- The classes and flags of every record are part of what stays. -/
theorem State.still_classes {s t : State} (h : s.still = t.still) (k : Circuit) :
    (s.record k).classes = (t.record k).classes := by
  have e := congrArg (fun x : State => tabGet x.records k) h
  simp only [State.still, tabGet_map] at e
  exact e

/-- The classes and the bar of every record are part of what every reaction keeps. -/
theorem State.base_record {s t : State} (h : s.base = t.base) (k : Circuit) :
    (s.record k).condClass = (t.record k).condClass ∧ (s.record k).swClass = (t.record k).swClass
      ∧ (s.record k).barred = (t.record k).barred := by
  have e := congrArg (fun x : State => tabGet x.records k) h
  simp only [State.base, State.still, State.coarse, tabGet_map] at e
  have e1 := congrArg Record.condClass e
  have e2 := congrArg Record.swClass e
  have e3 := congrArg Record.barred e
  exact ⟨e1, e2, e3⟩

/-- A qualifier's candidate, run and settled mark are part of what every reaction keeps. -/
theorem State.base_qualifier {s t : State} (h : s.base = t.base) (g : Spare) :
    (s.qualifier g).candidate = (t.qualifier g).candidate ∧ (s.qualifier g).run = (t.qualifier g).run
      ∧ (s.qualifier g).settled = (t.qualifier g).settled := by
  have e := congrArg (fun x : State => tabGet x.qualifiers g) h
  simp only [State.base, State.still, State.coarse, tabGet_map] at e
  have e1 := congrArg Qualifier.candidate e
  have e2 := congrArg Qualifier.run e
  have e3 := congrArg Qualifier.settled e
  exact ⟨e1, e2, e3⟩

/-- A field that no reaction writes, read off an equation of bases: the registers apart from the overrun-seen bit. -/
theorem State.base_regs {s t : State} (h : s.base = t.base) :
    { s.regs with overrunSeen := false } = { t.regs with overrunSeen := false } := congrArg State.regs h

/-! ## Updates of the state -/

theorem State.still_setRecord (s : State) (k : Circuit) (r : Record) (h : r.classes = (s.record k).classes) :
    (s.setRecord k r).still = s.still := by
  have e : (tabSet s.records k r).map Record.classes = s.records.map Record.classes := by
    refine tab_ext fun j => ?_
    simp only [tabGet_map, tabGet_tabSet]
    split
    · next hj => subst hj; exact h
    · rfl
  unfold State.still State.setRecord
  simp only [e]

@[simp] theorem State.still_setQueue (s : State) (l : List Circuit) : (s.setQueue l).still = s.still := rfl

@[simp] theorem State.still_setEngine (s : State) (g : Spare) (e : Engine) : (s.setEngine g e).still = s.still := rfl

@[simp] theorem State.still_setTransfer (s : State) (g : Spare) (x : Option Transfer) :
    (s.setTransfer g x).still = s.still := rfl

@[simp] theorem State.still_startTransfer (s : State) (g : Spare) (src : TransferSource) :
    (s.startTransfer g src).still = s.still := rfl

@[simp] theorem State.still_abandon (s : State) (g : Spare) : (s.abandon g).still = s.still := by
  unfold State.abandon
  split
  · next x _ hx _ =>
    split
    · unfold State.still; simp only [hx]; rfl
    · rfl
  · rfl

@[simp] theorem State.still_cancelTransfer (s : State) (g : Spare) : (s.cancelTransfer g).still = s.still := by
  simp [State.cancelTransfer]

@[simp] theorem State.still_updateKind (s : State) (k : Circuit) : (s.updateKind k).still = s.still := by
  unfold State.updateKind
  split
  · rfl
  · exact State.still_setRecord _ _ _ rfl

/-! ## Posting -/

@[simp] theorem State.base_post (s : State) (e : Event) : (s.post e).base = s.base := by
  unfold State.post
  split
  · rfl
  · split
    · rfl
    · split
      · rfl
      · split <;> rfl

@[simp] theorem State.base_postAll (s : State) (l : List Event) : (s.postAll l).base = s.base := by
  induction l generalizing s with
  | nil => rfl
  | cons e rest ih => exact (ih (s.post e)).trans (s.base_post e)

/-! ## Turns -/

@[simp] theorem State.turn_st (s : State) : s.turn.st = s := rfl

@[simp] theorem Turn.change_st (t : Turn) (f : State → State) : (t.change f).st = f t.st := rfl

@[simp] theorem Turn.change_offered (t : Turn) (f : State → State) : (t.change f).offered = t.offered := rfl

@[simp] theorem Turn.gather_st (t : Turn) (slot : Slot) (e : Event) : (t.gather slot e).st = t.st := rfl

@[simp] theorem Turn.gatherRequest_st (t : Turn) (g : Spare) (e : Event) : (t.gatherRequest g e).st = t.st := rfl

@[simp] theorem Turn.gatherLate_st (t : Turn) (e : Event) : (t.gatherLate e).st = t.st := rfl

@[simp] theorem Turn.base_flush (t : Turn) : t.flush.st.base = t.st.base := State.base_postAll _ _

@[simp] theorem Turn.base_close (t : Turn) : t.close.base = t.st.base := by
  unfold Turn.close
  rw [State.base_postAll, Turn.base_flush]

@[simp] theorem Turn.still_moveRecord (t : Turn) (g : Spare) (k : Circuit) (r : RequestState) (place : Place) :
    (t.moveRecord g k r place).st.still = t.st.still := by
  have h : ((t.st.setQueue (t.st.requeue k (r = .queued) place)).setRecord k
      { t.st.record k with state := r, returnTimer := none }).still = t.st.still := by
    refine (State.still_setRecord _ _ _ ?_).trans ?_ <;> rfl
  unfold Turn.moveRecord
  dsimp only
  split <;> exact h

@[simp] theorem Turn.still_putBack (t : Turn) (g : Spare) (k : Circuit) : (t.putBack g k).st.still = t.st.still :=
  Turn.still_moveRecord ..

@[simp] theorem Turn.still_release (t : Turn) (g : Spare) (k : Circuit) : (t.release g k).st.still = t.st.still :=
  Turn.still_moveRecord ..

@[simp] theorem Turn.still_enterEngine (t : Turn) (g : Spare) (e : EngineState) (a b : Option Nat) :
    (t.enterEngine g e a b).st.still = t.st.still := rfl

@[simp] theorem Turn.still_letGo (t : Turn) (g : Spare) : (t.letGo g).st.still = t.st.still := by
  simp [Turn.letGo]

@[simp] theorem Turn.still_endTest (t : Turn) (g : Spare) (r : TestResult) : (t.endTest g r).st.still = t.st.still :=
  rfl

@[simp] theorem Turn.still_endLoop (t : Turn) (g : Spare) (r : TestResult) : (t.endLoop g r).st.still = t.st.still :=
  rfl

@[simp] theorem Turn.still_endTestOrLoop (t : Turn) (g : Spare) (r : TestResult) :
    (t.endTestOrLoop g r).st.still = t.st.still := by
  unfold Turn.endTestOrLoop
  split <;> simp

@[simp] theorem Turn.still_enterPreparing (t : Turn) (g : Spare) (k : Circuit) :
    (t.enterPreparing g k).st.still = t.st.still := by
  simp [Turn.enterPreparing]

@[simp] theorem Turn.still_moveAway (t : Turn) (g : Spare) : (t.moveAway g).st.still = t.st.still :=
  Turn.still_letGo t g

@[simp] theorem Turn.still_offer (t : Turn) (g : Spare) (k : Circuit) : (t.offer g k).st.still = t.st.still := by
  unfold Turn.offer
  dsimp only
  split
  · rfl
  · split
    · rfl
    · split
      · split <;> simp
      · split <;> simp
      · simp

@[simp] theorem Turn.still_contest (t : Turn) (g : Spare) : (t.contest g).st.still = t.st.still := by
  unfold Turn.contest
  split
  · split
    · rfl
    · split <;> simp
  · rfl

@[simp] theorem Turn.still_completeReturn (t : Turn) (g : Spare) (k : Circuit) :
    (t.completeReturn g k).st.still = t.st.still := by
  simp [Turn.completeReturn]

@[simp] theorem Turn.still_enterReturning (t : Turn) (g : Spare) (k : Circuit) :
    (t.enterReturning g k).st.still = t.st.still := by
  unfold Turn.enterReturning
  dsimp only
  split <;> simp

@[simp] theorem Turn.still_drop (t : Turn) (g : Spare) (k : Circuit) : (t.drop g k).st.still = t.st.still := by
  simp [Turn.drop]

@[simp] theorem Turn.still_tearDown (t : Turn) (g : Spare) : (t.tearDown g).st.still = t.st.still := by
  unfold Turn.tearDown
  split <;> simp

theorem Turn.still_gathers (slot : Slot) (l : List Event) (t : Turn) :
    (l.foldl (fun t e => t.gather slot e) t).st = t.st := by
  induction l generalizing t with
  | nil => rfl
  | cons e rest ih => exact ih _

@[simp] theorem Turn.still_setReasons (t : Turn) (g : Spare) (after : Reasons) :
    (t.setReasons g after).st.still = t.st.still := by
  unfold Turn.setReasons
  dsimp only
  split
  · simp only [Turn.still_enterEngine, Turn.change_st, State.still_setEngine, Turn.still_gathers, Turn.still_tearDown]
  · split <;> simp only [Turn.still_enterEngine, Turn.change_st, State.still_setEngine, Turn.still_gathers]

@[simp] theorem Turn.still_putReason (t : Turn) (g : Spare) (x : Reason) (b : Bool) :
    (t.putReason g x b).st.still = t.st.still := by
  unfold Turn.putReason
  split <;> simp

@[simp] theorem Turn.still_startReturn (t : Turn) (g : Spare) (k : Circuit) :
    (t.startReturn g k).st.still = t.st.still := by
  unfold Turn.startReturn
  split
  · simp
  · exact State.still_setRecord _ _ _ rfl

@[simp] theorem Turn.still_classGone (t : Turn) (g : Spare) (k : Circuit) :
    (t.classGone g k).st.still = t.st.still := by
  unfold Turn.classGone
  split
  · simp
  · simp
  · split
    · simp
    · split <;> simp
  · rfl

@[simp] theorem Turn.still_reactHeld (t : Turn) (g : Spare) (k : Circuit) (before : Nat) :
    (t.reactHeld g k before).st.still = t.st.still := by
  unfold Turn.reactHeld
  split
  · rw [Turn.still_contest]; split <;> simp
  · rw [Turn.still_contest]; exact State.still_setRecord _ _ _ rfl

@[simp] theorem Turn.still_reactUnheld (t : Turn) (g : Spare) (k : Circuit) (changed : Bool) :
    (t.reactUnheld g k changed).st.still = t.st.still := by
  unfold Turn.reactUnheld
  dsimp only
  split <;> simp

@[simp] theorem Turn.still_react (t : Turn) (k : Circuit) (before : Nat) :
    (t.react k before).st.still = t.st.still := by
  unfold Turn.react
  split <;> simp

/-! ## The arbiter -/

@[simp] theorem Turn.base_preempt (t : Turn) (g : Spare) (h : Circuit) : (t.preempt g h).st.base = t.st.base := by
  unfold Turn.preempt
  split
  · refine (State.base_of_still (Turn.still_contest ..)).trans ?_
    refine (Turn.base_flush _).trans (State.base_of_still ?_)
    simp
  · rfl

theorem Turn.base_passStep {t t' : Turn} (h : t.passStep = some t') : t'.st.base = t.st.base := by
  unfold Turn.passStep at h
  split at h
  · cases h
  · dsimp only at h
    split at h
    · cases h; exact State.base_of_still (Turn.still_enterPreparing ..)
    · split at h
      · cases h; exact State.base_of_still (Turn.still_enterPreparing ..)
      · obtain ⟨g, _, rfl⟩ := Option.map_eq_some_iff.mp h
        exact Turn.base_preempt ..

@[simp] theorem Turn.base_pass (n : Nat) (t : Turn) : (Turn.pass n t).st.base = t.st.base := by
  induction n generalizing t with
  | zero => rfl
  | succ n ih =>
    unfold Turn.pass
    split
    · rfl
    · next t' h => rw [ih, Turn.base_flush, Turn.base_passStep h]

@[simp] theorem Turn.base_grantPass (t : Turn) : t.grantPass.st.base = t.st.base := by
  simp [Turn.grantPass]

/-- Settling a turn posts its events and runs its grant pass, and touches nothing else. -/
@[simp] theorem Turn.base_settle (t : Turn) (before : State) : (t.settle before).base = t.st.base := by
  unfold Turn.settle
  dsimp only
  split <;> simp

@[simp] theorem Turn.base_settleWithPass (t : Turn) : t.settleWithPass.base = t.st.base := by
  simp [Turn.settleWithPass]

/-! ## A change of a record's source -/

/-- A change of a record that differs from what stood only in what the reactions keep no account of. -/
theorem State.base_setRecord (s : State) (k : Circuit) (r : Record)
    (h : { r.classes with declined := false } = { (s.record k).classes with declined := false }) :
    (s.setRecord k r).base = s.base := by
  have e : ((tabSet s.records k r).map Record.classes).map (fun r => { r with declined := false })
      = (s.records.map Record.classes).map (fun r => { r with declined := false }) := by
    refine tab_ext fun j => ?_
    simp only [tabGet_map, tabGet_tabSet]
    split
    · next hj => subst hj; exact h
    · rfl
  unfold State.base State.coarse State.still State.setRecord
  simp only [e]

/-- Two settings of one record that agree in what stays leave the same base. -/
theorem State.base_setRecord_congr (s : State) (k : Circuit) (r r' : Record)
    (h : { r.classes with declined := false } = { r'.classes with declined := false }) :
    (s.setRecord k r).base = (s.setRecord k r').base := by
  have e := State.base_setRecord (s.setRecord k r') k r (by simpa using h)
  simpa using e

/-- A change of a source of record k leaves, of what stays, only what the change itself writes. -/
theorem Turn.base_sourceChange (t : Turn) (k : Circuit) (f : Record → Record) :
    (t.sourceChange k f).st.base = (t.st.setRecord k (f (t.st.record k))).base := by
  unfold Turn.sourceChange
  dsimp only
  refine (State.base_of_still (Turn.still_react ..)).trans ?_
  refine (State.base_of_still (State.still_updateKind ..)).trans ?_
  refine State.base_setRecord_congr _ _ _ _ ?_
  split <;> rfl

/-! ## A change of far word -/

@[simp] theorem State.base_setFar (s : State) (g : Spare) (w : Option Half) : (s.setFar g w).base = s.base := by
  have e : (tabSet s.qualifiers g { s.qualifier g with far := w }).map (fun q => { q with far := none })
      = s.qualifiers.map (fun q => { q with far := none }) := by
    refine tab_ext fun j => ?_
    simp only [tabGet_map, tabGet_tabSet]
    split
    · next hj => subst hj; rfl
    · rfl
  unfold State.base State.coarse State.still State.setFar State.setQualifier
  simp only [e]

@[simp] theorem Turn.base_refreshClass (t : Turn) (before : State) (g : Spare) (claimed : Bool) (k : Circuit) :
    (t.refreshClass before g claimed k).st.base = t.st.base := by
  have hk : (t.change fun s => s.updateKind k).st.base = t.st.base := State.base_of_still (State.still_updateKind ..)
  have hd : ∀ u : Turn, (u.change fun s => s.setRecord k { s.record k with declined := false }).st.base = u.st.base :=
    fun u => State.base_setRecord _ _ _ rfl
  unfold Turn.refreshClass
  dsimp only
  cases claimed
  · simp only [Bool.false_eq_true, if_false]
    split
    · split
      · exact (State.base_of_still (Turn.still_reactUnheld ..)).trans hk
      · exact hk
    · split
      · exact (State.base_of_still (Turn.still_reactUnheld ..)).trans hk
      · exact hk
    · exact hk
  · simp only [if_true]
    have hb := (hd (t.change fun s => s.updateKind k)).trans hk
    split
    · split
      · exact (State.base_of_still (Turn.still_reactUnheld ..)).trans hb
      · exact hb
    · split
      · exact (State.base_of_still (Turn.still_reactUnheld ..)).trans hb
      · exact hb
    · exact hb

@[simp] theorem Turn.still_reactLater (t : Turn) (before : State) (g : Spare) (k : Circuit) :
    (t.reactLater before g k).st.still = t.st.still := by
  unfold Turn.reactLater
  split
  · rfl
  · split
    · simp
    · rfl
    · split <;> simp
    · simp

/-- What a list of reactions keeps, each keeping it. -/
theorem Turn.base_foldl {α : Type} (f : Turn → α → Turn) (h : ∀ t a, (f t a).st.base = t.st.base) (l : List α)
    (t : Turn) : (l.foldl f t).st.base = t.st.base := by
  induction l generalizing t with
  | nil => rfl
  | cons a rest ih => exact (ih _).trans (h t a)

/-- A change of far word keeps what its action keeps. -/
theorem Turn.base_changeFar (t : Turn) (g : Spare) (w : Option Half) (act : Turn → Turn)
    (h : ∀ u : Turn, (act u).st.base = u.st.base) : (t.changeFar g w act).st.base = t.st.base := by
  unfold Turn.changeFar
  dsimp only
  refine (Turn.base_foldl _ (fun u k => State.base_of_still (Turn.still_reactLater ..)) _ _).trans ?_
  refine (h _).trans ?_
  refine (Turn.base_foldl _ (fun u k => Turn.base_refreshClass ..) _ _).trans ?_
  exact State.base_setFar ..

@[simp] theorem Turn.base_decline (t : Turn) (g : Spare) (k : Circuit) : (t.decline g k).st.base = t.st.base := by
  have hd : ∀ u : Turn, (u.change fun s => s.setRecord k { s.record k with declined := true }).st.base = u.st.base :=
    fun u => State.base_setRecord _ _ _ rfl
  unfold Turn.decline
  dsimp only
  split
  · split
    · exact (State.base_of_still (Turn.still_drop ..)).trans (hd t)
    · rfl
  · split
    · exact (State.base_of_still (Turn.still_drop ..)).trans (hd t)
    · rfl
  · exact (State.base_of_still (Turn.still_reactUnheld ..)).trans (hd t)

@[simp] theorem Turn.still_enterLooped (t : Turn) (g : Spare) : (t.enterLooped g).st.still = t.st.still := rfl

@[simp] theorem Turn.still_becomeFree (t : Turn) (g : Spare) : (t.becomeFree g).st.still = t.st.still := rfl

@[simp] theorem Turn.still_stepBack (t : Turn) (g : Spare) (k : Circuit) : (t.stepBack g k).st.still = t.st.still :=
  rfl

@[simp] theorem Turn.still_rebridge (t : Turn) (g : Spare) (k : Circuit) :
    (t.rebridge g k).st.still = t.st.still := by
  simp [Turn.rebridge]

@[simp] theorem Turn.base_enterEngine (t : Turn) (g : Spare) (e : EngineState) (a b : Option Nat) :
    (t.enterEngine g e a b).st.base = t.st.base := rfl

@[simp] theorem Turn.base_contest (t : Turn) (g : Spare) : (t.contest g).st.base = t.st.base :=
  State.base_of_still (Turn.still_contest ..)

@[simp] theorem Turn.base_enterReturning (t : Turn) (g : Spare) (k : Circuit) :
    (t.enterReturning g k).st.base = t.st.base := State.base_of_still (Turn.still_enterReturning ..)

@[simp] theorem Turn.base_completeReturn (t : Turn) (g : Spare) (k : Circuit) :
    (t.completeReturn g k).st.base = t.st.base := State.base_of_still (Turn.still_completeReturn ..)

@[simp] theorem Turn.base_rebridge (t : Turn) (g : Spare) (k : Circuit) :
    (t.rebridge g k).st.base = t.st.base := State.base_of_still (Turn.still_rebridge ..)

@[simp] theorem Turn.base_stepBack (t : Turn) (g : Spare) (k : Circuit) :
    (t.stepBack g k).st.base = t.st.base := rfl

@[simp] theorem Turn.base_endTest (t : Turn) (g : Spare) (r : TestResult) : (t.endTest g r).st.base = t.st.base := rfl

@[simp] theorem Turn.base_endLoop (t : Turn) (g : Spare) (r : TestResult) : (t.endLoop g r).st.base = t.st.base := rfl

@[simp] theorem Turn.base_becomeFree (t : Turn) (g : Spare) : (t.becomeFree g).st.base = t.st.base := rfl

@[simp] theorem Turn.base_enterLooped (t : Turn) (g : Spare) : (t.enterLooped g).st.base = t.st.base := rfl

/-- An engine's action on a taken word moves records and engines, and sets a decline hold at most. -/
@[simp] theorem Turn.base_act (t : Turn) (g : Spare) (w : SpanWord) : (t.act g w).st.base = t.st.base := by
  unfold Turn.act
  split
  · unfold Turn.actFree; split <;> simp
  · unfold Turn.actPreparing; split <;> simp
  · unfold Turn.actBridged; split <;> (try split) <;> simp
  · unfold Turn.actCarrying; split <;> (try split) <;> simp
  · unfold Turn.actReturning; split <;> (try split) <;> (try split) <;> simp
  · unfold Turn.actUnavailable; split <;> simp
  · unfold Turn.actTesting; split <;> (try split) <;> (try split) <;> simp
  · unfold Turn.actLooped; split <;> simp

@[simp] theorem Turn.still_takeReasons (t : Turn) (g : Spare) (w : SpanWord) :
    (t.takeReasons g w).st.still = t.st.still := by
  unfold Turn.takeReasons
  dsimp only
  split <;> simp

@[simp] theorem Turn.still_revokeIfGone (t : Turn) (g : Spare) : (t.revokeIfGone g).st.still = t.st.still := by
  unfold Turn.revokeIfGone
  split
  · split <;> simp
  · rfl

@[simp] theorem Turn.still_offerStanding (t : Turn) (g : Spare) : (t.offerStanding g).st.still = t.st.still := by
  unfold Turn.offerStanding
  split
  · split
    · dsimp only
      split <;> simp
    · rfl
  · rfl

@[simp] theorem Turn.base_take (t : Turn) (g : Spare) (w : Half) (said : SpanWord) :
    (t.take g w said).st.base = t.st.base := by
  unfold Turn.take
  dsimp only
  refine (State.base_of_still (Turn.still_offerStanding ..)).trans ?_
  refine (Turn.base_changeFar _ _ _ _ fun u => ?_).trans (State.base_post ..)
  rw [Turn.base_act, State.base_of_still (Turn.still_revokeIfGone ..), State.base_of_still (Turn.still_takeReasons ..)]

/-- A delivery, whatever the word, keeps what stays: registers but the overrun-seen bit, contexts, FIFO, monitors,
conditions, ports, and the classes and bars of the records. -/
@[simp] theorem Turn.base_deliver (t : Turn) (g : Spare) (w : Half) : (t.deliver g w).st.base = t.st.base := by
  unfold Turn.deliver
  split
  · exact (Turn.base_changeFar _ _ _ _ fun _ => rfl).trans (State.base_post ..)
  · split
    · split
      · exact Turn.base_changeFar _ _ _ _ fun _ => rfl
      · exact (Turn.base_changeFar _ _ _ _ fun _ => rfl).trans (State.base_post ..)
    · exact Turn.base_take ..

/-! ## Commands and timers -/

@[simp] theorem Turn.still_startTest (t : Turn) (g : Spare) (d : Byte) : (t.startTest g d).st.still = t.st.still := rfl

@[simp] theorem Turn.still_endPhase (t : Turn) (g : Spare) (r : TestResult) : (t.endPhase g r).st.still = t.st.still :=
  rfl

@[simp] theorem Turn.still_answerExpired (t : Turn) (g : Spare) : (t.answerExpired g).st.still = t.st.still := by
  unfold Turn.answerExpired
  split <;> simp

@[simp] theorem Turn.still_returnExpired (t : Turn) (k : Circuit) : (t.returnExpired k).st.still = t.st.still := by
  unfold Turn.returnExpired
  split
  · split <;> simp
  all_goals rfl

@[simp] theorem Turn.still_transferCompleted (t : Turn) (g : Spare) (src : TransferSource) :
    (t.transferCompleted g src).st.still = t.st.still := by
  unfold Turn.transferCompleted
  split
  · split
    · split <;> simp
    · rfl
  · rfl

@[simp] theorem Turn.still_enable (t : Turn) : t.enable.st.still = t.st.still := by simp [Turn.enable]

@[simp] theorem Turn.still_placeTogether (t : Turn) (j k : Circuit) : (t.placeTogether j k).st.still = t.st.still := by
  have h : ∀ (u : Turn) (c : Circuit),
      (if (u.st.record c).state = .queued then u.change fun s => s.setQueue (s.requeue c true .front) else u).st.still
        = u.st.still := by
    intro u c
    split <;> rfl
  unfold Turn.placeTogether
  dsimp only
  split <;> rw [h, h]

@[simp] theorem Turn.still_disable (t : Turn) : t.disable.st.still = t.st.still := by
  unfold Turn.disable
  dsimp only
  split <;> simp

end Sys2Proof.Machine
end

