-- ==== Sys2Proof/Laws/LinePort.lean ====
section
/-! SUPPORT. Everything the end of an event can do: the feeds settle, and an idle port serves one eligible offer or none. -/

namespace Sys2Proof.Machine

/-- The choice of the port does one of three things: nothing, the start of a transfer's word, the start of a forward
entry. -/
theorem State.servePort_cases (s : State) :
    s.servePort = s
    ∨ (∃ g t i, s.transaction = none ∧ s.transfer g = some t ∧ s.eligibleOffer g = some i
        ∧ s.servePort = s.startOffer g t i)
    ∨ (∃ e rest, s.transaction = none ∧ s.fifo = e :: rest ∧ s.servePort = s.startEntry e rest) := by
  unfold State.servePort
  split
  · exact Or.inl rfl
  · next hx =>
    cases hf : (rotationAfter s.rotation).findSome? s.serveSource with
    | none => exact Or.inl rfl
    | some s' =>
      refine Or.inr ?_
      obtain ⟨src, _, hsrc⟩ := List.exists_of_findSome?_eq_some hf
      cases src with
      | transfer g =>
        unfold State.serveSource at hsrc
        dsimp only at hsrc
        split at hsrc
        · next t i ht hi => cases hsrc; exact Or.inl ⟨g, t, i, hx, ht, hi, rfl⟩
        · cases hsrc
      | fifo =>
        unfold State.serveSource at hsrc
        dsimp only at hsrc
        split at hsrc
        · next e rest he => cases hsrc; exact Or.inr ⟨e, rest, hx, he, rfl⟩
        · cases hsrc

/-- A busy port makes no choice. -/
theorem State.servePort_busy (s : State) (x : Transaction) (h : s.transaction = some x) : s.servePort = s := by
  simp [State.servePort, h]

/-- What the end of an event does not write, it keeps: a reading of the state that the feeds, the transfers, the FIFO and
the port do not enter. -/
theorem State.finish_keeps {α : Type} (f : State → α) (h1 : ∀ s : State, f s.settleFeeds = f s)
    (h2 : ∀ (s : State) g t i, f (s.startOffer g t i) = f s) (h3 : ∀ (s : State) e rest, f (s.startEntry e rest) = f s)
    (s : State) : f s.finish = f s := by
  unfold State.finish
  rcases s.settleFeeds.servePort_cases with h | ⟨g, t, i, _, _, _, h⟩ | ⟨e, rest, _, _, h⟩
  · rw [h, h1]
  · rw [h, h2, h1]
  · rw [h, h3, h1]

@[simp] theorem State.finish_pending (s : State) : s.finish.pending = s.pending :=
  State.finish_keeps State.pending (fun _ => rfl) (fun _ _ _ _ => rfl) (fun _ _ _ => rfl) s

@[simp] theorem State.finish_inReset (s : State) : s.finish.inReset = s.inReset :=
  State.finish_keeps State.inReset (fun _ => rfl) (fun _ _ _ _ => rfl) (fun _ _ _ => rfl) s

@[simp] theorem State.finish_role (s : State) : s.finish.role = s.role :=
  State.finish_keeps State.role (fun _ => rfl) (fun _ _ _ _ => rfl) (fun _ _ _ => rfl) s

@[simp] theorem State.finish_regs (s : State) : s.finish.regs = s.regs :=
  State.finish_keeps State.regs (fun _ => rfl) (fun _ _ _ _ => rfl) (fun _ _ _ => rfl) s

@[simp] theorem State.finish_bus (s : State) : s.finish.bus = s.bus :=
  State.finish_keeps State.bus (fun _ => rfl) (fun _ _ _ _ => rfl) (fun _ _ _ => rfl) s

@[simp] theorem State.finish_records (s : State) : s.finish.records = s.records :=
  State.finish_keeps State.records (fun _ => rfl) (fun _ _ _ _ => rfl) (fun _ _ _ => rfl) s

@[simp] theorem State.finish_queue (s : State) : s.finish.queue = s.queue :=
  State.finish_keeps State.queue (fun _ => rfl) (fun _ _ _ _ => rfl) (fun _ _ _ => rfl) s

@[simp] theorem State.finish_engines (s : State) : s.finish.engines = s.engines :=
  State.finish_keeps State.engines (fun _ => rfl) (fun _ _ _ _ => rfl) (fun _ _ _ => rfl) s

@[simp] theorem State.finish_store (s : State) : s.finish.store = s.store :=
  State.finish_keeps State.store (fun _ => rfl) (fun _ _ _ _ => rfl) (fun _ _ _ => rfl) s

@[simp] theorem State.finish_outOfStep (s : State) : s.finish.outOfStep = s.outOfStep :=
  State.finish_keeps State.outOfStep (fun _ => rfl) (fun _ _ _ _ => rfl) (fun _ _ _ => rfl) s

@[simp] theorem State.finish_monitors (s : State) : s.finish.monitors = s.monitors :=
  State.finish_keeps State.monitors (fun _ => rfl) (fun _ _ _ _ => rfl) (fun _ _ _ => rfl) s

@[simp] theorem State.finish_conditions (s : State) : s.finish.conditions = s.conditions :=
  State.finish_keeps State.conditions (fun _ => rfl) (fun _ _ _ _ => rfl) (fun _ _ _ => rfl) s

@[simp] theorem State.finish_recentBits (s : State) : s.finish.recentBits = s.recentBits :=
  State.finish_keeps State.recentBits (fun _ => rfl) (fun _ _ _ _ => rfl) (fun _ _ _ => rfl) s

@[simp] theorem State.finish_intervalTimer (s : State) : s.finish.intervalTimer = s.intervalTimer :=
  State.finish_keeps State.intervalTimer (fun _ => rfl) (fun _ _ _ _ => rfl) (fun _ _ _ => rfl) s

@[simp] theorem State.finish_qualifiers (s : State) : s.finish.qualifiers = s.qualifiers :=
  State.finish_keeps State.qualifiers (fun _ => rfl) (fun _ _ _ _ => rfl) (fun _ _ _ => rfl) s

@[simp] theorem State.finish_lineOut (s : State) : s.finish.lineOut = s.lineOut :=
  State.finish_keeps State.lineOut (fun _ => rfl) (fun _ _ _ _ => rfl) (fun _ _ _ => rfl) s

@[simp] theorem State.finish_sendModes (s : State) : s.finish.sendModes = s.sendModes :=
  State.finish_keeps State.sendModes (fun _ => rfl) (fun _ _ _ _ => rfl) (fun _ _ _ => rfl) s

@[simp] theorem State.finish_systemOut (s : State) : s.finish.systemOut = s.systemOut :=
  State.finish_keeps State.systemOut (fun _ => rfl) (fun _ _ _ _ => rfl) (fun _ _ _ => rfl) s

@[simp] theorem State.finish_events (s : State) : s.finish.events = s.events :=
  State.finish_keeps State.events (fun _ => rfl) (fun _ _ _ _ => rfl) (fun _ _ _ => rfl) s

@[simp] theorem State.finish_window (s : State) : s.finish.window = s.window :=
  State.finish_keeps State.window (fun _ => rfl) (fun _ _ _ _ => rfl) (fun _ _ _ => rfl) s

@[simp] theorem State.finish_record (s : State) (k : Circuit) : s.finish.record k = s.record k :=
  congrArg (fun v => tabGet v k) s.finish_records

@[simp] theorem State.finish_engine (s : State) (g : Spare) : s.finish.engine g = s.engine g :=
  congrArg (fun v => tabGet v g) s.finish_engines

@[simp] theorem State.finish_qualifier (s : State) (g : Spare) : s.finish.qualifier g = s.qualifier g :=
  congrArg (fun v => tabGet v g) s.finish_qualifiers

@[simp] theorem State.finish_monitor (s : State) (p : Port) : s.finish.monitor p = s.monitor p :=
  congrArg (fun v => tabGet v p) s.finish_monitors

@[simp] theorem State.finish_condition (s : State) (p : Port) : s.finish.condition p = s.condition p :=
  congrArg (fun v => tabGet v p) s.finish_conditions

@[simp] theorem State.finish_contextWord (s : State) (p : Port) (i : WordIndex) :
    s.finish.contextWord p i = s.contextWord p i := congrArg (fun m => Memory.word m p i) s.finish_store

/-- The end of an event leaves a transaction that is on the line as it is, with the FIFO, the transfers and the rotation
pointer. -/
theorem State.finish_busy (s : State) (x : Transaction) (h : s.transaction = some x) : s.finish = s.settleFeeds := by
  unfold State.finish
  exact State.servePort_busy _ x h

/-! ## Feeds -/

/-- A feed names a line whose frame may be in progress, away from any boundary, exactly where its monitor places one. -/
theorem State.feedInFrame_iff (s : State) (k : Circuit) (f : Feed) :
    s.feedInFrame none k f = true ↔ s.FeedPlaced k f := by
  unfold State.feedInFrame State.FeedPlaced
  cases h : feedPort k f <;> simp

/-- Everything a following feed can become: its selected line, itself while that line has a frame in progress, or bytes of
all ones while the selected line has. -/
theorem State.followFeed_cases (s : State) (b : Option Port) (k : Circuit) :
    s.followFeed b k = s.selectedFeed k
    ∨ (s.followFeed b k = tabGet s.feeds k ∧ s.feedInFrame b k (tabGet s.feeds k) = true)
    ∨ (s.followFeed b k = .ones ∧ s.feedInFrame b k (s.selectedFeed k) = true) := by
  unfold State.followFeed
  dsimp only
  split
  · next h => exact .inl h
  · split
    · next h => exact .inr (.inl ⟨rfl, h⟩)
    · split
      · next h => exact .inr (.inr ⟨rfl, h⟩)
      · exact .inl rfl

@[simp] theorem State.settleFeeds_selectedFeed (s : State) (k : Circuit) :
    s.settleFeeds.selectedFeed k = s.selectedFeed k := rfl

theorem State.settleFeeds_feedPlaced (s : State) (k : Circuit) (f : Feed) :
    s.settleFeeds.FeedPlaced k f ↔ s.FeedPlaced k f := Iff.rfl

/-- Where the feeds have settled, every system port follows its selector. -/
theorem State.settleFeeds_follows (s : State) (k : Circuit) : s.settleFeeds.FeedFollows k := by
  have e : tabGet s.settleFeeds.feeds k = s.followFeed none k := by
    simp [State.settleFeeds, State.followFeeds]
  unfold State.FeedFollows
  rw [e, State.settleFeeds_selectedFeed]
  rcases s.followFeed_cases none k with h | ⟨h, hp⟩ | ⟨h, hp⟩
  · exact .inl h
  · exact .inr (.inl (by rw [h]; exact (s.feedInFrame_iff k _).mp hp))
  · exact .inr (.inr ⟨h, (s.feedInFrame_iff k _).mp hp⟩)

/-- A feed that follows its selector stays as it is until a frame boundary. -/
theorem State.followFeed_of_follows (s : State) (k : Circuit) (h : s.FeedFollows k) :
    s.followFeed none k = tabGet s.feeds k := by
  unfold State.followFeed
  dsimp only
  rcases h with h | h | ⟨h1, h2⟩
  · rw [if_pos h]
  · rw [if_pos ((s.feedInFrame_iff k _).mpr h)]
    split <;> rfl
  · split
    · rfl
    · split
      · rfl
      · rw [if_pos ((s.feedInFrame_iff k _).mpr h2), h1]

/-- An event that has been taken whole has nothing left for its end to do. -/
theorem State.finish_of_over (s : State) (h : s.EventOver) : s.finish = s := by
  have e : s.settleFeeds = s := by
    have : (Vector.ofFn fun k => s.followFeed none k) = s.feeds := by
      refine tab_ext fun k => ?_
      simp [s.followFeed_of_follows k (h.2 k)]
    unfold State.settleFeeds State.followFeeds
    rw [this]
  unfold State.finish
  rw [e]
  rcases s.servePort_cases with h' | ⟨g, t, i, hx, _, hi, _⟩ | ⟨f, rest, hx, hf, _⟩
  · exact h'
  · exact absurd hi (by rw [(h.1 hx).2 g]; simp)
  · exact absurd hf (by rw [(h.1 hx).1]; simp)

end Sys2Proof.Machine
end

