-- ==== Sys2Proof/Laws/Operands.lean ====
section
/-! SUPPORT. The small facts of the operand forms: computed application, ranges, arguments, the bytes of a frame. -/

namespace Sys2Proof.Machine

/-- Applying a function to a computed byte is applying it. -/
@[simp] theorem force_eq {α : Type} (c : Byte) (f : Byte → α) : force c f = f c := by
  unfold force
  split
  · next h => congr 1; exact (BitVec.eq_of_toNat_eq (by simp [h])).symm
  · next n h =>
    congr 1
    apply BitVec.eq_of_toNat_eq
    have hc : c.toNat = n + 1 := h
    have hb := c.isLt
    simp only [byte, BitVec.toNat_ofNat]
    omega

/-- The CRC of one byte is eight bits of the CRC. -/
theorem crcByte_eq (c b : Byte) :
    crcByte c b = crcBit (crcBit (crcBit (crcBit (crcBit (crcBit (crcBit (crcBit (c ^^^ b)))))))) := by
  simp [crcByte]

@[simp] theorem crc_nil (c : Byte) : crc c [] = c := rfl

@[simp] theorem crc_cons (c b : Byte) (l : List Byte) : crc c (b :: l) = crc (crcByte c b) l := by
  simp [crc]

theorem crc_append (c : Byte) (l m : List Byte) : crc c (l ++ m) = crc (crc c l) m := by
  induction l generalizing c with
  | nil => rfl
  | cons b rest ih => simp [ih]

/-- A circuit argument names the circuit of its value. -/
theorem circuitArg_eq_some {b : Byte} {k : Circuit} : circuitArg b = some k ↔ b.toNat = k.val := by
  unfold circuitArg
  split
  · simp [Fin.ext_iff]
  · next h => constructor
              · intro e; cases e
              · intro e; exact absurd k.isLt (by omega)

/-- An argument above 9 names no circuit. -/
theorem circuitArg_eq_none {b : Byte} : circuitArg b = none ↔ 9 < b.toNat := by
  unfold circuitArg
  split
  · simp; omega
  · simp; omega

/-- A spare argument names the spare of its value. -/
theorem spareArg_eq_some {b : Byte} {g : Spare} : spareArg b = some g ↔ b.toNat = g.val := by
  unfold spareArg
  split
  · simp [Fin.ext_iff]
  · next h => constructor
              · intro e; cases e
              · intro e; exact absurd g.isLt (by omega)

/-- An argument above 1 names no spare. -/
theorem spareArg_eq_none {b : Byte} : spareArg b = none ↔ 1 < b.toNat := by
  unfold spareArg
  split
  · simp; omega
  · simp; omega

/-- A port argument names the port of its value. -/
theorem portArg_eq_some {b : Byte} {p : Port} : portArg b = some p ↔ b.toNat = p.val := by
  unfold portArg
  split
  · simp [Fin.ext_iff]
  · next h => constructor
              · intro e; cases e
              · intro e; exact absurd p.isLt (by omega)

/-- An argument above 11 names no port. -/
theorem portArg_eq_none {b : Byte} : portArg b = none ↔ 11 < b.toNat := by
  unfold portArg
  split
  · simp; omega
  · simp; omega

/-- What a byte held within a range stores, as a number: the nearest value within it. -/
theorem clampByte_toNat {low high : Nat} (b : Byte) (hl : low ≤ high) (hh : high < 256) :
    (clampByte low high b).toNat = max low (min high b.toNat) := by
  unfold clampByte byte
  split
  · rw [BitVec.toNat_ofNat, Nat.mod_eq_of_lt (by omega)]; omega
  · split
    · rw [BitVec.toNat_ofNat, Nat.mod_eq_of_lt (by omega)]; omega
    · omega

/-- What a 16-bit value held within a range stores, as a number: the nearest value within it. -/
theorem clampHalf_toNat {low high : Nat} (v : Half) (hl : low ≤ high) (hh : high < 65536) :
    (clampHalf low high v).toNat = max low (min high v.toNat) := by
  unfold clampHalf
  split
  · rw [BitVec.toNat_ofNat, Nat.mod_eq_of_lt (by omega)]; omega
  · split
    · rw [BitVec.toNat_ofNat, Nat.mod_eq_of_lt (by omega)]; omega
    · omega

/-! ## Bits of a received stream -/

/-- The bits of a byte, most significant first. -/
theorem byteBits_eq (b : Byte) :
    byteBits b = [b.getLsbD 7, b.getLsbD 6, b.getLsbD 5, b.getLsbD 4, b.getLsbD 3, b.getLsbD 2, b.getLsbD 1, b.getLsbD 0] :=
  rfl

@[simp] theorem byteBits_length (b : Byte) : (byteBits b).length = 8 := rfl

@[simp] theorem bytesBits_length (l : List Byte) : (bytesBits l).length = 8 * l.length := by
  induction l with
  | nil => rfl
  | cons b rest ih => simp only [bytesBits, List.flatMap_cons, List.length_append, byteBits_length,
      List.length_cons] at ih ⊢; omega

/-- The alignment word stands in a stream exactly where some stretch of it is that word. -/
theorem holdsAlignmentWord_iff (l : List Bool) : holdsAlignmentWord l = true ↔ alignmentBits <:+: l := by
  induction l with
  | nil => decide
  | cons b rest ih =>
    rw [List.infix_cons_iff, List.prefix_iff_eq_take, ← ih]
    simp only [holdsAlignmentWord, Bool.or_eq_true, beq_iff_eq]
    exact or_congr_left eq_comm

/-- Of a stream the last seven bits are kept, or all of a shorter one. -/
theorem lastSeven_suffix (l : List Bool) : lastSeven l <:+ l := List.drop_suffix ..

@[simp] theorem lastSeven_length (l : List Bool) : (lastSeven l).length = min 7 l.length := by
  simp only [lastSeven, List.length_drop]; omega

end Sys2Proof.Machine
end

