-- ==== Sys2Proof/Laws/Accesses.lean ====
section
/-! SUPPORT. How an access and an internal event are taken, and what a change of a port's conditions can touch. -/

namespace Sys2Proof.Machine

/-! ## Accesses -/

/-- A write access out of reset: ready asserted, and the effect. -/
theorem State.hostWrite_inService (s : State) (f : State → State) (h : s.inReset = false) :
    s.hostWrite f = f (s.setBus { s.bus with ready := true }) := by
  simp [State.hostWrite, h]

/-- A write access while RESET is asserted does nothing but assert ready. -/
theorem State.hostWrite_inReset (s : State) (f : State → State) (h : s.inReset = true) :
    s.hostWrite f = s.setBus { s.bus with ready := true } := by
  simp [State.hostWrite, h]

/-- A read access out of reset. -/
theorem State.hostRead_inService (s : State) (f : State → State × Byte) (h : s.inReset = false) :
    s.hostRead f = (f s).1.setBus { (f s).1.bus with ready := true, data := (f s).2 } := by
  simp [State.hostRead, h]

/-- A read access while RESET is asserted returns 0 and does nothing else. -/
theorem State.hostRead_inReset (s : State) (f : State → State × Byte) (h : s.inReset = true) :
    s.hostRead f = s.setBus { s.bus with ready := true, data := 0 } := by
  simp [State.hostRead, h]

/-- The bus with its strobes at any levels: a write access, a read access, or a change of ready alone. -/
theorem State.busStrobes_cases (s : State) (a : Address) (v : Byte) (x : Strobes) :
    s.busStrobes a v x = s.busWrite a v ∨ s.busStrobes a v x = s.busRead a
      ∨ ∃ b, s.busStrobes a v x = s.setBus { s.bus with ready := b } := by
  unfold State.busStrobes
  split
  · exact .inl rfl
  · exact .inr (.inl rfl)
  · exact .inr (.inr ⟨true, rfl⟩)
  · exact .inr (.inr ⟨false, rfl⟩)
  · exact .inr (.inr ⟨false, rfl⟩)

@[simp] theorem State.busStrobes_writing (s : State) (a : Address) (v : Byte) :
    s.busStrobes a v .writing = s.busWrite a v := rfl

/-- An internal event out of reset has its effect. -/
theorem State.inService_released (s : State) (f : State → State) (h : s.inReset = false) : s.inService f = f s := by
  simp [State.inService, h]

/-- An internal event while RESET is asserted has none. -/
theorem State.inService_inReset (s : State) (f : State → State) (h : s.inReset = true) : s.inService f = s := by
  simp [State.inService, h]

/-- A command out of reset: its code stored, ready asserted, its body, and the end of the event. -/
theorem State.hostCommand_inService (s : State) (code : Byte) (body : State → State) (h : s.inReset = false) :
    s.hostCommand code body
      = (body ((s.setBus { s.bus with ready := true }).setRegs { s.regs with command := code })).finish := by
  simp [State.hostCommand, State.hostWrite, h]

/-- A command that takes a circuit, for an argument that names one. -/
theorem State.withCircuit_some (s : State) (body : Circuit → State) (k : Circuit) (h : s.regs.arg0.toNat = k.val) :
    s.withCircuit body = body k := by
  simp [State.withCircuit, circuitArg_eq_some.mpr h]

/-- A command that takes a circuit, for an argument above 9. -/
theorem State.withCircuit_none (s : State) (body : Circuit → State) (h : 9 < s.regs.arg0.toNat) :
    s.withCircuit body = s.withResult .badArg := by
  simp [State.withCircuit, circuitArg_eq_none.mpr h]

/-- A command that takes a spare, for an argument that names one. -/
theorem State.withSpare_some (s : State) (body : Spare → State) (g : Spare) (h : s.regs.arg0.toNat = g.val) :
    s.withSpare body = body g := by
  simp [State.withSpare, spareArg_eq_some.mpr h]

/-- A command that takes a spare, for an argument above 1. -/
theorem State.withSpare_none (s : State) (body : Spare → State) (h : 1 < s.regs.arg0.toNat) :
    s.withSpare body = s.withResult .badArg := by
  simp [State.withSpare, spareArg_eq_none.mpr h]

/-! ## Conditions -/

/-- A state without its records and without what the protocol's reactions write: what a change of a port's conditions
keeps, apart from the conditions. -/
def State.lines (s : State) : State := { s.base with records := Vector.replicate 10 Record.reset }

theorem State.lines_of_base {s t : State} (h : s.base = t.base) : s.lines = t.lines :=
  congrArg (fun x : State => { x with records := Vector.replicate 10 Record.reset }) h

@[simp] theorem State.lines_setRecord (s : State) (k : Circuit) (r : Record) : (s.setRecord k r).lines = s.lines := rfl

/-- The condition unit's write of a cond_class, with all it causes, touches no port, no register and no context. -/
@[simp] theorem State.lines_writeCondClass (s : State) (k : Circuit) (c : Nat) :
    (s.writeCondClass k c).lines = s.lines := by
  unfold State.writeCondClass
  split
  · rfl
  · refine (State.lines_of_base (Turn.base_settle ..)).trans ?_
    refine (State.lines_of_base (Turn.base_sourceChange ..)).trans ?_
    exact State.lines_setRecord ..

@[simp] theorem State.lines_spareDown (s : State) (g : Spare) : (s.spareDown g).lines = s.lines := by
  refine State.lines_of_base ((Turn.base_settle ..).trans ?_)
  exact Turn.base_changeFar _ _ _ _ fun u => State.base_of_still (Turn.still_putReason ..)

@[simp] theorem State.lines_spareUp (s : State) (g : Spare) : (s.spareUp g).lines = s.lines := by
  refine State.lines_of_base ((Turn.base_settle ..).trans ?_)
  exact State.base_of_still (Turn.still_putReason ..)

/-- A declaration or clearing of DOWN writes the port's conditions, and of what else stays nothing. -/
@[simp] theorem State.lines_setDown (s : State) (p : Port) (b : Bool) :
    (s.setDown p b).lines = (s.setCondition p { s.condition p with down := b }).lines := by
  have h : ∀ (u : State) (e : Event), (u.post e).lines = u.lines := fun u e => State.lines_of_base (u.base_post e)
  unfold State.setDown
  dsimp only
  split
  · rw [State.lines_writeCondClass, h]
  · split
    · rw [State.lines_spareDown, h]
    · rw [State.lines_spareUp, h]

/-- A change of IMPAIRED writes the port's conditions, and of what else stays nothing. -/
@[simp] theorem State.lines_setImpaired (s : State) (p : Port) (b : Bool) :
    (s.setImpaired p b).lines = (s.setCondition p { s.condition p with impaired := b }).lines := by
  have h : ∀ (u : State) (e : Event), (u.post e).lines = u.lines := fun u e => State.lines_of_base (u.base_post e)
  unfold State.setImpaired
  dsimp only
  split
  · rw [State.lines_writeCondClass, h]
  · rw [h]

/-- The conditions after a declaration or clearing of DOWN. -/
theorem State.setDown_conditions (s : State) (p : Port) (b : Bool) :
    (s.setDown p b).conditions = tabSet s.conditions p { s.condition p with down := b } := by
  have e := congrArg State.conditions (s.lines_setDown p b)
  exact e

/-- The monitors are not the condition unit's to change. -/
theorem State.setDown_monitors (s : State) (p : Port) (b : Bool) : (s.setDown p b).monitors = s.monitors := by
  have e := congrArg State.monitors (s.lines_setDown p b)
  exact e

/-- The conditions after a change of IMPAIRED. -/
theorem State.setImpaired_conditions (s : State) (p : Port) (b : Bool) :
    (s.setImpaired p b).conditions = tabSet s.conditions p { s.condition p with impaired := b } := by
  have e := congrArg State.conditions (s.lines_setImpaired p b)
  exact e

/-- The monitors are not the condition unit's to change. -/
theorem State.setImpaired_monitors (s : State) (p : Port) (b : Bool) : (s.setImpaired p b).monitors = s.monitors := by
  have e := congrArg State.monitors (s.lines_setImpaired p b)
  exact e

/-- The condition fields of a port when raw-down begins (R150, R151). -/
def Condition.begun (c : Condition) (onset : Byte) : Condition :=
  if c.down then { c with rawDown := true, downSeen := true, clearTimer := none }
  else if onset.toNat = 0 then { c with rawDown := true, downSeen := true, down := true }
  else { c with rawDown := true, downSeen := true, onsetTimer := some (onset.toNat * Config.per100ms) }

/-- The condition fields of a port when raw-down ends (R150, R152). -/
def Condition.ended (c : Condition) (delay : Byte) : Condition :=
  if c.down then
    if delay.toNat = 0 then { c with rawDown := false, down := false }
    else { c with rawDown := false, clearTimer := some (delay.toNat * Config.per10ms) }
  else { c with rawDown := false, onsetTimer := none }

@[simp] theorem State.lines_rawDownBegins (s : State) (p : Port) :
    (s.rawDownBegins p).lines = (s.setCondition p ((s.condition p).begun (tabGet s.regs.onset p))).lines := by
  unfold State.rawDownBegins Condition.begun
  dsimp only
  split
  · rfl
  · split
    · rw [State.lines_setDown]; simp
    · rfl

@[simp] theorem State.lines_rawDownEnds (s : State) (p : Port) :
    (s.rawDownEnds p).lines = (s.setCondition p ((s.condition p).ended s.regs.clearDelay)).lines := by
  unfold State.rawDownEnds Condition.ended
  dsimp only
  split
  · split
    · rw [State.lines_setDown]; simp
    · rfl
  · rfl

/-- The condition fields of a port that follows its two sources (R150). -/
def Condition.watching (c : Condition) (now : Bool) (onset delay : Byte) : Condition :=
  if now && !c.rawDown then c.begun onset
  else if !now && c.rawDown then c.ended delay
  else c

/-- Following the two sources of raw-down writes the port's conditions, and of what else stays nothing. -/
@[simp] theorem State.lines_watch (s : State) (p : Port) :
    (s.watch p).lines = (s.setCondition p ((s.condition p).watching (s.monitor p).rawDown (tabGet s.regs.onset p)
      s.regs.clearDelay)).lines := by
  unfold State.watch Condition.watching
  dsimp only
  split
  · exact State.lines_rawDownBegins ..
  · split
    · exact State.lines_rawDownEnds ..
    · simp

theorem State.watch_monitors (s : State) (p : Port) : (s.watch p).monitors = s.monitors := by
  have e := congrArg State.monitors (s.lines_watch p)
  exact e

theorem State.watch_conditions (s : State) (p : Port) :
    (s.watch p).conditions = tabSet s.conditions p ((s.condition p).watching (s.monitor p).rawDown
      (tabGet s.regs.onset p) s.regs.clearDelay) := by
  have e := congrArg State.conditions (s.lines_watch p)
  exact e

/-- An interval end at one port writes that port's monitor and conditions, and of what else stays nothing. -/
theorem State.lines_endInterval (s : State) (p : Port) :
    (s.endInterval p).lines = ((s.setMonitor p { s.monitor p with errored := 0 }).setCondition p
      { s.condition p with
        downSeen := (s.condition p).rawDown
        impaired := (s.condition p).impairedAfter (s.monitor p).errored s.regs.setThreshold
          s.regs.clearThreshold }).lines := by
  unfold State.endInterval
  dsimp only
  split
  · next h => rw [h]
  · rw [State.lines_setImpaired]
    simp

end Sys2Proof.Machine
end

