-- ==== Sys2Proof/Laws/Events.lean ====
section
/-! SUPPORT. Posting and popping: the bounds of the event queue are kept, and what each move does to the queue. -/

namespace Sys2Proof.Machine

/-- A masked event changes nothing. -/
theorem State.post_masked (s : State) (e : Event) (h : s.unmasked e.kind = false) : s.post e = s := by
  simp [State.post, h]

/-- An event that passes the mask while a place is free is numbered and stored as the newest record. -/
theorem State.post_stored (s : State) (e : Event) (h : s.unmasked e.kind = true)
    (hp : s.events.places.length < Config.eventPlaces) :
    s.post e = s.setEvents { s.events with
      places := s.events.places ++ [{ sequence := s.events.next, event := e }], next := s.events.next + 1 } := by
  simp [State.post, h, hp]

/-- Posting keeps the bounds of the queue. -/
theorem State.post_bounded (s : State) (e : Event) (h : s.events.Bounded) : (s.post e).events.Bounded := by
  obtain ⟨hl, ho⟩ := h
  unfold State.post
  split
  · exact ⟨hl, ho⟩
  · split
    · next hlt =>
      refine ⟨?_, ?_⟩
      · simp; omega
      · intro o hov
        exact absurd (ho o hov).1 (by omega)
    · next hge =>
      split
      · next hov =>
        refine ⟨hl, ?_⟩
        intro o hoo
        simp only [State.setEvents_events, Option.mem_def, Option.some.injEq] at hoo
        subst hoo
        refine ⟨?_, ?_, ?_⟩
        · simp only [State.setEvents_events]; omega
        · show 1 ≤ 1
          omega
        · show 1 ≤ 255
          omega
      · next o hov =>
        split
        · next hlt =>
          refine ⟨hl, ?_⟩
          intro o' hoo
          simp only [State.setEvents_events, Option.mem_def, Option.some.injEq] at hoo
          subst hoo
          have := ho o hov
          refine ⟨this.1, ?_, ?_⟩
          · simp
          · show o.lost + 1 ≤ Config.lostCap
            omega
        · exact ⟨hl, ho⟩

/-- Posting events in order keeps the bounds of the queue. -/
theorem State.postAll_bounded (s : State) (l : List Event) (h : s.events.Bounded) :
    (s.postAll l).events.Bounded := by
  induction l generalizing s with
  | nil => exact h
  | cons e rest ih => exact ih _ (s.post_bounded e h)

/-- A pop keeps the bounds of the queue. -/
theorem EventQueue.pop_bounded (q : EventQueue) (h : q.Bounded) : q.pop.Bounded := by
  obtain ⟨hl, ho⟩ := h
  unfold EventQueue.pop
  split
  · next hov =>
    refine ⟨?_, ?_⟩
    · simp only [List.length_tail]; omega
    · intro o hoo
      simp only [hov, Option.mem_def] at hoo
      cases hoo
  · next o hov =>
    have h31 := (ho o hov).1
    refine ⟨?_, ?_⟩
    · simp only [List.length_append, List.length_tail, List.length_cons, List.length_nil]
      have : 0 < Config.eventPlaces := by decide
      omega
    · intro o' hoo
      cases hoo

/-- Once a REQUEST is gathered in a spare's group, no earlier REQUEST of the same record stands in a later group. -/
theorem Turn.gatherRequest_inOrder (t : Turn) (g : Spare) (e : Event) :
    ∀ p ∈ (t.gatherRequest g e).posts, ∀ h, p.1 = .requests h → p.2.subject = e.subject → h ≤ g := by
  intro p hp h hslot hsub
  simp only [Turn.gatherRequest, List.mem_append, List.mem_map, List.mem_singleton] at hp
  rcases hp with ⟨⟨slot, old⟩, _, rfl⟩ | rfl
  · cases slot with
    | requests i =>
      by_cases hc : old.subject = e.subject ∧ g < i
      · simp only [drawForward, hc, and_self, if_true, Slot.requests.injEq] at hslot
        exact Nat.le_of_eq (congrArg Fin.val hslot.symm)
      · simp only [drawForward, hc, if_false, Slot.requests.injEq] at hslot hsub
        subst hslot
        exact Nat.le_of_not_lt fun hlt => hc ⟨hsub, hlt⟩
    | reasons i => cases hslot
    | spares i => cases hslot
  · cases hslot; exact Nat.le_refl _

/-- Anything that every posting keeps, a pass of the arbiter keeps, its moves gathering events and posting none. -/
theorem Turn.pass_posts (P : State → Prop) (hstill : ∀ s t : State, s.still = t.still → P s → P t)
    (hpost : ∀ (s : State) (e : Event), P s → P (s.post e)) (n : Nat) (t : Turn) (h : P t.st) :
    P (Turn.pass n t).st := by
  have hall : ∀ (l : List Event) (s : State), P s → P (s.postAll l) := by
    intro l
    induction l with
    | nil => intro s hs; exact hs
    | cons e rest ih => intro s hs; exact ih _ (hpost s e hs)
  have hpre : ∀ (t : Turn) (g : Spare) (h : Circuit), P t.st → P (t.preempt g h).st := by
    intro t g h ht
    unfold Turn.preempt
    split
    · refine hstill _ _ (Turn.still_contest ..).symm (hall _ _ (hstill _ _ ?_ ht))
      simp
    · exact ht
  induction n generalizing t with
  | zero => exact h
  | succ n ih =>
    unfold Turn.pass
    split
    · exact h
    · next t' ht' =>
      refine ih _ (hall _ _ ?_)
      unfold Turn.passStep at ht'
      split at ht'
      · cases ht'
      · dsimp only at ht'
        split at ht'
        · cases ht'; exact hstill _ _ (Turn.still_enterPreparing ..).symm h
        · split at ht'
          · cases ht'; exact hstill _ _ (Turn.still_enterPreparing ..).symm h
          · obtain ⟨g, _, rfl⟩ := Option.map_eq_some_iff.mp ht'
            exact hpre _ _ _ h

/-- Anything that every posting keeps, the end of a turn keeps. -/
theorem Turn.settle_posts (P : State → Prop) (hstill : ∀ s t : State, s.still = t.still → P s → P t)
    (hpost : ∀ (s : State) (e : Event), P s → P (s.post e)) (t : Turn) (before : State) (h : P t.st) :
    P (t.settle before) ∧ P t.settleWithPass := by
  have hall : ∀ (l : List Event) (s : State), P s → P (s.postAll l) := by
    intro l
    induction l with
    | nil => intro s hs; exact hs
    | cons e rest ih => intro s hs; exact ih _ (hpost s e hs)
  have hflush : ∀ u : Turn, P u.st → P u.flush.st := fun u hu => hall _ _ hu
  have hclose : ∀ u : Turn, P u.st → P u.close := fun u hu => hall _ _ (hflush u hu)
  have hgrant : ∀ u : Turn, P u.st → P u.grantPass.st := fun u hu =>
    Turn.pass_posts P hstill hpost _ _ (hflush u hu)
  refine ⟨?_, hclose _ (hgrant t h)⟩
  unfold Turn.settle
  dsimp only
  split
  · exact hclose _ (hgrant _ (hflush t h))
  · exact hclose _ (hflush t h)

end Sys2Proof.Machine
end

