-- ==== Sys2Proof/Laws/Lines.lean ====
section
/-! SUPPORT. What the received stream of a port can change: what its own port and the system ports last carried, and, between
two frames, its sending and the feeds. -/

namespace Sys2Proof.Machine

/-! ## Ports -/

@[simp] theorem portUse_workPort (k : Circuit) : portUse (workPort k) = .working k := by revert k; decide

@[simp] theorem portUse_sparePort (g : Spare) : portUse (sparePort g) = .spare g := by revert g; decide

/-! ## The received stream passes -/

/-- What passing the stream on does not write, it keeps: a reading of the state that the two carried streams and the last bits
received do not enter. -/
theorem State.carry_keeps {α : Type} (f : State → α)
    (h : ∀ (s : State) recent lines systems,
      f { s with recentBits := recent, lineOut := lines, systemOut := systems } = f s)
    (s : State) (p : Port) (received : List Bool) (looped passed : Carried) :
    f (s.carry p received looped passed) = f s := h ..

theorem State.carryFrame_keeps {α : Type} (f : State → α)
    (h : ∀ (s : State) recent lines systems,
      f { s with recentBits := recent, lineOut := lines, systemOut := systems } = f s)
    (s : State) (p : Port) (x : Frame) : f (s.carryFrame p x) = f s := h ..

theorem State.carryBits_keeps {α : Type} (f : State → α)
    (h : ∀ (s : State) recent lines systems,
      f { s with recentBits := recent, lineOut := lines, systemOut := systems } = f s)
    (s : State) (p : Port) (l : List Bool) : f (s.carryBits p l) = f s := by
  unfold State.carryBits
  split
  · rfl
  · exact h ..

theorem State.carryStart_keeps {α : Type} (f : State → α)
    (h : ∀ (s : State) recent lines systems,
      f { s with recentBits := recent, lineOut := lines, systemOut := systems } = f s)
    (s : State) (p : Port) (l : List Bool) : f (s.carryStart p l) = f s := by
  unfold State.carryStart
  split
  · rfl
  · exact h ..

/-- No bit, nothing passed. -/
@[simp] theorem State.carryBits_nil (s : State) (p : Port) : s.carryBits p [] = s := rfl

@[simp] theorem State.carryStart_nil (s : State) (p : Port) : s.carryStart p [] = s := rfl

/-- What a system port was last given, the stream of port p having passed: the passed form where p feeds it. -/
theorem State.carry_systemOut (s : State) (p : Port) (received : List Bool) (looped passed : Carried) (k : Circuit) :
    tabGet (s.carry p received looped passed).systemOut k =
      if feedPort k (tabGet s.feeds k) = some p then some passed else tabGet s.systemOut k := by
  simp [State.carry, tabGet]

/-- What a looping spare port last sent, its stream having passed. -/
theorem State.carry_lineOut_looping (s : State) (g : Spare) (received : List Bool) (looped passed : Carried)
    (h : tabGet s.sendModes g = .looping) :
    tabGet (s.carry (sparePort g) received looped passed).lineOut (sparePort g) = some looped := by
  simp [State.carry, h]

/-- A port that does not loop sends nothing of what it receives. -/
theorem State.carry_lineOut_other (s : State) (g : Spare) (received : List Bool) (looped passed : Carried)
    (h : tabGet s.sendModes g ≠ .looping) : (s.carry (sparePort g) received looped passed).lineOut = s.lineOut := by
  simp [State.carry, h]

/-- The last bits received on the port: its own are the newest, another port's stay. -/
theorem State.carry_recentBits (s : State) (p : Port) (received : List Bool) (looped passed : Carried) :
    (s.carry p received looped passed).recentBits =
      tabSet s.recentBits p (lastSeven (tabGet s.recentBits p ++ received)) := rfl

/-- Passing the stream on keeps the bound of the bits that are kept. -/
theorem State.carry_recentBounded (s : State) (p : Port) (received : List Bool) (looped passed : Carried)
    (h : s.RecentBounded) : (s.carry p received looped passed).RecentBounded := by
  intro q
  rw [State.carry_recentBits, tabGet_tabSet]
  split
  · rw [lastSeven_length]; exact Nat.min_le_left ..
  · exact h q

/-! ## Between two frames -/

/-- What the end of a received frame does not write, it keeps: a reading of the state that the sending of the spares and the
feeds do not enter. -/
theorem State.frameBoundary_keeps {α : Type} (f : State → α)
    (h1 : ∀ (s : State) modes, f { s with sendModes := modes } = f s)
    (h2 : ∀ (s : State) feeds, f { s with feeds := feeds } = f s) (s : State) (p : Port) :
    f (s.frameBoundary p) = f s := by
  unfold State.frameBoundary State.followFeeds
  cases portUse p with
  | working k => exact h2 ..
  | spare g => exact (h2 ..).trans (h1 ..)

/-- A monitor that leaves ALIGNED or CHECKING has its position absent and no frame being received. -/
@[simp] theorem Monitor.hunt_isAligned (m : Monitor) : m.hunt.isAligned = false := rfl

/-- A monitor stays ALIGNED through a judged frame. -/
@[simp] theorem Monitor.judged_isAligned (m : Monitor) (n : Nat) (f : Frame) : (m.judged n f).isAligned = true := rfl

/-! ## The search for alignment -/

/-- Everything that bits under HUNTING_MATCH can do: nothing in ALIGNED; otherwise they pass, and a search that finds the
alignment word among them has entered CHECKING. -/
theorem State.receiveBits_cases (s : State) (p : Port) (l : List Bool) :
    ((s.monitor p).isAligned = true ∧ s.receiveBits p l = s)
    ∨ ((s.monitor p).isAligned = false ∧ s.receiveBits p l = s.carryBits p l)
    ∨ ((s.monitor p).state = .hunting ∧ (s.monitor p).signalLost = false ∧ s.findsAlignmentWord p l = true
        ∧ s.receiveBits p l = ((s.carryBits p l).setMonitor p
            { s.monitor p with state := .checking Config.frameBytes, confirm := 0 }).finish) := by
  unfold State.receiveBits
  dsimp only
  split
  · next h =>
    split
    · next hf => exact .inr (.inr ⟨h, hf.2, hf.1, rfl⟩)
    · exact .inr (.inl ⟨by simp [Monitor.isAligned, h], rfl⟩)
  · next h => exact .inr (.inl ⟨by simp [Monitor.isAligned, h], rfl⟩)
  · next h => exact .inl ⟨by simp [Monitor.isAligned, h], rfl⟩

end Sys2Proof.Machine
end

