-- ==== Sys2Proof/Laws/Memory.lean ====
section
/-! SUPPORT. The context store: every operation keeps the canonical form, a word read after it is set is the word set, and
no other word changes. -/

namespace Sys2Proof.Machine

/-- The store of a pin reset is canonical. -/
@[simp] theorem Memory.wf_nil : Memory.wf [] = true := rfl

/-- Every address listed in a store lies above a bound. -/
def Memory.above (a : Nat) (m : Memory) : Prop := ∀ c ∈ m, a < c.1

theorem Memory.wf_cons {a : Nat} {v : Byte} {m : Memory} :
    Memory.wf ((a, v) :: m) = true ↔ v ≠ unlistedByte ∧ Memory.above a m ∧ Memory.wf m = true := by
  simp [Memory.wf, Memory.above, and_assoc]

theorem Memory.above_listed {a b : Nat} {v : Byte} {m : Memory} (hb : a < b) (h : Memory.above a m) :
    Memory.above a (Memory.listed b v m) := by
  unfold Memory.listed
  split
  · exact h
  · intro c hc
    rcases List.mem_cons.mp hc with rfl | hc
    · exact hb
    · exact h c hc

theorem Memory.wf_listed {a : Nat} {v : Byte} {m : Memory} (ha : Memory.above a m) (h : Memory.wf m = true) :
    Memory.wf (Memory.listed a v m) = true := by
  unfold Memory.listed
  split
  · exact h
  · next hv => exact Memory.wf_cons.mpr ⟨hv, ha, h⟩

theorem Memory.above_write {a b : Nat} {v : Byte} {m : Memory} (hb : a < b) (h : Memory.above a m) :
    Memory.above a (Memory.write m b v) := by
  induction m with
  | nil => exact Memory.above_listed hb h
  | cons c rest ih =>
    obtain ⟨d, w⟩ := c
    have hrest : Memory.above a rest := fun c hc => h c (List.mem_cons_of_mem _ hc)
    unfold Memory.write
    split
    · exact Memory.above_listed hb h
    · split
      · exact Memory.above_listed hb hrest
      · intro c hc
        rcases List.mem_cons.mp hc with rfl | hc
        · exact h _ (List.mem_cons_self ..)
        · exact ih hrest c hc

/-- Writing a byte keeps the canonical form. -/
theorem Memory.wf_write {m : Memory} (a : Nat) (v : Byte) (h : Memory.wf m = true) :
    Memory.wf (Memory.write m a v) = true := by
  induction m with
  | nil => exact Memory.wf_listed (by intro c hc; cases hc) rfl
  | cons c rest ih =>
    obtain ⟨d, w⟩ := c
    obtain ⟨hw, hd, hrest⟩ := Memory.wf_cons.mp h
    unfold Memory.write
    split
    · next hlt =>
      refine Memory.wf_listed ?_ h
      intro c hc
      rcases List.mem_cons.mp hc with rfl | hc
      · exact hlt
      · exact Nat.lt_trans hlt (hd c hc)
    · next hge =>
      split
      · next heq => subst heq; exact Memory.wf_listed hd hrest
      · next hne => exact Memory.wf_cons.mpr ⟨hw, Memory.above_write (by omega) hd, ih hrest⟩

/-- Setting a context word keeps the canonical form. -/
theorem Memory.wf_setWord {m : Memory} (p : Port) (i : WordIndex) (v : Half) (h : Memory.wf m = true) :
    Memory.wf (Memory.setWord m p i v) = true :=
  Memory.wf_write _ _ (Memory.wf_write _ _ h)

/-- An address below every listed one reads as an unlisted byte. -/
theorem Memory.read_above {a : Nat} {m : Memory} (h : Memory.above a m) : Memory.read m a = unlistedByte := by
  induction m with
  | nil => rfl
  | cons c rest ih =>
    obtain ⟨d, w⟩ := c
    have hd : a < d := h (d, w) (List.mem_cons_self ..)
    have hne : d ≠ a := by omega
    unfold Memory.read
    rw [if_neg hne]
    exact ih fun c hc => h c (List.mem_cons_of_mem _ hc)

theorem Memory.read_listed {a b : Nat} {v : Byte} {m : Memory} (h : Memory.above a m) :
    Memory.read (Memory.listed a v m) b = if b = a then v else Memory.read m b := by
  unfold Memory.listed
  split
  · next hv =>
    split
    · next hb => subst hb; rw [Memory.read_above h, hv]
    · rfl
  · simp only [Memory.read, eq_comm]

/-- Reading after writing a byte of a canonical store: the byte written, or what stood there. -/
theorem Memory.read_write {m : Memory} (a b : Nat) (v : Byte) (h : Memory.wf m = true) :
    Memory.read (Memory.write m a v) b = if b = a then v else Memory.read m b := by
  induction m with
  | nil => exact Memory.read_listed (by intro c hc; cases hc)
  | cons c rest ih =>
    obtain ⟨d, w⟩ := c
    obtain ⟨_, hd, hrest⟩ := Memory.wf_cons.mp h
    unfold Memory.write
    split
    · next hlt =>
      refine Memory.read_listed ?_
      intro c hc
      rcases List.mem_cons.mp hc with rfl | hc
      · exact hlt
      · exact Nat.lt_trans hlt (hd c hc)
    · next hge =>
      split
      · next heq =>
        subst heq
        rw [Memory.read_listed hd]
        split
        · rfl
        · next hb => simp only [Memory.read]; rw [if_neg fun e => hb e.symm]
      · next hne =>
        simp only [Memory.read]
        rw [ih hrest]
        split
        · next hdb => rw [if_neg fun e => hne (by omega)]
        · rfl

theorem Memory.contextAddress_inj {p q : Port} {i j : WordIndex}
    (h : contextAddress p i = contextAddress q j) : p = q ∧ i = j := by
  unfold contextAddress at h
  constructor <;> apply Fin.ext <;> omega

/-- The two halves of a word join to the word. -/
@[simp] theorem joinBytes_halves (v : Half) : joinBytes (upperByte v) (lowerByte v) = v := by
  unfold joinBytes upperByte lowerByte
  ext i hi
  simp only [BitVec.getElem_append, BitVec.getElem_extractLsb']
  split <;> simp [BitVec.getLsbD, BitVec.getElem_eq_testBit_toNat] <;> congr 1 <;> omega

@[simp] theorem upperByte_joinBytes (u l : Byte) : upperByte (joinBytes u l) = u := by
  unfold joinBytes upperByte
  ext i hi
  have e := BitVec.getLsbD_append (x := u) (y := l) (i := 8 + i)
  simp only [BitVec.getElem_extractLsb']
  refine e.trans ?_
  simp [hi]

@[simp] theorem lowerByte_joinBytes (u l : Byte) : lowerByte (joinBytes u l) = l := by
  unfold joinBytes lowerByte
  ext i hi
  have e := BitVec.getLsbD_append (x := u) (y := l) (i := 0 + i)
  simp only [BitVec.getElem_extractLsb']
  refine e.trans ?_
  simp [hi]

/-- Reading a context word after setting one: the word set, and every other word as it stood. -/
theorem Memory.word_setWord {m : Memory} (p q : Port) (i j : WordIndex) (v : Half) (h : Memory.wf m = true) :
    Memory.word (Memory.setWord m p i v) q j = if q = p ∧ j = i then v else Memory.word m q j := by
  have h1 := Memory.wf_write (contextAddress p i) (lowerByte v) h
  unfold Memory.word Memory.setWord
  simp only [Memory.read_write _ _ _ h1, Memory.read_write _ _ _ h]
  have e1 : contextAddress q j + 1 ≠ contextAddress p i := by unfold contextAddress; omega
  have e2 : contextAddress q j ≠ contextAddress p i + 1 := by unfold contextAddress; omega
  by_cases he : contextAddress q j = contextAddress p i
  · obtain ⟨rfl, rfl⟩ := Memory.contextAddress_inj he
    simp
  · have hne : ¬ (q = p ∧ j = i) := by rintro ⟨rfl, rfl⟩; exact he rfl
    have e3 : contextAddress q j + 1 ≠ contextAddress p i + 1 := by omega
    rw [if_neg hne, if_neg e1, if_neg e2, if_neg e3, if_neg he]

end Sys2Proof.Machine
end

