-- ==== Sys2Proof/Laws/Queue.lean ====
section
/-! SUPPORT. The pending queue: what a placement holds and that it keeps the order; what moving a record and entering an
engine state do, said once. -/

namespace Sys2Proof.Machine

/-! ## Placement -/

/-- Placing a circuit at the end of its class group adds it to the queue and moves no other. -/
theorem placeBack_perm (cls : Circuit → Nat) (k : Circuit) (q : List Circuit) : (placeBack cls k q).Perm (k :: q) := by
  induction q with
  | nil => exact List.Perm.refl _
  | cons j rest ih =>
    unfold placeBack
    split
    · exact (List.Perm.cons j ih).trans (List.Perm.swap k j rest)
    · exact List.Perm.refl _

/-- Placing a circuit at the front of its class group adds it to the queue and moves no other. -/
theorem placeFront_perm (cls : Circuit → Nat) (k : Circuit) (q : List Circuit) :
    (placeFront cls k q).Perm (k :: q) := by
  induction q with
  | nil => exact List.Perm.refl _
  | cons j rest ih =>
    unfold placeFront
    split
    · exact (List.Perm.cons j ih).trans (List.Perm.swap k j rest)
    · exact List.Perm.refl _

/-- A placement at the end of a class group keeps the queue in class order. -/
theorem placeBack_sorted (cls : Circuit → Nat) (k : Circuit) (q : List Circuit)
    (h : q.Pairwise fun i j => cls j ≤ cls i) : (placeBack cls k q).Pairwise fun i j => cls j ≤ cls i := by
  induction q with
  | nil => simp [placeBack]
  | cons j rest ih =>
    obtain ⟨hj, hrest⟩ := List.pairwise_cons.mp h
    unfold placeBack
    split
    · next hle =>
      refine List.pairwise_cons.mpr ⟨?_, ih hrest⟩
      intro i hi
      rcases List.mem_cons.mp ((placeBack_perm cls k rest).mem_iff.mp hi) with rfl | hi
      · exact hle
      · exact hj i hi
    · next hgt =>
      refine List.pairwise_cons.mpr ⟨?_, h⟩
      intro i hi
      rcases List.mem_cons.mp hi with rfl | hi
      · omega
      · have := hj i hi; omega

/-- A placement at the front of a class group keeps the queue in class order. -/
theorem placeFront_sorted (cls : Circuit → Nat) (k : Circuit) (q : List Circuit)
    (h : q.Pairwise fun i j => cls j ≤ cls i) : (placeFront cls k q).Pairwise fun i j => cls j ≤ cls i := by
  induction q with
  | nil => simp [placeFront]
  | cons j rest ih =>
    obtain ⟨hj, hrest⟩ := List.pairwise_cons.mp h
    unfold placeFront
    split
    · next hlt =>
      refine List.pairwise_cons.mpr ⟨?_, ih hrest⟩
      intro i hi
      rcases List.mem_cons.mp ((placeFront_perm cls k rest).mem_iff.mp hi) with rfl | hi
      · omega
      · exact hj i hi
    · next hge =>
      refine List.pairwise_cons.mpr ⟨?_, h⟩
      intro i hi
      rcases List.mem_cons.mp hi with rfl | hi
      · omega
      · have := hj i hi; omega

/-- What the queue holds after circuit k has been taken out and perhaps put in again. -/
theorem State.mem_requeue (s : State) (k j : Circuit) (queued : Bool) (place : Place) :
    j ∈ s.requeue k queued place ↔ (j ∈ s.queue ∧ j ≠ k) ∨ (queued = true ∧ j = k) := by
  unfold State.requeue
  cases queued
  · simp
  · cases place
    · simp [(placeBack_perm s.effClass k _).mem_iff, or_comm]
    · simp [(placeFront_perm s.effClass k _).mem_iff, or_comm]

/-- Requeuing a circuit lists no circuit twice. -/
theorem State.requeue_nodup (s : State) (k : Circuit) (queued : Bool) (place : Place) (h : s.queue.Nodup) :
    (s.requeue k queued place).Nodup := by
  have hf : (s.queue.filter (· ≠ k)).Nodup := h.filter _
  have hk : (k :: s.queue.filter (· ≠ k)).Nodup := List.nodup_cons.mpr ⟨by simp, hf⟩
  unfold State.requeue
  cases queued
  · exact hf
  · cases place
    · exact (placeBack_perm s.effClass k _).nodup_iff.mpr hk
    · exact (placeFront_perm s.effClass k _).nodup_iff.mpr hk

/-- Requeuing a circuit keeps the queue in class order. -/
theorem State.requeue_sorted (s : State) (k : Circuit) (queued : Bool) (place : Place)
    (h : (s.queue.filter (· ≠ k)).Pairwise fun i j => s.effClass j ≤ s.effClass i) :
    (s.requeue k queued place).Pairwise fun i j => s.effClass j ≤ s.effClass i := by
  unfold State.requeue
  cases queued
  · exact h
  · cases place
    · exact placeBack_sorted s.effClass k _ h
    · exact placeFront_sorted s.effClass k _ h

/-! ## Moving a record -/

theorem Turn.moveRecord_st (t : Turn) (g : Spare) (k : Circuit) (r : RequestState) (place : Place) :
    (t.moveRecord g k r place).st
      = (t.st.setQueue (t.st.requeue k (r = .queued) place)).setRecord k
          { t.st.record k with state := r, returnTimer := none } := by
  unfold Turn.moveRecord
  dsimp only
  split <;> rfl

@[simp] theorem Turn.moveRecord_record (t : Turn) (g : Spare) (k : Circuit) (r : RequestState) (place : Place) :
    (t.moveRecord g k r place).st.record k = { t.st.record k with state := r, returnTimer := none } := by
  rw [Turn.moveRecord_st]
  simp

@[simp] theorem Turn.moveRecord_record_other (t : Turn) (g : Spare) {k j : Circuit} (r : RequestState) (place : Place)
    (h : k ≠ j) : (t.moveRecord g k r place).st.record j = t.st.record j := by
  rw [Turn.moveRecord_st]
  simp [h]

@[simp] theorem Turn.moveRecord_queue (t : Turn) (g : Spare) (k : Circuit) (r : RequestState) (place : Place) :
    (t.moveRecord g k r place).st.queue = t.st.requeue k (r = .queued) place := by
  rw [Turn.moveRecord_st]
  rfl

@[simp] theorem Turn.moveRecord_engine (t : Turn) (g h : Spare) (k : Circuit) (r : RequestState) (place : Place) :
    (t.moveRecord g k r place).st.engine h = t.st.engine h := by
  rw [Turn.moveRecord_st]
  rfl

@[simp] theorem Turn.moveRecord_transfer (t : Turn) (g h : Spare) (k : Circuit) (r : RequestState) (place : Place) :
    (t.moveRecord g k r place).st.transfer h = t.st.transfer h := by
  rw [Turn.moveRecord_st]
  rfl

@[simp] theorem Turn.moveRecord_offered (t : Turn) (g : Spare) (k : Circuit) (r : RequestState) (place : Place) :
    (t.moveRecord g k r place).offered = t.offered := by
  unfold Turn.moveRecord
  dsimp only
  split <;> rfl

@[simp] theorem State.effClass_setRecord_state (s : State) (k j : Circuit) (r : RequestState) (x : Option Nat) :
    (s.setRecord k { s.record k with state := r, returnTimer := x }).effClass j = s.effClass j := by
  have h : ((s.setRecord k { s.record k with state := r, returnTimer := x }).record j).localClass
      = (s.record j).localClass := by
    rw [State.setRecord_record]
    split
    · next hj => subst hj; rfl
    · rfl
  unfold State.effClass State.localClass
  rw [h, State.setRecord_farClass]

/-! ## Entering an engine state -/

@[simp] theorem Turn.enterEngine_engine (t : Turn) (g : Spare) (e : EngineState) (a b : Option Nat) :
    (t.enterEngine g e a b).st.engine g = { t.st.engine g with state := e, answerTimer := a, testTimer := b } :=
  State.setEngine_engine_same ..

@[simp] theorem Turn.enterEngine_engine_other (t : Turn) {g h : Spare} (e : EngineState) (a b : Option Nat)
    (hne : g ≠ h) : (t.enterEngine g e a b).st.engine h = t.st.engine h := State.setEngine_engine_other _ _ hne

@[simp] theorem Turn.enterEngine_record (t : Turn) (g : Spare) (e : EngineState) (a b : Option Nat) (k : Circuit) :
    (t.enterEngine g e a b).st.record k = t.st.record k := rfl

@[simp] theorem Turn.enterEngine_queue (t : Turn) (g : Spare) (e : EngineState) (a b : Option Nat) :
    (t.enterEngine g e a b).st.queue = t.st.queue := rfl

@[simp] theorem Turn.enterEngine_transfer (t : Turn) (g h : Spare) (e : EngineState) (a b : Option Nat) :
    (t.enterEngine g e a b).st.transfer h = t.st.transfer h := rfl

@[simp] theorem State.cancelTransfer_transfer (s : State) (g : Spare) : (s.cancelTransfer g).transfer g = none := by
  simp [State.cancelTransfer]

@[simp] theorem State.abandon_transfers (s : State) (g : Spare) : (s.abandon g).transfers = s.transfers := by
  unfold State.abandon
  split
  · split <;> rfl
  · rfl

@[simp] theorem State.abandon_engines (s : State) (g : Spare) : (s.abandon g).engines = s.engines := by
  unfold State.abandon
  split
  · split <;> rfl
  · rfl

@[simp] theorem State.abandon_records (s : State) (g : Spare) : (s.abandon g).records = s.records := by
  unfold State.abandon
  split
  · split <;> rfl
  · rfl

@[simp] theorem State.abandon_queue (s : State) (g : Spare) : (s.abandon g).queue = s.queue := by
  unfold State.abandon
  split
  · split <;> rfl
  · rfl

@[simp] theorem State.cancelTransfer_engine (s : State) (g h : Spare) : (s.cancelTransfer g).engine h = s.engine h :=
  congrArg (fun v => tabGet v h) (s.abandon_engines g)

@[simp] theorem State.cancelTransfer_record (s : State) (g : Spare) (k : Circuit) :
    (s.cancelTransfer g).record k = s.record k := congrArg (fun v => tabGet v k) (s.abandon_records g)

@[simp] theorem State.cancelTransfer_queue (s : State) (g : Spare) : (s.cancelTransfer g).queue = s.queue :=
  s.abandon_queue g

/-- A started transfer begins at cursor 0 with nothing to resend and nothing in flight. -/
@[simp] theorem State.startTransfer_transfer (s : State) (g : Spare) (src : TransferSource) :
    (s.startTransfer g src).transfer g = some { source := src, cursor := 0, resend := [], inFlight := none } :=
  State.setTransfer_transfer_same ..

/-- An engine that lets go is FREE with no timer running. -/
theorem Turn.letGo_engine (t : Turn) (g : Spare) :
    ((t.letGo g).st.engine g).state = .free ∧ ((t.letGo g).st.engine g).answerTimer = none
      ∧ ((t.letGo g).st.engine g).testTimer = none := by
  simp [Turn.letGo]

/-- An engine that takes a circuit is PREPARING for it, and the circuit's record ASSIGNED to its spare. -/
theorem Turn.enterPreparing_holds (t : Turn) (g : Spare) (k : Circuit) :
    ((t.enterPreparing g k).st.engine g).state = .preparing k
      ∧ ((t.enterPreparing g k).st.record k).state = .assigned g := by
  refine ⟨?_, ?_⟩
  · simp [Turn.enterPreparing]
  · unfold Turn.enterPreparing
    simp only [Turn.enterEngine_record, Turn.change_st]
    unfold State.updateKind
    split <;> simp

end Sys2Proof.Machine
end

