-- ==== Sys2Proof/Tests/Slice0.lean ====
section
/-! SUPPORT. Own tests: an ill-formed term for each check of WellFormed, words and frames written out from the manual's
encodings, short runs of one command, and for each statement a state and operands that meet its hypotheses together. -/

open Sys2Proof Sys2Proof.Machine

namespace Sys2Proof.Tests

-- One test after another: each waits for the kernel, and a thread for each would not fit the memory of the check.
set_option Elab.async false

/-! ## Well-formedness -/

theorem test_unknown_code_must_name_no_command :
    (Instr.unknownCommand 0x30).wellFormed = false ∧ (Instr.unknownCommand 0x07).wellFormed = true := by decide

theorem test_protect_set_must_set_the_enable :
    (Instr.protectEnableSet 6).wellFormed = false ∧ (Instr.protectEnableSet 7).wellFormed = true := by decide

theorem test_protect_cleared_must_clear_the_enable :
    (Instr.protectEnableCleared 1).wellFormed = false ∧ (Instr.protectEnableCleared 6).wellFormed = true := by decide

theorem test_configuration_write_must_not_be_another_row :
    (Instr.configurationWrite 0x04 0).wellFormed = false ∧ (Instr.configurationWrite 0x63 0).wellFormed = false
      ∧ (Instr.configurationWrite 0x05 0).wellFormed = true := by decide

theorem test_configuration_write_must_not_be_a_read :
    (Instr.configurationWrite 0x04 0 .reading).wellFormed = false ∧ (Instr.configurationWrite 0x04 0 .both).wellFormed = true
      ∧ (Instr.configurationWrite 0x04 0 { Strobes.both with chipSelect := false }).wellFormed = true := by decide

theorem test_holding_byte_must_be_an_upper_address :
    (Instr.writeHoldingByte 0x0A 0).wellFormed = false ∧ (Instr.writeHoldingByte 0x0B 0).wellFormed = true := by decide

theorem test_lower_read_must_be_a_lower_address :
    (Instr.lowerAddressRead 0x0B).wellFormed = false ∧ (Instr.lowerAddressRead 0x62).wellFormed = false
      ∧ (Instr.lowerAddressRead 0x4B).wellFormed = true := by decide

theorem test_hunting_match_must_match :
    (Instr.huntingMatch 0 (byteBits 0xD2)).wellFormed = false ∧ (Instr.huntingMatch 0 []).wellFormed = false
      ∧ (Instr.huntingMatch 0 (byteBits 0xD3) (byteBits 0xD2)).wellFormed = true := by decide

/-- The bytes 0x0D and 0x30 hold the alignment word across their edge, so a later match is not the first. -/
theorem test_hunting_match_must_be_the_first :
    (Instr.huntingMatch 0 (byteBits 0xD3) (byteBits 0xD3)).wellFormed = false
      ∧ (Instr.huntingMatch 0 (byteBits 0xD3) (bytesBits [0x0D, 0x30])).wellFormed = false
      ∧ (Instr.huntingMatch 0 (byteBits 0xD3) [false, false, false, false]).wellFormed = true := by decide

theorem test_hunting_match_reaching_back_comes_alone :
    (Instr.huntingMatch 0 [false, false, true, true] [true]).wellFormed = false
      ∧ (Instr.huntingMatch 0 [false, false, true, true]).wellFormed = true := by decide

theorem test_checking_position_is_at_most_a_frame_on :
    (Instr.checkingAlignmentWord 0 0xD3 (List.replicate 128 0)).wellFormed = false
      ∧ (Instr.checkingAlignmentWord 0 0xD2 (List.replicate 127 0)).wellFormed = true
      ∧ (Instr.checkingAlignmentWord 0 0xD2 [7]).wellFormed = true := by decide +kernel

theorem test_alignment_lost_must_mismatch :
    (Instr.alignmentLost 0 0xD3).wellFormed = false ∧ (Instr.alignmentLost 0 0xD2).wellFormed = true := by decide

/-! ## Words and frames from the manual's encodings -/

/-- Bits of Table 11-2 for CARRY(9, 4) from end B: kind 0011, circuit 1001, class 100, detail 000, origin 1, parity. -/
theorem test_word_bits :
    (SpanWord.carry 9 4).encode .endB = 0b0011_1001_100_000_1_1 ∧ spanWord 0b0010_0101_011_000_0_0 = some (.claim 5 3)
      ∧ spanWord 0b0110_0000_000_010_0_0 = some (.barred 2) ∧ spanWord 0b0010_1010_001_000_0_0 = none
      ∧ (SpanWord.yield 7).encode .endA = 0b0100_0111_000_000_0_1 := by decide

/-- A filler frame carrying VACANT from end A: its four leading bytes and its last. -/
theorem test_filler_frame :
    (fillerFrame 0x1000).toList.take 3 = [0xD3, 0x10, 0x00] ∧ checkCorrect (fillerFrame 0x1000) = true
      ∧ frameGood (replaceWord (fillerFrame 0x1000) 0x6008) = true := by decide +kernel

/-- The 32 periods of an attempt at port 10, index 3, value 1, by the level the port drives on LSP_DAT: start, port, index,
value, odd parity, three periods not driven, three idle (R122). -/
theorem test_attempt_periods :
    (attemptPeriods { source := .fifo, port := 10, index := 3, value := 1, second := false, abandoned := false,
                      rate := 0 }).map LspPeriod.dat
      = [some false, some true, some false, some true, some false, some false, some false, some true, some true]
        ++ List.replicate 15 (some false) ++ [some true, some false, none, none, none, some true, some true, some true] := by
  decide

/-! ## Small states -/

/-- Out of reset, protection disabled, nothing waiting, an idle port. -/
def live : State := { State.reset with inReset := false }

/-- The same with the two argument registers written. -/
def args (s : State) (a b : Byte) : State := s.setRegs { s.regs with arg0 := a, arg1 := b }

/-- Protection enabled, spare 0 in a state with an answer timer, spare 1 free. -/
def withEngine (e : EngineState) (answer : Option Nat) : State :=
  let s := live.setRegs { live.regs with enable := true }
  let s := s.setEngine 0 { Engine.reset with state := e, reasons := Reasons.empty, answerTimer := answer }
  s.setEngine 1 { Engine.reset with state := .free, reasons := Reasons.empty }

/-- Both spares free. -/
def idle : State := withEngine .free none

/-- Circuit 9, with a software class, on spare 0 in a state of its engine and of its record. -/
def holding (e : EngineState) (r : RequestState) (sw : Nat) : State :=
  (withEngine e (some 800)).setRecord 9 { Record.reset with swClass := sw, state := r }

/-- Circuit 0 waiting at class 4. -/
def withHead (s : State) : State :=
  (s.setRecord 0 { Record.reset with swClass := 4, state := .queued }).setQueue [0]

/-- A word as the current far word of spare 0. -/
def withFar (s : State) (w : SpanWord) : State := s.setFar 0 (some (w.encode .endB))

/-- A transaction of a forward entry on the line. -/
def entryLine (second : Bool) : Transaction :=
  { source := .fifo, port := 4, index := 5, value := 6, second := second, abandoned := false, rate := 0 }

/-- A transaction of spare 0's transfer on the line. -/
def transferLine (second abandoned : Bool) : Transaction :=
  { source := .transfer 0, port := 10, index := 15, value := 0, second := second, abandoned := abandoned, rate := 0 }

/-- Port 10's monitor aligned, and the word on the way to spare 0: its next frame settles it. -/
def arriving (s : State) (w : Half) : State :=
  (s.setMonitor 10 { Monitor.reset false with state := .aligned 640 }).setQualifier 0
    { s.qualifier 0 with candidate := some w, run := 4, settled := false }

/-- The last word of a transfer, in flight. -/
def lastWord (src : TransferSource) : Transfer := { source := src, cursor := 16, resend := [], inFlight := some 15 }

/-- A transfer on spare 0 with a transaction on the line. -/
def moving (s : State) (t : Transfer) (x : Transaction) : State :=
  { s.setTransfer 0 (some t) with transaction := some x }

/-- The state that an outcome holds. -/
def after (o : Host.Outcome State Fault Refusal) : State :=
  match o with
  | .next t => t
  | .fault _ => State.reset
  | .refused _ => State.reset

/-! ## One command each -/

theorem test_release_then_interrupt :
    let t := after (exec (.resetRelease .endB) State.reset)
    t.role = .endB ∧ t.events.places.length = 24 ∧ (after (exec (.interruptEnableWrite 4) t)).interrupt = true := by
  decide +kernel

theorem test_force_is_granted :
    let t := after (exec .force (args idle 3 0))
    (t.record 3).state = .assigned 0 ∧ (t.engine 0).state = .preparing 3 ∧ t.regs.result = .done
      ∧ (t.transfer 0).map (·.inFlight) = some (some 0) ∧ t.ownSays 0 = some (.claim 3 4) := by
  decide +kernel

theorem test_bar_drops_a_carried_circuit :
    let t := after (exec .bar (args (withFar (holding (.carrying 9) (.assigned 0) 1) (.carry 9 1)) 9 0))
    (t.record 9).state = .parked ∧ (t.engine 0).state = .free ∧ t.ownSays 0 = some (.decline 9) := by
  decide +kernel

theorem test_last_acknowledgement_bridges :
    let t := after (exec (.lspAttemptEnd false false true)
      (moving (holding (.preparing 9) (.assigned 0) 1) (lastWord (.circuit 9)) (transferLine false false)))
    (t.engine 0).state = .bridged 9 ∧ t.bridge 0 = some 9 ∧ t.selector 0 = none := by
  decide +kernel

/-- The working line is unaligned and the spare between two frames: the selector that the frame's word sets takes effect
with the next one, the frame itself not passed (R48, R144). -/
theorem test_settled_carry_switches_over :
    let w := (SpanWord.carry 9 0).encode .endB
    let t := after (exec (.frameJudged 10 (fillerFrame w)) (arriving (holding (.bridged 9) (.assigned 0) 1) w))
    (t.engine 0).state = .carrying 9 ∧ t.selector 0 = some 9 ∧ (t.qualifier 0).far = some w
      ∧ tabGet t.feeds 9 = .spare 0 ∧ tabGet t.systemOut 9 = none := by
  decide +kernel

/-- The frame whose word ends the loop is the last one sent back (R48, R103, R143). -/
theorem test_word_ends_the_loop_with_its_frame :
    let w := SpanWord.vacant.encode .endB
    let s := { arriving (withEngine .looped none) w with sendModes := Vector.replicate 2 .looping }
    let t := after (exec (.frameJudged 10 (fillerFrame w)) s)
    (t.engine 0).state = .free ∧ tabGet t.lineOut 10 = some (.frame (fillerFrame w))
      ∧ tabGet t.sendModes 0 = .ones := by
  decide +kernel

/-- A carried circuit without a class steps back before a claim of class 0 on another, wins the contest, and stays so: its
class has not changed (R73, R79, R83). -/
theorem test_step_back_at_class_zero_stays_bridged :
    let w := (SpanWord.carry 9 0).encode .endB
    let s := (withEngine (.carrying 3) none).setRecord 3 { Record.reset with state := .assigned 0 }
    let t := after (exec (.frameJudged 10 (fillerFrame w)) (arriving s w))
    (t.engine 0).state = .bridged 3 ∧ (t.engine 0).answerTimer = some 800 ∧ (t.record 3).state = .assigned 0 := by
  decide +kernel

/-- The third confirmation expects the next alignment word 128 bytes on, and so does the first frame judged (R136 to R138). -/
theorem test_alignment_is_reached_one_frame_on :
    let s := live.setMonitor 9 { Monitor.reset false with state := .checking 384, confirm := 2 }
    let t := after (exec (.checkingAlignmentWord 9 0xD3) s)
    (t.monitor 9).state = .aligned 512
      ∧ ((after (exec (.frameJudged 9 (fillerFrame 0x1000)) t)).monitor 9).state = .aligned 512 := by
  decide +kernel

/-- The alignment word is found across the edge of two bytes, and across two commands (R137). -/
theorem test_search_at_every_bit_period :
    let checking := live.setMonitor 9 { Monitor.reset false with state := .checking 128 }
    let missed := after (exec (.checkingAlignmentWord 9 0x0D) checking)
    ((after (exec (.huntingMatch 9 (byteBits 0x55) (bytesBits [0x0D, 0x30])) live)).monitor 9).state = .checking 128
      ∧ (missed.monitor 9).state = .hunting
      ∧ ((after (exec (.huntingMatch 9 [false, false, true, true]) missed)).monitor 9).state = .checking 128
      ∧ ((after (exec (.huntingMatch 9 [false, false, true]) missed)).monitor 9).state = .hunting := by
  decide +kernel

/-- Signal-lost cuts off the first aligned frame: its alignment word, which the third confirmation brought, is sent on by a
loop, and the places of the bytes behind it count from it (R143, R144). -/
theorem test_opening_frame_is_cut_off :
    let s := (holding (.carrying 9) (.assigned 0) 1).setMonitor 10
      { Monitor.reset false with state := .aligned 512, opening := true, confirm := 3 }
    let t := after (exec (.signalLostAsserted 10 (bytesBits [0x12, 0x34]))
      { s with feeds := tabSet s.feeds 9 (.spare 0), sendModes := Vector.replicate 2 .looping })
    tabGet t.systemOut 9 = some (.bits (bytesBits [0xD3, 0, 0]))
      ∧ tabGet t.lineOut 10 = some (.bits (bytesBits [0xD3, 0x12, 0x34])) := by
  decide +kernel

/-- A loop that was turned off while its monitor was not aligned is left where the first frame begins (R143). -/
theorem test_loop_turned_off_unaligned_ends_at_the_first_frame :
    let s := { idle.setMonitor 10 { Monitor.reset false with state := .checking 384, confirm := 2 } with
                 sendModes := Vector.replicate 2 .looping }
    let t := after (exec (.checkingAlignmentWord 10 0xD3) s)
    (t.monitor 10).state = .aligned 512 ∧ tabGet t.sendModes 0 = .ones := by
  decide +kernel

/-- A loop left at an edge while its monitor is in CHECKING: what came before the edge is sent on, what comes after it is
not (R143; assumption 10). -/
theorem test_loop_left_at_an_edge_in_checking :
    let s := { idle.setMonitor 10 { Monitor.reset false with state := .checking 128 } with
                 sendModes := Vector.replicate 2 .looping }
    let t := after (exec (.huntingMatch 10 (bytesBits [0x12, 0x34])) s)
    let u := after (exec (.frameReferenceEdge (Vector.replicate 10 (fillerFrame 0x1000))) t)
    tabGet t.lineOut 10 = some (.bits (bytesBits [0x12, 0x34])) ∧ (t.monitor 10).state = .checking 128
      ∧ tabGet u.sendModes 0 = .reference
      ∧ tabGet (after (exec (.checkingAlignmentWord 10 0xD3 [0x56]) u)).lineOut 10 = tabGet u.lineOut 10 := by
  decide +kernel

/-- A selector changes while the line it leaves is in CHECKING: the bytes from before the change are the system port's, those
behind it are not (R144; assumption 10). -/
theorem test_selector_changes_with_its_line_in_checking :
    let s := (holding (.returning 9) (.releasing 0) 0).setMonitor 10
      { Monitor.reset false with state := .checking 128 }
    let s := { s with feeds := tabSet s.feeds 9 (.spare 0) }
    let t := after (exec (.huntingMatch 10 (bytesBits [0x12, 0x34])) s)
    let u := after (exec (.answerTimerExpiry 0) t)
    tabGet t.systemOut 9 = some (.bits (bytesBits [0x12, 0x34])) ∧ tabGet u.feeds 9 = .working
      ∧ tabGet (after (exec (.checkingAlignmentWord 10 0x11 [0x56]) u)).systemOut 9 = tabGet t.systemOut 9 := by
  decide +kernel

/-- Circuit 5 prepared on spare 0 at class 3 by the far claim on spare 1 alone; circuit 9 forced onto spare 1, and claimed by
the far end on spare 0. -/
def crossed : State :=
  let s := (withEngine (.preparing 5) none).setEngine 1 { Engine.reset with state := .carrying 9, reasons := Reasons.empty }
  let s := (s.setRecord 5 { Record.reset with swClass := 1, state := .assigned 0 }).setRecord 9
    { Record.reset with swClass := 4, state := .assigned 1 }
  (s.setFar 0 (some ((SpanWord.claim 9 2).encode .endB))).setFar 1 (some ((SpanWord.claim 5 3).encode .endB))

/-- Put back from spare 1 and adopted on spare 0 in one event, a record posts its states in the order entered (R23). -/
theorem test_states_of_a_record_are_posted_in_order :
    let u := crossed.turn.take 1 ((SpanWord.barred 0).encode .endB) (.barred 0)
    (u.st.record 9).state = .assigned 0
      ∧ (u.ordered.filter fun e => e.kind = .request ∧ e.subject = 9).map (·.detail1) = [0x2F, 0x30] := by
  decide +kernel

/-- The strobes: an access asserts ready, their release takes it back, and both together do nothing else (R163). -/
theorem test_strobes :
    let t := after (exec (.configurationWrite 0x07 9) live)
    t.regs.returnDelay = 9 ∧ t.bus.ready = true
      ∧ (after (exec (.configurationWrite 0x07 9 { Strobes.both with chipSelect := false }) t)).bus.ready = false
      ∧ (after (exec (.configurationWrite 0x07 8 .both) t)).regs.returnDelay = 9 := by
  decide +kernel

theorem test_context_write_reaches_store_and_line :
    let s := live.setBus { live.bus with writeHolding := 0xAB }
    let t := after (exec (.contextWriteCommit 0xCD) s)
    t.contextWord 0 0 = 0xABCD ∧ t.regs.contextIndex = 1 ∧ t.fifo = []
      ∧ t.transaction = some { source := .fifo, port := 0, index := 0, value := 0xABCD, second := false,
                               abandoned := false, rate := 0 } := by
  decide +kernel

theorem test_pop_returns_the_copy :
    let s := live.post { kind := .echo, subject := 10, detail1 := 1, detail2 := 2 }
    let t := after (exec .eventPop (after (exec .eventKindRead s)))
    t.bus.data = 2 ∧ t.events.places = [] ∧ t.window.kind = 12 ∧ t.window.consumed = true := by
  decide +kernel

/-! ## Hypotheses that can be met

For each statement with hypotheses: a state and operands that meet all of them together, each clause at a boundary. -/

theorem agreement_live : live.Agreement :=
  ⟨by unfold State.ReasonsAgree; decide +kernel, by unfold State.HoldingAgrees; decide +kernel,
    fun k => by fin_cases k <;> rfl, by unfold State.QueueAgrees; decide +kernel⟩

theorem agreement_idle : idle.Agreement :=
  ⟨by unfold State.ReasonsAgree; decide +kernel, by unfold State.HoldingAgrees; decide +kernel,
    fun k => by fin_cases k <;> rfl, by unfold State.QueueAgrees; decide +kernel⟩

theorem agreement_bridged : (holding (.bridged 9) (.assigned 0) 1).Agreement :=
  ⟨by unfold State.ReasonsAgree; decide +kernel, by unfold State.HoldingAgrees; decide +kernel,
    fun k => by fin_cases k <;> first | rfl | exact ⟨rfl, rfl⟩, by unfold State.QueueAgrees; decide +kernel⟩

/-- A transfer's last word on its second attempt, its circuit in PREPARING. -/
def failing : State :=
  moving (holding (.preparing 9) (.assigned 0) 1) (lastWord (.circuit 9)) (transferLine true false)

theorem agreement_failing : failing.Agreement :=
  ⟨by unfold State.ReasonsAgree; decide +kernel, by unfold State.HoldingAgrees; decide +kernel,
    fun k => by fin_cases k <;> first | rfl | exact ⟨rfl, rfl⟩, by unfold State.QueueAgrees; decide +kernel⟩

theorem over_live : live.EventOver :=
  ⟨by unfold State.PortServed; decide +kernel, fun k => .inl (by revert k; decide +kernel)⟩

theorem over_args_idle : (args idle 0 1).EventOver :=
  ⟨by unfold State.PortServed; decide +kernel, fun k => .inl (by revert k; decide +kernel)⟩

/-- Circuit 9 carried on spare 0, its system port still on the working line, where a frame is in progress; a command waits. -/
def leaving : State :=
  { (holding (.carrying 9) (.assigned 0) 1).setMonitor 9 { Monitor.reset false with state := .aligned 640 } with
    pending := [.frameJudged 9 (fillerFrame 0x1000)] }

theorem over_leaving : leaving.EventOver := by
  refine ⟨by unfold State.PortServed; decide +kernel, fun k => ?_⟩
  by_cases h : k = 9
  · subst h; exact .inr (.inl ⟨9, by decide +kernel, by decide +kernel⟩)
  · exact .inl (by revert k; decide +kernel)

/-- Every line DOWN after the release of RESET, two commands waiting. -/
def waiting : State :=
  { live with pending := [.interruptEnableWrite 4, .force]
              conditions := Vector.replicate 12 { Condition.reset with rawDown := true, down := true, downSeen := true } }

theorem agreement_waiting : waiting.Agreement :=
  ⟨agreement_live.reasons, agreement_live.holding, agreement_live.resting, agreement_live.queue⟩

theorem test_StepRunsFrontCommand_applies : live.pending = [] := rfl

theorem test_reset_clauses_apply : State.reset.inReset = true ∧ live.inReset = false
    ∧ (Instr.contextWriteCommit 0) ∈ [Instr.restart, .contextWriteCommit 0]
    ∧ Instr.eventPop ∈ [Instr.eventKindRead, .eventPop]
    ∧ Instr.lspTransactionStart ∈ [Instr.intervalEnd, .lspTransactionStart] := by decide

/-- Unassigned and read-only locations next to the ranges of the map; the strobes' releases. -/
theorem test_RegisterWrites_applies : live.inReset = false ∧ live.regs.InRange
    ∧ (∀ a ∈ ([0x03, 0x11, 0x13, 0x1C, 0x1E, 0x1F, 0x2C, 0x31, 0x5F, 0x64, 0x7F] : List Address),
        a.toNat ∉ [0x00, 0x01, 0x02, 0x04, 0x05, 0x06, 0x07, 0x08, 0x09, 0x0A, 0x0B, 0x0C, 0x0D, 0x0E, 0x0F,
          0x10, 0x12, 0x1D, 0x30, 0x40, 0x60, 0x61, 0x62, 0x63] ∧ ¬ (0x20 ≤ a.toNat ∧ a.toNat ≤ 0x2B))
    ∧ ({ Strobes.both with chipSelect := false } : Strobes).chipSelect = false := by
  unfold Registers.InRange; decide

theorem test_SixteenBitQuantities_applies : live.inReset = false
    ∧ (0x0A : Address) ∈ ([0x0A, 0x4B] : List Address) ∧ (0x63 : Address) ∈ ([0x0B, 0x63] : List Address) := by decide

theorem test_ViewsShowTheState_applies : live.inReset = false
    ∧ ∀ a ∈ ([0x1F, 0x2C, 0x2F, 0x39, 0x3F, 0x51, 0x5F, 0x64, 0x6F, 0x75, 0x7F] : List Address),
        a.toNat = 0x1F ∨ (0x2C ≤ a.toNat ∧ a.toNat ≤ 0x2F) ∨ (0x39 ≤ a.toNat ∧ a.toNat ≤ 0x3F)
          ∨ (0x51 ≤ a.toNat ∧ a.toNat ≤ 0x5F) ∨ (0x64 ≤ a.toNat ∧ a.toNat ≤ 0x6F) ∨ 0x75 ≤ a.toNat := by decide

theorem test_ProtectWritesKeepingTheEnable_applies :
    live.inReset = false ∧ (6 : Byte).getLsbD 0 = live.regs.enable
      ∧ idle.inReset = false ∧ (7 : Byte).getLsbD 0 = idle.regs.enable := by decide

theorem test_ClearingTheEnableTakesBothSpares_applies :
    idle.inReset = false ∧ idle.Agreement ∧ idle.regs.enable = true ∧ (6 : Byte).getLsbD 0 = false
      ∧ (holding (.bridged 9) (.assigned 0) 1).Agreement
      ∧ ((holding (.bridged 9) (.assigned 0) 1).engine 0).state.circuit = some 9
      ∧ (∀ g : Spare, ((holding (.bridged 9) (.assigned 0) 1).engine g).state.circuit ≠ some 8) :=
  ⟨rfl, agreement_idle, rfl, rfl, agreement_bridged, by decide +kernel⟩

theorem test_SettingTheEnableFreesBothSpares_applies :
    live.inReset = false ∧ live.Agreement ∧ live.OffAgrees ∧ live.regs.enable = false ∧ (1 : Byte).getLsbD 0 = true
      ∧ live.queue = [] :=
  ⟨rfl, agreement_live, by unfold State.OffAgrees; decide, rfl, rfl, rfl⟩

/-- Arguments at the first value out of range and at the last within it, and each state that refuses. -/
theorem test_RefusedCommandsChangeNothing_applies :
    live.inReset = false ∧ live.EventOver
      ∧ 9 < (args live 10 0).regs.arg0.toNat ∧ 1 < (args live 2 1).regs.arg0.toNat ∧ (args live 1 0).regs.arg1 = 0
      ∧ 11 < (args live 12 0).regs.arg0.toNat ∧ (args live 9 0).regs.arg0.toNat = (9 : Circuit).val
      ∧ ((holding .free .queued 4).record 9).swClass = 4
      ∧ ((live.setRecord 9 { Record.reset with barred := true }).record 9).barred = true
      ∧ (args live 1 1).regs.arg0.toNat = (1 : Spare).val ∧ (args live 1 1).regs.arg1 ≠ 0
      ∧ (live.engine 1).state ≠ .free ∧ (live.engine 1).state ≠ .testing .run
      ∧ (args live 11 0).regs.arg0.toNat = (11 : Port).val
      ∧ (0x07 : Byte).toNat ∉ [0x01, 0x02, 0x03, 0x04, 0x05, 0x06, 0x10, 0x11, 0x12, 0x18, 0x19, 0x20, 0x30] :=
  ⟨rfl, over_live, by decide +kernel⟩

theorem test_refused_return_and_stop_apply :
    (¬ ∃ g, (live.record 9).state = .assigned g ∧ live.effClass 9 = 0 ∧ (live.engine g).state = .carrying 9)
      ∧ ∀ d, (live.engine 1).state ≠ .testing (.ask d) :=
  ⟨fun ⟨g, h, _⟩ => RequestState.noConfusion (h : RequestState.quiet = .assigned g),
   fun d h => EngineState.noConfusion (h : EngineState.unavailable = .testing (.ask d))⟩

/-- A forward entry keeps the FIFO from taking a RESYNC, at the end of an event, while the port is busy. -/
theorem test_refused_resync_applies :
    let s := { live with fifo := [{ port := 1, index := 2, value := 3 }], transaction := some (entryLine false) }
    s.EventOver ∧ s.fifo ≠ [] :=
  ⟨⟨by unfold State.PortServed; decide +kernel, fun k => .inl (by revert k; decide +kernel)⟩, by decide⟩

theorem test_SourceCommandsTaken_applies :
    live.inReset = false ∧ (args live 9 0).regs.arg0.toNat = (9 : Circuit).val ∧ (live.record 9).swClass ≠ 4 := by decide

/-- A record that is PARKED, barred, on a part whose spares are both shut out. -/
def parked : State := live.setRecord 0 { Record.reset with swClass := 1, barred := true, state := .parked }

theorem agreement_parked : parked.Agreement :=
  ⟨by unfold State.ReasonsAgree; decide +kernel, by unfold State.HoldingAgrees; decide +kernel,
    fun k => by fin_cases k <;> rfl, by unfold State.QueueAgrees; decide +kernel⟩

/-- A quiet circuit and a barred one, both spares UNAVAILABLE; a declined one whose class a FORCE leaves as it is. -/
theorem test_SourceCommandsPlaceTheRecord_applies :
    live.inReset = false ∧ live.Agreement ∧ parked.Agreement ∧ (args live 9 0).regs.arg0.toNat = (9 : Circuit).val
      ∧ (∀ g : Spare, (live.engine g).state = .unavailable) ∧ (∀ g : Spare, (parked.engine g).state = .unavailable)
      ∧ (∀ g : Spare, (live.record 9).state ≠ .assigned g ∧ (live.record 9).state ≠ .releasing g)
      ∧ (∀ g : Spare, (parked.record 0).state ≠ .assigned g ∧ (parked.record 0).state ≠ .releasing g)
      ∧ (parked.record 0).barred = true ∧ (live.record 9).swClass ≠ 4
      ∧ (max (live.record 9).condClass 0 = live.localClass 9) :=
  ⟨rfl, agreement_live, agreement_parked, by decide +kernel⟩

theorem test_BarAndUnbarTaken_applies :
    live.inReset = false ∧ (args live 0 0).regs.arg0.toNat = (0 : Circuit).val ∧ live.Agreement
      ∧ (live.record 0).barred = false ∧ parked.Agreement ∧ (parked.record 0).state = .parked
      ∧ (∀ g : Spare, (parked.engine g).state = .unavailable) :=
  ⟨rfl, rfl, agreement_live, rfl, agreement_parked, rfl, by decide +kernel⟩

/-- A class-0 held circuit, with and without a return timer, its far word none, VACANT and its own YIELD. -/
theorem test_ReturnsStart_applies :
    let s := holding (.carrying 9) (.assigned 0) 0
    (args s 9 0).inReset = false ∧ (args s 9 0).regs.arg0.toNat = (9 : Circuit).val ∧ (s.record 9).state = .assigned 0
      ∧ s.effClass 9 = 0 ∧ (s.engine 0).state = .carrying 9 ∧ s.queue = [] ∧ s.farClaim 0 = none
      ∧ (s.record 9).returnTimer = none
      ∧ ((s.setRecord 9 { s.record 9 with returnTimer := some 0 }).record 9).returnTimer ≠ none
      ∧ (withFar s .vacant).farSays 0 = some .vacant ∧ (withFar s (.yield 9)).farSays 0 = some (.yield 9)
      ∧ (withFar s (.carry 9 0)).farClaim 0 = some (9, 0)
      ∧ ((holding (.bridged 9) (.assigned 0) 0).engine 0).state = .bridged 9 := by
  decide +kernel

/-- A circuit held at class 2 by its IMPAIRED line, whose errored count has fallen, and one held by a far claim alone, with the
words that end it on the way. -/
theorem test_ClassFallsToZero_by_line_and_word_applies :
    let c := (holding (.carrying 9) (.assigned 0) 0)
    let i := (c.setRecord 9 { Record.reset with condClass := 2, state := .assigned 0 }).setCondition 9
      { Condition.reset with impaired := true }
    let far := fun (e : EngineState) (w : SpanWord) =>
      (arriving (withFar (holding e (.assigned 0) 0) (.carry 9 1)) (w.encode .endB)).setMonitor 10
        { Monitor.reset false with state := .aligned 640 }
    i.farClass 9 = 0 ∧ (i.record 9).swClass = 0 ∧ i.effClass 9 ≠ 0 ∧ (i.condition (workPort 9)).impaired = true
      ∧ (i.condition (workPort 9)).down = false ∧ (i.condition (workPort 9)).downSeen = false
      ∧ (i.monitor (workPort 9)).errored < i.regs.clearThreshold.toNat
      ∧ (∀ p, p ≠ workPort 9 → (i.condition p).impaired = false ∧ (i.monitor p).errored < i.regs.setThreshold.toNat)
      ∧ (∀ e ∈ [EngineState.preparing 9, .bridged 9, .carrying 9], ∀ w ∈ [SpanWord.vacant, .unloop, .carry 9 0],
          let s := far e w
          s.effClass 9 ≠ 0 ∧ s.localClass 9 = 0 ∧ (s.record 9).declined = false ∧ s.farClaim 0 = some (9, 1)
            ∧ s.farClaim 1 = none ∧ (s.engine 0).reasons.flags = 0 ∧ (s.monitor (sparePort 0)).state = .aligned 640
            ∧ spanWord (w.encode .endB) = some w ∧ wordOrigin (w.encode .endB) ≠ s.role
            ∧ onesOf (w.encode .endB) % 2 = 1 ∧ (s.qualifier 0).candidate = some (w.encode .endB)
            ∧ (s.qualifier 0).settled = false ∧ s.regs.qCount.toNat ≤ min ((s.qualifier 0).run + 1) 15)
      ∧ (∀ w ∈ [SpanWord.vacant, .unloop, .carry 9 0],
          let f := fillerFrame (w.encode .endB)
          tabGet f 0 = 0xD3 ∧ tabGet f 3 = frameCrc f ∧ w.encode .endB = joinBytes (tabGet f 1) (tabGet f 2)) := by
  decide +kernel

/-- A circuit held at class 1 by its software class alone, in each state, and at class 3 by a DOWN whose clear timer runs, in
each mode and with a return delay of 0. -/
theorem test_ClassFallsToZero_applies :
    let s := fun e => args (holding e (.assigned 0) 1) 9 0
    let d := ((s (.carrying 9)).setRecord 9 { Record.reset with condClass := 3, state := .assigned 0 }).setCondition 9
      { Condition.reset with down := true, clearTimer := some 0 }
    (∀ e ∈ [EngineState.preparing 9, .bridged 9, .carrying 9], (s e).inReset = false ∧ ((s e).record 9).state = .assigned 0
        ∧ ((s e).engine 0).state.circuit = some 9 ∧ (s e).effClass 9 ≠ 0 ∧ (s e).farClass 9 = 0 ∧ (s e).queue = []
        ∧ (s e).farClaim 0 = none ∧ ((s e).record 9).condClass = 0 ∧ (s e).regs.arg0.toNat = (9 : Circuit).val)
      ∧ (withFar (s (.carrying 9)) .vacant).farSays 0 = some .vacant
      ∧ (d.record 9).swClass = 0 ∧ d.effClass 9 ≠ 0 ∧ (d.condition (workPort 9)).clearTimer ≠ none
      ∧ (d.condition (workPort 9)).impaired = false ∧ (d.record 9).returnKind = .condition ∧ d.regs.hold = false
      ∧ d.regs.returnDelay ≠ 0 ∧ ((s (.carrying 9)).setRecord 9 { Record.reset with returnKind := .software }).farClass 9 = 0
      ∧ (d.setRegs { d.regs with hold := true }).regs.hold = true
      ∧ (d.setRegs { d.regs with returnDelay := 0 }).regs.returnDelay = 0 := by
  decide +kernel

theorem test_SpareCommands_applies :
    live.inReset = false ∧ live.EventOver ∧ live.Agreement ∧ 1 < (args live 2 0).regs.arg0.toNat
      ∧ (args live 1 0).regs.arg0.toNat = (1 : Spare).val
      ∧ (live.engine 1).reasons.shut = false ∧ (live.engine 1).reasons.setup = false
      ∧ (((live.setEngine 1 { Engine.reset with reasons :=
            { Reasons.empty with shut := true, setup := true } }).engine 1).reasons.shut = true) :=
  ⟨rfl, over_live, agreement_live, by decide +kernel⟩

theorem test_TestCommandsTaken_applies :
    idle.inReset = false ∧ (args idle 0 1).regs.arg0.toNat = (0 : Spare).val ∧ (args idle 0 1).regs.arg1 ≠ 0
      ∧ (idle.engine 0).state = .free ∧ (idle.qualifier 0).far = none
      ∧ (withFar idle .vacant).farSays 0 = some .vacant
      ∧ ((withEngine (.testing .run) none).engine 0).state = .testing .run
      ∧ ((withEngine (.testing (.ask 1)) (some 0)).engine 0).state = .testing (.ask 1) ∧ (args idle 0 1).EventOver := by
  refine ⟨by decide, by decide, by decide, by decide +kernel, by decide, by decide +kernel, by decide, by decide,
    over_args_idle⟩

/-- A circuit waiting by its conditions, two spares free and one of them granted; a spare that was held. -/
theorem test_RestartTaken_applies :
    let s := (idle.setRecord 9 { Record.reset with condClass := 3, state := .queued }).setQueue [9]
    s.inReset = false ∧ s.ClassesInRange ∧ s.restedGrants = [(0, 9)] ∧ (∀ k, (1, k) ∉ s.restedGrants)
      ∧ (∀ g, (g, 8) ∉ s.restedGrants) := by
  unfold State.ClassesInRange; decide +kernel

theorem test_ResyncTaken_applies :
    live.inReset = false ∧ live.EventOver ∧ (args live 9 0).regs.arg0.toNat = (9 : Port).val
      ∧ (args live 10 0).regs.arg0.toNat = (10 : Port).val ∧ live.fifo = [] ∧ live.transaction = none
      ∧ portUse 9 = .working 9 ∧ portUse 10 = .spare 0
      ∧ ({ live with transaction := some (entryLine true) } : State).transaction = some (entryLine true) :=
  ⟨rfl, over_live, by decide +kernel⟩

/-- Each need of R107: a working context without and with a bridge, a spare's own with and without an engine at rest. -/
theorem test_ContextWrites_applies :
    let s := { holding (.bridged 9) (.assigned 0) 1 with transaction := some (entryLine false) }
    s.inReset = false ∧ s.StoreCanonical ∧ s.transaction = some (entryLine false)
      ∧ s.bridgedOn 9 = some 0 ∧ s.bridgedOn 8 = none ∧ (s.engine 0).state.circuit ≠ none
      ∧ (s.engine 1).state.circuit = none ∧ s.transfer 1 = none ∧ portUse 11 = .spare 1 ∧ portUse 0 = .working 0
      ∧ [entryLine false].length ≤ 16 - s.fifo.length
      ∧ ¬ 2 ≤ 16 - (List.replicate 15 (entryLine false)).length := by
  refine ⟨rfl, rfl, rfl, ?_⟩
  decide +kernel

/-- An idle port, the last event over, and no transfer. -/
theorem test_idle_context_write_applies :
    live.inReset = false ∧ live.StoreCanonical ∧ live.EventOver ∧ live.TransfersBounded ∧ live.transaction = none := by
  refine ⟨rfl, rfl, over_live, fun g t h => ?_, rfl⟩
  fin_cases g <;> exact nomatch (h : none = some t)

theorem test_ContextReadsAndTheStore_applies :
    live.inReset = false ∧ exec .contextDataRead live = .next (after (exec .contextDataRead live)) := ⟨rfl, rfl⟩

/-- A busy port; an idle one with no offer, with an entry, with a transfer's next word, with a word to send again. -/
theorem test_PortServesInRotation_applies :
    (moving live (lastWord .rest) (entryLine false)).transaction = some (entryLine false)
      ∧ (∀ src, ¬ live.hasOffer src)
      ∧ servingOrder live.rotation = [] ++ .transfer 0 :: [.transfer 1, .fifo]
      ∧ (live.startTransfer 0 .rest).hasOffer (.transfer 0)
      ∧ ({ source := .rest, cursor := 15, resend := [], inFlight := none } : Transfer).offers 15
      ∧ ({ source := .rest, cursor := 16, resend := [0], inFlight := none } : Transfer).offers 0 := by
  refine ⟨rfl, ?_, rfl, ?_, ⟨rfl, .inl rfl⟩, ⟨rfl, .inr ⟨by decide, rfl⟩⟩⟩
  · rintro (g | _) h
    · obtain ⟨-, x, i, hx, -⟩ := h
      fin_cases g <;> exact nomatch hx
    · exact h rfl
  · refine ⟨?_, { source := .rest, cursor := 0, resend := [], inFlight := none }, 0, by decide +kernel, ⟨rfl, .inl rfl⟩⟩
    intro e h; exact nomatch (h : e ∈ ([] : List ForwardEntry))

theorem test_attempt_clauses_apply :
    live.inReset = false ∧ live.transaction = none ∧ acknowledgedBy false false true
      ∧ ¬ acknowledgedBy true false true ∧ ¬ acknowledgedBy false true true ∧ ¬ acknowledgedBy false false false
      ∧ (entryLine false).source = .fifo ∧ (entryLine false).second = false ∧ (entryLine true).second = true
      ∧ (transferLine true true).source = .transfer 0 ∧ (transferLine true true).abandoned = true := by
  unfold acknowledgedBy; decide

/-- Words left in the main pass and in the resend set, a last word of each source, and a second attempt failed. -/
theorem test_TransferOutcomes_applies :
    let s := moving (holding (.preparing 9) (.assigned 0) 1) (lastWord (.circuit 9)) (transferLine false false)
    let r := moving idle (lastWord .rest) (transferLine false false)
    s.inReset = false ∧ s.transaction = some (transferLine false false) ∧ s.transfer 0 = some (lastWord (.circuit 9))
      ∧ r.transfer 0 = some (lastWord .rest) ∧ ¬ ((lastWord .rest).cursor < 16 ∨ (lastWord .rest).resend ≠ [])
      ∧ ({ lastWord .rest with cursor := 15 } : Transfer).cursor < 16
      ∧ ({ lastWord .rest with resend := [3] } : Transfer).resend ≠ []
      ∧ (s.engine 0).state = .preparing 9 ∧ s.farClaim 0 = none
      ∧ (withFar s (.carry 9 0)).farSays 0 = some (.carry 9 0) ∧ (withFar s (.carry 9 0)).farClaim 0 = some (9, 0)
      ∧ (withFar s (.carry 8 0)).farClaim 0 = some (8, 0) ∧ beforeClaim (9, s.localClass 9) (8, 0) = true
      ∧ failing.Agreement ∧ (transferLine true false).second = true
      ∧ (failing.engine 0).state.circuit = some 9 ∧ (r.engine 0).state.circuit = none := by
  refine ⟨rfl, rfl, by decide +kernel, by decide +kernel, by decide, by decide, by decide, by decide +kernel,
    by decide +kernel, by decide +kernel, by decide +kernel, by decide +kernel, by decide +kernel, agreement_failing,
    by decide +kernel⟩

/-- A queue with a head, an empty queue, a consumed and an unconsumed copy, a full queue without and with an overflow
record at its two bounds. -/
theorem test_event_clauses_apply :
    let e : Event := { kind := .spare, subject := 10, detail1 := 0, detail2 := 0 }
    let full := { live with events := { places := List.replicate 31 { sequence := 0, event := e }, overflow := none, next := 0 } }
    let lost := fun n : Nat => { full.events with overflow := some { sequence := 0, lost := n } }
    live.inReset = false ∧ (live.post e).events.places ≠ [] ∧ live.events.places = [] ∧ live.window.consumed = true
      ∧ live.events.overflow = none ∧ (live.post e).copyHead.window.consumed = false
      ∧ e.kind ≠ .overrun ∧ (0x8000 : Half).getLsbD (e.kind.code - 1) = false
      ∧ live.regs.eventMask.getLsbD (e.kind.code - 1) = true ∧ live.events.places.length < 31
      ∧ 31 ≤ full.events.places.length ∧ full.events.overflow = none ∧ (lost 1).Bounded ∧ (lost 255).Bounded
      ∧ 31 ≤ (lost 254).places.length := by
  unfold EventQueue.Bounded; decide +kernel

/-- Monitors: hunting, checking at each count, aligned at each miss count, a lost signal. -/
theorem test_monitor_clauses_apply :
    let m := fun (st : MonitorState) (c n : Nat) (l : Bool) =>
      (live.setMonitor 10 { state := st, opening := false, confirm := c, miss := n, errored := 0, signalLost := l }).monitor 10
    live.inReset = false ∧ (m .hunting 0 0 true).state = .hunting ∧ (m .hunting 0 0 true).signalLost = true
      ∧ (m .hunting 0 0 false).signalLost = false ∧ (m (.checking 128) 1 0 false).state = .checking 128
      ∧ (m (.checking 128) 1 0 false).confirm < 2 ∧ (m (.checking 256) 2 0 false).confirm = 2
      ∧ (m (.aligned 384) 3 3 false).state = .aligned 384 ∧ (m (.aligned 384) 3 3 false).miss = 3
      ∧ ¬ ((m (.aligned 384) 3 3 false).miss = 3 ∧ tabGet (fillerFrame 0x1000) 0 ≠ 0xD3) := by
  decide +kernel

/-- Bits that show the alignment word: with the first byte, across two bytes, with bits kept from before; and bits that do not. -/
theorem test_search_clauses_apply :
    let kept := { live with recentBits := tabSet live.recentBits 9 [true, true, false, true] }
    live.RecentBounded ∧ kept.RecentBounded ∧ live.SeesAlignmentWord 9 (byteBits 0xD3)
      ∧ live.SeesAlignmentWord 9 (bytesBits [0x0D, 0x30]) ∧ kept.SeesAlignmentWord 9 [false, false, true, true]
      ∧ ¬ live.SeesAlignmentWord 9 [] := by
  refine ⟨by unfold State.RecentBounded; decide +kernel, by unfold State.RecentBounded; decide +kernel,
    ⟨8, by decide +kernel⟩, ⟨12, by decide +kernel⟩, ⟨4, by decide +kernel⟩, ?_⟩
  rintro ⟨n, h1, h2, -⟩
  exact absurd (Nat.lt_of_lt_of_le h1 h2) (Nat.lt_irrefl 0)

/-- Good and errored frames, odd and even words, a candidate that is the same and one that is another. -/
theorem test_qualifier_clauses_apply :
    tabGet (fillerFrame 0x1003) 0 = 0xD3 ∧ tabGet (fillerFrame 0x1003) 3 = frameCrc (fillerFrame 0x1003)
      ∧ joinBytes (tabGet (fillerFrame 0x1003) 1) (tabGet (fillerFrame 0x1003) 2) = 0x1003
      ∧ onesOf 0x1003 % 2 = 1 ∧ onesOf 0x1002 % 2 = 0 ∧ sameWord 0x1003 0x1001 = false ∧ sameWord 0x1003 0x1FFE = true
      ∧ sameWord 0x1003 0x1003 = true ∧ live.regs.qCount.toNat ≤ min (4 + 1) 15 := by
  decide +kernel

/-- A delivery of the same far word, of another, of an invalid word and of an echo. -/
theorem test_DeliveriesSetTheFarWord_applies :
    sameWord 0x1003 0x1003 = true ∧ sameWord 0x3983 0x1003 = false ∧ InvalidWord 0x0003
      ∧ (0x1000 : Half).getLsbD 1 = (Role.endA == .endB)
      ∧ ¬ (InvalidWord 0x1003 ∨ (0x1003 : Half).getLsbD 1 = (Role.endA == .endB)) := by
  unfold InvalidWord; decide

/-- The departures of a spare's monitor. -/
theorem test_departure_clauses_apply :
    let s := live.setMonitor 10 { Monitor.reset false with state := .aligned 512, miss := 3 }
    s.inReset = false ∧ (s.monitor (sparePort 0)).state = .aligned 512 ∧ (s.monitor (sparePort 0)).miss = 3
      ∧ (0xD2 : Byte) ≠ 0xD3 ∧ tabGet (tabSet (fillerFrame 0x1000) 0 (0xD2 : Byte)) 0 ≠ 0xD3 := by
  decide +kernel

/-- A spare in phase ASK with its own LOOP on the way to it, nothing waiting. -/
theorem test_loop_confirmation_applies :
    let w := SpanWord.loop.encode .endA
    let s := arriving (withEngine (.testing (.ask 1)) (some 0)) w
    s.inReset = false ∧ (s.monitor (sparePort 0)).state = .aligned 640 ∧ onesOf w % 2 = 1
      ∧ (s.qualifier 0).candidate = some w ∧ sameWord w w = true ∧ (s.qualifier 0).settled = false
      ∧ s.regs.qCount.toNat ≤ min ((s.qualifier 0).run + 1) 15 ∧ (s.qualifier 0).far = none
      ∧ spanWord w = some .loop ∧ w.getLsbD 1 = (s.role == .endB) ∧ (s.engine 0).state = .testing (.ask 1)
      ∧ s.queue = [] ∧ s.farClaim 0 = none ∧ ¬ InvalidWord w := by
  unfold InvalidWord; decide +kernel

/-- Each feed of a system port: the working line, a spare, bytes of all ones; a selector that has changed and one that has
not; a monitor in each state. -/
theorem test_SystemPortsReceive_applies :
    let c := (holding (.carrying 9) (.assigned 0) 1).setMonitor 10 { Monitor.reset false with state := .aligned 640, miss := 3 }
    let on := fun f : Feed => { c with feeds := tabSet c.feeds 9 f }
    tabGet live.feeds 9 = .working ∧ feedPort 9 .working = some 9 ∧ feedPort 9 (.spare 0) = some 10
      ∧ feedPort 9 (.spare 0) ≠ some 9 ∧ tabGet (on (.spare 0)).feeds 9 = .spare 0 ∧ sparePort 0 = 10
      ∧ (on (.spare 0)).selectedFeed 9 = .spare 0 ∧ (on (.spare 1)).selectedFeed 9 ≠ .spare 1
      ∧ tabGet (on .ones).feeds 9 = .ones ∧ feedPort 9 ((on .ones).selectedFeed 9) = some 10
      ∧ ((on .ones).monitor 10).state = .aligned 640 ∧ ((on .ones).monitor 10).miss = 3
      ∧ ¬ (((on .ones).monitor 10).miss = 3 ∧ tabGet (fillerFrame 0x1000) 0 ≠ 0xD3)
      ∧ (live.monitor 10).state = .hunting ∧ ([7] : List Byte) ≠ []
      ∧ (Monitor.reset false).received [true] ≠ [] ∧ ({ Monitor.reset false with opening := true } : Monitor).received [] ≠ []
      ∧ (Monitor.reset false).received (bytesBits [0xD3, 0x10]) <+: onTheWire (fillerFrame 0x1000).toList
      ∧ ((live.setMonitor 9 { Monitor.reset false with state := .checking 384 }).monitor 9).state = .checking 384
      ∧ ([true] : List Bool) ≠ [] := by
  decide +kernel

/-- Conditions: each timer absent and running, raw-down ending and beginning on a DOWN and on a clear port. -/
theorem test_condition_clauses_apply :
    let s := (live.setMonitor 9 { Monitor.reset false with state := .checking 384, confirm := 2 }).setCondition 9
      { Condition.reset with rawDown := true, onsetTimer := some 0, downSeen := true }
    let u := (live.setMonitor 9 { Monitor.reset false with state := .aligned 512, miss := 3 }).setCondition 9
      { Condition.reset with down := true, clearTimer := some 0 }
    (live.condition 9).onsetTimer = none ∧ (live.condition 9).clearTimer = none ∧ (s.condition 9).onsetTimer ≠ none
      ∧ (u.condition 9).clearTimer ≠ none ∧ (s.monitor 9).signalLost = false
      ∧ (s.monitor 9).state = .checking 384 ∧ (s.monitor 9).confirm = 2 ∧ (s.condition 9).rawDown = true
      ∧ (u.monitor 9).signalLost = false ∧ (u.monitor 9).state = .aligned 512 ∧ (u.monitor 9).miss = 3
      ∧ (u.condition 9).rawDown = false ∧ (0xD2 : Byte) ≠ 0xD3 ∧ (live.condition 9).rawDown = false
      ∧ tabGet (tabSet (fillerFrame 0x1000) 0 (0xD2 : Byte)) 0 ≠ 0xD3 := by
  decide +kernel

/-- The spare's port: a running onset timer, and a LINE that stands with a running clear timer. -/
theorem test_line_clauses_apply :
    let e : Engine := { Engine.reset with reasons := { Reasons.empty with line := true } }
    let s := (live.setEngine 0 e).setCondition 10 { Condition.reset with down := true, clearTimer := some 0 }
    ((live.setCondition 10 { Condition.reset with onsetTimer := some 0 }).condition 10).onsetTimer ≠ none
      ∧ live.Agreement ∧ portUse 10 = .spare 0 ∧ (s.condition 10).clearTimer ≠ none
      ∧ (s.engine 0).reasons.line = true ∧ s.Agreement := by
  refine ⟨by decide, agreement_live, by decide, by decide, by decide +kernel, ?_⟩
  exact ⟨by unfold State.ReasonsAgree; decide +kernel, by unfold State.HoldingAgrees; decide +kernel,
    fun k => by fin_cases k <;> rfl, by unfold State.QueueAgrees; decide +kernel⟩

/-- Each state that an answer timer runs in, and a test timer in phase RUN. -/
theorem test_engine_timer_clauses_apply :
    let b := holding (.bridged 9) (.assigned 0) 1
    let r := holding (.returning 9) (.releasing 0) 0
    let a := withEngine (.testing (.ask 1)) (some 0)
    let e := withEngine (.testing (.ending .pass)) (some 0)
    let x := live.setEngine 0 { Engine.reset with state := .testing .run, reasons := Reasons.empty, testTimer := some 0 }
    (live.engine 0).answerTimer = none ∧ (b.engine 0).answerTimer ≠ none ∧ b.Agreement
      ∧ (b.engine 0).state = .bridged 9 ∧ (r.engine 0).answerTimer ≠ none ∧ (r.engine 0).state = .returning 9
      ∧ (r.record 9).state = .releasing 0 ∧ r.queue = [] ∧ r.effClass 9 = 0
      ∧ (a.engine 0).state = .testing (.ask 1) ∧ a.queue = [] ∧ (e.engine 0).state = .testing (.ending .pass)
      ∧ (x.engine 0).state = .testing .run ∧ (x.engine 0).testTimer ≠ none := by
  refine ⟨by decide +kernel, by decide +kernel, agreement_bridged, by decide +kernel⟩

/-- A spare that sends its own word without a bridge and with one. -/
theorem test_frame_reference_clauses_apply :
    let b := holding (.bridged 9) (.assigned 0) 1
    live.inReset = false ∧ tabGet live.sendModes 0 ≠ .looping ∧ live.ownWord 0 ≠ none ∧ live.bridge 0 = none
      ∧ b.bridge 0 = some 9 ∧ tabGet b.sendModes 0 ≠ .looping ∧ b.ownWord 0 ≠ none := by
  decide +kernel

/-- A looping spare: its engine in and out of LOOPED, its monitor aligned and hunting; one that waits in ones for a frame. -/
theorem test_LinePortsSend_applies :
    let s := { withEngine .looped none with sendModes := Vector.replicate 2 .looping }
    let a := s.setMonitor 10 { Monitor.reset false with state := .aligned 512 }
    let w := { a with sendModes := Vector.replicate 2 .ones }
    s.inReset = false ∧ s.loopOn 0 = true ∧ s.loopOn 1 = false ∧ tabGet s.sendModes 0 = .looping
      ∧ (s.monitor (sparePort 0)).state = .hunting ∧ (a.monitor (sparePort 0)).state = .aligned 512
      ∧ ((s.setMonitor 10 { Monitor.reset false with state := .checking 384, confirm := 2 }).monitor (sparePort 0)).state
          = .checking 384
      ∧ ((s.setMonitor 10 { Monitor.reset false with state := .aligned 512, miss := 3 }).monitor (sparePort 0)).miss = 3
      ∧ (a.monitor (sparePort 0)).received [true] ≠ []
      ∧ (a.monitor (sparePort 0)).miss ≠ 3 ∧ tabGet w.sendModes 0 = .ones
      ∧ (holding (.carrying 9) (.assigned 0) 1).bridge 0 = some 9
      ∧ tabGet (holding (.carrying 9) (.assigned 0) 1).sendModes 0 ≠ .looping := by
  decide +kernel

/-- A head with a free spare, with a tested one alone, with one that loses, with two, with none. -/
theorem test_GrantPassStep_applies :
    let free := withHead idle
    let tested := (withHead (withEngine .looped none)).setEngine 1 Engine.reset
    let loses := (withHead (holding (.carrying 9) (.assigned 0) 1)).setEngine 1 Engine.reset
    let both := (withHead (holding (.carrying 9) (.assigned 0) 1)).setEngine 1
      { Engine.reset with state := .returning 8, reasons := Reasons.empty }
    live.queue = [] ∧ free.queue = [0] ∧ (free.engine 0).state = .free ∧ free.farClaim 0 = none
      ∧ (tested.engine 0).state = .looped ∧ (tested.engine 1).state ≠ .free ∧ tested.queue = [0]
      ∧ loses.holdingClaim 0 = some (9, 1) ∧ loses.holdingClaim 1 = none ∧ beforeClaim (0, 4) (9, 1) = true
      ∧ both.holdingClaim 1 = some (8, 0) ∧ beforeClaim (9, 1) (8, 0) = true
      ∧ ((withHead live).engine 0).state = .unavailable ∧ (withHead live).holdingClaim 0 = none := by
  decide +kernel

theorem test_PreemptionPutsBack_applies :
    let t := (withHead (holding (.carrying 9) (.assigned 0) 1)).turn
    (t.st.engine 0).state.circuit = some 9 ∧ (9 : Circuit) ≠ 0 ∧ (t.st.record 9).barred = false
      ∧ (t.st.record 9).declined = false ∧ t.st.farClaim 0 = none
      ∧ (withFar t.st (.carry 9 1)).farClaim 0 = some (9, 1) ∧ beforeClaim (0, t.st.effClass 0) (9, 1) = true := by
  decide +kernel

/-- Each row of R39: barred, without a class, held on the lower spare, held on the higher one, and any other. -/
theorem test_AdoptionFollowsTheTable_applies :
    let t := (holding (.bridged 9) (.assigned 0) 1).turn
    let higher := (holding .free (.assigned 1) 1).turn
    ((t.st.setRecord 9 { Record.reset with barred := true }).record 9).barred = true ∧ t.st.effClass 8 = 0
      ∧ (t.st.record 9).state = .assigned 0 ∧ (0 : Spare) < 1 ∧ (higher.st.record 9).state = .assigned 1
      ∧ higher.st.effClass 9 ≠ 0 ∧ (higher.st.record 9).barred = false ∧ (higher.st.record 9).declined = false
      ∧ ((withHead idle).record 0).state = .queued ∧ (withHead idle).effClass 0 ≠ 0 := by
  decide +kernel

/-- A contest won and one lost, each with the circuits' claims. -/
theorem test_ContestsAreDecidedByTheWords_applies :
    let s := withFar (holding (.preparing 9) (.assigned 0) 1) (.claim 8 4)
    s.contestClaim 0 = some (9, 1) ∧ s.farClaim 0 = some (8, 4) ∧ (9 : Circuit) ≠ 8
      ∧ beforeClaim (9, 1) (8, 4) = false ∧ (s.record 9).barred = false ∧ (s.record 9).declined = false
      ∧ (s.record 8).barred = false ∧ s.effClass 8 ≠ 0 ∧ (s.record 8).state = .quiet
      ∧ beforeClaim (9, 1) (8, 0) = true ∧ live.farClaim 0 = none := by
  decide +kernel

/-- Each holding state with a word that Table 4-1 names. -/
theorem test_HoldingEnginesActOnWords_applies :
    let s := fun (e : EngineState) (r : RequestState) (sw : Nat) (w : SpanWord) => withFar (holding e r sw) w
    (s (.preparing 9) (.assigned 0) 1 (.claim 9 4)).farSays 0 = some (.claim 9 4)
      ∧ ((s (.preparing 9) (.assigned 0) 1 .loop).engine 0).state = .preparing 9
      ∧ (s (.bridged 9) (.assigned 0) 1 (.carry 9 0)).farSays 0 = some (.carry 9 0)
      ∧ (s (.carrying 9) (.assigned 0) 0 (.yield 9)).farSays 0 = some (.yield 9)
      ∧ (s (.carrying 9) (.assigned 0) 0 (.yield 9)).localClass 9 = 0
      ∧ (s (.carrying 9) (.assigned 0) 1 (.yield 9)).localClass 9 ≠ 0
      ∧ (s (.returning 9) (.releasing 0) 0 (.carry 9 1)).farSays 0 = some (.carry 9 1)
      ∧ (s (.returning 9) (.releasing 0) 0 (.decline 9)).farSays 0 = some (.decline 9)
      ∧ ((s (.returning 9) (.releasing 0) 0 (.decline 9)).record 9).state = .releasing 0
      ∧ (s (.carrying 9) (.assigned 0) 1 (.barred 4)).farSays 0 = some (.barred 4)
      ∧ (s (.returning 9) (.releasing 0) 0 (.yield 8)).farSays 0 = some (.yield 8)
      ∧ (s (.preparing 9) (.assigned 0) 1 (.claim 8 4)).farSays 0 = some (.claim 8 4)
      ∧ (s (.carrying 9) (.assigned 0) 1 (.carry 8 0)).farSays 0 = some (.carry 8 0)
      ∧ beforeClaim (9, (s (.carrying 9) (.assigned 0) 1 (.carry 8 0)).localClass 9) (8, 0) = true
      ∧ beforeClaim (9, (s (.carrying 9) (.assigned 0) 1 (.claim 8 1)).localClass 9) (8, 1) = false
      ∧ ((s (.carrying 9) (.assigned 0) 1 (.claim 8 1)).record 8).state = .quiet
      ∧ (s (.carrying 9) (.assigned 0) 1 (.claim 8 1)).effClass 8 ≠ 0
      ∧ (s (.carrying 9) (.assigned 0) 1 (.decline 8)).farSays 0 = some (.decline 8)
      ∧ (∀ h, ((s (.carrying 9) (.assigned 0) 1 (.decline 8)).turn.st.record 8).state ≠ .assigned h
          ∧ ((s (.carrying 9) (.assigned 0) 1 (.decline 8)).turn.st.record 8).state ≠ .releasing h)
      ∧ ((crossed.setFar 0 (some ((SpanWord.decline 9).encode .endB))).turn.st.record 9).state = .assigned 1
      ∧ (crossed.engine 0).state.circuit = some 5 := by
  decide +kernel

/-- Each state that holds no circuit, with words of the far end's role. -/
theorem test_IdleEnginesActOnWords_applies :
    let word := fun w : SpanWord => spanWord (w.encode .endB) = some w ∧ wordOrigin (w.encode .endB) ≠ idle.role
    (∀ e ∈ [EngineState.testing (.ask 1), .testing .run, .testing (.ending .pass), .looped],
        (withEngine e none).Agreement ∧ ((withEngine e none).engine 0).state = e)
      ∧ idle.Agreement ∧ (idle.engine 0).state = .free ∧ live.Agreement ∧ (live.engine 0).state = .unavailable
      ∧ (holding (.bridged 9) (.assigned 0) 1).Agreement
      ∧ ((holding (.bridged 9) (.assigned 0) 1).engine 0).state.circuit = some 9
      ∧ word .vacant ∧ word (.claim 9 4) ∧ word (.carry 0 0) ∧ word (.barred 0) ∧ word (.barred 4) ∧ word .loop
      ∧ word .unloop ∧ word (.yield 9) ∧ word (.decline 9)
      ∧ (∀ h, h ≠ 0 → (idle.record 9).state ≠ .assigned h ∧ (idle.record 9).state ≠ .releasing h) := by
  refine ⟨fun e h => ?_, agreement_idle, by decide, agreement_live, by decide, agreement_bridged, by decide +kernel⟩
  fin_cases h <;> exact ⟨⟨by unfold State.ReasonsAgree; decide +kernel, by unfold State.HoldingAgrees; decide +kernel,
    fun k => by fin_cases k <;> rfl, by unfold State.QueueAgrees; decide +kernel⟩, rfl⟩

theorem agreement_crossed : crossed.Agreement :=
  ⟨by unfold State.ReasonsAgree; decide +kernel, by unfold State.HoldingAgrees; decide +kernel,
    fun k => by fin_cases k <;> first | rfl | exact ⟨rfl, rfl⟩, by unfold State.QueueAgrees; decide +kernel⟩

/-- BARRED on a spare that holds a circuit which the other spare's far word claims, and on one that does not. -/
theorem test_barred_clauses_apply :
    crossed.Agreement ∧ (crossed.engine 1).state.circuit = some 9 ∧ crossed.farClaim 0 = some (9, 2)
      ∧ ((holding (.bridged 9) (.assigned 0) 1).engine 0).state.circuit = some 9
      ∧ (holding (.bridged 9) (.assigned 0) 1).farClaim 1 = none :=
  ⟨agreement_crossed, by decide +kernel⟩

theorem test_word_clauses_apply :
    (SpanWord.claim 9 1).InRange ∧ (SpanWord.claim 0 4).InRange ∧ (SpanWord.carry 9 0).InRange
      ∧ (SpanWord.barred 4).InRange
      ∧ spanWord 0x1003 ≠ none ∧ spanWord 0x2560 ≠ none := by
  unfold SpanWord.InRange; decide

/-- A circuit held in each state, and a spare that holds none. -/
theorem test_claim_clauses_apply :
    ((holding (.preparing 9) (.assigned 0) 1).engine 0).state = .preparing 9
      ∧ ((holding (.returning 9) (.releasing 0) 0).engine 0).state = .returning 9
      ∧ (idle.engine 0).state.circuit = none ∧ (0 : Circuit) ≠ 9
      ∧ ((withFar idle (.claim 9 1)).farClaim 0) = some (9, 1)
      ∧ ((withEngine (.testing (.ending .fail)) none).engine 0).state = .testing (.ending .fail)
      ∧ ((withEngine .looped none).engine 0).state = .looped := by
  decide +kernel

theorem held_reset : State.reset.HeldInReset := by
  unfold State.HeldInReset; decide +kernel

/-- The premises of the invariants hold of a state out of reset with commands waiting, a circuit held and a far word. -/
theorem test_invariants_apply :
    State.reset.HeldInReset ∧ waiting.LinesLegal ∧ (withFar waiting (.claim 9 1)).FarWordsLegal ∧ waiting.TransfersLegal
      ∧ waiting.Agreement ∧ leaving.EventOver ∧ waiting.events.Bounded ∧ waiting.regs.InRange ∧ waiting.FifoBounded
      ∧ waiting.StoreCanonical ∧ step State.reset = .next State.reset
      ∧ step waiting = exec (.interruptEnableWrite 4) { waiting with pending := [.force] }
      ∧ step leaving = exec (.frameJudged 9 (fillerFrame 0x1000)) { leaving with pending := [] } := by
  refine ⟨held_reset, ⟨?_, ?_, ?_, ?_, ?_, ?_⟩, ?_, ⟨agreement_waiting, ?_, ?_, ?_, ?_⟩, agreement_waiting, over_leaving, ?_, ?_, ?_,
    rfl, rfl, rfl, rfl⟩
  · intro h; exact nomatch (h : false = true)
  · intro p; fin_cases p <;>
      exact ⟨by decide, by decide, by decide, fun _ => rfl, fun n h => MonitorState.noConfusion h, by decide⟩
  · unfold Qualifier.Legal; decide +kernel
  · unfold Condition.Legal; decide +kernel
  · unfold State.RawDownAgrees; decide +kernel
  · unfold State.RecentBounded; decide +kernel
  · have h0 : ((withFar waiting (.claim 9 1)).qualifier 0).far = some ((SpanWord.claim 9 1).encode .endB) := by
      decide +kernel
    have h1 : ((withFar waiting (.claim 9 1)).qualifier 1).far = none := by decide +kernel
    intro g w h
    fin_cases g
    · rw [← Option.some.inj (h0.symm.trans h)]; decide +kernel
    · exact nomatch h1.symm.trans h
  · unfold State.TransfersAgree; decide +kernel
  · unfold State.RestsAgree; decide +kernel
  · intro g t h; fin_cases g <;> exact nomatch (h : none = some t)
  · intro g; fin_cases g <;> rfl
  · unfold EventQueue.Bounded; decide
  · unfold Registers.InRange; decide
  · unfold State.FifoBounded; decide

/-- A circuit bridged, its answer timer running, and a command that waits. -/
def bridgedWaiting : State := { holding (.bridged 9) (.assigned 0) 1 with pending := [.answerTimerExpiry 0] }

theorem test_ProtocolStaysLegal_applies : bridgedWaiting.ProtocolLegal where
  agreement := ⟨agreement_bridged.reasons, agreement_bridged.holding, agreement_bridged.resting, agreement_bridged.queue⟩
  classes := by unfold State.ClassesInRange; decide +kernel
  off := by unfold State.OffAgrees; decide +kernel
  line := by unfold State.LineAgrees; decide +kernel
  cond := by unfold State.CondAgrees; decide +kernel
  classZero := by unfold State.ClassZeroAgrees; decide +kernel
  returnTimers := by unfold State.ReturnTimersAgree; decide +kernel
  engineTimers := by unfold State.EngineTimersAgree; decide +kernel
  contests := fun g => by fin_cases g <;> trivial

end Sys2Proof.Tests
end

