-- ==== Sys2Proof/Proofs/Reset.lean ====
section
/-! Proofs: the reset state, entry by entry, and the invariants it meets. -/

namespace Sys2Proof.Machine

/-! ## The reset state, entry by entry -/

@[simp] theorem State.reset_record (k : Circuit) : State.reset.record k = Record.reset := tabGet_replicate ..

@[simp] theorem State.reset_engine (g : Spare) : State.reset.engine g = Engine.reset := tabGet_replicate ..

@[simp] theorem State.reset_transfer (g : Spare) : State.reset.transfer g = none := tabGet_replicate ..

@[simp] theorem State.reset_qualifier (g : Spare) : State.reset.qualifier g = Qualifier.reset := tabGet_replicate ..

@[simp] theorem State.reset_monitor (p : Port) : State.reset.monitor p = Monitor.reset false := tabGet_replicate ..

@[simp] theorem State.reset_condition (p : Port) : State.reset.condition p = Condition.reset := tabGet_replicate ..

@[simp] theorem State.reset_queue : State.reset.queue = [] := rfl

@[simp] theorem State.reset_inReset : State.reset.inReset = true := rfl

@[simp] theorem State.reset_transaction : State.reset.transaction = none := rfl

@[simp] theorem State.reset_monitors : State.reset.monitors = Vector.replicate 12 (Monitor.reset false) := rfl

@[simp] theorem State.reset_feeds : State.reset.feeds = Vector.replicate 10 .working := rfl

@[simp] theorem State.reset_recentBits : State.reset.recentBits = Vector.replicate 12 [] := rfl

@[simp] theorem State.reset_farClaim (g : Spare) : State.reset.farClaim g = none := by
  simp [State.farClaim, Qualifier.reset, claimOf]

@[simp] theorem State.reset_farClass (k : Circuit) : State.reset.farClass k = 0 := by
  simp [State.farClass, claimedClass]

@[simp] theorem State.reset_localClass (k : Circuit) : State.reset.localClass k = 0 := by
  simp [State.localClass, Record.localClass, Record.reset]

@[simp] theorem State.reset_effClass (k : Circuit) : State.reset.effClass k = 0 := by
  simp [State.effClass]

@[simp] theorem State.reset_selectedFeed (k : Circuit) : State.reset.selectedFeed k = .working := by
  simp [State.selectedFeed, State.selector, Engine.reset]

/-! ## The invariants of the reset state -/

theorem State.reset_heldInReset : State.reset.HeldInReset := by
  intro _
  have hm : (Vector.ofFn fun p => Monitor.reset (State.reset.monitor p).signalLost) = State.reset.monitors :=
    tab_ext fun p => by simp [Monitor.reset]
  rw [hm]
  rfl

theorem State.reset_eventOver : State.reset.EventOver := by
  refine ⟨fun _ => ⟨rfl, fun g => by simp [State.eligibleOffer]⟩, fun k => .inl ?_⟩
  simp

theorem State.reset_agreement : State.reset.Agreement where
  reasons := fun g => by simp [Engine.reset, Reasons.isEmpty, Reasons.empty]
  holding := fun k g => by simp [Record.reset, Engine.reset, EngineState.holdsAs]
  resting := fun k => by simp [Record.reset, State.restingState]
  queue := ⟨List.nodup_nil, fun k => by simp [Record.reset], List.Pairwise.nil⟩

theorem State.reset_linesLegal : State.reset.LinesLegal where
  reset := State.reset_heldInReset
  monitors := fun p => by simp [Monitor.Legal, Monitor.reset]
  qualifiers := fun g => by simp [Qualifier.Legal, Qualifier.reset]
  conditions := fun p => by simp [Condition.Legal, Condition.reset]
  rawDown := fun p => by simp [Condition.reset]
  recent := fun p => by simp

theorem State.reset_protocolLegal : State.reset.ProtocolLegal where
  agreement := State.reset_agreement
  classes := fun k => by simp [Record.reset]
  off := fun g => by simp [Engine.reset]; rfl
  line := fun g => by simp [Engine.reset, Reasons.empty, Condition.reset]
  cond := fun k => by simp [Record.reset, Condition.reset, Condition.cls]
  classZero := fun g k h => by simp [Engine.reset] at h
  returnTimers := fun k h => by simp [Record.reset] at h
  engineTimers := fun g => by simp [Engine.reset]
  contests := fun g => by simp [Engine.reset]

theorem State.reset_transfersLegal : State.reset.TransfersLegal where
  agreement := State.reset_agreement
  circuits := fun g k => by simp [Engine.reset]
  rests := fun g h => by simp at h
  bounded := fun g t h => by simp at h
  inFlight := fun g => by simp

/-- Settles O4: each invariant of the reset state, read off its entries. -/
theorem resetMeetsTheInvariants : Obligations.ResetMeetsTheInvariants := by
  refine ⟨State.reset_heldInReset, State.reset_eventOver, ?_, ?_, ?_, ?_, State.reset_linesLegal, ?_,
    State.reset_agreement, State.reset_protocolLegal, State.reset_transfersLegal⟩
  · exact ⟨Nat.zero_le _, fun o h => nomatch h⟩
  · exact Nat.zero_le _
  · rfl
  · refine ⟨by decide, by decide, by decide, by decide, by decide, by decide, by decide, by decide, fun p => ?_⟩
    simp [State.reset, Registers.reset]
  · intro g w h
    simp [Qualifier.reset] at h

/-- Settles O3: the reset values, read off the entries of the reset state. -/
theorem resetValues : Obligations.ResetValues := by
  refine ⟨fun k => ⟨State.reset_record k, State.reset_farClass k, State.reset_localClass k, State.reset_effClass k⟩, rfl,
    fun g => ?_, fun p i => ?_, rfl, rfl, rfl, rfl, fun p => ?_, rfl, rfl, rfl, rfl, ?_⟩
  · simp [Engine.reset, Reasons.flags, Reasons.empty, Qualifier.reset, State.ownSays, Reasons.firstLocal, State.bridge,
      State.selector, State.loopOn, bit]
  · simp [State.contextWord, State.reset, Memory.word, Memory.read, unlistedByte, joinBytes]
  · refine ⟨by simp [State.reset], by simp [Monitor.reset], by simp [Monitor.reset], by simp [Monitor.reset],
      by simp [Monitor.reset], by simp [Condition.reset], by simp [State.reset, Registers.reset]⟩
  · decide

end Sys2Proof.Machine
end

