-- ==== Sys2Proof/Proofs/Refusals.lean ====
section
/-! Proofs: the derived classes and claim order, PROTECT writes that keep the enable, and refused commands. -/

namespace Sys2Proof.Machine

/-! ## Classes and claims -/

/-- What a far claim says, by the two words that make one. -/
theorem State.farClaim_eq_some (s : State) (g : Spare) (k : Circuit) (c : Nat) :
    s.farClaim g = some (k, c) ↔ s.farSays g = some (.claim k c) ∨ s.farSays g = some (.carry k c) := by
  unfold State.farClaim claimOf State.farSays
  cases (s.qualifier g).far.bind spanWord with
  | none => simp
  | some w => cases w <;> simp

/-- The class that a spare's far claim names for a circuit is at most its far_class. -/
theorem State.claimedClass_le_farClass (s : State) (g : Spare) (k : Circuit) :
    claimedClass k (s.farClaim g) ≤ s.farClass k := by
  unfold State.farClass
  fin_cases g
  · exact le_max_left ..
  · exact le_max_right ..

/-- far_class is the class that one of the two far claims names. -/
theorem State.farClass_eq_claimed (s : State) (k : Circuit) : ∃ g, s.farClass k = claimedClass k (s.farClaim g) := by
  unfold State.farClass
  rcases max_choice (claimedClass k (s.farClaim 0)) (claimedClass k (s.farClaim 1)) with h | h
  · exact ⟨0, h⟩
  · exact ⟨1, h⟩

/-- A claim names a class for its own circuit, and 0 for every other. -/
theorem claimedClass_cases (k : Circuit) (x : Option (Circuit × Nat)) :
    x = some (k, claimedClass k x) ∨ claimedClass k x = 0 := by
  rcases x with _ | ⟨j, c⟩
  · exact .inr rfl
  · by_cases h : j = k
    · subst h; exact .inl (by simp [claimedClass])
    · exact .inr (by simp [claimedClass, h])

theorem beforeClaim_iff (a b : Circuit × Nat) :
    beforeClaim a b = true ↔ b.2 < a.2 ∨ (a.2 = b.2 ∧ a.1 < b.1) := by
  simp [beforeClaim]

/-- Claim order decides between any two claims on different circuits. -/
theorem beforeClaim_total (a b : Circuit × Nat) (h : a.1 ≠ b.1) :
    beforeClaim a b = true ↔ ¬ beforeClaim b a = true := by
  rw [beforeClaim_iff, beforeClaim_iff]
  have hne : a.1.val ≠ b.1.val := fun e => h (Fin.ext e)
  simp only [Fin.lt_def]
  omega

/-- Settles O52. -/
theorem classesAndClaimOrder : Obligations.ClassesAndClaimOrder := by
  refine ⟨fun s k => ⟨fun g c h => ?_, ?_, rfl, rfl⟩, beforeClaim_iff, beforeClaim_total, fun s g => ⟨?_, ?_, ?_⟩⟩
  · have hc := s.claimedClass_le_farClass g k
    rw [(s.farClaim_eq_some g k c).mpr h] at hc
    simpa [claimedClass] using hc
  · obtain ⟨g, hg⟩ := s.farClass_eq_claimed k
    rcases claimedClass_cases k (s.farClaim g) with h | h
    · exact .inl ⟨g, (s.farClaim_eq_some g k _).mp (hg ▸ h)⟩
    · exact .inr (hg.trans h)
  · rintro k (h | h | h) <;> simp [State.holdingClaim, h]
  · intro k h
    simp [State.holdingClaim, h]
  · intro h
    unfold State.holdingClaim
    cases he : (s.engine g).state <;> simp_all [EngineState.circuit]

/-! ## PROTECT -/

/-- A write access out of reset asserts ready and has the effect of its location. -/
theorem State.busWrite_inService (s : State) (a : Address) (v : Byte) (h : s.inReset = false) :
    s.busWrite a v = (s.setBus { s.bus with ready := true }).writeAt a.toNat v :=
  State.hostWrite_inService _ _ h

/-- A PROTECT write that leaves the enable as it is stores the other two bits. -/
theorem State.writeProtect_keeping (s : State) (v : Byte) (h : v.getLsbD 0 = s.regs.enable) :
    s.writeProtect v = s.setRegs { s.regs with hold := v.getLsbD 1, interruptEnable := v.getLsbD 2 } := by
  unfold State.writeProtect
  dsimp only
  rw [if_pos h, h]

theorem EventQueue.nonEmpty_iff (q : EventQueue) : q.nonEmpty = true ↔ q.places ≠ [] ∨ q.overflow ≠ none := by
  simp [EventQueue.nonEmpty, Option.isSome_iff_ne_none]

/-- Settles O12: every PROTECT row is the same write access. -/
theorem protectWritesKeepingTheEnable : Obligations.ProtectWritesKeepingTheEnable := by
  intro s v hs hv c hc
  have hw : s.busWrite 0x04 v
      = s.withRegsWritten { s.regs with hold := v.getLsbD 1, interruptEnable := v.getLsbD 2 } :=
    (State.busWrite_inService s 0x04 v hs).trans (State.writeProtect_keeping _ v hv)
  have he : exec c s = .next (s.busWrite 0x04 v) := by
    simp only [List.mem_cons, List.not_mem_nil, or_false] at hc
    rcases hc with rfl | rfl | rfl | rfl <;> rfl
  refine ⟨_, he.trans (congrArg _ hw), rfl, ?_⟩
  simp [State.interrupt, State.withRegsWritten, EventQueue.nonEmpty_iff]

/-! ## Refused commands -/

/-- The state in which a command's body runs out of reset: ready asserted and the code stored (R163, R165). -/
def State.commanded (s : State) (code : Byte) : State :=
  (s.setBus { s.bus with ready := true }).setRegs { s.regs with command := code }

/-- A command out of reset is its body on the commanded state, and the end of the event. -/
theorem State.hostCommand_commanded (s : State) (code : Byte) (body : State → State) (h : s.inReset = false) :
    s.hostCommand code body = (body (s.commanded code)).finish :=
  State.hostCommand_inService s code body h

/-- The end of the event of a refused command finds nothing to do: registers and bus enter neither the feeds nor the offers. -/
theorem State.finish_refusedWith (s : State) (h : s.EventOver) (code : Byte) (r : CommandResult) :
    (s.refusedWith code r).finish = s.refusedWith code r :=
  State.finish_of_over _ ⟨h.1, h.2⟩

/-- A command whose body, its code stored, leaves a result alone is refused. -/
theorem State.hostCommand_refused (s : State) (code : Byte) (body : State → State) (r : CommandResult)
    (hs : s.inReset = false) (ho : s.EventOver)
    (hb : body (s.commanded code) = (s.commanded code).withResult r) :
    s.hostCommand code body = s.refusedWith code r := by
  rw [State.hostCommand_commanded s code body hs]
  exact (congrArg State.finish hb).trans (s.finish_refusedWith ho code r)

/-! What each request command does with an argument that names a circuit. -/

theorem State.cmdMove_at (s : State) (k : Circuit) (h : s.regs.arg0.toNat = k.val) :
    s.cmdMove = if (s.record k).swClass = 4 then s.withResult .lower
      else ((s.withResult .done).turn.sourceChange k fun r => { r with swClass := 1 }).settle (s.withResult .done) :=
  State.withCircuit_some s _ k h

theorem State.cmdForce_at (s : State) (k : Circuit) (h : s.regs.arg0.toNat = k.val) :
    s.cmdForce
      = ((s.withResult .done).turn.sourceChange k fun r => { r with swClass := 4 }).settle (s.withResult .done) :=
  State.withCircuit_some s _ k h

theorem State.cmdClear_at (s : State) (k : Circuit) (h : s.regs.arg0.toNat = k.val) :
    s.cmdClear = ((s.withResult .done).turn.sourceChange k fun r =>
      { r with swClass := 0, declined := false }).settle (s.withResult .done) :=
  State.withCircuit_some s _ k h

theorem State.cmdBar_at (s : State) (k : Circuit) (h : s.regs.arg0.toNat = k.val) :
    s.cmdBar = if (s.record k).barred then s.withResult .state
      else ((s.withResult .done).turn.bar k).settle (s.withResult .done) :=
  State.withCircuit_some s _ k h

theorem State.cmdUnbar_at (s : State) (k : Circuit) (h : s.regs.arg0.toNat = k.val) :
    s.cmdUnbar = ((s.withResult .done).turn.unbar k).settleWithPass :=
  State.withCircuit_some s _ k h

theorem State.cmdReturn_at (s : State) (k : Circuit) (h : s.regs.arg0.toNat = k.val) :
    s.cmdReturn = match s.classZeroHeld k with
      | some g => ((s.withResult .done).turn.enterReturning g k).settle (s.withResult .done)
      | none => s.withResult .state :=
  State.withCircuit_some s _ k h

/-- A code that names no command leaves UNKNOWN. -/
theorem State.runCode_unknown (s : State) (code : Byte)
    (h : code.toNat ∉ [0x01, 0x02, 0x03, 0x04, 0x05, 0x06, 0x10, 0x11, 0x12, 0x18, 0x19, 0x20, 0x30]) :
    s.runCode code = s.withResult .unknown := by
  unfold State.runCode
  split <;> first | rfl | (next hc => simp [hc] at h)

/-- The circuit that is not class-0 held has no spare to return from. -/
theorem State.classZeroHeld_none (s : State) (k : Circuit)
    (h : ¬ ∃ g, (s.record k).state = .assigned g ∧ s.effClass k = 0 ∧ (s.engine g).state = .carrying k) :
    s.classZeroHeld k = none := by
  unfold State.classZeroHeld
  split
  · next g hg => exact if_neg fun hc => h ⟨g, hg, hc⟩
  · rfl

/-- A spare is testable in FREE while its far word is VACANT or NONE. -/
theorem State.testable_iff (s : State) (g : Spare) :
    s.testable g = true ↔ (s.engine g).state = .free ∧ ((s.qualifier g).far = none ∨ s.farSays g = some .vacant) := by
  simp [State.testable]

theorem State.cmdTest_badArg (s : State) (h : 1 < s.regs.arg0.toNat ∨ s.regs.arg1 = 0) :
    s.cmdTest = s.withResult .badArg := by
  unfold State.cmdTest
  split
  · rfl
  · next g hg =>
    have hlt := g.isLt
    have h0 := spareArg_eq_some.mp hg
    exact if_pos (h.resolve_left (by omega))

theorem State.cmdTest_wrongState (s : State) (g : Spare) (hg : s.regs.arg0.toNat = g.val) (h1 : s.regs.arg1 ≠ 0)
    (h : s.testable g = false) : s.cmdTest = s.withResult .state := by
  unfold State.cmdTest
  rw [spareArg_eq_some.mpr hg]
  dsimp only
  rw [if_neg h1, h]
  rfl

theorem State.cmdStopTest_wrongState (s : State) (g : Spare) (hg : s.regs.arg0.toNat = g.val)
    (hask : ∀ d, (s.engine g).state ≠ .testing (.ask d)) (hrun : (s.engine g).state ≠ .testing .run) :
    s.cmdStopTest = s.withResult .state := by
  unfold State.cmdStopTest
  rw [State.withSpare_some s _ g hg]
  dsimp only
  split
  · next d h => exact absurd h (hask d)
  · next h => exact absurd h hrun
  all_goals rfl

theorem State.cmdResync_badArg (s : State) (h : 11 < s.regs.arg0.toNat) : s.cmdResync = s.withResult .badArg := by
  simp [State.cmdResync, portArg_eq_none.mpr h]

theorem State.cmdResync_noSpace (s : State) (p : Port) (hp : s.regs.arg0.toNat = p.val) (h : s.fifo ≠ []) :
    s.cmdResync = s.withResult .noSpace := by
  have hlen : 0 < s.fifo.length := List.length_pos_iff.mpr h
  have hfree : s.fifoFree < 16 := by
    show 16 - s.fifo.length < 16
    omega
  simp [State.cmdResync, portArg_eq_some.mpr hp, hfree]

/-- A code that names no command, written to the command register, leaves UNKNOWN and nothing else. -/
theorem State.unknownCommand_refused (s : State) (code : Byte) (hs : s.inReset = false) (ho : s.EventOver)
    (h : code.toNat ∉ [0x01, 0x02, 0x03, 0x04, 0x05, 0x06, 0x10, 0x11, 0x12, 0x18, 0x19, 0x20, 0x30]) :
    s.busWrite 0x00 code = s.refusedWith code .unknown := by
  refine (State.busWrite_inService s 0x00 code hs).trans ?_
  exact (congrArg State.finish (State.runCode_unknown _ code h)).trans (s.finish_refusedWith ho code .unknown)

/-- Settles O15: in each case the body of the command leaves a result alone. -/
theorem refusedCommandsChangeNothing : Obligations.RefusedCommandsChangeNothing := by
  intro s hs ho
  have refused : ∀ (code : Byte) (body : State → State) (r : CommandResult),
      body (s.commanded code) = (s.commanded code).withResult r →
      (Host.Outcome.next (s.hostCommand code body) : Host.Outcome State Fault Refusal)
        = .next (s.refusedWith code r) :=
    fun code body r hb => congrArg _ (s.hostCommand_refused code body r hs ho hb)
  refine ⟨fun h => ?_, fun h => refused _ _ _ (State.cmdTest_badArg _ h),
    fun h => refused _ _ _ (State.withSpare_none _ _ h), fun h => refused _ _ _ (State.cmdResync_badArg _ h),
    fun k hk => ⟨fun h => ?_, fun h => ?_, fun h => ?_⟩,
    fun g hg => ⟨fun h1 h => ?_, fun hask hrun => refused _ _ _ (State.cmdStopTest_wrongState _ g hg hask hrun)⟩,
    fun p hp h => refused _ _ _ (State.cmdResync_noSpace _ p hp h),
    fun code h => congrArg _ (s.unknownCommand_refused code hs ho h)⟩
  · exact ⟨refused _ _ _ (State.withCircuit_none _ _ h), refused _ _ _ (State.withCircuit_none _ _ h),
      refused _ _ _ (State.withCircuit_none _ _ h), refused _ _ _ (State.withCircuit_none _ _ h),
      refused _ _ _ (State.withCircuit_none _ _ h), refused _ _ _ (State.withCircuit_none _ _ h)⟩
  · exact refused _ _ _ ((State.cmdMove_at (s.commanded 0x01) k hk).trans (if_pos h))
  · exact refused _ _ _ ((State.cmdBar_at (s.commanded 0x04) k hk).trans (if_pos h))
  · refine refused _ _ _ ((State.cmdReturn_at (s.commanded 0x06) k hk).trans ?_)
    rw [State.classZeroHeld_none (s.commanded _) k h]
  · refine refused _ _ _ (State.cmdTest_wrongState _ g hg h1 ?_)
    exact Bool.eq_false_iff.mpr fun ht => h ((State.testable_iff s g).mp ht)

end Sys2Proof.Machine
end

