-- ==== Sys2Proof/Proofs/Steady.lean ====
section
/-! Proofs: what stays right in the middle of a turn.

Within a turn records and engines agree but for the parts the turn is at work on.  State.Poised is that agreement with its
exceptions named: circuits whose classes have changed and whose records have not reacted yet (X), engines and records
taken out of the agreement while they are moved (S, K), engines whose contest is still to be decided (G).  A move is
proved in three steps: what it works on is taken out, moved, and put in again.  State.Steady is the agreement between two
moves, nothing taken out, and the queue in its order. -/

namespace Sys2Proof.Machine

/-! ## Sources and stances -/

/-- What the classes, the flags and the claims of a state are made of. -/
def State.sources (s : State) : State :=
  { State.reset with records := s.records.map Record.classes, qualifiers := s.qualifiers }

/-- What a record's place among queue and engines is made of. -/
def Record.stance (r : Record) : RequestState × Option Nat := (r.state, r.returnTimer)

/-- An engine without what no rule of its state reads: the error count and the last result. -/
def Engine.stance (e : Engine) : Engine := { e with errorCount := 0, lastResult := .none }

theorem State.sources_of_still {s t : State} (h : s.still = t.still) : s.sources = t.sources :=
  congrArg (fun x : State => { State.reset with records := x.records, qualifiers := x.qualifiers }) h

theorem State.qualifiers_of_sources {s t : State} (h : s.sources = t.sources) : s.qualifiers = t.qualifiers :=
  have e : s.sources.qualifiers = t.sources.qualifiers := congrArg State.qualifiers h
  e

theorem State.classes_of_sources {s t : State} (h : s.sources = t.sources) (k : Circuit) :
    (s.record k).classes = (t.record k).classes := by
  have e := congrArg (fun x : State => tabGet x.records k) h
  simp only [State.sources, tabGet_map] at e
  exact e

theorem State.farClaim_of_sources {s t : State} (h : s.sources = t.sources) (g : Spare) :
    s.farClaim g = t.farClaim g := by
  unfold State.farClaim State.qualifier
  rw [State.qualifiers_of_sources h]

theorem State.farSays_of_sources {s t : State} (h : s.sources = t.sources) (g : Spare) :
    s.farSays g = t.farSays g := by
  unfold State.farSays State.qualifier
  rw [State.qualifiers_of_sources h]

theorem State.farClass_of_sources {s t : State} (h : s.sources = t.sources) (k : Circuit) :
    s.farClass k = t.farClass k := by
  unfold State.farClass
  rw [State.farClaim_of_sources h, State.farClaim_of_sources h]

theorem State.localClass_of_sources {s t : State} (h : s.sources = t.sources) (k : Circuit) :
    s.localClass k = t.localClass k := by
  have e := congrArg Record.localClass (State.classes_of_sources h k)
  exact e

theorem State.effClass_of_sources {s t : State} (h : s.sources = t.sources) (k : Circuit) :
    s.effClass k = t.effClass k := by
  unfold State.effClass
  rw [State.localClass_of_sources h, State.farClass_of_sources h]

theorem State.barred_of_sources {s t : State} (h : s.sources = t.sources) (k : Circuit) :
    (s.record k).barred = (t.record k).barred := by
  have e := congrArg Record.barred (State.classes_of_sources h k)
  exact e

theorem State.declined_of_sources {s t : State} (h : s.sources = t.sources) (k : Circuit) :
    (s.record k).declined = (t.record k).declined := by
  have e := congrArg Record.declined (State.classes_of_sources h k)
  exact e

theorem State.restingState_of_sources {s t : State} (h : s.sources = t.sources) (k : Circuit) :
    s.restingState k = t.restingState k := by
  unfold State.restingState
  rw [State.effClass_of_sources h, State.barred_of_sources h, State.declined_of_sources h]

@[simp] theorem State.sources_post (s : State) (e : Event) : (s.post e).sources = s.sources := by
  unfold State.post
  split
  · rfl
  · split
    · rfl
    · split
      · rfl
      · split <;> rfl

/-! ## The agreement with its exceptions -/

/-- A record is held by no engine. -/
def RequestState.unheld : RequestState → Bool
  | .assigned _ => false
  | .releasing _ => false
  | _ => true

/-- An engine state in which an answer timer runs (R46). -/
def EngineState.answers : EngineState → Bool
  | .bridged _ => true
  | .returning _ => true
  | .testing (.ask _) => true
  | .testing (.ending _) => true
  | _ => false

/-- The timers of an engine run exactly where they may (R46, R93). -/
def Engine.TimersAgree (e : Engine) : Prop :=
  e.answerTimer.isSome = e.state.answers ∧ e.testTimer.isSome = (e.state == .testing .run)

/-- Record and engine agree on whether the engine holds the record's circuit (R5). -/
def PairAgrees (r : RequestState) (e : EngineState) (k : Circuit) (g : Spare) : Prop :=
  (r = .assigned g ↔ e.holdsAs k true = true) ∧ (r = .releasing g ↔ e.holdsAs k false = true)

/-- No far claim stands on spare g that a contest would decide against this end, but for a circuit whose classes have just
changed, nor one of another circuit under CARRYING (R79, R83). -/
def State.Decided (s : State) (X : List Circuit) (g : Spare) : Prop :=
  ∀ j c, s.farClaim g = some (j, c) →
    (∀ k, (s.engine g).state = .carrying k → k = j)
    ∧ ∀ own, s.contestClaim g = some own →
      (own.1 ∈ X ∧ (s.engine g).state ≠ .returning own.1) ∨ own.1 = j ∨ beforeClaim own (j, c) = true

/-- What a turn is to keep beside the agreement: whether timers and contests are to be kept too, and what each engine's reasons
are to satisfy. -/
structure Keep where
  full : Prop
  reasons : Spare → Reasons → Prop

/-- A record that no engine holds is in the state of R6, a stale one perhaps still QUIET or PARKED; one that is held is neither
barred nor declined. -/
def State.Rested (s : State) (X : List Circuit) (k : Circuit) : Prop :=
  if (s.record k).state.unheld then
    (s.record k).state = s.restingState k ∨ (k ∈ X ∧ (s.record k).state ≠ .queued)
  else (s.record k).barred = false ∧ (s.record k).declined = false

/-- Records and engines agree, but for the stale circuits X, the engines S and records K being moved, and the engines G whose
contest is open. -/
structure State.Poised (w : Keep) (X : List Circuit) (S : List Spare) (K : List Circuit) (G : List Spare)
    (s : State) : Prop where
  reasons : ∀ g, g ∉ S → ((s.engine g).reasons.isEmpty = false ↔ (s.engine g).state = .unavailable)
  watched : ∀ g, w.reasons g (s.engine g).reasons
  pairs : ∀ k g, k ∉ K → g ∉ S → PairAgrees (s.record k).state (s.engine g).state k g
  offSpare : ∀ k g, k ∉ K → g ∈ S → (s.record k).state ≠ .assigned g ∧ (s.record k).state ≠ .releasing g
  offRecord : ∀ k g, k ∈ K → g ∉ S → (s.engine g).state.circuit ≠ some k
  rested : ∀ k, k ∉ K → s.Rested X k
  classZero : w.full → ∀ g k, g ∉ S → (s.engine g).state = .preparing k → k ∈ X ∨ s.effClass k ≠ 0
  returnTimers : w.full → ∀ k, k ∉ K → (s.record k).returnTimer ≠ none →
    (k ∈ X ∨ s.effClass k = 0)
      ∧ ∃ g, g ∉ S ∧ (s.record k).state = .assigned g
          ∧ ((s.engine g).state = .carrying k ∨ (s.engine g).state = .bridged k)
  engineTimers : w.full → ∀ g, g ∉ S → (s.engine g).TimersAgree
  contests : w.full → ∀ g, g ∉ S → g ∉ G → s.Decided X g

/-- The agreement between two moves of a turn. -/
structure State.Steady (w : Keep) (X : List Circuit) (G : List Spare) (s : State) : Prop where
  poised : s.Poised w X [] [] G
  queue : s.QueueAgrees

/-! ## Taking out and putting in -/

variable {w : Keep} {X K : List Circuit} {S G : List Spare} {s s' : State}

theorem State.Decided.of_same (h : s.Decided X g) (hsrc : s'.sources = s.sources)
    (he : (s'.engine g).state = (s.engine g).state) : s'.Decided X g := by
  intro j c hj
  rw [State.farClaim_of_sources hsrc] at hj
  have hc : s'.contestClaim g = s.contestClaim g := by
    unfold State.contestClaim
    rw [he]
    cases (s.engine g).state <;>
      simp [State.effClass_of_sources hsrc, State.localClass_of_sources hsrc]
  rw [he, hc]
  exact h j c hj

theorem State.contestClaim_circuit {c : Circuit × Nat} {g : Spare} (h : s.contestClaim g = some c) :
    (s.engine g).state.circuit = some c.1 := by
  unfold State.contestClaim at h
  split at h <;> simp_all [EngineState.circuit] <;> rw [← h]

/-- No contest stands where no circuit is held. -/
theorem State.Decided.of_empty {g : Spare} (h : (s.engine g).state.circuit = none) : s.Decided X g := by
  refine fun j c _ => ⟨fun k hk => by simp [hk, EngineState.circuit] at h, fun own ho => ?_⟩
  rw [State.contestClaim_circuit ho] at h
  cases h

/-- No contest stands without a far claim. -/
theorem State.Decided.of_unclaimed {g : Spare} (h : s.farClaim g = none) : s.Decided X g :=
  fun j c hj => by rw [h] at hj; cases hj

/-- The queue agrees as before where its entries, the records' states and the classes are as before. -/
theorem State.QueueAgrees.of_same (h : s.QueueAgrees) (hsrc : s'.sources = s.sources) (hq : s'.queue = s.queue)
    (hr : ∀ k, (s'.record k).state = (s.record k).state) : s'.QueueAgrees := by
  obtain ⟨hnodup, hmem, hsorted⟩ := h
  refine ⟨hq ▸ hnodup, fun k => by rw [hq, hr]; exact hmem k, ?_⟩
  simp only [hq, State.effClass_of_sources hsrc]
  exact hsorted

/-- A change that touches only what has been taken out, and no class. -/
theorem State.Poised.of_moved (h : s.Poised w X S K G) (hsrc : s'.sources = s.sources)
    (hrec : ∀ k, k ∉ K → (s'.record k).stance = (s.record k).stance)
    (heng : ∀ g, g ∉ S → (s'.engine g).stance = (s.engine g).stance)
    (hwatch : ∀ g, g ∈ S → w.reasons g (s'.engine g).reasons) : s'.Poised w X S K G := by
  have hstate : ∀ k, k ∉ K → (s'.record k).state = (s.record k).state := fun k hk => congrArg Prod.fst (hrec k hk)
  have htimer : ∀ k, k ∉ K → (s'.record k).returnTimer = (s.record k).returnTimer :=
    fun k hk => congrArg Prod.snd (hrec k hk)
  have hes : ∀ g, g ∉ S → (s'.engine g).state = (s.engine g).state := fun g hg => by
    have e := congrArg Engine.state (heng g hg); exact e
  have her : ∀ g, g ∉ S → (s'.engine g).reasons = (s.engine g).reasons := fun g hg => by
    have e := congrArg Engine.reasons (heng g hg); exact e
  exact {
    reasons := fun g hg => by rw [her g hg, hes g hg]; exact h.reasons g hg
    watched := fun g => by
      by_cases hg : g ∈ S
      · exact hwatch g hg
      · rw [her g hg]; exact h.watched g
    pairs := fun k g hk hg => by rw [hstate k hk, hes g hg]; exact h.pairs k g hk hg
    offSpare := fun k g hk hg => by rw [hstate k hk]; exact h.offSpare k g hk hg
    offRecord := fun k g hk hg => by rw [hes g hg]; exact h.offRecord k g hk hg
    rested := fun k hk => by
      unfold State.Rested
      rw [hstate k hk, State.restingState_of_sources hsrc, State.barred_of_sources hsrc,
        State.declined_of_sources hsrc]
      exact h.rested k hk
    classZero := fun hw g k hg he => by
      rw [State.effClass_of_sources hsrc]
      exact h.classZero hw g k hg (hes g hg ▸ he)
    returnTimers := fun hw k hk ht => by
      obtain ⟨hc, g, hg, ha, he⟩ := h.returnTimers hw k hk (htimer k hk ▸ ht)
      rw [State.effClass_of_sources hsrc, hstate k hk]
      exact ⟨hc, g, hg, ha, by rw [hes g hg]; exact he⟩
    engineTimers := fun hw g hg => by
      have ha : (s'.engine g).answerTimer = (s.engine g).answerTimer := by
        have e := congrArg Engine.answerTimer (heng g hg); exact e
      have ht : (s'.engine g).testTimer = (s.engine g).testTimer := by
        have e := congrArg Engine.testTimer (heng g hg); exact e
      unfold Engine.TimersAgree
      rw [ha, ht, hes g hg]
      exact h.engineTimers hw g hg
    contests := fun hw g hg hg' => (h.contests hw g hg hg').of_same hsrc (hes g hg) }

/-- Changes of nothing that the agreement reads. -/
theorem State.Poised.of_same (h : s.Poised w X S K G) (hsrc : s'.sources = s.sources)
    (hrec : ∀ k, (s'.record k).stance = (s.record k).stance)
    (heng : ∀ g, (s'.engine g).stance = (s.engine g).stance) : s'.Poised w X S K G :=
  h.of_moved hsrc (fun k _ => hrec k) (fun g _ => heng g)
    (fun g _ => by
      have e : (s'.engine g).reasons = (s.engine g).reasons := by
        have e := congrArg Engine.reasons (heng g); exact e
      rw [e]; exact h.watched g)

theorem EngineState.holdsAs_circuit {e : EngineState} {k : Circuit} {b : Bool} (h : e.holdsAs k b = true) :
    e.circuit = some k := by
  cases e <;> simp_all [EngineState.holdsAs, EngineState.circuit]

theorem EngineState.holdsAs_of_circuit {e : EngineState} {k : Circuit} (h : e.circuit = some k) :
    e.holdsAs k true = true ∨ e.holdsAs k false = true := by
  cases e <;> simp_all [EngineState.holdsAs, EngineState.circuit]

/-- A record that is not on spare g, and an engine that does not hold its circuit, agree. -/
theorem PairAgrees.apart {r : RequestState} {e : EngineState} {k : Circuit} {g : Spare} (ha : r ≠ .assigned g)
    (hr : r ≠ .releasing g) (he : e.circuit ≠ some k) : PairAgrees r e k g :=
  ⟨⟨fun h => absurd h ha, fun h => absurd (EngineState.holdsAs_circuit h) he⟩,
    ⟨fun h => absurd h hr, fun h => absurd (EngineState.holdsAs_circuit h) he⟩⟩

/-- Where an engine holds no circuit of a record, the record is not on its spare. -/
theorem PairAgrees.off {r : RequestState} {e : EngineState} {k : Circuit} {g : Spare} (h : PairAgrees r e k g)
    (he : e.circuit ≠ some k) : r ≠ .assigned g ∧ r ≠ .releasing g :=
  ⟨fun hr => he (EngineState.holdsAs_circuit (h.1.mp hr)), fun hr => he (EngineState.holdsAs_circuit (h.2.mp hr))⟩

/-- Where a record is not on a spare, the spare's engine does not hold its circuit. -/
theorem PairAgrees.empty {r : RequestState} {e : EngineState} {k : Circuit} {g : Spare} (h : PairAgrees r e k g)
    (ha : r ≠ .assigned g) (hr : r ≠ .releasing g) : e.circuit ≠ some k := fun he =>
  (EngineState.holdsAs_of_circuit he).elim (fun hh => ha (h.1.mpr hh)) (fun hh => hr (h.2.mpr hh))

theorem RequestState.unheld_iff (r : RequestState) :
    r.unheld = true ↔ ∀ g, r ≠ .assigned g ∧ r ≠ .releasing g := by
  cases r <;> simp [RequestState.unheld]

/-- An engine is taken out together with the record of the circuit it holds, or alone where it holds none. -/
theorem State.Poised.open (h : s.Poised w X [] [] G) (g : Spare) (k : Circuit)
    (hg : ∀ j, (s.engine g).state.circuit = some j → j = k)
    (hk : ∀ i, i ≠ g → (s.record k).state ≠ .assigned i ∧ (s.record k).state ≠ .releasing i) :
    s.Poised w X [g] [k] G where
  reasons := fun i _ => h.reasons i (by simp)
  watched := h.watched
  pairs := fun j i _ _ => h.pairs j i (by simp) (by simp)
  offSpare := fun j i hj hi => by
    rw [List.mem_singleton.mp hi]
    exact (h.pairs j g (by simp) (by simp)).off fun e => hj (by simp [hg j e])
  offRecord := fun j i hj hi => by
    rw [List.mem_singleton.mp hj]
    have := hk i (by simpa using hi)
    exact (h.pairs k i (by simp) (by simp)).empty this.1 this.2
  rested := fun j _ => h.rested j (by simp)
  classZero := fun hw i j _ => h.classZero hw i j (by simp)
  returnTimers := fun hw j hj ht => by
    obtain ⟨hc, i, _, ha, he⟩ := h.returnTimers hw j (by simp) ht
    refine ⟨hc, i, fun hi => hj ?_, ha, he⟩
    have hjk : (s.engine g).state.circuit = some j := by
      rw [List.mem_singleton.mp hi] at he
      rcases he with he | he <;> rw [he] <;> rfl
    simp [hg j hjk]
  engineTimers := fun hw i _ => h.engineTimers hw i (by simp)
  contests := fun hw i _ => h.contests hw i (by simp)

/-- A record that no engine holds is taken out alone. -/
theorem State.Poised.openRecord (h : s.Poised w X S K G) (k : Circuit)
    (hk : ∀ i, i ∉ S → (s.engine i).state.circuit ≠ some k) : s.Poised w X S (k :: K) G where
  reasons := h.reasons
  watched := h.watched
  pairs := fun j i hj hi => h.pairs j i (fun hm => hj (List.mem_cons_of_mem _ hm)) hi
  offSpare := fun j i hj hi => h.offSpare j i (fun hm => hj (List.mem_cons_of_mem _ hm)) hi
  offRecord := fun j i hj hi => by
    rcases List.mem_cons.mp hj with rfl | hm
    · exact hk i hi
    · exact h.offRecord j i hm hi
  rested := fun j hj => h.rested j fun hm => hj (List.mem_cons_of_mem _ hm)
  classZero := h.classZero
  returnTimers := fun hw j hj ht => h.returnTimers hw j (fun hm => hj (List.mem_cons_of_mem _ hm)) ht
  engineTimers := h.engineTimers
  contests := h.contests

/-- An engine that holds no circuit is taken out alone. -/
theorem State.Poised.openEngine (h : s.Poised w X [] K G) (g : Spare)
    (hg : ∀ j, (s.engine g).state.circuit ≠ some j) : s.Poised w X [g] K G where
  reasons := fun i _ => h.reasons i (by simp)
  watched := h.watched
  pairs := fun j i hj _ => h.pairs j i hj (by simp)
  offSpare := fun j i hj hi => by
    rw [List.mem_singleton.mp hi]
    exact (h.pairs j g hj (by simp)).off (hg j)
  offRecord := fun j i hj _ => h.offRecord j i hj (by simp)
  rested := h.rested
  classZero := fun hw i j _ => h.classZero hw i j (by simp)
  returnTimers := fun hw j hj ht => by
    obtain ⟨hc, i, _, ha, he⟩ := h.returnTimers hw j hj ht
    refine ⟨hc, i, fun hi => ?_, ha, he⟩
    rw [List.mem_singleton.mp hi] at he
    exact hg j (by rcases he with he | he <;> rw [he] <;> rfl)
  engineTimers := fun hw i _ => h.engineTimers hw i (by simp)
  contests := fun hw i _ => h.contests hw i (by simp)

/-- A record that no engine holds is put in again, at rest or stale, no timer running. -/
theorem State.Poised.closeRecord {k : Circuit} (h : s.Poised w X S (k :: K) G) (hk : (s.record k).state.unheld = true)
    (hr : s.Rested X k) (ht : w.full → (s.record k).returnTimer = none) : s.Poised w X S K G where
  reasons := h.reasons
  watched := h.watched
  pairs := fun j i hj hi => by
    by_cases hjk : j = k
    · subst hjk
      have := (RequestState.unheld_iff _).mp hk i
      exact .apart this.1 this.2 (h.offRecord j i (by simp) hi)
    · exact h.pairs j i (by simp [hjk, hj]) hi
  offSpare := fun j i hj hi => by
    by_cases hjk : j = k
    · subst hjk
      exact (RequestState.unheld_iff _).mp hk i
    · exact h.offSpare j i (by simp [hjk, hj]) hi
  offRecord := fun j i hj hi => h.offRecord j i (List.mem_cons_of_mem _ hj) hi
  rested := fun j hj => by
    by_cases hjk : j = k
    · subst hjk; exact hr
    · exact h.rested j (by simp [hjk, hj])
  classZero := h.classZero
  returnTimers := fun hw j hj hjt => by
    by_cases hjk : j = k
    · subst hjk; exact absurd (ht hw) hjt
    · exact h.returnTimers hw j (by simp [hjk, hj]) hjt
  engineTimers := h.engineTimers
  contests := h.contests

/-- An engine that holds no circuit is put in again. -/
theorem State.Poised.closeEngine {g : Spare} (h : s.Poised w X [g] K G)
    (hr : (s.engine g).reasons.isEmpty = false ↔ (s.engine g).state = .unavailable)
    (he : (s.engine g).state.circuit = none) (ht : w.full → (s.engine g).TimersAgree) : s.Poised w X [] K G where
  reasons := fun i _ => by
    by_cases hi : i = g
    · subst hi; exact hr
    · exact h.reasons i (by simpa using hi)
  watched := h.watched
  pairs := fun j i hj _ => by
    by_cases hi : i = g
    · subst hi
      have := h.offSpare j i hj (by simp)
      exact .apart this.1 this.2 (by simp [he])
    · exact h.pairs j i hj (by simpa using hi)
  offSpare := fun j i _ hi => absurd hi (by simp)
  offRecord := fun j i hj _ => by
    by_cases hi : i = g
    · subst hi; simp [he]
    · exact h.offRecord j i hj (by simpa using hi)
  rested := h.rested
  classZero := fun hw i j _ hp => by
    by_cases hi : i = g
    · subst hi; simp [hp, EngineState.circuit] at he
    · exact h.classZero hw i j (by simpa using hi) hp
  returnTimers := fun hw j hj hjt => by
    obtain ⟨hc, i, _, hrest⟩ := h.returnTimers hw j hj hjt
    exact ⟨hc, i, by simp, hrest⟩
  engineTimers := fun hw i _ => by
    by_cases hi : i = g
    · subst hi; exact ht hw
    · exact h.engineTimers hw i (by simpa using hi)
  contests := fun hw i _ hi' => by
    by_cases hi : i = g
    · subst hi; exact .of_empty he
    · exact h.contests hw i (by simpa using hi) hi'

/-- An engine and the record of the circuit it holds are put in again together. -/
theorem State.Poised.close {g : Spare} {k : Circuit} (h : s.Poised w X [g] [k] G)
    (hr : (s.engine g).reasons.isEmpty = true) (he : (s.engine g).state.circuit = some k)
    (hp : PairAgrees (s.record k).state (s.engine g).state k g)
    (hk : (s.record k).barred = false ∧ (s.record k).declined = false)
    (hz : w.full → (s.engine g).state = .preparing k → k ∈ X ∨ s.effClass k ≠ 0)
    (htimer : w.full → (s.record k).returnTimer ≠ none →
      (k ∈ X ∨ s.effClass k = 0) ∧ ((s.engine g).state = .carrying k ∨ (s.engine g).state = .bridged k))
    (ht : w.full → (s.engine g).TimersAgree) (hd : w.full → g ∉ G → s.Decided X g) : s.Poised w X [] [] G := by
  have hheld : (s.record k).state = .assigned g ∨ (s.record k).state = .releasing g :=
    (EngineState.holdsAs_of_circuit he).imp hp.1.mpr hp.2.mpr
  have hun : (s.engine g).state ≠ .unavailable := fun e => by simp [e, EngineState.circuit] at he
  exact {
    reasons := fun i _ => by
      by_cases hi : i = g
      · subst hi; simp [hr, hun]
      · exact h.reasons i (by simpa using hi)
    watched := h.watched
    pairs := fun j i _ _ => by
      by_cases hj : j = k
      · by_cases hi : i = g
        · subst hi hj; exact hp
        · subst hj
          have hne : g ≠ i := fun e => hi e.symm
          refine .apart ?_ ?_ (h.offRecord j i (by simp) (by simpa using hi))
          · rcases hheld with e | e <;> simp [e, hne]
          · rcases hheld with e | e <;> simp [e, hne]
      · by_cases hi : i = g
        · subst hi
          have := h.offSpare j i (by simpa using hj) (by simp)
          exact .apart this.1 this.2 (by rw [he]; simpa using fun e => hj e.symm)
        · exact h.pairs j i (by simpa using hj) (by simpa using hi)
    offSpare := fun j i _ hi => absurd hi (by simp)
    offRecord := fun j i hj => absurd hj (by simp)
    rested := fun j _ => by
      by_cases hj : j = k
      · subst hj
        unfold State.Rested
        rw [if_neg (by rcases hheld with e | e <;> simp [e, RequestState.unheld])]
        exact hk
      · exact h.rested j (by simpa using hj)
    classZero := fun hw i j _ hpj => by
      by_cases hi : i = g
      · subst hi
        have hjk : j = k := by simpa [hpj, EngineState.circuit] using he
        subst hjk
        exact hz hw hpj
      · exact h.classZero hw i j (by simpa using hi) hpj
    returnTimers := fun hw j _ hjt => by
      by_cases hj : j = k
      · subst hj
        obtain ⟨hc, hs⟩ := htimer hw hjt
        refine ⟨hc, g, by simp, hp.1.mpr ?_, hs⟩
        rcases hs with e | e <;> simp [e, EngineState.holdsAs]
      · obtain ⟨hc, i, _, hrest⟩ := h.returnTimers hw j (by simpa using hj) hjt
        exact ⟨hc, i, by simp, hrest⟩
    engineTimers := fun hw i _ => by
      by_cases hi : i = g
      · subst hi; exact ht hw
      · exact h.engineTimers hw i (by simpa using hi)
    contests := fun hw i _ hi' => by
      by_cases hi : i = g
      · subst hi; exact hd hw hi'
      · exact h.contests hw i (by simpa using hi) hi' }

/-- More circuits stale, and more contests open. -/
theorem State.Poised.mono {X' : List Circuit} {G' : List Spare} (h : s.Poised w X S K G) (hX : X ⊆ X') (hG : G ⊆ G') :
    s.Poised w X' S K G' where
  reasons := h.reasons
  watched := h.watched
  pairs := h.pairs
  offSpare := h.offSpare
  offRecord := h.offRecord
  rested := fun k hk => by
    have := h.rested k hk
    unfold State.Rested at *
    split
    · next hu =>
      rw [if_pos hu] at this
      exact this.imp_right fun hx => ⟨hX hx.1, hx.2⟩
    · next hu => rwa [if_neg hu] at this
  classZero := fun hw g k hg hp => (h.classZero hw g k hg hp).imp_left fun hx => hX hx
  returnTimers := fun hw k hk ht => by
    obtain ⟨hc, hrest⟩ := h.returnTimers hw k hk ht
    exact ⟨hc.imp_left fun hx => hX hx, hrest⟩
  engineTimers := h.engineTimers
  contests := fun hw g hg hg' j c hj => by
    obtain ⟨h1, h2⟩ := h.contests hw g hg (fun hx => hg' (hG hx)) j c hj
    exact ⟨h1, fun own ho => (h2 own ho).imp_left fun hx => ⟨hX hx.1, hx.2⟩⟩

/-- A record that has been taken out is stale no longer: nothing is asked of it, and no engine in place holds its circuit. -/
theorem State.Poised.fresh {k : Circuit} (h : s.Poised w (k :: X) S [k] G) : s.Poised w X S [k] G where
  reasons := h.reasons
  watched := h.watched
  pairs := h.pairs
  offSpare := h.offSpare
  offRecord := h.offRecord
  rested := fun j hj => by
    have hne : j ≠ k := by simpa using hj
    have := h.rested j hj
    unfold State.Rested at *
    split
    · next hu =>
      rw [if_pos hu] at this
      exact this.imp_right fun hx => ⟨(List.mem_cons.mp hx.1).resolve_left hne, hx.2⟩
    · next hu => rwa [if_neg hu] at this
  classZero := fun hw g j hg hp => by
    refine (h.classZero hw g j hg hp).imp_left fun hx => (List.mem_cons.mp hx).resolve_left ?_
    rintro rfl
    exact h.offRecord j g (by simp) hg (by rw [hp]; rfl)
  returnTimers := fun hw j hj ht => by
    have hne : j ≠ k := by simpa using hj
    obtain ⟨hc, hrest⟩ := h.returnTimers hw j hj ht
    exact ⟨hc.imp_left fun hx => (List.mem_cons.mp hx).resolve_left hne, hrest⟩
  engineTimers := h.engineTimers
  contests := fun hw g hg hg' j c hj => by
    obtain ⟨h1, h2⟩ := h.contests hw g hg hg' j c hj
    refine ⟨h1, fun own ho => (h2 own ho).imp_left fun hx => ⟨(List.mem_cons.mp hx.1).resolve_left ?_, hx.2⟩⟩
    intro e
    exact h.offRecord k g (by simp) hg (e ▸ State.contestClaim_circuit ho)

theorem State.Steady.mono {X' : List Circuit} {G' : List Spare} (h : s.Steady w X G) (hX : X ⊆ X') (hG : G ⊆ G') :
    s.Steady w X' G' := ⟨h.poised.mono hX hG, h.queue⟩

/-- A change of nothing that the agreement reads. -/
theorem State.Steady.of_same (h : s.Steady w X G) (hsrc : s'.sources = s.sources) (hq : s'.queue = s.queue)
    (hrec : ∀ k, (s'.record k).stance = (s.record k).stance)
    (heng : ∀ g, (s'.engine g).stance = (s.engine g).stance) : s'.Steady w X G :=
  ⟨h.poised.of_same hsrc hrec heng, h.queue.of_same hsrc hq fun k => congrArg Prod.fst (hrec k)⟩

/-- An open contest is closed where no far claim would still be decided against this end. -/
theorem State.Steady.decide {g : Spare} (h : s.Steady w X [g]) (hd : w.full → s.Decided X g) : s.Steady w X [] where
  poised := { h.poised with
    contests := fun hw i hi _ => by
      by_cases hig : i = g
      · subst hig; exact hd hw
      · exact h.poised.contests hw i hi (by simpa using hig) }
  queue := h.queue

end Sys2Proof.Machine
end

