-- ==== Sys2Proof/Proofs/Moves.lean ====
section
/-! Proofs: what the moves of records and engines do to each of them, and that they keep the agreement. -/

namespace Sys2Proof.Machine

/-! ## Letting go, field by field -/

@[simp] theorem Turn.letGo_engine_same (t : Turn) (g : Spare) :
    (t.letGo g).st.engine g = { t.st.engine g with state := .free, answerTimer := none, testTimer := none } := by
  simp [Turn.letGo, State.startTransfer]

@[simp] theorem Turn.letGo_engine_other (t : Turn) {g i : Spare} (h : g ≠ i) :
    (t.letGo g).st.engine i = t.st.engine i := by
  simp [Turn.letGo, State.startTransfer, h]

@[simp] theorem Turn.letGo_record (t : Turn) (g : Spare) (k : Circuit) : (t.letGo g).st.record k = t.st.record k := by
  simp [Turn.letGo, State.startTransfer]

@[simp] theorem Turn.letGo_queue (t : Turn) (g : Spare) : (t.letGo g).st.queue = t.st.queue := by
  simp [Turn.letGo, State.startTransfer]

@[simp] theorem Turn.letGo_transfer (t : Turn) (g : Spare) :
    (t.letGo g).st.transfer g = some { source := .rest, cursor := 0, resend := [], inFlight := none } := by
  simp [Turn.letGo]

@[simp] theorem Turn.letGo_offered (t : Turn) (g : Spare) : (t.letGo g).offered = t.offered := rfl

@[simp] theorem Turn.letGo_late (t : Turn) (g : Spare) : (t.letGo g).late = t.late := rfl

@[simp] theorem Turn.moveRecord_late (t : Turn) (g : Spare) (k : Circuit) (r : RequestState) (place : Place) :
    (t.moveRecord g k r place).late = t.late := by
  unfold Turn.moveRecord
  dsimp only
  split <;> rfl

@[simp] theorem Turn.enterEngine_offered (t : Turn) (g : Spare) (e : EngineState) (a b : Option Nat) :
    (t.enterEngine g e a b).offered = t.offered := rfl

@[simp] theorem Turn.enterEngine_late (t : Turn) (g : Spare) (e : EngineState) (a b : Option Nat) :
    (t.enterEngine g e a b).late = t.late := rfl

/-! ## Resting states -/

theorem State.restingState_unheld (s : State) (k : Circuit) : (s.restingState k).unheld = true := by
  unfold State.restingState
  split
  · rfl
  · split <;> rfl

@[simp] theorem State.restingState_ne_assigned (s : State) (k : Circuit) (g : Spare) :
    s.restingState k ≠ .assigned g := ((RequestState.unheld_iff _).mp (s.restingState_unheld k) g).1

@[simp] theorem State.restingState_ne_releasing (s : State) (k : Circuit) (g : Spare) :
    s.restingState k ≠ .releasing g := ((RequestState.unheld_iff _).mp (s.restingState_unheld k) g).2

/-- A record that rests QUEUED has a class. -/
theorem State.effClass_of_resting_queued {s : State} {k : Circuit} (h : s.restingState k = .queued) :
    s.effClass k ≠ 0 ∧ (s.record k).barred = false ∧ (s.record k).declined = false := by
  unfold State.restingState at h
  split at h
  · cases h
  · next h0 =>
    split at h
    · cases h
    · next hf => simpa [h0] using hf

/-! ## The queue while one record moves -/

/-- The queue agrees but for the place of circuit k, whose class may have changed. -/
def State.QueueBut (s : State) (k : Circuit) : Prop :=
  s.queue.Nodup ∧ (∀ j : Circuit, j ∈ s.queue ↔ (s.record j).state = .queued) ∧
    s.queue.Pairwise fun i j => i = k ∨ j = k ∨ s.effClass j ≤ s.effClass i

theorem State.QueueAgrees.but {s : State} (h : s.QueueAgrees) (k : Circuit) : s.QueueBut k :=
  ⟨h.1, h.2.1, h.2.2.imp fun hle => .inr (.inr hle)⟩

theorem State.QueueBut.of_same {s s' : State} {k : Circuit} (h : s.QueueBut k) (hsrc : s'.sources = s.sources)
    (hq : s'.queue = s.queue) (hr : ∀ j, (s'.record j).state = (s.record j).state) : s'.QueueBut k := by
  obtain ⟨hnodup, hmem, hsorted⟩ := h
  refine ⟨hq ▸ hnodup, fun j => by rw [hq, hr]; exact hmem j, ?_⟩
  simp only [hq, State.effClass_of_sources hsrc]
  exact hsorted

/-- The move of a record puts the queue right again. -/
theorem Turn.moveRecord_queueAgrees (t : Turn) (g : Spare) (k : Circuit) (r : RequestState) (place : Place)
    (h : t.st.QueueBut k) : (t.moveRecord g k r place).st.QueueAgrees := by
  obtain ⟨hnodup, hmem, hsorted⟩ := h
  have hrest : (t.st.queue.filter (· ≠ k)).Pairwise fun i j => t.st.effClass j ≤ t.st.effClass i := by
    refine (hsorted.filter (· ≠ k)).imp_of_mem fun {i j} hi hj hor => ?_
    have hik : i ≠ k := by simpa using (List.mem_filter.mp hi).2
    have hjk : j ≠ k := by simpa using (List.mem_filter.mp hj).2
    exact (hor.resolve_left hik).resolve_left hjk
  have hsrc := State.sources_of_still (Turn.still_moveRecord t g k r place)
  refine ⟨?_, fun j => ?_, ?_⟩
  · rw [Turn.moveRecord_queue]
    exact t.st.requeue_nodup k _ place hnodup
  · rw [Turn.moveRecord_queue, State.mem_requeue, hmem]
    by_cases hj : j = k
    · subst hj; simp
    · rw [Turn.moveRecord_record_other t g r place (Ne.symm hj)]
      simp [hj]
  · rw [Turn.moveRecord_queue]
    simp only [State.effClass_of_sources hsrc]
    exact t.st.requeue_sorted k _ place hrest

section Moves

variable {w : Keep} {X K : List Circuit} {S G : List Spare} {t : Turn} {g : Spare} {k : Circuit}

/-! ## Moving what has been taken out -/

theorem State.Poised.moveRecord (h : t.st.Poised w X S (k :: K) G) (i : Spare) (r : RequestState) (place : Place) :
    (t.moveRecord i k r place).st.Poised w X S (k :: K) G :=
  h.of_moved (State.sources_of_still (Turn.still_moveRecord ..))
    (fun j hj => by rw [Turn.moveRecord_record_other _ _ _ _ (fun e => hj (by simp [e]))])
    (fun i _ => by rw [Turn.moveRecord_engine]) (fun i _ => by rw [Turn.moveRecord_engine]; exact h.watched i)

theorem State.Poised.enterEngine (h : t.st.Poised w X [g] K G) (e : EngineState) (a b : Option Nat) :
    (t.enterEngine g e a b).st.Poised w X [g] K G :=
  h.of_moved (State.sources_of_still (Turn.still_enterEngine ..)) (fun _ _ => rfl)
    (fun i hi => by rw [Turn.enterEngine_engine_other _ _ _ _ fun e => hi (by simp [e])])
    (fun i hi => by
      rw [List.mem_singleton.mp hi, Turn.enterEngine_engine]
      exact h.watched g)

theorem State.Poised.letGo (h : t.st.Poised w X [g] K G) : (t.letGo g).st.Poised w X [g] K G :=
  h.of_moved (State.sources_of_still (Turn.still_letGo ..)) (fun _ _ => by rw [Turn.letGo_record])
    (fun i hi => by rw [Turn.letGo_engine_other _ fun e => hi (by simp [e])])
    (fun i hi => by
      rw [List.mem_singleton.mp hi, Turn.letGo_engine_same]
      exact h.watched g)

/-- A record that has been taken out is put at rest. -/
theorem State.Poised.rest (h : t.st.Poised w X S (k :: K) G) (i : Spare) (place : Place) :
    (t.moveRecord i k (t.st.restingState k) place).st.Poised w X S K G := by
  refine (h.moveRecord i _ place).closeRecord ?_ ?_ (by simp)
  · simpa using t.st.restingState_unheld k
  · unfold State.Rested
    rw [State.restingState_of_sources (State.sources_of_still (Turn.still_moveRecord ..))]
    simp [t.st.restingState_unheld k]

theorem State.QueueAgrees.enterEngine (h : t.st.QueueAgrees) (g : Spare) (e : EngineState) (a b : Option Nat) :
    (t.enterEngine g e a b).st.QueueAgrees :=
  h.of_same (State.sources_of_still (Turn.still_enterEngine ..)) rfl fun _ => rfl

theorem State.QueueAgrees.letGo (h : t.st.QueueAgrees) (g : Spare) : (t.letGo g).st.QueueAgrees :=
  h.of_same (State.sources_of_still (Turn.still_letGo ..)) (by simp) fun _ => by simp

/-! ## What holds of an engine and its record -/

/-- An engine outside UNAVAILABLE has no reason. -/
theorem State.Poised.usable {s : State} (h : s.Poised w X [] K G) (hu : (s.engine g).state ≠ .unavailable) :
    (s.engine g).reasons.isEmpty = true := by
  by_contra hne
  exact hu ((h.reasons g (by simp)).mp (by simpa using hne))

/-- The record of a circuit that an engine holds is on its spare, and neither barred nor declined. -/
theorem State.Poised.held {s : State} (h : s.Poised w X [] [] G) (hk : (s.engine g).state.circuit = some k) :
    ((s.record k).state = .assigned g ∨ (s.record k).state = .releasing g)
      ∧ (s.record k).barred = false ∧ (s.record k).declined = false := by
  have hp := h.pairs k g (by simp) (by simp)
  have hr := (EngineState.holdsAs_of_circuit hk).imp hp.1.mpr hp.2.mpr
  refine ⟨hr, ?_⟩
  have := h.rested k (by simp)
  unfold State.Rested at this
  rw [if_neg (by rcases hr with e | e <;> simp [e, RequestState.unheld])] at this
  exact this

/-- A record that is on a spare is held by its engine. -/
theorem State.Poised.holder {s : State} (h : s.Poised w X [] [] G)
    (hk : (s.record k).state = .assigned g ∨ (s.record k).state = .releasing g) :
    (s.engine g).state.circuit = some k := by
  have hp := h.pairs k g (by simp) (by simp)
  rcases hk with e | e
  · exact EngineState.holdsAs_circuit (hp.1.mp e)
  · exact EngineState.holdsAs_circuit (hp.2.mp e)

/-- An engine that holds a circuit is taken out with its record. -/
theorem State.Poised.openHeld {s : State} (h : s.Poised w X [] [] G) (hk : (s.engine g).state.circuit = some k) :
    s.Poised w X [g] [k] G := by
  refine h.open g k (fun j hj => by simpa [hj] using hk) fun i hi => ?_
  have hne : g ≠ i := fun e => hi e.symm
  rcases (h.held hk).1 with e | e <;> simp [e, hne]

/-- A record that no engine holds is taken out. -/
theorem State.Poised.openUnheld {s : State} (h : s.Poised w X [] [] G) (hk : (s.record k).state.unheld = true) :
    s.Poised w X [] [k] G :=
  h.openRecord k fun i _ => by
    have := (RequestState.unheld_iff _).mp hk i
    exact (h.pairs k i (by simp) (by simp)).empty this.1 this.2

theorem EngineState.not_unavailable {e : EngineState} (h : e.circuit = some k) : e ≠ .unavailable := by
  rintro rfl
  simp [EngineState.circuit] at h

/-! ## Letting a circuit go -/

/-- An engine and its record, taken out, are put in again apart: the engine FREE, the record at rest. -/
theorem State.Poised.free (h : t.st.Poised w (k :: X) [g] [k] G) (hr : (t.st.engine g).reasons.isEmpty = true)
    (hq : t.st.QueueBut k) (i : Spare) (place : Place) :
    ((t.letGo g).moveRecord i k ((t.letGo g).st.restingState k) place).st.Steady w X G := by
  have hq' : (t.letGo g).st.QueueBut k :=
    hq.of_same (State.sources_of_still (Turn.still_letGo ..)) (by simp) fun _ => by simp
  refine ⟨(h.fresh.letGo.rest i place).closeEngine ?_ ?_ ?_, Turn.moveRecord_queueAgrees _ _ _ _ _ hq'⟩
  · simp [hr]
  · simp [EngineState.circuit]
  · intro _
    simp [Engine.TimersAgree, EngineState.answers]

/-- An engine lets its circuit go and goes FREE, the record put at rest. -/
theorem State.Steady.free (h : t.st.Steady w (k :: X) G) (hk : (t.st.engine g).state.circuit = some k) (i : Spare)
    (place : Place) :
    ((t.letGo g).moveRecord i k ((t.letGo g).st.restingState k) place).st.Steady w X G :=
  (h.poised.openHeld hk).free (h.poised.usable (EngineState.not_unavailable hk)) (h.queue.but k) i place

theorem State.Steady.drop (h : t.st.Steady w (k :: X) G) (hk : (t.st.engine g).state.circuit = some k) :
    (t.drop g k).st.Steady w X G := h.free hk g .back

theorem State.Steady.completeReturn (h : t.st.Steady w (k :: X) G) (hk : (t.st.engine g).state.circuit = some k) :
    (t.completeReturn g k).st.Steady w X G := h.free hk g .back

/-! ## Changes that the agreement does not read -/

@[simp] theorem State.updateKind_engine (s : State) (k : Circuit) (g : Spare) :
    (s.updateKind k).engine g = s.engine g := by
  unfold State.updateKind
  split <;> rfl

@[simp] theorem State.updateKind_queue (s : State) (k : Circuit) : (s.updateKind k).queue = s.queue := by
  unfold State.updateKind
  split <;> rfl

@[simp] theorem State.updateKind_transfer (s : State) (k : Circuit) (g : Spare) :
    (s.updateKind k).transfer g = s.transfer g := by
  unfold State.updateKind
  split <;> rfl

@[simp] theorem State.updateKind_record_other (s : State) {k j : Circuit} (h : k ≠ j) :
    (s.updateKind k).record j = s.record j := by
  unfold State.updateKind
  split
  · rfl
  · simp [h]

/-- The return kind that record k has after it has been recomputed (R12). -/
def State.kindNow (s : State) (k : Circuit) : ReturnKind :=
  if s.effClass k = 0 then (s.record k).returnKind else returnKindOf (s.record k).condClass (s.farClass k)

@[simp] theorem State.updateKind_record (s : State) (k : Circuit) :
    (s.updateKind k).record k = { s.record k with returnKind := s.kindNow k } := by
  unfold State.updateKind State.kindNow
  split <;> simp

theorem State.updateKind_record_eq (s : State) (k j : Circuit) :
    (s.updateKind k).record j = if k = j then { s.record k with returnKind := s.kindNow k } else s.record j := by
  by_cases h : k = j
  · subst h; simp
  · simp [h]

@[simp] theorem State.sources_updateKind (s : State) (k : Circuit) : (s.updateKind k).sources = s.sources :=
  State.sources_of_still (State.still_updateKind ..)

theorem State.Poised.updateKind {s : State} (h : s.Poised w X S K G) (k : Circuit) :
    (s.updateKind k).Poised w X S K G :=
  h.of_same (by simp)
    (fun j => by
      rw [State.updateKind_record_eq]
      split
      · next e => subst e; rfl
      · rfl)
    (fun i => by simp)

theorem State.Poised.transfers {s : State} (h : s.Poised w X S K G) (g : Spare) (src : TransferSource) :
    ((s.cancelTransfer g).startTransfer g src).Poised w X S K G :=
  h.of_same (State.sources_of_still (by simp))
    (fun j => by simp [State.startTransfer]) (fun i => by simp [State.startTransfer])

@[simp] theorem Turn.endTestOrLoop_record (t : Turn) (g : Spare) (r : TestResult) (k : Circuit) :
    (t.endTestOrLoop g r).st.record k = t.st.record k := by
  unfold Turn.endTestOrLoop
  split <;> rfl

@[simp] theorem Turn.endTestOrLoop_queue (t : Turn) (g : Spare) (r : TestResult) :
    (t.endTestOrLoop g r).st.queue = t.st.queue := by
  unfold Turn.endTestOrLoop
  split <;> rfl

@[simp] theorem Turn.endTestOrLoop_transfer (t : Turn) (g i : Spare) (r : TestResult) :
    (t.endTestOrLoop g r).st.transfer i = t.st.transfer i := by
  unfold Turn.endTestOrLoop
  split <;> rfl

@[simp] theorem Turn.endTestOrLoop_engine_other (t : Turn) {g i : Spare} (r : TestResult) (h : g ≠ i) :
    (t.endTestOrLoop g r).st.engine i = t.st.engine i := by
  unfold Turn.endTestOrLoop
  split
  · simp [Turn.endTest, h]
  · rfl
  · rfl

/-- The last result of an engine whose test or loop, if it has one, ends (R101). -/
def Engine.ended (e : Engine) (r : TestResult) : TestResult :=
  match e.state with
  | .testing _ => r
  | _ => e.lastResult

theorem Engine.ended_untested (e : Engine) (r : TestResult) (h : ∀ ph, e.state ≠ .testing ph) :
    e.ended r = e.lastResult := by
  unfold Engine.ended
  split
  · next ph he => exact absurd he (h ph)
  · rfl

@[simp] theorem Turn.endTestOrLoop_engine (t : Turn) (g : Spare) (r : TestResult) :
    (t.endTestOrLoop g r).st.engine g = { t.st.engine g with lastResult := (t.st.engine g).ended r } := by
  unfold Turn.endTestOrLoop
  split
  · next ph h => simp [Turn.endTest, Engine.ended, h]
  · next h => rw [Engine.ended_untested _ _ (by simp [h])]; rfl
  · next hph _ => rw [Engine.ended_untested _ _ hph]

theorem State.Poised.endTestOrLoop (h : t.st.Poised w X S K G) (g : Spare) (r : TestResult) :
    (t.endTestOrLoop g r).st.Poised w X S K G :=
  h.of_same (State.sources_of_still (by simp)) (fun j => by simp)
    (fun i => by
      by_cases hi : g = i
      · subst hi; simp [Engine.stance]
      · simp [hi])

end Moves

end Sys2Proof.Machine
end

