-- ==== Sys2Proof/Proofs/Taking.lean ====
section
/-! Proofs: taking a circuit, adoption, the word contest and the start of a return. -/

namespace Sys2Proof.Machine

/-! ## Entering PREPARING, field by field -/

@[simp] theorem Turn.enterPreparing_engine (t : Turn) (g : Spare) (k : Circuit) :
    (t.enterPreparing g k).st.engine g = { t.st.engine g with
      state := .preparing k, answerTimer := none, testTimer := none,
      lastResult := (t.st.engine g).ended .overtaken } := by
  simp [Turn.enterPreparing, State.startTransfer]

@[simp] theorem Turn.enterPreparing_engine_other (t : Turn) {g i : Spare} (k : Circuit) (h : g ≠ i) :
    (t.enterPreparing g k).st.engine i = t.st.engine i := by
  simp [Turn.enterPreparing, State.startTransfer, h]

@[simp] theorem Turn.enterPreparing_record_other (t : Turn) (g : Spare) {k j : Circuit} (h : k ≠ j) :
    (t.enterPreparing g k).st.record j = t.st.record j := by
  simp [Turn.enterPreparing, State.startTransfer, h]

@[simp] theorem Turn.enterPreparing_queue (t : Turn) (g : Spare) (k : Circuit) :
    (t.enterPreparing g k).st.queue = t.st.queue.filter (· ≠ k) := by
  simp [Turn.enterPreparing, State.startTransfer, State.requeue]

@[simp] theorem Turn.enterPreparing_transfer (t : Turn) (g : Spare) (k : Circuit) :
    (t.enterPreparing g k).st.transfer g = some { source := .circuit k, cursor := 0, resend := [], inFlight := none } := by
  simp [Turn.enterPreparing]

theorem State.kindNow_of_sources {s s' : State} {k : Circuit} (hsrc : s'.sources = s.sources)
    (hk : (s'.record k).returnKind = (s.record k).returnKind) : s'.kindNow k = s.kindNow k := by
  have hc : (s'.record k).condClass = (s.record k).condClass := by
    have e := congrArg Record.condClass (State.classes_of_sources hsrc k)
    exact e
  unfold State.kindNow
  rw [State.effClass_of_sources hsrc, State.farClass_of_sources hsrc, hc, hk]

@[simp] theorem Turn.enterPreparing_record (t : Turn) (g : Spare) (k : Circuit) :
    (t.enterPreparing g k).st.record k = { t.st.record k with
      state := .assigned g, returnTimer := none, returnKind := t.st.kindNow k } := by
  have hkind : ((((t.endTestOrLoop g .overtaken).change fun s =>
      (s.cancelTransfer g).startTransfer g (.circuit k)).moveRecord g k (.assigned g) .back).st).kindNow k
      = t.st.kindNow k :=
    State.kindNow_of_sources (State.sources_of_still (by simp)) (by simp [State.startTransfer])
  simp only [Turn.enterPreparing, Turn.enterEngine_record, Turn.change_st, State.updateKind_record] at hkind ⊢
  rw [hkind]
  simp [State.startTransfer]

@[simp] theorem Turn.enterPreparing_state (t : Turn) (g : Spare) (k : Circuit) :
    ((t.enterPreparing g k).st.record k).state = .assigned g := (t.enterPreparing_holds g k).2

@[simp] theorem Turn.enterPreparing_returnTimer (t : Turn) (g : Spare) (k : Circuit) :
    ((t.enterPreparing g k).st.record k).returnTimer = none := by
  rw [Turn.enterPreparing_record]

@[simp] theorem Turn.endTestOrLoop_offered (t : Turn) (g : Spare) (r : TestResult) :
    (t.endTestOrLoop g r).offered = t.offered := by
  unfold Turn.endTestOrLoop
  split <;> rfl

@[simp] theorem Turn.enterPreparing_offered (t : Turn) (g : Spare) (k : Circuit) :
    (t.enterPreparing g k).offered = t.offered := by
  simp [Turn.enterPreparing]

theorem Turn.sources_enterPreparing (t : Turn) (g : Spare) (k : Circuit) :
    (t.enterPreparing g k).st.sources = t.st.sources := State.sources_of_still (Turn.still_enterPreparing ..)

section Taking

variable {w : Keep} {X : List Circuit} {G : List Spare} {t : Turn} {g : Spare} {k : Circuit}

/-! ## Taking a circuit -/

/-- An engine and a record that have been taken out are put in again with the engine PREPARING for the circuit. -/
theorem State.Poised.enterPreparing (h : t.st.Poised w X [g] [k] G) (hr : (t.st.engine g).reasons.isEmpty = true)
    (hk : (t.st.record k).barred = false ∧ (t.st.record k).declined = false)
    (hz : w.full → t.st.effClass k ≠ 0)
    (hd : w.full → g ∉ G → ∀ j c, t.st.farClaim g = some (j, c) →
      k = j ∨ beforeClaim (k, t.st.effClass k) (j, c) = true) :
    (t.enterPreparing g k).st.Poised w X [] [] G := by
  have hsrc := t.sources_enterPreparing g k
  have hp : (t.enterPreparing g k).st.Poised w X [g] [k] G := by
    refine State.Poised.enterEngine (t := Turn.change _ _) (State.Poised.updateKind (State.Poised.moveRecord ?_ _ _ _) k) _ _ _
    exact (h.endTestOrLoop g _).transfers g _
  refine hp.close (by simp [hr]) (by simp [EngineState.circuit]) ?_ ?_ ?_ (fun _ => by simp) ?_ ?_
  · simp [PairAgrees, EngineState.holdsAs]
  · rw [State.barred_of_sources hsrc, State.declined_of_sources hsrc]
    exact hk
  · intro hw _
    rw [State.effClass_of_sources hsrc]
    exact .inr (hz hw)
  · intro _
    simp [Engine.TimersAgree, EngineState.answers]
  · intro hw hG j c hj
    rw [State.farClaim_of_sources hsrc] at hj
    refine ⟨fun i hi => by simp at hi, fun own ho => ?_⟩
    simp only [State.contestClaim, Turn.enterPreparing_engine, State.effClass_of_sources hsrc,
      Option.some.injEq] at ho
    subst ho
    exact .inr (hd hw hG j c hj)

/-- The queue without the circuit that has been taken. -/
theorem State.QueueAgrees.enterPreparing (h : t.st.QueueBut k) : (t.enterPreparing g k).st.QueueAgrees := by
  have hmid : ∀ u : Turn, u.st.sources = t.st.sources → u.st.queue = t.st.queue →
      (∀ j, (u.st.record j).state = (t.st.record j).state) → u.st.QueueBut k := by
    intro u hsrc hq hr
    obtain ⟨h1, h2, h3⟩ := h
    refine ⟨hq ▸ h1, fun j => by rw [hq, hr]; exact h2 j, ?_⟩
    simp only [hq, State.effClass_of_sources hsrc]
    exact h3
  refine State.QueueAgrees.enterEngine (t := Turn.change _ _) ?_ _ _ _ _
  refine (Turn.moveRecord_queueAgrees _ g k (.assigned g) .back (hmid ((t.endTestOrLoop g .overtaken).change fun s =>
    (s.cancelTransfer g).startTransfer g (.circuit k)) ?_ ?_ ?_)).of_same (by simp) (by simp) ?_
  · exact State.sources_of_still (by simp)
  · simp [State.startTransfer]
  · intro j
    simp [State.startTransfer]
  · intro j
    rw [Turn.change_st, State.updateKind_record_eq]
    split
    · next e => subst e; rfl
    · rfl

/-- A usable engine that holds nothing takes a circuit that no engine holds. -/
theorem State.Steady.grant (h : t.st.Steady w (k :: X) G) (hg : ∀ j, (t.st.engine g).state.circuit ≠ some j)
    (hu : (t.st.engine g).state ≠ .unavailable) (hk : (t.st.record k).state.unheld = true)
    (hf : (t.st.record k).barred = false ∧ (t.st.record k).declined = false) (hz : w.full → t.st.effClass k ≠ 0)
    (hd : w.full → g ∉ G → ∀ j c, t.st.farClaim g = some (j, c) →
      k = j ∨ beforeClaim (k, t.st.effClass k) (j, c) = true) :
    (t.enterPreparing g k).st.Steady w X G := by
  refine ⟨State.Poised.enterPreparing ?_ (h.poised.usable hu) hf hz hd, State.QueueAgrees.enterPreparing (h.queue.but k)⟩
  exact (h.poised.open g k (fun j hj => absurd hj (hg j)) fun i _ => (RequestState.unheld_iff _).mp hk i).fresh

/-! ## Adoption -/

/-- A turn in which a spare has been offered a circuit. -/
def Turn.noteOffer (t : Turn) (g : Spare) : Turn := { t with offered := t.offered ++ [g] }

@[simp] theorem Turn.noteOffer_st (t : Turn) (g : Spare) : (t.noteOffer g).st = t.st := rfl

/-- Everything an offer can do (R39): nothing, a grant, or the move of a circuit from the higher-numbered spare. -/
theorem Turn.offer_cases (t : Turn) (g : Spare) (k : Circuit) :
    (t.offer g k = t.noteOffer g
      ∧ ((t.st.record k).barred = true ∨ (t.st.record k).declined = true ∨ t.st.effClass k = 0
        ∨ ∃ o, ¬ g < o ∧ ((t.st.record k).state = .assigned o ∨ (t.st.record k).state = .releasing o)))
    ∨ ((t.st.record k).barred = false ∧ (t.st.record k).declined = false ∧ t.st.effClass k ≠ 0
        ∧ (((t.st.record k).state.unheld = true ∧ t.offer g k = (t.noteOffer g).enterPreparing g k)
          ∨ ∃ o, g < o ∧ ((t.st.record k).state = .assigned o ∨ (t.st.record k).state = .releasing o)
              ∧ t.offer g k = ((t.noteOffer g).letGo o).enterPreparing g k)) := by
  unfold Turn.offer
  dsimp only
  split
  · next hf =>
    refine .inl ⟨rfl, ?_⟩
    simp only [Bool.or_eq_true] at hf
    exact hf.imp_right .inl
  · next hf =>
    have hflags : (t.st.record k).barred = false ∧ (t.st.record k).declined = false := by simpa using hf
    split
    · next h0 => exact .inl ⟨rfl, .inr (.inr (.inl h0))⟩
    · next h0 =>
      have moved : ∀ o, ((t.st.record k).state = .assigned o ∨ (t.st.record k).state = .releasing o) → g < o →
          (t.st.record k).barred = false ∧ (t.st.record k).declined = false ∧ t.st.effClass k ≠ 0
          ∧ (((t.st.record k).state.unheld = true
              ∧ ((t.noteOffer g).moveAway o).enterPreparing g k = (t.noteOffer g).enterPreparing g k)
            ∨ ∃ o', g < o' ∧ ((t.st.record k).state = .assigned o' ∨ (t.st.record k).state = .releasing o')
                ∧ ((t.noteOffer g).moveAway o).enterPreparing g k
                  = ((t.noteOffer g).letGo o').enterPreparing g k) :=
        fun o ho hlt => ⟨hflags.1, hflags.2, h0, .inr ⟨o, hlt, ho, rfl⟩⟩
      split
      · next o ho =>
        split
        · next hlt => exact .inr (moved o (.inl ho) hlt)
        · next hlt => exact .inl ⟨rfl, .inr (.inr (.inr ⟨o, hlt, .inl ho⟩))⟩
      · next o ho =>
        split
        · next hlt => exact .inr (moved o (.inr ho) hlt)
        · next hlt => exact .inl ⟨rfl, .inr (.inr (.inr ⟨o, hlt, .inr ho⟩))⟩
      · next h1 h2 =>
        refine .inr ⟨hflags.1, hflags.2, h0, .inl ⟨(RequestState.unheld_iff _).mpr fun i => ⟨h1 i, h2 i⟩, rfl⟩⟩

/-- An offer of the circuit that the far end claims on the spare, made to a FREE engine. -/
theorem State.Steady.offer (h : t.st.Steady w X G) (hg : (t.st.engine g).state = .free)
    (hd : w.full → g ∉ G → ∀ j c, t.st.farClaim g = some (j, c) → k = j) : (t.offer g k).st.Steady w X G := by
  rcases t.offer_cases g k with ⟨he, _⟩ | ⟨hb, hdec, hz, ⟨hu, he⟩ | ⟨o, hlt, ho, he⟩⟩
  · rw [he]; exact h
  · rw [he]
    refine State.Steady.grant (t := t.noteOffer g) (h.mono (List.subset_cons_self k X) (List.Subset.refl _))
      ?_ ?_ hu ⟨hb, hdec⟩ (fun _ => hz) fun hw hG j c hj => .inl (hd hw hG j c hj)
    · intro j
      simp [hg, EngineState.circuit]
    · simp [hg]
  · rw [he]
    have hne : o ≠ g := fun e => absurd (e ▸ hlt) (lt_irrefl _)
    have hsrc : ((t.noteOffer g).letGo o).st.sources = t.st.sources :=
      State.sources_of_still (Turn.still_letGo (t.noteOffer g) o)
    have hheld := h.poised.holder ho
    -- the higher spare lets go, and is put in again without the circuit; then the lower one is taken out
    have hopen : ((t.noteOffer g).letGo o).st.Poised w X [g] [k] G := by
      refine ((State.Poised.letGo (t := t.noteOffer g) (h.poised.openHeld hheld)).closeEngine ?_ ?_ ?_).openEngine g ?_
      · simp [h.poised.usable (EngineState.not_unavailable hheld)]
      · simp [EngineState.circuit]
      · intro _
        simp [Engine.TimersAgree, EngineState.answers]
      · intro j
        simp [hne, hg, EngineState.circuit]
    refine ⟨hopen.enterPreparing ?_ ?_ ?_ ?_,
      State.QueueAgrees.enterPreparing ((State.QueueAgrees.letGo (t := t.noteOffer g) h.queue o).but k)⟩
    · simpa [hne] using h.poised.usable (g := g) (by simp [hg])
    · simpa using ⟨hb, hdec⟩
    · intro _
      rwa [State.effClass_of_sources hsrc]
    · intro hw hG j c hj
      rw [State.farClaim_of_sources hsrc] at hj
      exact .inl (hd hw hG j c hj)

/-- After an offer the engine is as it was, or PREPARING for the circuit offered. -/
theorem Turn.offer_engine (t : Turn) (g : Spare) (k : Circuit) :
    ((t.offer g k).st.engine g).state = (t.st.engine g).state ∨ ((t.offer g k).st.engine g).state = .preparing k := by
  rcases t.offer_cases g k with ⟨he, _⟩ | ⟨_, _, _, ⟨_, he⟩ | ⟨o, _, _, he⟩⟩
  · rw [he]; exact .inl rfl
  · rw [he]; exact .inr (by simp)
  · rw [he]; exact .inr (by simp)

/-! ## The word contest -/

/-- Everything a contest can do: nothing, where it is won or there is none; or the circuit is let go and put back, and the
winner offered (R83 to R85). -/
theorem Turn.contest_cases (t : Turn) (g : Spare) :
    (t.contest g = t ∧ ∀ own far, t.st.contestClaim g = some own → t.st.farClaim g = some far →
      own.1 = far.1 ∨ beforeClaim own far = true)
    ∨ ∃ own far, t.st.contestClaim g = some own ∧ t.st.farClaim g = some far ∧ own.1 ≠ far.1
        ∧ beforeClaim own far = false
        ∧ t.contest g = (((t.letGo g).putBack g own.1).offer g far.1).gatherLate (contestLostEvent g own.1 far.1) := by
  unfold Turn.contest
  split
  · next own far ho hf =>
    split
    · next he =>
      refine .inl ⟨rfl, fun own' far' ho' hf' => ?_⟩
      rw [ho] at ho'; rw [hf] at hf'
      cases ho'; cases hf'
      exact .inl he
    · next hne =>
      split
      · next hb =>
        refine .inl ⟨rfl, fun own' far' ho' hf' => ?_⟩
        rw [ho] at ho'; rw [hf] at hf'
        cases ho'; cases hf'
        exact .inr hb
      · next hb => exact .inr ⟨own, far, ho, hf, hne, by simpa using hb, rfl⟩
  · next hnone =>
    exact .inl ⟨rfl, fun own far ho hf => (hnone own far ho hf).elim⟩

/-- A contest is decided: the claim of this end that is left, if one is, stands against the far claim. -/
theorem State.Steady.contest (h : t.st.Steady w X [g])
    (hc : w.full → ∀ k j c, (t.st.engine g).state = .carrying k → t.st.farClaim g = some (j, c) → k = j) :
    (t.contest g).st.Steady w X [] := by
  rcases t.contest_cases g with ⟨he, hwon⟩ | ⟨own, far, ho, hf, hne, _, he⟩
  · rw [he]
    refine h.decide fun hw j c hj => ⟨fun k hk => hc hw k j c hk hj, fun own ho => .inr (hwon own _ ho hj)⟩
  · rw [he]
    have hfree : ((t.letGo g).putBack g own.1).st.Steady w X [g] :=
      (h.mono (List.subset_cons_self own.1 X) (List.Subset.refl _)).free (State.contestClaim_circuit ho) g .front
    have hstate : (((t.letGo g).putBack g own.1).st.engine g).state = .free := by simp [Turn.putBack]
    have hfar : ((t.letGo g).putBack g own.1).st.farClaim g = some far := by
      have hsrc : ((t.letGo g).putBack g own.1).st.sources = t.st.sources := State.sources_of_still (by simp)
      rw [State.farClaim_of_sources hsrc, hf]
    refine (hfree.offer hstate fun _ hG => absurd (List.mem_singleton.mpr rfl) hG).decide fun _ j c hj => ?_
    have hfar' : (((t.letGo g).putBack g own.1).offer g far.1).st.farClaim g = some far := by
      rw [State.farClaim_of_sources (State.sources_of_still (Turn.still_offer ..)), hfar]
    have hjfar : (j, c) = far := Option.some.inj (hj.symm.trans hfar')
    rcases Turn.offer_engine ((t.letGo g).putBack g own.1) g far.1 with e | e
    · rw [hstate] at e
      exact State.Decided.of_empty (by rw [e]; rfl) j c hj
    · refine ⟨fun k hk => (by rw [e] at hk; cases hk), fun own' ho' => .inr (.inl ?_)⟩
      have := State.contestClaim_circuit ho'
      rw [e] at this
      rw [← Option.some.inj this, ← hjfar]

/-! ## Returns -/

/-- An engine that holds a circuit goes RETURNING, its record RELEASING. -/
theorem State.Steady.returning (h : t.st.Steady w (k :: X) [g]) (hk : (t.st.engine g).state.circuit = some k) :
    ((t.moveRecord g k (.releasing g) .back).enterEngine g (.returning k)
      (t.moveRecord g k (.releasing g) .back).st.answerStart none).st.Steady w X [g] := by
  have hflags := (h.poised.held hk).2
  refine ⟨(((h.poised.openHeld hk).fresh.moveRecord g _ _).enterEngine _ _ _).close ?_ ?_ ?_ ?_ ?_ ?_ ?_ ?_,
    (Turn.moveRecord_queueAgrees _ _ _ _ _ (h.queue.but k)).enterEngine _ _ _ _⟩
  · simpa using h.poised.usable (EngineState.not_unavailable hk)
  · simp [EngineState.circuit]
  · simp [PairAgrees, EngineState.holdsAs]
  · simpa using hflags
  · intro _ hp
    simp at hp
  · intro _ ht
    simp at ht
  · intro _
    simp [Engine.TimersAgree, EngineState.answers, State.answerStart]
  · intro _ hG
    exact absurd (List.mem_singleton.mpr rfl) hG

/-- Everything the entry into RETURNING can do. -/
theorem Turn.enterReturning_eq (t : Turn) (g : Spare) (k : Circuit) :
    t.enterReturning g k =
      let u := (t.moveRecord g k (.releasing g) .back).enterEngine g (.returning k)
        (t.moveRecord g k (.releasing g) .back).st.answerStart none
      if letGoWord k (t.st.farSays g) then u.completeReturn g k else u.contest g := by
  have e : ((t.moveRecord g k (.releasing g) .back).enterEngine g (.returning k)
      (t.moveRecord g k (.releasing g) .back).st.answerStart none).st.farSays g = t.st.farSays g :=
    State.farSays_of_sources (State.sources_of_still (by simp)) g
  unfold Turn.enterReturning
  dsimp only
  rw [e]

theorem State.Steady.enterReturning (h : t.st.Steady w (k :: X) [g]) (hk : (t.st.engine g).state.circuit = some k) :
    (t.enterReturning g k).st.Steady w X [] := by
  have hr := h.returning hk
  rw [Turn.enterReturning_eq]
  dsimp only
  split
  · refine ((hr.mono (List.subset_cons_self k X) (List.Subset.refl _)).completeReturn ?_).decide fun _ => ?_
    · simp [EngineState.circuit]
    · exact .of_empty (by simp [Turn.completeReturn, Turn.release, EngineState.circuit])
  · exact hr.contest fun _ i j c hi => by simp at hi

end Taking

end Sys2Proof.Machine
end

