-- ==== Sys2Proof/Proofs/Reactions.lean ====
section
/-! Proofs: the reactions of records to a change of their classes or flags keep the agreement. -/

namespace Sys2Proof.Machine

/-- A CARRYING engine carries the circuit that the far end claims, where it claims one. -/
def State.CarriesClaimed (s : State) (g : Spare) : Prop :=
  ∀ i j c, (s.engine g).state = .carrying i → s.farClaim g = some (j, c) → i = j

section Reactions

variable {w : Keep} {X K : List Circuit} {S G : List Spare} {s : State} {t : Turn} {g : Spare} {k : Circuit}

theorem State.Steady.carriesClaimed (h : s.Steady w X []) (hw : w.full) (g : Spare) : s.CarriesClaimed g :=
  fun i j c hi hj => (h.poised.contests hw g (by simp) (by simp) j c hj).1 i hi

theorem State.CarriesClaimed.of_ne {s : State} (h : ∀ i, (s.engine g).state ≠ .carrying i) : s.CarriesClaimed g :=
  fun i _ _ hi => absurd hi (h i)

/-! ## Engines that keep their circuit, and engines without one -/

/-- The engine of an assigned record holds its circuit in PREPARING, BRIDGED or CARRYING. -/
theorem State.Poised.assigned (h : s.Poised w X [] [] G) (hk : (s.record k).state = .assigned g) :
    (s.engine g).state = .preparing k ∨ (s.engine g).state = .bridged k ∨ (s.engine g).state = .carrying k := by
  have hh := (h.pairs k g (by simp) (by simp)).1.mp hk
  cases he : (s.engine g).state <;> simp_all [EngineState.holdsAs]

/-- The engine of a releasing record is RETURNING for its circuit. -/
theorem State.Poised.releasing (h : s.Poised w X [] [] G) (hk : (s.record k).state = .releasing g) :
    (s.engine g).state = .returning k := by
  have hh := (h.pairs k g (by simp) (by simp)).2.mp hk
  cases he : (s.engine g).state <;> simp_all [EngineState.holdsAs]

/-- The record of a circuit in PREPARING, BRIDGED or CARRYING is assigned to the spare. -/
theorem State.Poised.assigned_of (h : s.Poised w X [] [] G)
    (hk : (s.engine g).state = .preparing k ∨ (s.engine g).state = .bridged k ∨ (s.engine g).state = .carrying k) :
    (s.record k).state = .assigned g := by
  refine (h.pairs k g (by simp) (by simp)).1.mpr ?_
  rcases hk with e | e | e <;> simp [e, EngineState.holdsAs]

/-- A record on a spare is held by that spare's engine, in a state that is not UNAVAILABLE. -/
theorem State.Poised.circuit_of_assigned (h : s.Poised w X [] [] G) (hk : (s.record k).state = .assigned g) :
    (s.engine g).state.circuit = some k := h.holder (.inl hk)

/-- A held circuit is stale no longer once its engine and timer are right for its class. -/
theorem State.Steady.settled (h : s.Steady w (k :: X) [g]) (hk : (s.engine g).state.circuit = some k)
    (hz : w.full → (s.engine g).state = .preparing k → s.effClass k ≠ 0)
    (ht : w.full → (s.record k).returnTimer ≠ none → s.effClass k = 0) : s.Steady w X [g] := by
  refine ⟨(h.poised.openHeld hk).fresh.close (h.poised.usable (EngineState.not_unavailable hk)) hk
    (h.poised.pairs k g (by simp) (by simp)) (h.poised.held hk).2 (fun hw hp => .inr (hz hw hp)) ?_
    (fun hw => h.poised.engineTimers hw g (by simp)) (fun _ hG => absurd (List.mem_singleton.mpr rfl) hG), h.queue⟩
  intro hw hrt
  obtain ⟨_, i, _, ha, he⟩ := h.poised.returnTimers hw k (by simp) hrt
  have hig : i = g := by
    rcases (h.poised.held hk).1 with e | e <;> simp_all
  exact ⟨.inr (ht hw hrt), hig ▸ he⟩

/-- The engine of an assigned record moves on to BRIDGED or CARRYING for the same circuit. -/
theorem State.Steady.rehold (h : t.st.Steady w X [g]) (hk : (t.st.record k).state = .assigned g) (e : EngineState)
    (he : e = .bridged k ∨ e = .carrying k) (a : Option Nat) (ha : a.isSome = e.answers) :
    (t.enterEngine g e a none).st.Steady w X [g] := by
  have hc := h.poised.circuit_of_assigned hk
  refine ⟨((h.poised.openHeld hc).enterEngine e a none).close ?_ ?_ ?_ ?_ ?_ ?_ ?_ ?_, h.queue.enterEngine _ _ _ _⟩
  · simpa using h.poised.usable (EngineState.not_unavailable hc)
  · rcases he with rfl | rfl <;> simp [EngineState.circuit]
  · rcases he with rfl | rfl <;> simp [PairAgrees, EngineState.holdsAs, hk]
  · exact (h.poised.held hc).2
  · intro _ hp
    rcases he with rfl | rfl <;> simp at hp
  · intro hw hrt
    refine ⟨(h.poised.returnTimers hw k (by simp) hrt).1, ?_⟩
    rcases he with rfl | rfl <;> simp
  · intro _
    rcases he with rfl | rfl <;> simpa [Engine.TimersAgree] using ha
  · exact fun _ hG => absurd (List.mem_singleton.mpr rfl) hG

/-- A usable engine that holds no circuit goes on without one. -/
theorem State.Steady.reidle (h : t.st.Steady w X G) (hc : (t.st.engine g).state.circuit = none)
    (hu : (t.st.engine g).state ≠ .unavailable) (e : EngineState) (hec : e.circuit = none) (heu : e ≠ .unavailable)
    (a b : Option Nat) (ht : a.isSome = e.answers ∧ b.isSome = (e == .testing .run)) :
    (t.enterEngine g e a b).st.Steady w X G := by
  refine ⟨((h.poised.openEngine g (by simp [hc])).enterEngine e a b).closeEngine ?_ ?_ ?_, h.queue.enterEngine _ _ _ _⟩
  · simp [h.poised.usable hu, heu]
  · simpa using hec
  · intro _
    simpa [Engine.TimersAgree] using ht

/-- A RETURNING engine re-bridges its circuit. -/
theorem State.Steady.rebridge (h : t.st.Steady w (k :: X) [g]) (hk : (t.st.engine g).state.circuit = some k) :
    (t.rebridge g k).st.Steady w X [g] := by
  refine ⟨(((h.poised.openHeld hk).fresh.moveRecord g _ _).enterEngine _ _ _).close ?_ ?_ ?_ ?_ ?_ ?_ ?_ ?_,
    (Turn.moveRecord_queueAgrees _ _ _ _ _ (h.queue.but k)).enterEngine _ _ _ _⟩
  · simpa using h.poised.usable (EngineState.not_unavailable hk)
  · simp [EngineState.circuit]
  · simp [PairAgrees, EngineState.holdsAs]
  · simpa using (h.poised.held hk).2
  · intro _ hp
    simp at hp
  · intro _ ht
    simp at ht
  · intro _
    simp [Engine.TimersAgree, EngineState.answers, State.answerStart]
  · exact fun _ hG => absurd (List.mem_singleton.mpr rfl) hG

/-! ## The fall of a class to 0 -/

/-- The state of a record whose return timer is set. -/
def State.setTimer (s : State) (k : Circuit) (x : Option Nat) : State :=
  s.setRecord k { s.record k with returnTimer := x }

theorem State.sources_setTimer (s : State) (k : Circuit) (x : Option Nat) : (s.setTimer k x).sources = s.sources :=
  State.sources_of_still (State.still_setRecord _ _ _ rfl)

theorem State.setTimer_state (s : State) (k j : Circuit) (x : Option Nat) :
    ((s.setTimer k x).record j).state = (s.record j).state := by
  unfold State.setTimer
  rw [State.setRecord_record]
  split
  · next e => subst e; rfl
  · rfl

/-- The return timer of a held circuit is set or dropped, as its class and engine allow. -/
theorem State.Steady.setTimer (h : s.Steady w (k :: X) [g]) (hk : (s.engine g).state.circuit = some k) (x : Option Nat)
    (hz : w.full → (s.engine g).state = .preparing k → s.effClass k ≠ 0)
    (hx : w.full → x ≠ none → s.effClass k = 0 ∧ ((s.engine g).state = .carrying k ∨ (s.engine g).state = .bridged k)) :
    (s.setTimer k x).Steady w X [g] := by
  have hsrc := s.sources_setTimer k x
  have hmoved : (s.setTimer k x).Poised w X [g] [k] [g] :=
    (h.poised.openHeld hk).fresh.of_moved hsrc
      (fun j hj => by
        unfold State.setTimer
        rw [State.setRecord_record_other _ _ (fun e => hj (by simp [e]))])
      (fun _ _ => rfl) (fun i _ => h.poised.watched i)
  refine ⟨hmoved.close (h.poised.usable (EngineState.not_unavailable hk)) hk ?_ ?_ ?_ ?_
    (fun hw => h.poised.engineTimers hw g (by simp)) (fun _ hG => absurd (List.mem_singleton.mpr rfl) hG),
    h.queue.of_same hsrc rfl (s.setTimer_state k · x)⟩
  · rw [State.setTimer_state]
    exact h.poised.pairs k g (by simp) (by simp)
  · rw [State.barred_of_sources hsrc, State.declined_of_sources hsrc]
    exact (h.poised.held hk).2
  · intro hw hp
    rw [State.effClass_of_sources hsrc]
    exact .inr (hz hw hp)
  · intro hw hrt
    rw [State.effClass_of_sources hsrc]
    obtain ⟨he, hs⟩ := hx hw (by simpa [State.setTimer] using hrt)
    exact ⟨.inr he, hs⟩

theorem State.Steady.startReturn (h : t.st.Steady w (k :: X) [g]) (hk : (t.st.engine g).state = .carrying k)
    (hz : t.st.effClass k = 0) (hc : w.full → t.st.CarriesClaimed g) :
    (t.startReturn g k).st.Steady w X [g] ∧ (w.full → (t.startReturn g k).st.CarriesClaimed g) := by
  have hcirc : (t.st.engine g).state.circuit = some k := by simp [hk, EngineState.circuit]
  unfold Turn.startReturn
  split
  · have hr := h.enterReturning hcirc
    exact ⟨hr.mono (List.Subset.refl _) (List.nil_subset _), fun hw => hr.carriesClaimed hw g⟩
  · exact ⟨h.setTimer hcirc (some (t.st.regs.returnDelay.toNat * Config.per5s)) (fun _ hp => by simp [hk] at hp)
      fun _ _ => ⟨hz, .inl hk⟩, hc⟩

/-- What the fall of eff_class to 0 does to a held circuit keeps the agreement, the contest still open. -/
theorem State.Steady.classGone (h : t.st.Steady w (k :: X) [g]) (hk : (t.st.record k).state = .assigned g)
    (hz : t.st.effClass k = 0) (hc : w.full → t.st.CarriesClaimed g) :
    (t.classGone g k).st.Steady w X [g] ∧ (w.full → (t.classGone g k).st.CarriesClaimed g) := by
  have hcirc := h.poised.circuit_of_assigned hk
  unfold Turn.classGone
  rcases h.poised.assigned hk with e | e | e <;> rw [e] <;> dsimp only
  · exact ⟨h.drop hcirc, fun _ => .of_ne (by simp [Turn.drop, Turn.release])⟩
  · have hr := h.enterReturning hcirc
    exact ⟨hr.mono (List.Subset.refl _) (List.nil_subset _), fun hw => hr.carriesClaimed hw g⟩
  · split
    · have hr := h.enterReturning hcirc
      exact ⟨hr.mono (List.Subset.refl _) (List.nil_subset _), fun hw => hr.carriesClaimed hw g⟩
    · split
      · exact ⟨h.settled hcirc (fun _ hp => by simp [e] at hp) fun _ _ => hz, hc⟩
      · exact h.startReturn e hz hc

/-- A held record reacts to a change of its classes. -/
theorem State.Steady.reactHeld (h : t.st.Steady w (k :: X) []) (hk : (t.st.record k).state = .assigned g) (before : Nat)
    (hb : w.full → before = 0 → t.st.effClass k = 0 → (t.st.engine g).state ≠ .preparing k) :
    (t.reactHeld g k before).st.Steady w X [] := by
  have hopen : t.st.Steady w (k :: X) [g] := h.mono (List.Subset.refl _) (List.nil_subset _)
  have hcirc := h.poised.circuit_of_assigned hk
  have hc : w.full → t.st.CarriesClaimed g := fun hw => h.carriesClaimed hw g
  unfold Turn.reactHeld
  split
  · next hz =>
    split
    · next h0 =>
      refine (hopen.settled hcirc (fun hw hp => absurd hp (hb hw h0 hz)) fun _ _ => hz).contest fun hw => hc hw
    · obtain ⟨hs, hc'⟩ := hopen.classGone hk hz hc
      exact hs.contest fun hw => hc' hw
  · next hz =>
    refine State.Steady.contest (t := t.change fun s => s.setTimer k none) ?_ fun hw => hc hw
    exact hopen.setTimer hcirc none (fun _ _ => hz) fun _ hx => absurd rfl hx

/-! ## Records that no engine holds -/

theorem State.QueueBut.agrees (h : s.QueueBut k) (hk : (s.record k).state ≠ .queued) : s.QueueAgrees := by
  obtain ⟨hnodup, hmem, hsorted⟩ := h
  have hne : ∀ j ∈ s.queue, j ≠ k := fun j hj e => hk ((hmem k).mp (e ▸ hj))
  exact ⟨hnodup, hmem, hsorted.imp_of_mem fun hi hj hor => (hor.resolve_left (hne _ hi)).resolve_left (hne _ hj)⟩

/-- A record that no engine holds, taken out, reacts: it is at rest again, and the queue in its order. -/
theorem State.Steady.reactUnheld (h : t.st.Poised w (k :: X) [] [k] G) (hu : (t.st.record k).state.unheld = true)
    (ht : w.full → (t.st.record k).returnTimer = none) (hq : t.st.QueueBut k) (changed : Bool)
    (hsame : changed = false → t.st.restingState k = .queued → t.st.QueueAgrees) (i : Spare) :
    (t.reactUnheld i k changed).st.Steady w X G := by
  unfold Turn.reactUnheld
  dsimp only
  split
  · next hc =>
    refine ⟨h.fresh.closeRecord hu ?_ ht, ?_⟩
    · unfold State.Rested
      rw [if_pos hu]
      exact .inl hc.1
    · by_cases hr : t.st.restingState k = .queued
      · exact hsame (by simpa using fun e => hc.2 ⟨hr, e⟩) hr
      · exact hq.agrees (by rwa [hc.1])
  · exact ⟨h.fresh.rest i .back, t.moveRecord_queueAgrees _ _ _ _ hq⟩

/-- The same of a record in place. -/
theorem State.Steady.reactUnheld' (h : t.st.Steady w (k :: X) G) (hu : (t.st.record k).state.unheld = true)
    (changed : Bool) (i : Spare) : (t.reactUnheld i k changed).st.Steady w X G := by
  refine State.Steady.reactUnheld (h.poised.openUnheld hu) hu (fun hw => ?_) (h.queue.but k) changed
    (fun _ _ => h.queue) i
  by_contra hne
  obtain ⟨_, g, _, ha, _⟩ := h.poised.returnTimers hw k (by simp) hne
  rw [ha] at hu
  cases hu

/-! ## A change of a record's source -/

/-- The classes and flags of a record that has been taken out change: no other record and no engine in place reads them. -/
theorem State.Poised.setSource (h : s.Poised w X S (k :: K) G) (r : Record) :
    (s.setRecord k r).Poised w X S (k :: K) G := by
  have hrec : ∀ j, j ∉ k :: K → (s.setRecord k r).record j = s.record j := fun j hj =>
    State.setRecord_record_other _ _ fun e => hj (by simp [e])
  have heff : ∀ j, j ∉ k :: K → (s.setRecord k r).effClass j = s.effClass j := fun j hj => by
    unfold State.effClass State.localClass
    rw [hrec j hj, State.setRecord_farClass]
  exact {
    reasons := h.reasons
    watched := h.watched
    pairs := fun j i hj hi => by rw [hrec j hj]; exact h.pairs j i hj hi
    offSpare := fun j i hj hi => by rw [hrec j hj]; exact h.offSpare j i hj hi
    offRecord := h.offRecord
    rested := fun j hj => by
      have := h.rested j hj
      unfold State.Rested State.restingState at *
      rw [hrec j hj, heff j hj]
      exact this
    classZero := fun hw i j hi hp => by
      rw [heff j fun hj => h.offRecord j i hj hi (by rw [State.setRecord_engine] at hp; rw [hp]; rfl)]
      exact h.classZero hw i j hi hp
    returnTimers := fun hw j hj hrt => by
      rw [hrec j hj] at hrt ⊢
      rw [heff j hj]
      exact h.returnTimers hw j hj hrt
    engineTimers := h.engineTimers
    contests := fun hw i hi hi' j c hj => by
      obtain ⟨h1, h2⟩ := h.contests hw i hi hi' j c hj
      refine ⟨h1, fun own ho => h2 own ?_⟩
      have hown : own.1 ∉ k :: K := fun hk => h.offRecord _ i hk hi (by
        have := State.contestClaim_circuit ho
        rwa [State.setRecord_engine] at this)
      rw [← ho]
      unfold State.contestClaim
      rw [State.setRecord_engine]
      have hcirc := State.contestClaim_circuit ho
      rw [State.setRecord_engine] at hcirc
      have hloc : ∀ j, j ∉ k :: K → (s.setRecord k r).localClass j = s.localClass j := fun j hj => by
        unfold State.localClass; rw [hrec j hj]
      cases he : (s.engine i).state <;>
        simp_all [EngineState.circuit] }

theorem State.QueueBut.setSource {r : Record} (h : s.QueueBut k) (hr : r.state = (s.record k).state) :
    (s.setRecord k r).QueueBut k := by
  obtain ⟨hnodup, hmem, hsorted⟩ := h
  refine ⟨hnodup, fun j => ?_, hsorted.imp fun {i j} hor => ?_⟩
  · rw [State.setRecord_queue, hmem, State.setRecord_record]
    split
    · next e => subst e; rw [hr]
    · rfl
  · by_cases hi : i = k
    · exact .inl hi
    · by_cases hj : j = k
      · exact .inr (.inl hj)
      · refine .inr (.inr ?_)
        unfold State.effClass State.localClass
        rw [State.setRecord_record_other _ _ (Ne.symm hi), State.setRecord_record_other _ _ (Ne.symm hj)]
        exact (hor.resolve_left hi).resolve_left hj

end Reactions

end Sys2Proof.Machine
end

