-- ==== Sys2Proof/Proofs/Sources.lean ====
section
/-! Proofs: a change of a record's classes or flags, with the reaction that follows it, keeps the agreement. -/

namespace Sys2Proof.Machine

section Sources

variable {w : Keep} {X K : List Circuit} {S G : List Spare} {s s' : State} {t : Turn} {g : Spare} {k : Circuit}

/-- The queue agrees as before where its entries, the records' states and the eff_classes are as before. -/
theorem State.QueueAgrees.of_classes (h : s.QueueAgrees) (hc : ∀ j, s'.effClass j = s.effClass j)
    (hq : s'.queue = s.queue) (hr : ∀ j, (s'.record j).state = (s.record j).state) : s'.QueueAgrees := by
  obtain ⟨hnodup, hmem, hsorted⟩ := h
  refine ⟨hq ▸ hnodup, fun k => by rw [hq, hr]; exact hmem k, ?_⟩
  simp only [hq, hc]
  exact hsorted

/-- Two records in the same state under the same timer. -/
theorem Record.stance_eq {r r' : Record} (h : r'.stance = r.stance) :
    r'.state = r.state ∧ r'.returnTimer = r.returnTimer := ⟨congrArg Prod.fst h, congrArg Prod.snd h⟩

/-- An unheld record has no return timer running. -/
theorem State.Poised.timer_none (h : s.Poised w X [] [] G) (hw : w.full)
    (hu : ∀ g, (s.record k).state ≠ .assigned g) : (s.record k).returnTimer = none := by
  by_contra hne
  obtain ⟨_, g, _, ha, _⟩ := h.returnTimers hw k (by simp) hne
  exact hu g ha

/-- Record k with its sources replaced, its return kind then recomputed (R12). -/
def State.resource (s : State) (k : Circuit) (r : Record) : State := (s.setRecord k r).updateKind k

@[simp] theorem State.resource_engine (s : State) (k : Circuit) (r : Record) (g : Spare) :
    (s.resource k r).engine g = s.engine g := by simp [State.resource]

@[simp] theorem State.resource_queue (s : State) (k : Circuit) (r : Record) : (s.resource k r).queue = s.queue := by
  simp [State.resource]

@[simp] theorem State.resource_record_other (s : State) {k j : Circuit} (r : Record) (h : k ≠ j) :
    (s.resource k r).record j = s.record j := by simp [State.resource, h]

@[simp] theorem State.resource_record (s : State) (k : Circuit) (r : Record) :
    (s.resource k r).record k = { r with returnKind := (s.setRecord k r).kindNow k } := by simp [State.resource]

@[simp] theorem State.resource_farClaim (s : State) (k : Circuit) (r : Record) (g : Spare) :
    (s.resource k r).farClaim g = s.farClaim g := by
  unfold State.resource
  rw [State.farClaim_of_sources (State.sources_updateKind ..), State.setRecord_farClaim]

theorem State.resource_state {r : Record} (hr : r.state = (s.record k).state) (j : Circuit) :
    ((s.resource k r).record j).state = (s.record j).state := by
  by_cases hj : k = j
  · subst hj; simpa using hr
  · simp [hj]

theorem State.resource_effClass_other (s : State) (r : Record) {j : Circuit} (h : k ≠ j) :
    (s.resource k r).effClass j = s.effClass j := by
  unfold State.resource
  rw [State.effClass_of_sources (State.sources_updateKind ..)]
  unfold State.effClass State.localClass
  rw [State.setRecord_record_other _ _ h, State.setRecord_farClass]

theorem State.Poised.resource (h : s.Poised w X S [k] G) (r : Record) : (s.resource k r).Poised w X S [k] G :=
  (h.setSource r).updateKind k

theorem State.QueueBut.resource {r : Record} (h : s.QueueBut k) (hr : r.state = (s.record k).state) :
    (s.resource k r).QueueBut k := by
  refine (h.setSource hr).of_same (State.sources_updateKind ..) (by simp [State.resource]) fun j => ?_
  unfold State.resource
  rw [State.updateKind_record_eq]
  split
  · next e => subst e; rfl
  · rfl

theorem State.QueueAgrees.resource {r : Record} (h : s.QueueAgrees) (hr : r.state = (s.record k).state)
    (hc : (s.resource k r).effClass k = s.effClass k) : (s.resource k r).QueueAgrees := by
  refine h.of_classes (fun j => ?_) (by simp) (State.resource_state hr)
  by_cases hj : k = j
  · subst hj; exact hc
  · exact State.resource_effClass_other s r hj

/-- A record reacts to new sources, in whatever state it is. -/
theorem State.Steady.sourceReact (h : s.Steady w [] []) (r : Record) (hr : r.stance = (s.record k).stance)
    (hb : r.barred = (s.record k).barred) (hd : r.declined = (s.record k).declined ∨ r.declined = false) :
    ((s.resource k r).turn.react k (s.effClass k)).st.Steady w [] [] := by
  obtain ⟨hstate, htimer⟩ := Record.stance_eq hr
  have hk : ((s.resource k r).record k).state = (s.record k).state := State.resource_state hstate k
  -- a held record keeps its engine; what the reaction finds is right but for the new class
  have held : ∀ g, (s.engine g).state.circuit = some k → (s.resource k r).Steady w [k] [] := by
    intro g hc
    have hmid : (s.resource k r).Poised w [k] [g] [k] [] :=
      ((h.poised.openHeld hc).resource r).mono (List.nil_subset _) (List.Subset.refl _)
    have hflags := (h.poised.held hc).2
    refine ⟨hmid.close ?_ ?_ ?_ ?_ (fun _ _ => .inl (by simp)) ?_ ?_ ?_, ?_⟩
    · simpa using h.poised.usable (EngineState.not_unavailable hc)
    · simpa using hc
    · rw [hk, State.resource_engine]
      exact h.poised.pairs k g (by simp) (by simp)
    · rw [State.resource_record]
      refine ⟨hb.trans hflags.1, ?_⟩
      rcases hd with e | e
      · exact e.trans hflags.2
      · exact e
    · intro hw hrt
      rw [State.resource_record] at hrt
      obtain ⟨_, i, _, ha, he⟩ := h.poised.returnTimers hw k (by simp) (htimer ▸ hrt)
      have hi : i = g := by
        rcases (h.poised.held hc).1 with e | e <;> simp_all
      rw [State.resource_engine]
      exact ⟨.inl (by simp), hi ▸ he⟩
    · intro hw
      rw [State.resource_engine]
      exact h.poised.engineTimers hw g (by simp)
    · intro hw _ j c hj
      rw [State.resource_farClaim] at hj
      obtain ⟨h1, h2⟩ := h.poised.contests hw g (by simp) (by simp) j c hj
      refine ⟨fun i hi => h1 i (by simpa using hi), fun own ho => ?_⟩
      have hown := State.contestClaim_circuit ho
      rw [State.resource_engine, hc] at hown
      by_cases hret : ((s.resource k r).engine g).state = .returning own.1
      · refine h2 own ?_ |>.imp_left fun hx => absurd hx.1 (by simp)
        rw [← ho]
        rw [State.resource_engine] at hret
        simp [State.contestClaim, hret]
      · exact .inl ⟨by simp [← Option.some.inj hown], hret⟩
    · by_cases hq : (s.record k).state = .queued
      · rcases (h.poised.held hc).1 with e | e <;> simp [hq] at e
      · exact ((h.queue.but k).resource hstate).agrees (by rw [hk]; exact hq)
  unfold Turn.react
  rw [State.turn_st, hk]
  split
  · next g hg =>
    refine State.Steady.reactHeld (t := (s.resource k r).turn) (held g (h.poised.holder (.inl hg))) (hk.trans hg) _ ?_
    intro hw h0 _ hp
    rw [State.turn_st, State.resource_engine] at hp
    rcases h.poised.classZero hw g k (by simp) hp with hx | hx
    · simp at hx
    · exact hx h0
  · next g hg =>
    have hs := held g (h.poised.holder (.inr hg))
    have hret : ((s.resource k r).engine g).state = .returning k := by
      rw [State.resource_engine]
      exact h.poised.releasing hg
    have hset := (hs.mono (List.Subset.refl _) (List.nil_subset [g])).settled (by rw [hret]; rfl)
      (fun _ hp => by rw [hret] at hp; cases hp) fun hw hrt =>
        absurd (hs.poised.timer_none hw fun i => by rw [hk, hg]; simp) hrt
    refine hset.decide fun hw j c hj => ?_
    obtain ⟨h1, h2⟩ := hs.poised.contests hw g (by simp) (by simp) j c hj
    refine ⟨h1, fun own ho => (h2 own ho).imp_left fun hx => absurd ?_ hx.2⟩
    have hown := State.contestClaim_circuit ho
    rw [hret] at hown ⊢
    rw [← Option.some.inj hown]
  · next ha hrel =>
    have hu : (s.record k).state.unheld = true := (RequestState.unheld_iff _).mpr fun i => ⟨ha i, hrel i⟩
    refine State.Steady.reactUnheld (t := (s.resource k r).turn)
      (((h.poised.openUnheld hu).resource r).mono (List.nil_subset _) (List.Subset.refl _)) (by rw [State.turn_st, hk]; exact hu)
      (fun hw => ?_) ((h.queue.but k).resource hstate) _ (fun hc _ => ?_) 0
    · rw [State.turn_st, State.resource_record]
      exact htimer.trans (h.poised.timer_none hw ha)
    · exact h.queue.resource hstate (by simpa using hc : s.effClass k = _).symm

/-- The record that a change of a source writes: the decline hold is cleared where local_class changes (R17). -/
def Record.changed (old new : Record) : Record :=
  if old.localClass = new.localClass then new else { new with declined := false }

theorem Turn.sourceChange_eq (t : Turn) (k : Circuit) (f : Record → Record) :
    t.sourceChange k f = (t.change fun s => s.resource k ((t.st.record k).changed (f (t.st.record k)))).react k
      (t.st.effClass k) := rfl

theorem Record.changed_cases (old new : Record) :
    (old.changed new).stance = new.stance ∧ (old.changed new).barred = new.barred
      ∧ (old.changed new).condClass = new.condClass ∧ (old.changed new).swClass = new.swClass
      ∧ (old.changed new).returnKind = new.returnKind
      ∧ (old.changed new).declined = (if old.localClass = new.localClass then new.declined else false) := by
  unfold Record.changed
  split <;> exact ⟨rfl, rfl, rfl, rfl, rfl, rfl⟩

/-- A change of a source of a record, with its reaction, at the start of a turn. -/
theorem State.Steady.sourceChange (h : s.Steady w [] []) (k : Circuit) (f : Record → Record)
    (hf : (f (s.record k)).stance = (s.record k).stance) (hb : (f (s.record k)).barred = (s.record k).barred)
    (hd : (f (s.record k)).declined = (s.record k).declined ∨ (f (s.record k)).declined = false) :
    (s.turn.sourceChange k f).st.Steady w [] [] := by
  obtain ⟨hst, hbar, _, _, _, hdec⟩ := (s.record k).changed_cases (f (s.record k))
  rw [Turn.sourceChange_eq]
  refine h.sourceReact ((s.record k).changed (f (s.record k))) (hst.trans hf) (hbar.trans hb) ?_
  rw [hdec]
  split
  · exact hd
  · exact .inr rfl

/-! ## Bars and decline holds -/

/-- A held record that has been barred or declined is dropped. -/
theorem State.Steady.flagDrop (h : t.st.Steady w (k :: X) G) (hk : (t.st.engine g).state.circuit = some k) (r : Record)
    (hr : r.state = (t.st.record k).state) :
    ((t.change fun s => s.setRecord k r).drop g k).st.Steady w X G :=
  State.Poised.free (t := t.change fun s => s.setRecord k r) ((h.poised.openHeld hk).setSource r)
    (h.poised.usable (EngineState.not_unavailable hk)) ((h.queue.but k).setSource hr) g .back

/-- A record that no engine holds, its flags changed, is put at rest. -/
theorem State.Steady.flagRest (h : t.st.Steady w (k :: X) G) (hu : (t.st.record k).state.unheld = true) (r : Record)
    (hr : r.stance = (t.st.record k).stance) (hl : r.localClass = (t.st.record k).localClass) (i : Spare) :
    ((t.change fun s => s.setRecord k r).reactUnheld i k false).st.Steady w X G := by
  obtain ⟨hstate, htimer⟩ := Record.stance_eq hr
  refine State.Steady.reactUnheld (t := t.change fun s => s.setRecord k r) ((h.poised.openUnheld hu).setSource r)
    (by simpa [hstate] using hu) (fun hw => ?_) ((h.queue.but k).setSource hstate) false (fun _ _ => ?_) i
  · simpa [htimer] using h.poised.timer_none hw fun i => ((RequestState.unheld_iff _).mp hu i).1
  · refine h.queue.of_classes (fun j => ?_) rfl fun j => ?_
    · unfold State.effClass State.localClass
      rw [Turn.change_st, State.setRecord_farClass, State.setRecord_record]
      split
      · next e => subst e; rw [hl]
      · rfl
    · rw [Turn.change_st, State.setRecord_record]
      split
      · next e => subst e; exact hstate
      · rfl

theorem State.Steady.bar (h : t.st.Steady w [] []) (k : Circuit) : (t.bar k).st.Steady w [] [] := by
  have h' : t.st.Steady w [k] [] := h.mono (List.nil_subset _) (List.Subset.refl _)
  unfold Turn.bar
  simp only [Turn.change_st, State.setRecord_record_same]
  split
  · next g hg => exact h'.flagDrop (h.poised.holder (.inl hg)) _ rfl
  · next g hg => exact h'.flagDrop (h.poised.holder (.inr hg)) _ rfl
  · next ha hr =>
    exact h'.flagRest ((RequestState.unheld_iff _).mpr fun i => ⟨ha i, hr i⟩)
      { t.st.record k with barred := true } rfl rfl 0

/-- Lifting flags that a held record does not have changes nothing. -/
theorem State.Poised.flags_of_held (h : s.Poised w X [] [] G) (hk : (s.engine g).state.circuit = some k) :
    s.setRecord k { s.record k with barred := false, declined := false } = s := by
  obtain ⟨hb, hd⟩ := (h.held hk).2
  have e : { s.record k with barred := false, declined := false }
      = { s.record k with barred := (s.record k).barred, declined := (s.record k).declined } := by rw [hb, hd]
  rw [e]
  exact State.setRecord_record_self s k

theorem State.Steady.unbar (h : t.st.Steady w [] []) (k : Circuit) : (t.unbar k).st.Steady w [] [] := by
  have h' : t.st.Steady w [k] [] := h.mono (List.nil_subset _) (List.Subset.refl _)
  unfold Turn.unbar
  simp only [Turn.change_st, State.setRecord_record_same]
  split
  · next g hg => rw [Turn.change_st, h.poised.flags_of_held (h.poised.holder (.inl hg))]; exact h
  · next g hg => rw [Turn.change_st, h.poised.flags_of_held (h.poised.holder (.inr hg))]; exact h
  · next ha hr =>
    exact h'.flagRest ((RequestState.unheld_iff _).mpr fun i => ⟨ha i, hr i⟩)
      { t.st.record k with barred := false, declined := false } rfl rfl 0

/-- A taken DECLINE: the record is marked and put at rest, off the spare it was taken on. -/
theorem State.Steady.decline (h : t.st.Steady w X G) (g : Spare) (k : Circuit) : (t.decline g k).st.Steady w X G := by
  have h' : t.st.Steady w (k :: X) G := h.mono (List.subset_cons_self k X) (List.Subset.refl _)
  unfold Turn.decline
  dsimp only
  split
  · next o ho =>
    split
    · next e => subst e; exact h'.flagDrop (h.poised.holder (.inl ho)) _ rfl
    · exact h
  · next o ho =>
    split
    · next e => subst e; exact h'.flagDrop (h.poised.holder (.inr ho)) _ rfl
    · exact h
  · next ha hr =>
    exact h'.flagRest ((RequestState.unheld_iff _).mpr fun i => ⟨ha i, hr i⟩)
      { t.st.record k with declined := true } rfl rfl g

end Sources

end Sys2Proof.Machine
end

