-- ==== Sys2Proof/Proofs/Passes.lean ====
section
/-! Proofs: changes of a reason set, the grant pass and the end of a turn keep the agreement. -/

namespace Sys2Proof.Machine

/-! ## Posting, field by field -/

/-- What posting an event does not write, it keeps. -/
theorem State.post_keeps {α : Type} (f : State → α) (h1 : ∀ (s : State) q, f (s.setEvents q) = f s)
    (h2 : ∀ (s : State) r, f (s.setRegs r) = f s) (s : State) (e : Event) : f (s.post e) = f s := by
  unfold State.post
  split
  · rfl
  · split
    · exact h1 _ _
    · split
      · exact (h2 (s.setEvents _) { s.regs with overrunSeen := true }).trans (h1 _ _)
      · split
        · exact h1 _ _
        · rfl

/-- What posting an event does not write, posting a list of events keeps. -/
theorem State.postAll_keeps {α : Type} (f : State → α) (h1 : ∀ (s : State) q, f (s.setEvents q) = f s)
    (h2 : ∀ (s : State) r, f (s.setRegs r) = f s) (s : State) (l : List Event) : f (s.postAll l) = f s := by
  induction l generalizing s with
  | nil => rfl
  | cons e rest ih => exact (ih (s.post e)).trans (State.post_keeps f h1 h2 s e)

@[simp] theorem State.postAll_records (s : State) (l : List Event) : (s.postAll l).records = s.records :=
  State.postAll_keeps State.records (fun _ _ => rfl) (fun _ _ => rfl) s l

@[simp] theorem State.postAll_queue (s : State) (l : List Event) : (s.postAll l).queue = s.queue :=
  State.postAll_keeps State.queue (fun _ _ => rfl) (fun _ _ => rfl) s l

@[simp] theorem State.postAll_engines (s : State) (l : List Event) : (s.postAll l).engines = s.engines :=
  State.postAll_keeps State.engines (fun _ _ => rfl) (fun _ _ => rfl) s l

@[simp] theorem State.postAll_transfers (s : State) (l : List Event) : (s.postAll l).transfers = s.transfers :=
  State.postAll_keeps State.transfers (fun _ _ => rfl) (fun _ _ => rfl) s l

@[simp] theorem State.postAll_qualifiers (s : State) (l : List Event) : (s.postAll l).qualifiers = s.qualifiers :=
  State.postAll_keeps State.qualifiers (fun _ _ => rfl) (fun _ _ => rfl) s l

@[simp] theorem State.postAll_record (s : State) (l : List Event) (k : Circuit) :
    (s.postAll l).record k = s.record k := congrArg (fun v => tabGet v k) (s.postAll_records l)

@[simp] theorem State.postAll_engine (s : State) (l : List Event) (g : Spare) :
    (s.postAll l).engine g = s.engine g := congrArg (fun v => tabGet v g) (s.postAll_engines l)

@[simp] theorem State.postAll_transfer (s : State) (l : List Event) (g : Spare) :
    (s.postAll l).transfer g = s.transfer g := congrArg (fun v => tabGet v g) (s.postAll_transfers l)

@[simp] theorem State.postAll_qualifier (s : State) (l : List Event) (g : Spare) :
    (s.postAll l).qualifier g = s.qualifier g := congrArg (fun v => tabGet v g) (s.postAll_qualifiers l)

@[simp] theorem State.sources_postAll (s : State) (l : List Event) : (s.postAll l).sources = s.sources :=
  State.postAll_keeps State.sources (fun _ _ => rfl) (fun _ _ => rfl) s l

@[simp] theorem Turn.flush_st (t : Turn) : t.flush.st = t.st.postAll t.ordered := rfl

@[simp] theorem Turn.flush_offered (t : Turn) : t.flush.offered = t.offered := rfl

@[simp] theorem Turn.flush_late (t : Turn) : t.flush.late = t.late := rfl

section Passes

variable {w w' : Keep} {X K : List Circuit} {S G : List Spare} {s s' : State} {t : Turn} {g : Spare} {k : Circuit}

theorem State.Steady.postAll (h : s.Steady w X G) (l : List Event) : (s.postAll l).Steady w X G :=
  h.of_same (by simp) (by simp) (fun _ => by simp) fun _ => by simp

theorem State.Steady.flush (h : t.st.Steady w X G) : t.flush.st.Steady w X G := h.postAll _

theorem State.Steady.close (h : t.st.Steady w X G) : t.close.Steady w X G := h.flush.postAll _

/-! ## What is asked of the reasons -/

/-- Something else is asked of the reasons. -/
theorem State.Poised.rewatch (h : s.Poised w X S K G) (hf : w'.full → w.full)
    (hr : ∀ i, w'.reasons i (s.engine i).reasons) : s.Poised w' X S K G where
  reasons := h.reasons
  watched := hr
  pairs := h.pairs
  offSpare := h.offSpare
  offRecord := h.offRecord
  rested := h.rested
  classZero := fun hw => h.classZero (hf hw)
  returnTimers := fun hw => h.returnTimers (hf hw)
  engineTimers := fun hw => h.engineTimers (hf hw)
  contests := fun hw => h.contests (hf hw)

/-- An engine that has been taken out is replaced. -/
theorem State.Poised.replaceEngine (h : s.Poised w X [g] K G) (e : Engine) (hf : w'.full → w.full)
    (hr : ∀ i, i ≠ g → ∀ r, w.reasons i r → w'.reasons i r) (he : w'.reasons g e.reasons) :
    (s.setEngine g e).Poised w' X [g] K G := by
  have h0 : s.Poised { full := w.full, reasons := fun _ _ => True } X [g] K G := h.rewatch id fun _ => trivial
  refine (h0.of_moved (s' := s.setEngine g e) rfl (fun _ _ => rfl) (fun i hi => ?_) fun _ _ => trivial).rewatch hf
    fun i => ?_
  · rw [State.setEngine_engine_other _ _ fun e => hi (by simp [e])]
  · by_cases hi : g = i
    · subst hi; simpa using he
    · rw [State.setEngine_engine_other _ _ hi]
      exact hr i (Ne.symm hi) _ (h.watched i)

/-! ## A change of the reason set -/

/-- Spare g's engine with its reason set replaced. -/
def Turn.rearm (t : Turn) (g : Spare) (after : Reasons) : Turn :=
  t.change fun s => s.setEngine g { s.engine g with reasons := after }

/-- Everything a change of the reason set can do (R59): a first reason tears the engine down into UNAVAILABLE, the last one's
removal leaves it FREE, any other change leaves its state. -/
theorem Turn.setReasons_cases (t : Turn) (g : Spare) (after : Reasons) :
    ((t.st.engine g).state ≠ .unavailable ∧ after.isEmpty = false
      ∧ (t.setReasons g after).st = (((t.tearDown g).rearm g after).enterEngine g .unavailable none none).st)
    ∨ ((t.st.engine g).state = .unavailable ∧ after.isEmpty = true
      ∧ (t.setReasons g after).st = ((t.rearm g after).enterEngine g .free none none).st)
    ∨ (((t.st.engine g).state = .unavailable ↔ after.isEmpty = false)
      ∧ (t.setReasons g after).st = (t.rearm g after).st) := by
  unfold Turn.setReasons
  dsimp only
  by_cases hu : (t.st.engine g).state = .unavailable
  · cases ha : after.isEmpty
    · refine .inr (.inr ⟨by simp [hu], ?_⟩)
      simp [hu, Turn.rearm, Turn.still_gathers]
    · refine .inr (.inl ⟨hu, rfl, ?_⟩)
      simp [hu, Turn.rearm, Turn.still_gathers, Turn.enterEngine]
  · cases ha : after.isEmpty
    · refine .inl ⟨hu, rfl, ?_⟩
      simp [hu, Turn.rearm, Turn.still_gathers, Turn.enterEngine]
    · refine .inr (.inr ⟨by simp [hu], ?_⟩)
      simp [hu, Turn.rearm, Turn.still_gathers]

theorem Reasons.eq_empty {r : Reasons} (h : r.isEmpty = true) : r = Reasons.empty := by
  cases r
  simp_all [Reasons.isEmpty, Reasons.empty]

/-- The teardown of an engine, which is left out, every record being put in again. -/
theorem State.Steady.tearDown (h : t.st.Steady w X G) (g : Spare) :
    (t.tearDown g).st.Poised w X [g] [] G ∧ (t.tearDown g).st.QueueAgrees := by
  unfold Turn.tearDown
  split
  · next j hj =>
    have hq : ((t.change fun s => (s.cancelTransfer g).startTransfer g .rest).st).QueueAgrees :=
      h.queue.of_same (State.sources_of_still (by simp)) (by simp [State.startTransfer])
        fun _ => by simp [State.startTransfer]
    exact ⟨State.Poised.rest (t := t.change fun s => (s.cancelTransfer g).startTransfer g .rest)
      ((h.poised.openHeld hj).transfers g _) g .front, Turn.moveRecord_queueAgrees _ _ _ _ _ (hq.but j)⟩
  · next hn =>
    exact ⟨(h.poised.openEngine g (by simp [hn])).endTestOrLoop g _,
      h.queue.of_same (State.sources_of_still (by simp)) (by simp) fun _ => by simp⟩

/-- A change of the reason set of an engine, whatever it does. -/
theorem State.Steady.setReasons (h : t.st.Steady w X G) (after : Reasons) (hf : w'.full → w.full)
    (hr : ∀ i, i ≠ g → ∀ r, w.reasons i r → w'.reasons i r) (ha : w'.reasons g after) :
    (t.setReasons g after).st.Steady w' X G := by
  rcases t.setReasons_cases g after with ⟨hu, hne, he⟩ | ⟨hu, hem, he⟩ | ⟨hiff, he⟩
  · rw [he]
    have htorn := h.tearDown g
    have hq : ((t.tearDown g).rearm g after).st.QueueAgrees := htorn.2.of_same rfl rfl fun _ => rfl
    refine ⟨(State.Poised.enterEngine (t := (t.tearDown g).rearm g after)
      (htorn.1.replaceEngine _ hf hr ha) _ _ _).closeEngine ?_ (by simp [EngineState.circuit]) ?_, hq.enterEngine _ _ _ _⟩
    · simp [Turn.rearm, hne]
    · intro _
      simp [Engine.TimersAgree, EngineState.answers]
  · rw [he]
    have hq : (t.rearm g after).st.QueueAgrees := h.queue.of_same rfl rfl fun _ => rfl
    refine ⟨(State.Poised.enterEngine (t := t.rearm g after)
      ((h.poised.openEngine g (by simp [hu, EngineState.circuit])).replaceEngine _ hf hr ha) _ _ _).closeEngine ?_
      (by simp [EngineState.circuit]) ?_, hq.enterEngine _ _ _ _⟩
    · simp [Turn.rearm, hem]
    · intro _
      simp [Engine.TimersAgree, EngineState.answers]
  · rw [he]
    have hq : (t.rearm g after).st.QueueAgrees := h.queue.of_same rfl rfl fun _ => rfl
    by_cases hu : (t.st.engine g).state = .unavailable
    · refine ⟨((h.poised.openEngine g (by simp [hu, EngineState.circuit])).replaceEngine
        { t.st.engine g with reasons := after } hf hr ha).closeEngine ?_ ?_ ?_, hq⟩
      · simp [hu, hiff.mp hu]
      · simp [hu, EngineState.circuit]
      · intro hw
        simpa [Engine.TimersAgree] using h.poised.engineTimers (hf hw) g (by simp)
    · -- two empty sets are equal: nothing changes but what is asked
      have hsame : (t.rearm g after).st = t.st := by
        have h0 := Reasons.eq_empty (h.poised.usable hu)
        have h1 := Reasons.eq_empty (by simpa using fun e => hu (hiff.mpr e) : after.isEmpty = true)
        have e : { t.st.engine g with reasons := after } = t.st.engine g := by rw [h1, ← h0]
        unfold Turn.rearm
        rw [Turn.change_st, e, State.setEngine_engine_self]
      rw [hsame]
      refine ⟨h.poised.rewatch hf fun i => ?_, h.queue⟩
      by_cases hi : i = g
      · subst hi
        rw [← hsame]
        simpa [Turn.rearm] using ha
      · exact hr i hi _ (h.poised.watched i)

theorem State.Steady.putReason (h : t.st.Steady w X G) (x : Reason) (b : Bool) (hf : w'.full → w.full)
    (hr : ∀ i, i ≠ g → ∀ r, w.reasons i r → w'.reasons i r) (hg : ∀ r, w.reasons g r → r.has x = b → w'.reasons g r)
    (ha : ∀ r, w.reasons g r → w'.reasons g (r.put x b)) : (t.putReason g x b).st.Steady w' X G := by
  unfold Turn.putReason
  split
  · next he =>
    refine ⟨h.poised.rewatch hf fun i => ?_, h.queue⟩
    by_cases hi : i = g
    · subst hi; exact hg _ (h.poised.watched i) he
    · exact hr i hi _ (h.poised.watched i)
  · exact h.setReasons _ hf hr (ha _ (h.poised.watched g))

/-! ## The grant pass -/

/-- A circuit in the queue has a class, and neither a bar nor a decline hold. -/
theorem State.Steady.queued (h : s.Steady w X G) (hk : k ∈ s.queue) :
    (s.record k).state = .queued ∧ s.effClass k ≠ 0 ∧ (s.record k).barred = false ∧ (s.record k).declined = false := by
  have hs := (h.queue.2.1 k).mp hk
  have hr := h.poised.rested k (by simp)
  unfold State.Rested at hr
  rw [if_pos (by simp [hs, RequestState.unheld])] at hr
  have hrest : s.restingState k = .queued := by
    rcases hr with e | e
    · rw [← e, hs]
    · exact absurd hs e.2
  exact ⟨hs, State.effClass_of_resting_queued hrest⟩

/-- A spare that is open to a head meets its claim. -/
theorem State.openTo_iff (s : State) (g : Spare) (h : Circuit) (c : Nat) :
    s.openTo g h c = true ↔ ∀ j f, s.farClaim g = some (j, f) → h = j ∨ beforeClaim (h, c) (j, f) = true := by
  unfold State.openTo
  cases s.farClaim g with
  | none => simp
  | some x =>
    refine ⟨fun hx j f hj => ?_, fun hx => ?_⟩
    · cases hj
      simpa [eq_comm (a := h)] using hx
    · simpa [eq_comm (a := h)] using hx x.1 x.2 rfl

/-- A preemption: the record that held the spare is put back, the engine takes the head, and the contest that the changed own
word calls for is decided. -/
theorem State.Steady.preempt (h : t.st.Steady w X []) (hk : k ∈ t.st.queue) (g : Spare) :
    (t.preempt g k).st.Steady w X [] := by
  obtain ⟨hs, hz, hb, hd⟩ := h.queued hk
  unfold Turn.preempt
  split
  · next j hj =>
    have hne : j ≠ k := by
      rintro rfl
      rcases (h.poised.held hj).1 with e | e <;> rw [hs] at e <;> cases e
    have hcancel : ((t.change fun s => s.cancelTransfer g).st).Poised w X [g] [j] [g] :=
      ((h.poised.mono (List.Subset.refl _) (List.nil_subset [g])).openHeld hj).of_same
        (State.sources_of_still (by simp)) (fun _ => by simp) fun _ => by simp
    have hq : ((t.change fun s => s.cancelTransfer g).st).QueueAgrees :=
      h.queue.of_same (State.sources_of_still (by simp)) (by simp) fun _ => by simp
    have hback := hcancel.rest g .front
    have hqback := Turn.moveRecord_queueAgrees (t.change fun s => s.cancelTransfer g) g j
      ((t.change fun s => s.cancelTransfer g).st.restingState j) .front (hq.but j)
    have hopen := hback.openRecord k fun i _ => by
      rw [Turn.moveRecord_engine, Turn.change_st, State.cancelTransfer_engine]
      intro hi
      rcases (h.poised.held hi).1 with e | e <;> rw [hs] at e <;> cases e
    have hsrc : ((t.change fun s => s.cancelTransfer g).putBack g j).st.sources = t.st.sources :=
      State.sources_of_still (by simp)
    have hprep : (((t.change fun s => s.cancelTransfer g).putBack g j).enterPreparing g k).st.Steady w X [g] := by
      refine ⟨State.Poised.enterPreparing hopen ?_ ?_ ?_ ?_, State.QueueAgrees.enterPreparing (hqback.but k)⟩
      · simpa [Turn.putBack] using h.poised.usable (EngineState.not_unavailable hj)
      · rw [State.barred_of_sources hsrc, State.declined_of_sources hsrc]
        exact ⟨hb, hd⟩
      · intro _
        rwa [State.effClass_of_sources hsrc]
      · exact fun _ hG => absurd (List.mem_singleton.mpr rfl) hG
    exact hprep.flush.contest fun _ i j c hi => by simp at hi
  · exact h

/-- Everything a step of the grant pass can do (R32): nothing, a grant of the head to an open spare that is FREE, in a test or
in a loop, or a preemption for the head. -/
theorem Turn.passStep_cases (t : Turn) :
    t.passStep = none
    ∨ ∃ h rest, t.st.queue = h :: rest
        ∧ ((∃ g, ((t.st.engine g).state = .free ∨ (t.st.engine g).state.testingOrLooped = true)
              ∧ t.st.openTo g h (t.st.effClass h) = true ∧ t.passStep = some (t.enterPreparing g h))
          ∨ ∃ g, t.passStep = some (t.preempt g h)) := by
  unfold Turn.passStep
  split
  · exact .inl rfl
  · next h rest hq =>
    dsimp only
    split
    · next g hg =>
      have := List.find?_some hg
      simp only [Bool.and_eq_true, decide_eq_true_eq] at this
      exact .inr ⟨h, rest, hq, .inl ⟨g, .inl this.2, this.1, rfl⟩⟩
    · split
      · next g hg =>
        have := List.find?_some hg
        simp only [Bool.and_eq_true] at this
        exact .inr ⟨h, rest, hq, .inl ⟨g, .inr this.2, this.1, rfl⟩⟩
      · cases hv : t.st.victim h (t.st.effClass h) with
        | none => exact .inl rfl
        | some g => exact .inr ⟨h, rest, hq, .inr ⟨g, rfl⟩⟩

theorem State.Steady.passStep {t' : Turn} (h : t.st.Steady w X []) (ht : t.passStep = some t') :
    t'.st.Steady w X [] := by
  rcases t.passStep_cases with he | ⟨k, rest, hq, ⟨g, hstate, hopen, he⟩ | ⟨g, he⟩⟩
  · rw [he] at ht; cases ht
  · obtain ⟨hs, hz, hb, hd⟩ := h.queued (k := k) (by simp [hq])
    rw [he] at ht
    cases ht
    refine (h.mono (List.subset_cons_self k X) (List.Subset.refl _)).grant ?_ ?_ (by simp [hs, RequestState.unheld])
      ⟨hb, hd⟩ (fun _ => hz) fun _ _ j c hj => (State.openTo_iff _ _ _ _).mp hopen j c hj
    · intro j hj
      rcases hstate with e | e <;> cases hes : (t.st.engine g).state <;>
        simp_all [EngineState.circuit, EngineState.testingOrLooped]
    · intro hu
      simp [hu, EngineState.testingOrLooped] at hstate
  · rw [he] at ht
    cases ht
    exact h.preempt (by simp [hq]) g

theorem State.Steady.pass (h : t.st.Steady w X []) (n : Nat) : (Turn.pass n t).st.Steady w X [] := by
  induction n generalizing t with
  | zero => exact h
  | succ n ih =>
    unfold Turn.pass
    split
    · exact h
    · next t' ht => exact ih (h.passStep ht).flush

theorem State.Steady.settleWithPass (h : t.st.Steady w X []) : t.settleWithPass.Steady w X [] :=
  (h.flush.pass _).close

/-- The end of a turn keeps the agreement. -/
theorem State.Steady.settle (h : t.st.Steady w X []) (before : State) : (t.settle before).Steady w X [] := by
  unfold Turn.settle
  dsimp only
  split
  · exact (h.flush.flush.pass _).close
  · exact h.flush.close

end Passes

end Sys2Proof.Machine
end

