-- ==== Sys2Proof/Proofs/FarWords.lean ====
section
/-! Proofs: a change of the current far word.  Its first reactions put right the queue and every record that no engine holds,
but for the stale ones; its last reactions find nothing stale but the records whose classes have changed. -/

namespace Sys2Proof.Machine

/-! ## The classes after a change of far word -/

theorem State.setFar_farClaim (s : State) (g i : Spare) (w : Option Half) :
    (s.setFar g w).farClaim i = if g = i then claimOf w else s.farClaim i := by
  unfold State.farClaim State.setFar
  rw [State.setQualifier_qualifier]
  split <;> rfl

@[simp] theorem State.setFar_record (s : State) (g : Spare) (w : Option Half) (k : Circuit) :
    (s.setFar g w).record k = s.record k := rfl

@[simp] theorem State.setFar_engine (s : State) (g i : Spare) (w : Option Half) :
    (s.setFar g w).engine i = s.engine i := rfl

@[simp] theorem State.setFar_queue (s : State) (g : Spare) (w : Option Half) : (s.setFar g w).queue = s.queue := rfl

theorem spare_zero_or_one (g : Spare) : g = 0 ∨ g = 1 := by
  revert g
  decide

/-- What a claim says of a circuit that it does not name. -/
theorem claimedClass_of_unnamed {k : Circuit} {x : Option (Circuit × Nat)} (h : x.map (·.1) ≠ some k) :
    claimedClass k x = 0 := by
  cases x with
  | none => rfl
  | some c => exact if_neg (by simpa using h)

theorem mem_affected (k : Circuit) (old new : Option (Circuit × Nat)) :
    k ∈ affected old new ↔ old.map (·.1) = some k ∨ new.map (·.1) = some k := by
  cases old <;> cases new <;> simp only [affected]
  · simp
  · simp [eq_comm]
  · simp [eq_comm]
  · split
    · next h => simp [h, eq_comm]
    · simp [eq_comm]

theorem affected_nodup (old new : Option (Circuit × Nat)) : (affected old new).Nodup := by
  cases old <;> cases new <;> simp only [affected]
  · simp
  · simp
  · simp
  · split
    · simp
    · next h => simpa using h

/-- Behind the first of the circuits that a change of far word touches, only a new claim can stand. -/
theorem affected_tail {j k : Circuit} {l : List Circuit} {old new : Option (Circuit × Nat)}
    (h : affected old new = k :: l) (hj : j ∈ l) : old.map (·.1) ≠ some j ∧ new.map (·.1) = some j := by
  cases old <;> cases new <;> simp only [affected] at h
  · cases h
  · obtain ⟨-, rfl⟩ := List.cons.inj h; cases hj
  · obtain ⟨-, rfl⟩ := List.cons.inj h; cases hj
  · split at h
    · obtain ⟨-, rfl⟩ := List.cons.inj h; cases hj
    · next hne =>
      obtain ⟨rfl, rfl⟩ := List.cons.inj h
      obtain rfl := List.mem_singleton.mp hj
      exact ⟨by simpa using hne, rfl⟩

/-- A circuit that the old claim on the spare does not name loses no class. -/
theorem State.effClass_le_setFar (s : State) (g : Spare) (w : Option Half) {k : Circuit}
    (h : (s.farClaim g).map (·.1) ≠ some k) : s.effClass k ≤ (s.setFar g w).effClass k := by
  have h0 := claimedClass_of_unnamed h
  have hg := spare_zero_or_one g
  unfold State.effClass State.localClass State.farClass
  simp only [State.setFar_farClaim, State.setFar_record]
  rcases hg with rfl | rfl <;> simp [h0] <;> omega

theorem State.effClass_setFar (s : State) (g : Spare) (w : Option Half) {k : Circuit}
    (h : k ∉ affected (s.farClaim g) (claimOf w)) : (s.setFar g w).effClass k = s.effClass k := by
  rw [mem_affected, not_or] at h
  have h0 := claimedClass_of_unnamed h.1
  have h1 := claimedClass_of_unnamed h.2
  have hg := spare_zero_or_one g
  unfold State.effClass State.localClass State.farClass
  simp only [State.setFar_farClaim, State.setFar_record]
  rcases hg with rfl | rfl <;> simp [h0, h1]

/-! ## The queue while classes change -/

/-- The queue is in the order of the classes but for circuits of the list: one that has fallen since the given state stands too
early, one that has risen too late. -/
def State.QueueFrom (s b : State) (l : List Circuit) : Prop :=
  s.queue.Nodup ∧ (∀ j : Circuit, j ∈ s.queue ↔ (s.record j).state = .queued) ∧
    s.queue.Pairwise fun i j =>
      (i ∈ l ∧ s.effClass i < b.effClass i) ∨ (j ∈ l ∧ b.effClass j < s.effClass j) ∨ s.effClass j ≤ s.effClass i

/-- A placement at the end of a class group keeps the class order among the entries that are in it. -/
theorem placeBack_pairwise (cls : Circuit → Nat) (E : Circuit → Prop) (k : Circuit) (q : List Circuit)
    (h : q.Pairwise fun i j => E j ∨ cls j ≤ cls i) : (placeBack cls k q).Pairwise fun i j => E j ∨ cls j ≤ cls i := by
  induction q with
  | nil => simp [placeBack]
  | cons j rest ih =>
    obtain ⟨hj, hrest⟩ := List.pairwise_cons.mp h
    unfold placeBack
    split
    · next hle =>
      refine List.pairwise_cons.mpr ⟨fun i hi => ?_, ih hrest⟩
      rcases List.mem_cons.mp ((placeBack_perm cls k rest).mem_iff.mp hi) with rfl | hi
      · exact .inr hle
      · exact hj i hi
    · next hgt =>
      refine List.pairwise_cons.mpr ⟨fun i hi => ?_, h⟩
      rcases List.mem_cons.mp hi with rfl | hi
      · exact .inr (by omega)
      · exact (hj i hi).imp_right fun hle => by omega

theorem State.restingState_of_zero {s : State} {k : Circuit} (h : s.effClass k = 0) : s.restingState k = .quiet :=
  if_pos h

section FarWords

variable {w w' : Keep} {X : List Circuit} {l : List Circuit} {b s s' : State} {t : Turn} {g : Spare} {k : Circuit}

theorem State.QueueFrom.agrees (h : s.QueueFrom b []) : s.QueueAgrees :=
  ⟨h.1, h.2.1, h.2.2.imp fun hor => by simpa using hor⟩

theorem State.QueueFrom.of_same (h : s.QueueFrom b l) (hc : ∀ j, s'.effClass j = s.effClass j) (hq : s'.queue = s.queue)
    (hr : ∀ j, (s'.record j).state = (s.record j).state) : s'.QueueFrom b l := by
  obtain ⟨hnodup, hmem, hsorted⟩ := h
  refine ⟨hq ▸ hnodup, fun j => by rw [hq, hr]; exact hmem j, ?_⟩
  simp only [hq, hc]
  exact hsorted

/-- A circuit that is not queued, or whose class has not changed, needs no place. -/
theorem State.QueueFrom.drop (h : s.QueueFrom b (k :: l))
    (hk : (s.record k).state ≠ .queued ∨ s.effClass k = b.effClass k) : s.QueueFrom b l := by
  obtain ⟨hnodup, hmem, hsorted⟩ := h
  refine ⟨hnodup, hmem, hsorted.imp_of_mem fun {i j} hi hj hor => ?_⟩
  have remains : ∀ {m : Circuit}, m ∈ s.queue → m ∈ k :: l → s.effClass m ≠ b.effClass m → m ∈ l := by
    intro m hm hml hne
    refine (List.mem_cons.mp hml).resolve_left ?_
    rintro rfl
    exact hk.elim (fun hs => hs ((hmem m).mp hm)) hne
  rcases hor with ⟨hi', hlt⟩ | ⟨hj', hlt⟩ | hle
  · exact .inl ⟨remains hi hi' (by omega), hlt⟩
  · exact .inr (.inl ⟨remains hj hj' (by omega), hlt⟩)
  · exact .inr (.inr hle)

/-- The move of a record puts its place in the queue right. -/
theorem State.QueueFrom.moveRecord (h : t.st.QueueFrom b (k :: l)) (hl : ∀ j ∈ l, b.effClass j ≤ t.st.effClass j)
    (i : Spare) (r : RequestState) : (t.moveRecord i k r .back).st.QueueFrom b l := by
  obtain ⟨hnodup, hmem, hsorted⟩ := h
  have hrest : (t.st.queue.filter (· ≠ k)).Pairwise fun i j =>
      (j ∈ l ∧ b.effClass j < t.st.effClass j) ∨ t.st.effClass j ≤ t.st.effClass i := by
    refine (hsorted.filter (· ≠ k)).imp_of_mem fun {i j} hi hj hor => ?_
    have hik : i ≠ k := by simpa using (List.mem_filter.mp hi).2
    have hjk : j ≠ k := by simpa using (List.mem_filter.mp hj).2
    simp only [List.mem_cons, hik, hjk, false_or] at hor
    rcases hor with ⟨hi', hlt⟩ | hor
    · exact absurd hlt (by have := hl i hi'; omega)
    · exact hor
  have hsrc := State.sources_of_still (Turn.still_moveRecord t i k r .back)
  refine ⟨?_, fun j => ?_, ?_⟩
  · rw [Turn.moveRecord_queue]
    exact t.st.requeue_nodup k _ .back hnodup
  · rw [Turn.moveRecord_queue, State.mem_requeue, hmem]
    by_cases hj : j = k
    · subst hj; simp
    · rw [Turn.moveRecord_record_other t i r .back (Ne.symm hj)]
      simp [hj]
  · rw [Turn.moveRecord_queue]
    simp only [State.effClass_of_sources hsrc]
    refine List.Pairwise.imp (fun hor => .inr hor) ?_
    unfold State.requeue
    dsimp only
    split
    · exact placeBack_pairwise _ _ _ _ hrest
    · exact hrest

theorem State.QueueAgrees.setFar (h : s.QueueAgrees) (w : Option Half) :
    (s.setFar g w).QueueFrom s (affected (s.farClaim g) (claimOf w)) := by
  obtain ⟨hnodup, hmem, hsorted⟩ := h
  refine ⟨hnodup, hmem, hsorted.imp fun {i j} hle => ?_⟩
  have remains : ∀ m, (s.setFar g w).effClass m ≠ s.effClass m → m ∈ affected (s.farClaim g) (claimOf w) := by
    intro m hne
    by_contra hm
    exact hne (s.effClass_setFar g w hm)
  by_cases hi : (s.setFar g w).effClass i < s.effClass i
  · exact .inl ⟨remains i (by omega), hi⟩
  · by_cases hj : s.effClass j < (s.setFar g w).effClass j
    · exact .inr (.inl ⟨remains j (by omega), hj⟩)
    · exact .inr (.inr (by omega))

/-! ## The first reactions -/

/-- The first reactions to a change of far word since state b, those of the listed circuits to come: their records are taken
out where no engine holds them, and unchanged. -/
structure State.Refreshing (w : Keep) (X : List Circuit) (g : Spare) (s b : State) (l : List Circuit) : Prop where
  poised : s.Poised w X [] (l.filter fun k => (b.record k).state.unheld) [g]
  queue : s.QueueFrom b l
  records : ∀ k ∈ l, s.record k = b.record k
  stale : ∀ k ∈ l, b.effClass k ≠ s.effClass k → k ∈ X

/-- The circuits whose classes a change of far word changes. -/
def State.staled (s : State) (g : Spare) (w : Option Half) : List Circuit :=
  (affected (s.farClaim g) (claimOf w)).filter fun k => s.effClass k != (s.setFar g w).effClass k

theorem State.mem_staled {f : Option Half} : k ∈ s.staled g f ↔ s.effClass k ≠ (s.setFar g f).effClass k := by
  unfold State.staled
  simp only [List.mem_filter, bne_iff_ne, ne_eq, and_iff_right_iff_imp]
  intro hne
  by_contra hk
  exact hne (s.effClass_setFar g f hk).symm

/-- A change of far word leaves every engine, and every record that is held or that it does not touch. -/
theorem State.Steady.setFar (h : s.Steady w [] []) (g : Spare) (f : Option Half) :
    (s.setFar g f).Refreshing w (s.staled g f) g s (affected (s.farClaim g) (claimOf f)) := by
  have hstale : ∀ k, k ∈ s.staled g f ∨ (s.setFar g f).effClass k = s.effClass k := fun k => by
    rw [State.mem_staled]
    by_cases e : s.effClass k = (s.setFar g f).effClass k
    · exact .inr e.symm
    · exact .inl e
  refine ⟨?_, h.queue.setFar f, fun _ _ => rfl, fun k _ hne => State.mem_staled.mpr hne⟩
  exact {
    reasons := h.poised.reasons
    watched := h.poised.watched
    pairs := fun k i _ _ => h.poised.pairs k i (by simp) (by simp)
    offSpare := fun k i _ hi => absurd hi (by simp)
    offRecord := fun k i hk _ => by
      have hu := (RequestState.unheld_iff _).mp (List.mem_filter.mp hk).2 i
      exact (h.poised.pairs k i (by simp) (by simp)).empty hu.1 hu.2
    rested := fun k hk => by
      have hr := h.poised.rested k (by simp)
      unfold State.Rested at hr ⊢
      rw [State.setFar_record]
      split
      · next hu =>
        rw [if_pos hu] at hr
        have hk' : k ∉ affected (s.farClaim g) (claimOf f) := fun hm => hk (List.mem_filter.mpr ⟨hm, hu⟩)
        refine hr.imp (fun e => ?_) fun hx => absurd hx.1 (by simp)
        unfold State.restingState at e ⊢
        rw [s.effClass_setFar g f hk']
        exact e
      · next hu => rwa [if_neg hu] at hr
    classZero := fun hw i k hi hp => by
      rcases h.poised.classZero hw i k hi hp with hx | hz
      · exact absurd hx (by simp)
      · exact (hstale k).imp_right fun e => by rwa [e]
    returnTimers := fun hw k _ hrt => by
      obtain ⟨hz, hrest⟩ := h.poised.returnTimers hw k (by simp) hrt
      refine ⟨(hstale k).imp_right fun e => ?_, hrest⟩
      rw [e]
      exact hz.resolve_left (by simp)
    engineTimers := h.poised.engineTimers
    contests := fun hw i hi hi' j c hj => by
      have hig : g ≠ i := fun e => hi' (by simp [e])
      rw [State.setFar_farClaim, if_neg hig] at hj
      obtain ⟨h1, h2⟩ := h.poised.contests hw i hi (by simp) j c hj
      refine ⟨h1, fun own ho => ?_⟩
      -- only the claim of a PREPARING engine carries the eff_class
      by_cases hp : (s.engine i).state = .preparing own.1
      · rcases hstale own.1 with hx | hsame
        · exact .inl ⟨hx, by rw [State.setFar_engine, hp]; simp⟩
        · refine (h2 own ?_).imp_left fun hx => absurd hx.1 (by simp)
          simp only [State.contestClaim, State.setFar_engine, hp, hsame] at ho ⊢
          exact ho
      · refine (h2 own ?_).imp_left fun hx => absurd hx.1 (by simp)
        have hcirc := State.contestClaim_circuit ho
        unfold State.contestClaim at ho ⊢
        rw [State.setFar_engine] at ho hcirc
        cases he : (s.engine i).state <;> simp_all [EngineState.circuit, State.localClass] }

/-- The record of a circuit whose decline hold a claim on it clears. -/
def State.cleared (s : State) (k : Circuit) (claimed : Bool) : State :=
  if claimed then s.setRecord k { s.record k with declined := false } else s

theorem Turn.refreshClass_eq (t : Turn) (before : State) (g : Spare) (claimed : Bool) (k : Circuit) :
    t.refreshClass before g claimed k =
      let u := t.change fun s => (s.updateKind k).cleared k claimed
      match (u.st.record k).state with
      | .queued => if before.effClass k != u.st.effClass k then u.reactUnheld g k true else u
      | .parked => if (before.record k).declined && !(u.st.record k).declined then u.reactUnheld g k true else u
      | _ => u := by
  unfold Turn.refreshClass State.cleared
  cases claimed <;> rfl

theorem State.cleared_record (s : State) (k : Circuit) (claimed : Bool) :
    (s.cleared k claimed).record k = { s.record k with declined := (s.record k).declined && !claimed } := by
  cases claimed <;> simp [State.cleared]

@[simp] theorem State.cleared_record_other (s : State) {k j : Circuit} (claimed : Bool) (h : k ≠ j) :
    (s.cleared k claimed).record j = s.record j := by
  cases claimed <;> simp [State.cleared, h]

@[simp] theorem State.cleared_engine (s : State) (k : Circuit) (claimed : Bool) (g : Spare) :
    (s.cleared k claimed).engine g = s.engine g := by
  cases claimed <;> rfl

@[simp] theorem State.cleared_queue (s : State) (k : Circuit) (claimed : Bool) :
    (s.cleared k claimed).queue = s.queue := by
  cases claimed <;> rfl

@[simp] theorem State.cleared_qualifiers (s : State) (k : Circuit) (claimed : Bool) :
    (s.cleared k claimed).qualifiers = s.qualifiers := by
  cases claimed <;> rfl

/-- The classes follow the records' classes and the far words. -/
theorem State.effClass_congr (hq : s'.qualifiers = s.qualifiers) (hl : s'.localClass k = s.localClass k) :
    s'.effClass k = s.effClass k := by
  unfold State.effClass State.farClass State.farClaim State.qualifier
  rw [hq, hl]

@[simp] theorem State.cleared_effClass (s : State) (k j : Circuit) (claimed : Bool) :
    (s.cleared k claimed).effClass j = s.effClass j := by
  refine State.effClass_congr (by simp) ?_
  unfold State.localClass
  by_cases hj : k = j
  · subst hj
    rw [State.cleared_record]
    rfl
  · rw [State.cleared_record_other _ _ hj]

/-- A record whose decline hold does not stand is cleared of nothing. -/
theorem State.cleared_eq (s : State) (claimed : Bool) (h : (s.record k).declined = false) : s.cleared k claimed = s := by
  cases claimed
  · rfl
  · have e : { s.record k with declined := false } = { s.record k with declined := (s.record k).declined } := by rw [h]
    simp only [State.cleared, if_true, e]
    exact State.setRecord_record_self s k

theorem Turn.sources_reactUnheld (t : Turn) (g : Spare) (k : Circuit) (changed : Bool) :
    (t.reactUnheld g k changed).st.sources = t.st.sources := State.sources_of_still (Turn.still_reactUnheld ..)

@[simp] theorem Turn.reactUnheld_engine (t : Turn) (g i : Spare) (k : Circuit) (changed : Bool) :
    (t.reactUnheld g k changed).st.engine i = t.st.engine i := by
  unfold Turn.reactUnheld
  dsimp only
  split <;> simp

@[simp] theorem Turn.reactUnheld_record_other (t : Turn) (g : Spare) {k j : Circuit} (changed : Bool) (h : k ≠ j) :
    (t.reactUnheld g k changed).st.record j = t.st.record j := by
  unfold Turn.reactUnheld
  dsimp only
  split
  · rfl
  · simp [h]

/-- A first reaction is the clearing of the record, perhaps with its move. -/
theorem Turn.refreshClass_cases (t : Turn) (before : State) (g : Spare) (claimed : Bool) (k : Circuit) :
    t.refreshClass before g claimed k = (t.change fun s => (s.updateKind k).cleared k claimed)
    ∨ t.refreshClass before g claimed k
        = (t.change fun s => (s.updateKind k).cleared k claimed).reactUnheld g k true := by
  rw [Turn.refreshClass_eq]
  dsimp only
  split
  · split
    · exact .inr rfl
    · exact .inl rfl
  · split
    · exact .inr rfl
    · exact .inl rfl
  · exact .inl rfl

@[simp] theorem Turn.refreshClass_engine (t : Turn) (before : State) (g i : Spare) (claimed : Bool) (k : Circuit) :
    (t.refreshClass before g claimed k).st.engine i = t.st.engine i := by
  rcases t.refreshClass_cases before g claimed k with e | e <;> rw [e] <;> simp

@[simp] theorem Turn.refreshClass_record_other (t : Turn) (before : State) (g : Spare) (claimed : Bool) {k j : Circuit}
    (h : k ≠ j) : (t.refreshClass before g claimed k).st.record j = t.st.record j := by
  rcases t.refreshClass_cases before g claimed k with e | e <;> rw [e] <;> simp [h]

@[simp] theorem State.updateKind_qualifiers (s : State) (k : Circuit) : (s.updateKind k).qualifiers = s.qualifiers := by
  unfold State.updateKind
  split <;> rfl

@[simp] theorem Turn.refreshClass_qualifiers (t : Turn) (before : State) (g : Spare) (claimed : Bool) (k : Circuit) :
    (t.refreshClass before g claimed k).st.qualifiers = t.st.qualifiers := by
  rcases t.refreshClass_cases before g claimed k with e | e <;> rw [e]
  · simp
  · rw [State.qualifiers_of_sources (Turn.sources_reactUnheld ..)]
    simp

@[simp] theorem Turn.refreshClass_offered (t : Turn) (before : State) (g : Spare) (claimed : Bool) (k : Circuit) :
    (t.refreshClass before g claimed k).offered = t.offered := by
  rcases t.refreshClass_cases before g claimed k with e | e <;> rw [e]
  · rfl
  · unfold Turn.reactUnheld
    dsimp only
    split
    · rfl
    · simp

@[simp] theorem Turn.refreshClass_effClass (t : Turn) (before : State) (g : Spare) (claimed : Bool) (k j : Circuit) :
    (t.refreshClass before g claimed k).st.effClass j = t.st.effClass j := by
  have hc : (t.change fun s => (s.updateKind k).cleared k claimed).st.effClass j = t.st.effClass j := by
    simp [State.effClass_of_sources (State.sources_updateKind t.st k)]
  rcases t.refreshClass_cases before g claimed k with e | e <;> rw [e]
  · exact hc
  · rw [State.effClass_of_sources (Turn.sources_reactUnheld ..)]
    exact hc

theorem State.Poised.cleared {K : List Circuit} {S G : List Spare} (h : s.Poised w X S (k :: K) G) (claimed : Bool) :
    (s.cleared k claimed).Poised w X S (k :: K) G := by
  cases claimed
  · exact h
  · exact h.setSource _

theorem State.QueueFrom.reactUnheld (h : t.st.QueueFrom b (k :: l)) (hl : ∀ j ∈ l, b.effClass j ≤ t.st.effClass j)
    (i : Spare) :
    (t.reactUnheld i k true).st.QueueFrom b l := by
  unfold Turn.reactUnheld
  dsimp only
  split
  · next hc =>
    refine h.drop (.inl fun hq => hc.2 ⟨?_, rfl⟩)
    rw [← hc.1, hq]
  · exact h.moveRecord hl i _

/-- The first reaction of one circuit. -/
theorem State.Refreshing.refreshClass (h : t.st.Refreshing w X g b (k :: l)) (hb : b.Steady w [] []) (hk : k ∉ l)
    (hl : ∀ j ∈ l, b.effClass j ≤ t.st.effClass j) (claimed : Bool) :
    (t.refreshClass b g claimed k).st.Refreshing w X g b l := by
  obtain ⟨hpoised, hqueue, hrecords, hstale⟩ := h
  have hkb : t.st.record k = b.record k := hrecords k (by simp)
  set u := t.change fun s => (s.updateKind k).cleared k claimed with hu
  have hueff : ∀ j, u.st.effClass j = t.st.effClass j := fun j => by
    simp [hu, State.effClass_of_sources (State.sources_updateKind t.st k)]
  have hurec : u.st.record k = { b.record k with
      returnKind := t.st.kindNow k, declined := (b.record k).declined && !claimed } := by
    simp [hu, State.cleared_record, hkb]
  have huqueue : u.st.QueueFrom b (k :: l) := by
    refine hqueue.of_same hueff (by simp [hu]) fun j => ?_
    by_cases hj : k = j
    · subst hj; rw [hurec, hkb]
    · simp [hu, hj]
  refine ⟨?_, ?_, fun j hj => ?_, fun j hj => ?_⟩
  · by_cases hheld : (b.record k).state.unheld = true
    · -- a record that no engine holds comes to rest, or is stale
      rw [List.filter_cons_of_pos (by simpa using hheld)] at hpoised
      have hup : u.st.Poised w X [] (k :: l.filter fun k => (b.record k).state.unheld) [g] :=
        (hpoised.updateKind k).cleared claimed
      have htimer : w.full → (u.st.record k).returnTimer = none := fun hw => by
        rw [hurec]
        exact hb.poised.timer_none hw fun i => ((RequestState.unheld_iff _).mp hheld i).1
      have hustate : (u.st.record k).state = (b.record k).state := by rw [hurec]
      have hbrest : (b.record k).state = b.restingState k := by
        have := hb.poised.rested k (by simp)
        unfold State.Rested at this
        rw [if_pos hheld] at this
        exact this.resolve_right fun hx => absurd hx.1 (by simp)
      have hclose : (u.st.record k).state = u.st.restingState k ∨ (k ∈ X ∧ (u.st.record k).state ≠ .queued) →
          u.st.Poised w X [] (l.filter fun k => (b.record k).state.unheld) [g] := fun hr => by
        refine hup.closeRecord (by rw [hustate]; exact hheld) ?_ htimer
        unfold State.Rested
        rw [hustate, if_pos hheld, ← hustate]
        exact hr
      have hmoved : (u.reactUnheld g k true).st.Poised w X [] (l.filter fun k => (b.record k).state.unheld) [g] := by
        unfold Turn.reactUnheld
        dsimp only
        split
        · next hc => exact hclose (.inl hc.1)
        · exact hup.rest g .back
      -- while its class and flags are as before, a record stays at rest
      have hsame : b.effClass k = u.st.effClass k → (u.st.record k).declined = (b.record k).declined →
          (u.st.record k).state = u.st.restingState k := fun he hd => by
        rw [hustate, hbrest]
        unfold State.restingState
        rw [he, hd, hurec]
      rw [Turn.refreshClass_eq]
      dsimp only
      rw [← hu]
      split
      · next hq =>
        split
        · exact hmoved
        · next hne =>
          have he : b.effClass k = u.st.effClass k := by simpa using hne
          refine hclose (.inl (hsame he ?_))
          have := (State.effClass_of_resting_queued (hbrest.symm.trans (hustate.symm.trans hq))).2.2
          rw [hurec, this]
          rfl
      · next hp =>
        split
        · exact hmoved
        · next hfree =>
          have hd : (u.st.record k).declined = (b.record k).declined := by
            rw [hurec] at hfree ⊢
            revert hfree
            cases (b.record k).declined <;> cases claimed <;> simp
          by_cases he : b.effClass k = u.st.effClass k
          · exact hclose (.inl (hsame he hd))
          · exact hclose (.inr ⟨hstale k (by simp) (by rwa [hueff] at he), by rw [hp]; simp⟩)
      · next hnq hnp =>
        by_cases he : b.effClass k = u.st.effClass k
        · have hz : b.effClass k = 0 := by
            rw [hustate, hbrest] at hnq hnp
            unfold State.restingState at hnq hnp
            by_contra h0
            rw [if_neg h0] at hnq hnp
            split at hnq
            · exact hnp (if_pos ‹_›)
            · exact hnq rfl
          refine hclose (.inl ?_)
          rw [hustate, hbrest, State.restingState_of_zero hz, State.restingState_of_zero (he ▸ hz)]
        · exact hclose (.inr ⟨hstale k (by simp) (by rwa [hueff] at he), hnq⟩)
    · -- a held record keeps its flags, and is not moved
      rw [List.filter_cons_of_neg (by simpa using hheld)] at hpoised
      have hflags := hb.poised.rested k (by simp)
      unfold State.Rested at hflags
      rw [if_neg hheld] at hflags
      have hself : u.st = t.st.updateKind k := by
        simp only [hu, Turn.change_st]
        exact State.cleared_eq _ _ (by simp [hkb, hflags.2])
      have hnot : t.refreshClass b g claimed k = u := by
        rw [Turn.refreshClass_eq]
        dsimp only
        rw [← hu]
        have hustate : (u.st.record k).state = (b.record k).state := by rw [hurec]
        rw [hustate]
        clear_value u
        revert hheld
        cases (b.record k).state <;> simp [RequestState.unheld]
      rw [hnot, hself]
      exact hpoised.updateKind k
  · rw [Turn.refreshClass_eq]
    dsimp only
    rw [← hu]
    have hul : ∀ j ∈ l, b.effClass j ≤ u.st.effClass j := fun j hj => by rw [hueff]; exact hl j hj
    split
    · split
      · exact huqueue.reactUnheld hul g
      · next hne => exact huqueue.drop (.inr (Eq.symm (by simpa using hne)))
    · next hp =>
      split
      · exact huqueue.reactUnheld hul g
      · exact huqueue.drop (.inl (by rw [hp]; simp))
    · next hq _ => exact huqueue.drop (.inl hq)
  · have hne : k ≠ j := fun e => hk (e ▸ hj)
    rw [Turn.refreshClass_record_other _ _ _ _ hne]
    exact hrecords j (by simp [hj])
  · rw [Turn.refreshClass_effClass]
    exact hstale j (by simp [hj])

end FarWords

end Sys2Proof.Machine
end

