-- ==== Sys2Proof/Proofs/Words.lean ====
section
/-! Proofs: a delivered maintenance word, with all it causes, keeps the agreement. -/

namespace Sys2Proof.Machine

/-! ## What an action on a word leaves -/

/-- A state without its records, queue, engines and transfers, and without the abandoned mark. -/
def State.outer (s : State) : State := { s.still with records := Vector.replicate 10 Record.reset }

theorem State.outer_of_still {s s' : State} (h : s'.still = s.still) : s'.outer = s.outer :=
  congrArg (fun x : State => { x with records := Vector.replicate 10 Record.reset }) h

theorem State.qualifiers_of_outer {s s' : State} (h : s'.outer = s.outer) : s'.qualifiers = s.qualifiers := by
  have e := congrArg State.qualifiers h
  exact e

theorem State.events_of_outer {s s' : State} (h : s'.outer = s.outer) : s'.events = s.events := by
  have e := congrArg State.events h
  exact e

theorem State.role_of_outer {s s' : State} (h : s'.outer = s.outer) : s'.role = s.role := by
  have e := congrArg State.role h
  exact e

@[simp] theorem State.outer_setRecord (s : State) (k : Circuit) (r : Record) : (s.setRecord k r).outer = s.outer := rfl

@[simp] theorem Turn.outer_contest (t : Turn) (g : Spare) : (t.contest g).st.outer = t.st.outer :=
  State.outer_of_still (Turn.still_contest ..)

@[simp] theorem Turn.outer_enterReturning (t : Turn) (g : Spare) (k : Circuit) :
    (t.enterReturning g k).st.outer = t.st.outer := State.outer_of_still (Turn.still_enterReturning ..)

@[simp] theorem Turn.outer_completeReturn (t : Turn) (g : Spare) (k : Circuit) :
    (t.completeReturn g k).st.outer = t.st.outer := State.outer_of_still (Turn.still_completeReturn ..)

@[simp] theorem Turn.outer_rebridge (t : Turn) (g : Spare) (k : Circuit) :
    (t.rebridge g k).st.outer = t.st.outer := State.outer_of_still (Turn.still_rebridge ..)

@[simp] theorem Turn.outer_enterEngine (t : Turn) (g : Spare) (e : EngineState) (a b : Option Nat) :
    (t.enterEngine g e a b).st.outer = t.st.outer := rfl

@[simp] theorem Turn.outer_stepBack (t : Turn) (g : Spare) (k : Circuit) :
    (t.stepBack g k).st.outer = t.st.outer := rfl

@[simp] theorem Turn.outer_endTest (t : Turn) (g : Spare) (r : TestResult) :
    (t.endTest g r).st.outer = t.st.outer := rfl

@[simp] theorem Turn.outer_endLoop (t : Turn) (g : Spare) (r : TestResult) :
    (t.endLoop g r).st.outer = t.st.outer := rfl

@[simp] theorem Turn.outer_becomeFree (t : Turn) (g : Spare) : (t.becomeFree g).st.outer = t.st.outer := rfl

@[simp] theorem Turn.outer_enterLooped (t : Turn) (g : Spare) : (t.enterLooped g).st.outer = t.st.outer := rfl

@[simp] theorem Turn.outer_decline (t : Turn) (g : Spare) (k : Circuit) :
    (t.decline g k).st.outer = t.st.outer := by
  unfold Turn.decline
  dsimp only
  split
  · split
    · exact (State.outer_of_still (Turn.still_drop ..)).trans rfl
    · rfl
  · split
    · exact (State.outer_of_still (Turn.still_drop ..)).trans rfl
    · rfl
  · exact (State.outer_of_still (Turn.still_reactUnheld ..)).trans rfl

/-- No action on a word writes anything but records, queue, engines and transfers. -/
@[simp] theorem Turn.outer_act (t : Turn) (g : Spare) (w : SpanWord) : (t.act g w).st.outer = t.st.outer := by
  unfold Turn.act
  split
  · unfold Turn.actFree; split <;> simp
  · unfold Turn.actPreparing; split <;> simp
  · unfold Turn.actBridged; split <;> (try split) <;> simp
  · unfold Turn.actCarrying; split <;> (try split) <;> simp
  · unfold Turn.actReturning; split <;> (try split) <;> (try split) <;> simp
  · unfold Turn.actUnavailable; split <;> simp
  · unfold Turn.actTesting; split <;> (try split) <;> (try split) <;> simp
  · unfold Turn.actLooped; split <;> simp

@[simp] theorem Turn.qualifiers_act (t : Turn) (g : Spare) (w : SpanWord) :
    (t.act g w).st.qualifiers = t.st.qualifiers := State.qualifiers_of_outer (Turn.outer_act ..)

theorem State.effClass_of_base {s s' : State} (h : s'.base = s.base) (hq : s'.qualifiers = s.qualifiers) (k : Circuit) :
    s'.effClass k = s.effClass k := by
  obtain ⟨hc, hs, _⟩ := State.base_record h k
  refine State.effClass_congr hq ?_
  unfold State.localClass Record.localClass
  rw [hc, hs]

theorem State.farClaim_of_qualifiers {s s' : State} (h : s'.qualifiers = s.qualifiers) (g : Spare) :
    s'.farClaim g = s.farClaim g := by
  unfold State.farClaim State.qualifier
  rw [h]

section Words

variable {w w' : Keep} {X : List Circuit} {G : List Spare} {l : List Circuit} {b s s' : State} {t : Turn} {g : Spare}
  {k : Circuit}

/-! ## All the first reactions -/

theorem State.Refreshing.fold (hb : b.Steady w [] []) (c : Circuit → Bool) (h : t.st.Refreshing w X g b l)
    (hn : l.Nodup) (hl : ∀ j ∈ l.tail, b.effClass j ≤ t.st.effClass j) :
    (l.foldl (fun t k => t.refreshClass b g (c k) k) t).st.Steady w X [g] := by
  induction l generalizing t with
  | nil => exact ⟨h.poised, h.queue.agrees⟩
  | cons k l ih =>
    refine ih (h.refreshClass hb (List.nodup_cons.mp hn).1 hl (c k)) (List.nodup_cons.mp hn).2 fun j hj => ?_
    rw [Turn.refreshClass_effClass]
    exact hl j (List.mem_of_mem_tail hj)

/-- All the first reactions leave engines, qualifiers, classes and offers. -/
theorem Turn.refreshClass_fold (b : State) (g : Spare) (c : Circuit → Bool) (l : List Circuit) (t : Turn) :
    let u := l.foldl (fun t k => t.refreshClass b g (c k) k) t
    (∀ i, u.st.engine i = t.st.engine i) ∧ u.st.qualifiers = t.st.qualifiers ∧ ∀ j, u.st.effClass j = t.st.effClass j := by
  induction l generalizing t with
  | nil => exact ⟨fun _ => rfl, rfl, fun _ => rfl⟩
  | cons k l ih =>
    obtain ⟨he, hq, hc⟩ := ih (t.refreshClass b g (c k) k)
    exact ⟨fun i => (he i).trans (by simp), hq.trans (by simp), fun j => (hc j).trans (by simp)⟩

/-! ## The last reactions -/

/-- The record of a circuit that waits for the offer of its claim on the spare (R7). -/
def Turn.Waits (t : Turn) (g : Spare) (k : Circuit) : Prop :=
  (t.st.record k).state = .quiet ∧ (t.st.engine g).state = .free ∧ (t.st.farClaim g).map (·.1) = some k ∧ g ∉ t.offered

/-- A record being released is asked nothing by its class: its claim is of class 0 whatever its class is. -/
theorem State.Steady.releasingSettles (h : s.Steady w (k :: X) []) (hk : (s.record k).state = .releasing g) :
    s.Steady w X [] := by
  have hret := h.poised.releasing hk
  refine ((h.mono (List.Subset.refl _) (List.nil_subset [g])).settled (by rw [hret]; rfl)
    (fun _ hp => by rw [hret] at hp; cases hp)
    fun hw hrt => absurd (h.poised.timer_none hw fun i => by rw [hk]; simp) hrt).decide fun hw j c hj => ?_
  obtain ⟨h1, h2⟩ := h.poised.contests hw g (by simp) (by simp) j c hj
  refine ⟨h1, fun own ho => (h2 own ho).imp_left fun hx => absurd ?_ hx.2⟩
  have hown := State.contestClaim_circuit ho
  rw [hret] at hown ⊢
  rw [← Option.some.inj hown]

/-- The last reaction of a circuit whose class has changed, and that does not wait. -/
theorem State.Steady.reactLater (h : t.st.Steady w (k :: X) []) (hc : b.effClass k ≠ t.st.effClass k)
    (hw : ¬ t.Waits g k) : (t.reactLater b g k).st.Steady w X [] := by
  unfold Turn.reactLater
  rw [if_neg hc]
  split
  · next o ho => exact h.reactHeld ho _ fun _ h0 hz => absurd (h0.trans hz.symm) hc
  · next o ho => exact h.releasingSettles ho
  · next hq =>
    rw [if_neg fun hx => hw ⟨hq, hx⟩]
    exact h.reactUnheld' (by rw [hq]; rfl) false g
  · next ha hr _ => exact h.reactUnheld' ((RequestState.unheld_iff _).mpr fun i => ⟨ha i, hr i⟩) false g

theorem Turn.reactLater_waits (hw : t.Waits g k) : t.reactLater b g k = t := by
  obtain ⟨hq, hrest⟩ := hw
  unfold Turn.reactLater
  by_cases hc : b.effClass k = t.st.effClass k
  · exact if_pos hc
  · rw [if_neg hc, hq]
    exact if_pos hrest

/-- The circuits of a list whose classes have changed since state b. -/
def State.changedOf (s b : State) (l : List Circuit) : List Circuit := l.filter fun k => b.effClass k != s.effClass k

theorem State.changedOf_cons_of_eq (h : b.effClass k = s.effClass k) : s.changedOf b (k :: l) = s.changedOf b l :=
  List.filter_cons_of_neg (by simpa using h)

theorem State.changedOf_cons_of_ne (h : b.effClass k ≠ s.effClass k) : s.changedOf b (k :: l) = k :: s.changedOf b l :=
  List.filter_cons_of_pos (by simpa using h)

theorem Turn.sources_reactLater (t : Turn) (b : State) (g : Spare) (k : Circuit) :
    (t.reactLater b g k).st.sources = t.st.sources := State.sources_of_still (Turn.still_reactLater ..)

theorem State.changedOf_of_sources (h : s'.sources = s.sources) : s'.changedOf b l = s.changedOf b l := by
  unfold State.changedOf
  simp only [State.effClass_of_sources h]

/-- The last reactions of circuits that the claim on the spare does not name. -/
theorem State.Steady.reactLaters (h : t.st.Steady w (t.st.changedOf b l ++ X) [])
    (hl : ∀ k ∈ l, (t.st.farClaim g).map (·.1) ≠ some k) :
    (l.foldl (fun t k => t.reactLater b g k) t).st.Steady w X []
      ∧ (l.foldl (fun t k => t.reactLater b g k) t).st.sources = t.st.sources := by
  induction l generalizing t with
  | nil => exact ⟨h, rfl⟩
  | cons k l ih =>
    have hsrc := t.sources_reactLater b g k
    have hstep : (t.reactLater b g k).st.Steady w (t.st.changedOf b l ++ X) [] := by
      by_cases hc : b.effClass k = t.st.effClass k
      · rw [State.changedOf_cons_of_eq hc] at h
        unfold Turn.reactLater
        rwa [if_pos hc]
      · rw [State.changedOf_cons_of_ne hc] at h
        exact State.Steady.reactLater h hc fun hx => hl k (by simp) hx.2.2.1
    rw [← State.changedOf_of_sources hsrc] at hstep
    obtain ⟨hs, hsrc'⟩ := ih hstep fun j hj => by
      rw [State.farClaim_of_sources hsrc]
      exact hl j (by simp [hj])
    exact ⟨hs, hsrc'.trans hsrc⟩

/-- The circuits that a change of far word touches: such that the new claim does not name, and behind them perhaps the one it
names. -/
theorem affected_split (old new : Option (Circuit × Nat)) :
    ∃ l m, affected old new = l ++ m ∧ (∀ k ∈ l, new.map (·.1) ≠ some k) ∧ (m = [] ∨ ∃ j, m = [j]) := by
  cases old with
  | none =>
    cases new with
    | none => exact ⟨[], [], rfl, by simp, .inl rfl⟩
    | some y => exact ⟨[], [y.1], rfl, by simp, .inr ⟨y.1, rfl⟩⟩
  | some x =>
    cases new with
    | none => exact ⟨[x.1], [], rfl, by simp, .inl rfl⟩
    | some y =>
      by_cases he : x.1 = y.1
      · exact ⟨[], [x.1], by simp [affected, he], by simp, .inr ⟨x.1, rfl⟩⟩
      · exact ⟨[x.1], [y.1], by simp [affected, he], by simpa using Ne.symm he, .inr ⟨y.1, rfl⟩⟩

/-- Nothing is stale, but perhaps one record that waits for the offer of its claim. -/
def Turn.Offering (w : Keep) (g : Spare) (t : Turn) : Prop :=
  t.st.Steady w [] [] ∨ ∃ j, t.Waits g j ∧ t.st.Steady w [j] []

/-- All the last reactions. -/
theorem State.Steady.lastReactions {old new : Option (Circuit × Nat)}
    (h : t.st.Steady w (t.st.changedOf b (affected old new)) []) (hf : t.st.farClaim g = new) :
    ((affected old new).foldl (fun t k => t.reactLater b g k) t).Offering w g := by
  obtain ⟨l, m, he, hl, hm⟩ := affected_split old new
  rw [he] at h ⊢
  rw [List.foldl_append]
  have happ : t.st.changedOf b (l ++ m) = t.st.changedOf b l ++ t.st.changedOf b m := List.filter_append ..
  rw [happ] at h
  obtain ⟨hs, hsrc⟩ := h.reactLaters (g := g) (by rwa [hf])
  set u := l.foldl (fun t k => t.reactLater b g k) t with hu
  rw [← State.changedOf_of_sources hsrc] at hs
  rcases hm with rfl | ⟨j, rfl⟩
  · exact .inl hs
  · simp only [List.foldl_cons, List.foldl_nil]
    by_cases hc : b.effClass j = u.st.effClass j
    · rw [State.changedOf_cons_of_eq hc] at hs
      unfold Turn.reactLater
      rw [if_pos hc]
      exact .inl hs
    · rw [State.changedOf_cons_of_ne hc] at hs
      by_cases hw : u.Waits g j
      · rw [Turn.reactLater_waits hw]
        exact .inr ⟨j, hw, hs⟩
      · exact .inl (hs.reactLater hc hw)

/-! ## A change of far word -/

/-- An action between the first and the last reactions may rely on the agreement but for the stale records and the contest on
the spare, which it is to decide; it leaves the classes. -/
def ActKeeps (w w' : Keep) (g : Spare) (b : State) (f : Option Half) (act : Turn → Turn) : Prop :=
  ∀ (u : Turn) (X : List Circuit), u.st.Steady w X [g] → (∀ i, u.st.engine i = b.engine i) →
    u.st.qualifiers = (b.setFar g f).qualifiers →
    (act u).st.Steady w' X [] ∧ (act u).st.qualifiers = u.st.qualifiers ∧ ∀ k, (act u).st.effClass k = u.st.effClass k

/-- A turn in which the far word on a spare has been changed and the first reactions made. -/
def Turn.refreshed (t : Turn) (g : Spare) (f : Option Half) : Turn :=
  (affected (t.st.farClaim g) (claimOf f)).foldl
    (fun u k => u.refreshClass t.st g ((claimOf f).map (·.1) = some k) k) (t.change fun s => s.setFar g f)

/-- The last reactions to a change of far word on a turn that began in state b. -/
def Turn.reacted (t : Turn) (b : State) (g : Spare) (f : Option Half) : Turn :=
  (affected (b.farClaim g) (claimOf f)).foldl (fun u k => u.reactLater b g k) t

theorem Turn.changeFar_eq (t : Turn) (g : Spare) (f : Option Half) (act : Turn → Turn) :
    t.changeFar g f act = (act (t.refreshed g f)).reacted t.st g f := rfl

theorem Turn.refreshed_keeps (t : Turn) (g : Spare) (f : Option Half) :
    (∀ i, (t.refreshed g f).st.engine i = t.st.engine i)
      ∧ (t.refreshed g f).st.qualifiers = (t.st.setFar g f).qualifiers
      ∧ ∀ k, (t.refreshed g f).st.effClass k = (t.st.setFar g f).effClass k :=
  Turn.refreshClass_fold t.st g (fun k => (claimOf f).map (·.1) = some k) (affected (t.st.farClaim g) (claimOf f))
    (t.change fun s => s.setFar g f)

theorem State.Steady.refreshed (h : t.st.Steady w [] []) (g : Spare) (f : Option Half) :
    (t.refreshed g f).st.Steady w (t.st.staled g f) [g] := by
  have hbegin : (t.change fun s => s.setFar g f).st.Refreshing w (t.st.staled g f) g t.st
      (affected (t.st.farClaim g) (claimOf f)) := h.setFar g f
  have htail : ∀ j ∈ (affected (t.st.farClaim g) (claimOf f)).tail,
      t.st.effClass j ≤ (t.change fun s => s.setFar g f).st.effClass j := by
    intro j hj
    cases hl : affected (t.st.farClaim g) (claimOf f) with
    | nil => rw [hl] at hj; cases hj
    | cons k l =>
      rw [hl] at hj
      exact t.st.effClass_le_setFar g f (affected_tail hl hj).1
  exact hbegin.fold h (fun k => (claimOf f).map (·.1) = some k) (affected_nodup ..) htail

theorem Turn.sources_reacted (t : Turn) (b : State) (g : Spare) (f : Option Half) :
    (t.reacted b g f).st.sources = t.st.sources := by
  unfold Turn.reacted
  generalize affected (b.farClaim g) (claimOf f) = l
  induction l generalizing t with
  | nil => rfl
  | cons k l ih => exact (ih (t.reactLater b g k)).trans (t.sources_reactLater b g k)

/-- The action has left only the records stale that the change of far word made so. -/
theorem State.Steady.reacted {f : Option Half} (h : t.st.Steady w (b.staled g f) [])
    (hq : t.st.qualifiers = (b.setFar g f).qualifiers) (hc : ∀ k, t.st.effClass k = (b.setFar g f).effClass k) :
    (t.reacted b g f).Offering w g := by
  have hstaled : b.staled g f = t.st.changedOf b (affected (b.farClaim g) (claimOf f)) := by
    unfold State.staled State.changedOf
    simp only [hc]
  rw [hstaled] at h
  refine h.lastReactions ?_
  rw [State.farClaim_of_qualifiers hq, State.setFar_farClaim, if_pos rfl]

theorem State.Steady.changeFar {f : Option Half} {act : Turn → Turn} (h : t.st.Steady w [] [])
    (hact : ActKeeps w w' g t.st f act) :
    (t.changeFar g f act).Offering w' g ∧ (t.changeFar g f act).st.qualifiers = (t.st.setFar g f).qualifiers := by
  obtain ⟨heng, hqual, heff⟩ := t.refreshed_keeps g f
  obtain ⟨hs, hq, hc⟩ := hact (t.refreshed g f) _ (h.refreshed g f) heng hqual
  rw [Turn.changeFar_eq]
  refine ⟨hs.reacted (hq.trans hqual) fun k => (hc k).trans (heff k), ?_⟩
  exact (State.qualifiers_of_sources (Turn.sources_reacted ..)).trans (hq.trans hqual)

/-- A change to a far word that claims nothing leaves nothing waiting. -/
theorem State.Steady.changeFar_unclaimed {f : Option Half} {act : Turn → Turn} (h : t.st.Steady w [] [])
    (hf : claimOf f = none) (hact : ActKeeps w w' g t.st f act) : (t.changeFar g f act).st.Steady w' [] [] := by
  obtain ⟨hs, hq⟩ := h.changeFar hact
  refine hs.resolve_right ?_
  rintro ⟨j, ⟨_, _, hclaim, _⟩, _⟩
  rw [State.farClaim_of_qualifiers hq, State.setFar_farClaim, if_pos rfl, hf] at hclaim
  cases hclaim

/-- The spare has no far claim after a change to a word that claims nothing. -/
theorem State.farClaim_of_setFar {f : Option Half} (h : s.qualifiers = (b.setFar g f).qualifiers) :
    s.farClaim g = claimOf f := by
  rw [State.farClaim_of_qualifiers h, State.setFar_farClaim, if_pos rfl]

theorem ActKeeps.id : ActKeeps w w g b none id := fun _ _ hu _ hq =>
  ⟨hu.decide fun _ => .of_unclaimed (State.farClaim_of_setFar hq), rfl, fun _ => rfl⟩

/-- The confirmation of a loop (R94). -/
theorem ActKeeps.confirmLoop {d e : Byte} (hb : (b.engine g).state = .testing (.ask d)) :
    ActKeeps w w g b none fun t => t.confirmLoop g e := fun u _ hu he hq =>
  ⟨((hu.decide fun _ => .of_unclaimed (State.farClaim_of_setFar hq)).reidle (by rw [he, hb]; rfl)
      (by rw [he, hb]; simp) (.testing .run) rfl (by simp) none _ ⟨rfl, rfl⟩), rfl,
    fun k => State.effClass_of_sources (State.sources_of_still (Turn.still_enterEngine u g (.testing .run) none _)) k⟩

theorem ActKeeps.putReason {x : Reason} {v : Bool} (hf : w'.full → w.full)
    (hr : ∀ i, i ≠ g → ∀ r, w.reasons i r → w'.reasons i r) (hg : ∀ r, w.reasons g r → r.has x = v → w'.reasons g r)
    (ha : ∀ r, w.reasons g r → w'.reasons g (r.put x v)) :
    ActKeeps w w' g b none fun t => t.putReason g x v := fun u _ hu _ hq =>
  have hsrc := State.sources_of_still (Turn.still_putReason u g x v)
  ⟨(hu.decide fun _ => .of_unclaimed (State.farClaim_of_setFar hq)).putReason x v hf hr hg ha,
    State.qualifiers_of_sources hsrc, State.effClass_of_sources hsrc⟩

end Words

end Sys2Proof.Machine
end

