-- ==== Sys2Proof/Proofs/Deliveries.lean ====
section
/-! Proofs: an engine's action on a taken word, the taking of a word and its delivery keep the agreement. -/

namespace Sys2Proof.Machine

/-- The circuit and class that a word claims (R3). -/
def SpanWord.claimed : SpanWord → Option (Circuit × Nat)
  | .claim k c => some (k, c)
  | .carry k c => some (k, c)
  | _ => none

theorem claimOf_eq_claimed {f : Option Half} {said : SpanWord} (h : f.bind spanWord = some said) :
    claimOf f = said.claimed := by
  unfold claimOf
  rw [h]
  cases said <;> rfl

section Deliveries

variable {w w' : Keep} {X : List Circuit} {G : List Spare} {b s s' : State} {t : Turn} {g : Spare} {k : Circuit}
  {said : SpanWord}

/-! ## Engines without a circuit -/

theorem State.Steady.endTest (h : t.st.Steady w X G) (g : Spare) (r : TestResult) : (t.endTest g r).st.Steady w X G :=
  h.of_same rfl rfl (fun _ => rfl) fun i => by
    by_cases hi : g = i
    · subst hi; simp [Turn.endTest, Engine.stance]
    · simp [Turn.endTest, hi]

@[simp] theorem Turn.endTest_engine_state (t : Turn) (g : Spare) (r : TestResult) :
    ((t.endTest g r).st.engine g).state = (t.st.engine g).state := by simp [Turn.endTest]

@[simp] theorem Turn.endLoop_st (t : Turn) (g : Spare) (r : TestResult) : (t.endLoop g r).st = t.st := rfl

/-- An engine that holds no circuit and is not UNAVAILABLE. -/
def State.Idle (s : State) (g : Spare) : Prop :=
  (s.engine g).state.circuit = none ∧ (s.engine g).state ≠ .unavailable

theorem State.Idle.of_state (h : (s.engine g).state = .free ∨ (s.engine g).state = .looped
    ∨ ∃ ph, (s.engine g).state = .testing ph) : s.Idle g := by
  rcases h with e | e | ⟨ph, e⟩ <;> simp [State.Idle, e, EngineState.circuit]

theorem State.Steady.becomeFree (h : t.st.Steady w X G) (hi : t.st.Idle g) : (t.becomeFree g).st.Steady w X G :=
  h.reidle hi.1 hi.2 .free rfl (by simp) none none ⟨rfl, rfl⟩

theorem State.Steady.enterLooped (h : t.st.Steady w X G) (hi : t.st.Idle g) : (t.enterLooped g).st.Steady w X G :=
  h.reidle hi.1 hi.2 .looped rfl (by simp) none none ⟨rfl, rfl⟩

/-- The end of a test leaves the engine idle, and then FREE. -/
theorem State.Steady.testOver (h : t.st.Steady w X G) (hi : t.st.Idle g) (r : TestResult) :
    ((t.endTest g r).becomeFree g).st.Steady w X G :=
  (h.endTest g r).becomeFree (by simpa [State.Idle] using hi)

theorem Turn.becomeFree_idle (t : Turn) (g : Spare) : (t.becomeFree g).st.Idle g :=
  State.Idle.of_state (.inl (by simp [Turn.becomeFree]))

/-- A decline leaves an engine that holds no circuit. -/
theorem State.Steady.decline_engine (h : t.st.Steady w X G) (hg : (t.st.engine g).state.circuit = none) (j : Circuit) :
    (t.decline g j).st.engine g = t.st.engine g := by
  unfold Turn.decline
  dsimp only
  split
  · next o ho =>
    have hne : o ≠ g := fun e => by rw [← e, h.poised.holder (.inl ho)] at hg; cases hg
    rw [if_neg hne]
  · next o ho =>
    have hne : o ≠ g := fun e => by rw [← e, h.poised.holder (.inr ho)] at hg; cases hg
    rw [if_neg hne]
  · rw [Turn.reactUnheld_engine]
    rfl

theorem State.Steady.decline_idle (h : t.st.Steady w X G) (hi : t.st.Idle g) (j : Circuit) :
    (t.decline g j).st.Idle g := by
  unfold State.Idle
  rw [h.decline_engine hi.1]
  exact hi

/-! ## Words that claim nothing -/

theorem State.Steady.actFree (h : t.st.Steady w X []) (he : (t.st.engine g).state = .free)
    (hw : said.claimed = none) : (t.actFree g said).st.Steady w X [] := by
  cases said
  case claim j c => cases hw
  case carry j c => cases hw
  case decline j => exact h.decline g j
  case loop => exact h.enterLooped (.of_state (.inl he))
  all_goals exact h

theorem State.Steady.actUnavailable (h : t.st.Steady w X []) (hw : said.claimed = none) :
    (t.actUnavailable g said).st.Steady w X [] := by
  cases said
  case claim j c => cases hw
  case carry j c => cases hw
  case decline j => exact h.decline g j
  all_goals exact h

theorem State.Steady.actHolding (h : t.st.Steady w X []) (hk : (t.st.engine g).state.circuit = some k)
    (hw : said.claimed = none) :
    (t.actPreparing g said).st.Steady w X [] ∧ (t.actBridged g k said).st.Steady w X []
      ∧ (t.actCarrying g k said).st.Steady w X [] ∧ (t.actReturning g k said).st.Steady w X [] := by
  have h' : t.st.Steady w (k :: X) [] := h.mono (List.subset_cons_self k X) (List.nil_subset _)
  have hret : (t.enterReturning g k).st.Steady w X [] :=
    (h'.mono (List.Subset.refl _) (List.nil_subset [g])).enterReturning hk
  have hdone : (t.completeReturn g k).st.Steady w X [] := h'.completeReturn hk
  cases said
  case claim j c => cases hw
  case carry j c => cases hw
  case vacant => exact ⟨h, h, h, hdone⟩
  case yield j =>
    refine ⟨h, ?_, ?_, ?_⟩
    · unfold Turn.actBridged
      dsimp only
      split
      · exact hret
      · exact h
    · unfold Turn.actCarrying
      dsimp only
      split
      · exact hret
      · exact h
    · unfold Turn.actReturning
      dsimp only
      split
      · exact hdone
      · exact h
  case decline j => exact ⟨h.decline g j, h.decline g j, h.decline g j, h.decline g j⟩
  case barred d => exact ⟨h, h, h, h⟩
  case loop => exact ⟨h, h, h, h⟩
  case unloop => exact ⟨h, h, h, h⟩

theorem State.Steady.actTesting (h : t.st.Steady w X []) (ph : TestPhase) (he : (t.st.engine g).state = .testing ph)
    (hw : said.claimed = none) : (t.actTesting g ph said).st.Steady w X [] := by
  have hi : t.st.Idle g := .of_state (.inr (.inr ⟨ph, he⟩))
  have ends : ∀ r, ((t.endTest g r).becomeFree g).st.Steady w X [] := fun r => h.testOver hi r
  have endsLooped : ∀ r, (((t.endTest g r).becomeFree g).enterLooped g).st.Steady w X [] := fun r =>
    (ends r).enterLooped (Turn.becomeFree_idle ..)
  unfold Turn.actTesting
  cases said
  case claim j c => cases hw
  case carry j c => cases hw
  case loop =>
    cases ph
    case ask d =>
      dsimp only
      split
      · exact h
      · exact (h.endTest g _).enterLooped (by simpa [State.Idle] using hi)
    case run => exact endsLooped _
    case ending r => exact endsLooped _
  case decline j =>
    have hd := (h.decline g j).testOver (h.decline_idle hi j)
    cases ph
    case ask d => exact h.decline g j
    case run => exact hd _
    case ending r => exact hd _
  case barred d => exact h
  all_goals
    cases ph
    case ask d => exact h
    case run => exact ends _
    case ending r => exact ends _

theorem State.Steady.actLooped (h : t.st.Steady w X []) (he : (t.st.engine g).state = .looped)
    (hw : said.claimed = none) : (t.actLooped g said).st.Steady w X [] := by
  have hi : t.st.Idle g := .of_state (.inr (.inl he))
  unfold Turn.actLooped
  cases said
  case claim j c => cases hw
  case carry j c => cases hw
  case loop => exact (h.becomeFree hi).enterLooped (Turn.becomeFree_idle ..)
  case decline j => exact (h.decline g j).becomeFree (h.decline_idle hi j)
  case barred d => exact h
  all_goals exact h.becomeFree hi

/-- An engine's action on a word that claims nothing. -/
theorem State.Steady.act_unclaimed (h : t.st.Steady w X []) (hw : said.claimed = none) :
    (t.act g said).st.Steady w X [] := by
  unfold Turn.act
  split
  · next he => exact h.actFree he hw
  · next k he => exact (h.actHolding (k := k) (by rw [he]; rfl) hw).1
  · next k he => exact (h.actHolding (k := k) (by rw [he]; rfl) hw).2.1
  · next k he => exact (h.actHolding (k := k) (by rw [he]; rfl) hw).2.2.1
  · next k he => exact (h.actHolding (k := k) (by rw [he]; rfl) hw).2.2.2
  · exact h.actUnavailable hw
  · next ph he => exact h.actTesting ph he hw
  · next he => exact h.actLooped he hw

/-! ## Words that claim a circuit -/

/-- The contest is decided where the engine holds the circuit that the far end claims. -/
theorem State.Decided.of_agreed {j : Circuit} {c : Nat} (hf : s.farClaim g = some (j, c))
    (hk : (s.engine g).state.circuit = some j) : s.Decided X g := by
  intro j' c' hj
  rw [hf] at hj
  cases hj
  refine ⟨fun i hi => ?_, fun own ho => .inr (.inl ?_)⟩
  · rw [hi] at hk; exact Option.some.inj hk
  · exact Option.some.inj ((State.contestClaim_circuit ho).symm.trans hk)

/-- An engine's action on a word that claims circuit j: CLAIM(j), or CARRY(j). -/
theorem State.Steady.act_claimed (h : t.st.Steady w X [g]) {j : Circuit} {c : Nat}
    (hw : said = .claim j c ∨ said = .carry j c) (hf : t.st.farClaim g = some (j, c)) :
    (t.act g said).st.Steady w X [] := by
  have agreed : ∀ u : Turn, u.st.Steady w X [g] → u.st.sources = t.st.sources →
      (u.st.engine g).state.circuit = some j → u.st.Steady w X [] := fun u hu hsrc hc =>
    hu.decide fun _ => .of_agreed ((State.farClaim_of_sources hsrc g).trans hf) hc
  have empty : ∀ u : Turn, u.st.Steady w X [g] → (u.st.engine g).state.circuit = none → u.st.Steady w X [] :=
    fun u hu hc => hu.decide fun _ => .of_empty hc
  have contested : (∀ i, (t.st.engine g).state ≠ .carrying i) → (t.contest g).st.Steady w X [] := fun hn =>
    h.contest fun _ i _ _ hi => absurd hi (hn i)
  have hfree : ∀ hi : t.st.Idle g, ((t.endTest g .overtaken).becomeFree g).st.Steady w X []
      ∧ ((t.endLoop g .overtaken).becomeFree g).st.Steady w X [] := fun hi =>
    ⟨empty _ (h.testOver hi _) (by simp [Turn.becomeFree, EngineState.circuit]),
      empty _ (h.becomeFree hi) (by simp [Turn.becomeFree, EngineState.circuit])⟩
  unfold Turn.act
  split
  · next he =>
    have : t.actFree g said = t := by rcases hw with rfl | rfl <;> rfl
    rw [this]
    exact empty t h (by rw [he]; rfl)
  · next k he =>
    have : t.actPreparing g said = t.contest g := by rcases hw with rfl | rfl <;> rfl
    rw [this]
    exact contested (by simp [he])
  · next k he =>
    rcases hw with rfl | rfl
    · exact contested (by simp [he])
    · unfold Turn.actBridged
      dsimp only
      split
      · next e =>
        subst e
        refine agreed _ (h.rehold (h.poised.assigned_of (.inr (.inl he))) (.carrying j) (.inr rfl) none rfl) rfl ?_
        simp [EngineState.circuit]
      · exact contested (by simp [he])
  · next k he =>
    have stepped : ((t.stepBack g k).contest g).st.Steady w X [] := by
      refine State.Steady.contest (t := t.stepBack g k)
        (h.rehold (h.poised.assigned_of (.inr (.inr he))) (.bridged k) (.inl rfl) _ rfl) fun _ i _ _ hi => ?_
      simp [Turn.stepBack] at hi
    rcases hw with rfl | rfl
    · exact stepped
    · unfold Turn.actCarrying
      dsimp only
      split
      · next e =>
        subst e
        exact agreed t h rfl (by rw [he]; rfl)
      · exact stepped
  · next k he =>
    have rebridged : j = k → (t.rebridge g k).st.Steady w X [] := fun e => by
      subst e
      refine agreed _ ((h.mono (List.subset_cons_self j X) (List.Subset.refl _)).rebridge (by rw [he]; rfl))
        (State.sources_of_still (Turn.still_rebridge ..)) ?_
      simp [Turn.rebridge, EngineState.circuit]
    unfold Turn.actReturning
    rcases hw with rfl | rfl
    · dsimp only
      split
      · next e => exact rebridged e
      · exact contested (by simp [he])
    · dsimp only
      split
      · next e =>
        split
        · exact rebridged e
        · exact agreed t h rfl (by rw [he, e]; rfl)
      · exact contested (by simp [he])
  · next he =>
    have : t.actUnavailable g said = t := by rcases hw with rfl | rfl <;> rfl
    rw [this]
    exact empty t h (by rw [he]; rfl)
  · next ph he =>
    have : t.actTesting g ph said = (t.endTest g .overtaken).becomeFree g := by rcases hw with rfl | rfl <;> rfl
    rw [this]
    exact (hfree (.of_state (.inr (.inr ⟨ph, he⟩)))).1
  · next he =>
    have : t.actLooped g said = (t.endLoop g .overtaken).becomeFree g := by rcases hw with rfl | rfl <;> rfl
    rw [this]
    exact (hfree (.of_state (.inr (.inl he)))).2

theorem State.Steady.act (h : t.st.Steady w X [g]) (hf : t.st.farClaim g = said.claimed) :
    (t.act g said).st.Steady w X [] := by
  cases hs : said.claimed with
  | none => exact (h.decide fun _ => .of_unclaimed (hf.trans hs)).act_unclaimed hs
  | some x =>
    refine h.act_claimed (j := x.1) (c := x.2) ?_ (hf.trans hs)
    cases said <;> simp_all [SpanWord.claimed] <;> simp [← hs]

/-! ## A taken word -/

/-- What is asked of the reasons leaves every reason free but OFF and LINE. -/
def Keep.Lax (w : Keep) : Prop :=
  ∀ g r x v, x ≠ .off → x ≠ .line → w.reasons g r → w.reasons g (r.put x v)

theorem Reasons.taken_eq (r : Reasons) (said : SpanWord) :
    r.taken said = (r.put .silent false).put .far (match said with | .barred _ => true | _ => false) := by
  cases said <;> rfl

/-- What is asked of the reasons after a word is asked of the reasons before it. -/
structure Keep.Takes (w w' : Keep) (g : Spare) (said : SpanWord) : Prop where
  full : w'.full → w.full
  others : ∀ i, i ≠ g → ∀ r, w.reasons i r → w'.reasons i r
  taken : ∀ r, w.reasons g r → w'.reasons g (r.taken said)

theorem Keep.Lax.takes (hw : w.Lax) (g : Spare) (said : SpanWord) : w.Takes w g said where
  full := id
  others := fun _ _ _ hr => hr
  taken := fun r hr => by
    rw [Reasons.taken_eq]
    exact hw g _ _ _ (by simp) (by simp) (hw g _ _ _ (by simp) (by simp) hr)

theorem State.Steady.takeReasons (h : t.st.Steady w X G) (hw : w.Takes w' g said) :
    (t.takeReasons g said).st.Steady w' X G := by
  unfold Turn.takeReasons
  dsimp only
  split
  · next he =>
    refine ⟨h.poised.rewatch hw.full fun i => ?_, h.queue⟩
    by_cases hi : i = g
    · subst hi
      rw [he]
      exact hw.taken _ (h.poised.watched i)
    · exact hw.others i hi _ (h.poised.watched i)
  · exact h.setReasons _ hw.full hw.others (hw.taken _ (h.poised.watched g))

theorem State.Steady.revokeIfGone (h : t.st.Steady w X G) (g : Spare) : (t.revokeIfGone g).st.Steady w X G := by
  unfold Turn.revokeIfGone
  split
  · next k he =>
    split
    · exact (h.mono (List.subset_cons_self k X) (List.Subset.refl _)).drop (by rw [he]; rfl)
    · exact h
  · exact h

theorem ActKeeps.take {f : Half} (hw : w.Takes w' g said) (hs : spanWord f = some said) :
    ActKeeps w w' g b (some f) fun t => ((t.takeReasons g said).revokeIfGone g).act g said := fun u _ hu _ hq => by
  have hsrc : ((u.takeReasons g said).revokeIfGone g).st.sources = u.st.sources := State.sources_of_still (by simp)
  have hbase : (((u.takeReasons g said).revokeIfGone g).act g said).st.base = u.st.base := by
    rw [Turn.base_act]
    exact State.base_of_still (by simp)
  have hqual : (((u.takeReasons g said).revokeIfGone g).act g said).st.qualifiers = u.st.qualifiers := by
    rw [Turn.qualifiers_act, State.qualifiers_of_sources hsrc]
  refine ⟨((hu.takeReasons hw).revokeIfGone g).act ?_, hqual, State.effClass_of_base hbase hqual⟩
  rw [State.farClaim_of_sources hsrc, State.farClaim_of_setFar hq]
  exact claimOf_eq_claimed (by simpa using hs)

/-- The offer of a standing claim to a FREE engine: it takes nothing, or the circuit claimed is held afterwards. -/
theorem State.Steady.offerStale (h : t.st.Steady w (k :: X) []) (hg : (t.st.engine g).state = .free)
    (hd : ∀ j c, t.st.farClaim g = some (j, c) → k = j) (hu : (t.st.record k).state.unheld = true) :
    t.offer g k = t.noteOffer g ∨
      ((t.offer g k).st.Steady w X [] ∧ ((t.offer g k).st.record k).state = .assigned g) := by
  rcases t.offer_cases g k with ⟨he, _⟩ | ⟨hb, hdec, hz, ⟨_, he⟩ | ⟨o, _, ho, he⟩⟩
  · exact .inl he
  · refine .inr ?_
    rw [he]
    refine ⟨State.Steady.grant (t := t.noteOffer g) h ?_ ?_ hu ⟨hb, hdec⟩ (fun _ => hz) fun _ _ j c hj =>
      .inl (hd j c hj), by simp⟩
    · intro j
      simp [hg, EngineState.circuit]
    · simp [hg]
  · have hu' := (RequestState.unheld_iff _).mp hu o
    exact absurd ho (by simp [hu'.1, hu'.2])

/-- The reaction of a record that the offer of its claim has not taken. -/
def Turn.afterOffer (t : Turn) (g : Spare) (k : Circuit) : Turn :=
  match (t.st.record k).state with
  | .assigned _ => t
  | .releasing _ => t
  | _ => t.reactUnheld g k false

theorem Turn.afterOffer_held (t : Turn) (g : Spare) {o : Spare}
    (h : (t.st.record k).state = .assigned o ∨ (t.st.record k).state = .releasing o) : t.afterOffer g k = t := by
  unfold Turn.afterOffer
  rcases h with e | e <;> rw [e]

theorem Turn.afterOffer_unheld (t : Turn) (g : Spare) (h : (t.st.record k).state.unheld = true) :
    t.afterOffer g k = t.reactUnheld g k false := by
  unfold Turn.afterOffer
  split
  · next o ho => rw [ho] at h; cases h
  · next o ho => rw [ho] at h; cases h
  · rfl

theorem Turn.offerStanding_eq (t : Turn) (g : Spare) :
    t.offerStanding g = match t.st.farClaim g with
      | some c => if (t.st.engine g).state = .free ∧ g ∉ t.offered then (t.offer g c.1).afterOffer g c.1 else t
      | none => t := by
  unfold Turn.offerStanding Turn.afterOffer
  cases t.st.farClaim g <;> rfl

theorem State.Steady.afterOffer (h : t.st.Steady w X []) (g : Spare) (k : Circuit) :
    (t.afterOffer g k).st.Steady w X [] := by
  by_cases hu : (t.st.record k).state.unheld = true
  · rw [Turn.afterOffer_unheld _ _ hu]
    exact (h.mono (List.subset_cons_self k X) (List.Subset.refl _)).reactUnheld' hu false g
  · unfold Turn.afterOffer
    split
    · exact h
    · exact h
    · next ha hr => exact absurd ((RequestState.unheld_iff _).mpr fun i => ⟨ha i, hr i⟩) hu

/-- After the offer of a standing claim nothing waits. -/
theorem Turn.Offering.offerStanding (h : t.Offering w g) : (t.offerStanding g).st.Steady w [] [] := by
  rw [Turn.offerStanding_eq]
  rcases h with h | ⟨j, ⟨hq, hfree, hclaim, hoff⟩, h⟩
  · split
    · next c hc =>
      split
      · next hg =>
        exact (h.offer hg.1 fun _ _ j' c' hj => by rw [hc] at hj; rw [Option.some.inj hj]).afterOffer g c.1
      · exact h
    · exact h
  · cases hc : t.st.farClaim g with
    | none => rw [hc] at hclaim; cases hclaim
    | some c =>
      rw [hc] at hclaim
      obtain rfl : c.1 = j := Option.some.inj hclaim
      dsimp only
      rw [if_pos ⟨hfree, hoff⟩]
      have hu : (t.st.record c.1).state.unheld = true := by rw [hq]; rfl
      rcases h.offerStale hfree (fun j' c' hj => by rw [hc] at hj; rw [Option.some.inj hj]) hu with e | ⟨hs, ha⟩
      · rw [e, Turn.afterOffer_unheld (t.noteOffer g) g hu]
        exact State.Steady.reactUnheld' (t := t.noteOffer g) h hu false g
      · rw [Turn.afterOffer_held _ _ (.inl ha)]
        exact hs

theorem State.Steady.post (h : s.Steady w X G) (e : Event) : (s.post e).Steady w X G := h.postAll [e]

theorem State.Steady.take (h : t.st.Steady w [] []) (hw : w.Takes w' g said) {f : Half} (hs : spanWord f = some said) :
    (t.take g f said).st.Steady w' [] [] := by
  refine Turn.Offering.offerStanding ?_
  exact (State.Steady.changeFar (t := t.change fun s => s.post (wordEvent .farWord g f)) (h.post _)
    (ActKeeps.take hw hs)).1

/-! ## Delivery -/

theorem State.Steady.deliver (h : t.st.Steady w [] []) (hw : w.Lax) (f : Half) : (t.deliver g f).st.Steady w [] [] := by
  have posted : ∀ e, ((t.change fun s => s.post e).changeFar g none id).st.Steady w [] [] := fun e =>
    State.Steady.changeFar_unclaimed (t := t.change fun s => s.post e) (h.post e) rfl ActKeeps.id
  unfold Turn.deliver
  split
  · exact posted _
  · next said hs =>
    split
    · split
      · next d hd =>
        refine h.changeFar_unclaimed rfl (ActKeeps.confirmLoop (d := d) ?_)
        unfold EngineState.asking at hd
        split at hd
        · next d' he =>
          cases hd
          exact he
        · cases hd
      · exact posted _
    · exact h.take (hw.takes g said) hs

theorem State.Steady.setQualifier (h : s.Steady w X G) (q : Qualifier) (hq : q.far = (s.qualifier g).far) :
    (s.setQualifier g q).Steady w X G := by
  have hclaim : ∀ i, (s.setQualifier g q).farClaim i = s.farClaim i := fun i => by
    unfold State.farClaim
    rw [State.setQualifier_qualifier]
    split
    · next e => subst e; rw [hq]
    · rfl
  have heff : ∀ k, (s.setQualifier g q).effClass k = s.effClass k := fun k => by
    unfold State.effClass State.localClass State.farClass
    simp only [hclaim, State.setQualifier_record]
  refine ⟨?_, h.queue.of_classes heff rfl fun _ => rfl⟩
  exact {
    reasons := h.poised.reasons
    watched := h.poised.watched
    pairs := h.poised.pairs
    offSpare := h.poised.offSpare
    offRecord := h.poised.offRecord
    rested := fun k hk => by
      have := h.poised.rested k hk
      unfold State.Rested State.restingState at this ⊢
      rw [heff]
      exact this
    classZero := fun hw i k hi hp => by rw [heff]; exact h.poised.classZero hw i k hi hp
    returnTimers := fun hw k hk hrt => by rw [heff]; exact h.poised.returnTimers hw k hk hrt
    engineTimers := h.poised.engineTimers
    contests := fun hw i hi hi' j c hj => by
      rw [hclaim] at hj
      obtain ⟨h1, h2⟩ := h.poised.contests hw i hi hi' j c hj
      refine ⟨h1, fun own ho => h2 own ?_⟩
      rw [← ho]
      unfold State.contestClaim State.localClass
      simp only [heff, State.setQualifier_engine, State.setQualifier_record] }

theorem Qualifier.received_far (q : Qualifier) (f : Half) : (q.received f).far = q.far := by
  unfold Qualifier.received
  split
  · split <;> rfl
  · rfl

theorem State.Steady.qualifyGood (h : t.st.Steady w [] []) (hw : w.Lax) (g : Spare) (f : Half) :
    (t.qualifyGood g f).st.Steady w [] [] := by
  have hset : ∀ q : Qualifier, q.far = (t.st.qualifier g).far →
      (t.change fun s => s.setQualifier g q).st.Steady w [] [] := fun q hq => h.setQualifier q hq
  unfold Turn.qualifyGood
  dsimp only
  split
  · exact hset _ rfl
  · split
    · have hs := hset { (t.st.qualifier g).received f with settled := true } (Qualifier.received_far ..)
      split
      · exact State.Steady.deliver (t := t.change fun s => s.setQualifier g _) hs hw _
      · exact hs
    · exact hset _ (Qualifier.received_far ..)

end Deliveries

end Sys2Proof.Machine
end

