-- ==== Sys2Proof/Proofs/Whole.lean ====
section
/-! Proofs: between two events.  State.Whole is the agreement with all or nothing of what ProtocolLegal asks besides, so that
both are kept by one proof; an event keeps it where it leaves the part that it reads, or ends in a settled turn. -/

namespace Sys2Proof.Machine

/-- What is asked of the reasons between two events: OFF while protection is disabled, LINE while the port is DOWN. -/
def State.keep (s : State) (full : Prop) : Keep where
  full := full
  reasons := fun g r => full → r.off = !s.regs.enable ∧ r.line = (s.condition (sparePort g)).down

/-- The agreement between two events, and with it, where full holds, what ProtocolLegal asks besides. -/
structure State.Whole (full : Prop) (s : State) : Prop where
  steady : s.Steady (s.keep full) [] []
  classes : full → s.ClassesInRange
  cond : full → s.CondAgrees

section Whole

variable {full : Prop} {w : Keep} {X : List Circuit} {G : List Spare} {s s' : State} {t : Turn} {g : Spare} {k : Circuit}

/-! ## The two agreements -/

theorem State.rested_iff (s : State) (k : Circuit) :
    s.Rested [] k ↔ match (s.record k).state with
      | .assigned _ => (s.record k).barred = false ∧ (s.record k).declined = false
      | .releasing _ => (s.record k).barred = false ∧ (s.record k).declined = false
      | r => r = s.restingState k := by
  unfold State.Rested
  cases (s.record k).state <;> simp [RequestState.unheld]

theorem State.decided_iff (s : State) (g : Spare) :
    s.Decided [] g ↔ match (s.engine g).state, s.farClaim g with
      | .carrying k, some (j, _) => k = j
      | _, some far => ∀ own ∈ s.contestClaim g, own.1 = far.1 ∨ beforeClaim own far = true
      | _, none => True := by
  unfold State.Decided
  cases hf : s.farClaim g with
  | none => cases he : (s.engine g).state <;> simp
  | some far =>
    cases he : (s.engine g).state <;> simp [State.contestClaim, he] <;> grind

theorem Engine.timersAgree_iff (e : Engine) :
    e.TimersAgree ↔ e.answerTimer.isSome =
      (match e.state with
        | .bridged _ => true
        | .returning _ => true
        | .testing (.ask _) => true
        | .testing (.ending _) => true
        | _ => false) ∧ e.testTimer.isSome = (e.state == .testing .run) := by
  unfold Engine.TimersAgree
  have : e.state.answers = (match e.state with
      | .bridged _ => true
      | .returning _ => true
      | .testing (.ask _) => true
      | .testing (.ending _) => true
      | _ => false) := by
    cases e.state with
    | testing ph => cases ph <;> rfl
    | _ => rfl
  rw [this]

theorem State.Steady.agreement (h : s.Steady w [] []) : s.Agreement where
  reasons := fun g => h.poised.reasons g (by simp)
  holding := fun k g => h.poised.pairs k g (by simp) (by simp)
  resting := fun k => (s.rested_iff k).mp (h.poised.rested k (by simp))
  queue := h.queue

/-- The agreement, and where it is asked for what goes with it. -/
theorem State.Agreement.steady (h : s.Agreement) (hr : ∀ g, w.reasons g (s.engine g).reasons)
    (hf : w.full → s.ClassZeroAgrees ∧ s.ReturnTimersAgree ∧ s.EngineTimersAgree ∧ s.ContestsDecided) :
    s.Steady w [] [] where
  queue := h.queue
  poised := {
    reasons := fun g _ => h.reasons g
    watched := hr
    pairs := fun k g _ _ => h.holding k g
    offSpare := fun k g _ hg => absurd hg (by simp)
    offRecord := fun k g hk _ => absurd hk (by simp)
    rested := fun k _ => (s.rested_iff k).mpr (h.resting k)
    classZero := fun hw g k _ hp => .inr ((hf hw).1 g k hp)
    returnTimers := fun hw k _ hrt => by
      obtain ⟨hz, g, hg⟩ := (hf hw).2.1 k hrt
      exact ⟨.inr hz, g, by simp, hg⟩
    engineTimers := fun hw g _ => (Engine.timersAgree_iff _).mpr ((hf hw).2.2.1 g)
    contests := fun hw g _ _ => (s.decided_iff g).mpr ((hf hw).2.2.2 g) }

theorem State.whole_of_agreement (h : s.Agreement) : s.Whole False :=
  ⟨h.steady (fun _ hf => hf.elim) fun hf => hf.elim, fun hf => hf.elim, fun hf => hf.elim⟩

theorem State.whole_of_protocolLegal (h : s.ProtocolLegal) : s.Whole True :=
  ⟨h.agreement.steady (fun g _ => ⟨h.off g, h.line g⟩) fun _ => ⟨h.classZero, h.returnTimers, h.engineTimers, h.contests⟩,
    fun _ => h.classes, fun _ => h.cond⟩

theorem State.Whole.protocolLegal (h : s.Whole True) : s.ProtocolLegal where
  agreement := h.steady.agreement
  classes := h.classes trivial
  off := fun g => (h.steady.poised.watched g trivial).1
  line := fun g => (h.steady.poised.watched g trivial).2
  cond := h.cond trivial
  classZero := fun g k hp => (h.steady.poised.classZero trivial g k (by simp) hp).resolve_left (by simp)
  returnTimers := fun k hrt => by
    obtain ⟨hz, g, _, hg⟩ := h.steady.poised.returnTimers trivial k (by simp) hrt
    exact ⟨hz.resolve_left (by simp), g, hg⟩
  engineTimers := fun g => (Engine.timersAgree_iff _).mp (h.steady.poised.engineTimers trivial g (by simp))
  contests := fun g => (s.decided_iff g).mp (h.steady.poised.contests trivial g (by simp) (by simp))

/-! ## Events that leave what the agreement reads -/

/-- The part of a state that the agreement reads. -/
def State.core (s : State) : State :=
  { State.reset with
    records := s.records, queue := s.queue, engines := s.engines, qualifiers := s.qualifiers, conditions := s.conditions
    regs := { Registers.reset with enable := s.regs.enable } }

theorem State.Whole.of_core (h : s.Whole full) (hc : s'.core = s.core) : s'.Whole full := by
  have hrec : s'.records = s.records := by
    have e := congrArg State.records hc
    exact e
  have hqueue : s'.queue = s.queue := by
    have e := congrArg State.queue hc
    exact e
  have heng : s'.engines = s.engines := by
    have e := congrArg State.engines hc
    exact e
  have hqual : s'.qualifiers = s.qualifiers := by
    have e := congrArg State.qualifiers hc
    exact e
  have hcond : s'.conditions = s.conditions := by
    have e := congrArg State.conditions hc
    exact e
  have hen : s'.regs.enable = s.regs.enable := by
    have e := congrArg (fun x : State => x.regs.enable) hc
    exact e
  have hr : ∀ k, s'.record k = s.record k := fun k => by unfold State.record; rw [hrec]
  have hcon : ∀ p, s'.condition p = s.condition p := fun p => by unfold State.condition; rw [hcond]
  have hkeep : s'.keep full = s.keep full := by
    unfold State.keep
    simp only [hen, hcon]
  have hsrc : s'.sources = s.sources := by
    unfold State.sources
    rw [hrec, hqual]
  refine ⟨?_, fun hf k => by rw [hr]; exact h.classes hf k, fun hf k => by rw [hr, hcon]; exact h.cond hf k⟩
  rw [hkeep]
  exact h.steady.of_same hsrc hqueue (fun k => by rw [hr]) fun g => by unfold State.engine; rw [heng]

@[simp] theorem State.core_finish (s : State) : s.finish.core = s.core :=
  State.finish_keeps State.core (fun _ => rfl) (fun _ _ _ _ => rfl) (fun _ _ _ => rfl) s

@[simp] theorem State.core_servePort (s : State) : s.servePort.core = s.core := by
  rcases s.servePort_cases with h | ⟨g, t, i, _, _, _, h⟩ | ⟨e, rest, _, _, h⟩ <;> rw [h] <;> rfl

@[simp] theorem State.core_post (s : State) (e : Event) : (s.post e).core = s.core := by
  unfold State.post
  split
  · rfl
  · split
    · rfl
    · split
      · rfl
      · split <;> rfl

@[simp] theorem State.core_carryBits (s : State) (p : Port) (l : List Bool) : (s.carryBits p l).core = s.core :=
  State.carryBits_keeps State.core (fun _ _ _ _ => rfl) s p l

@[simp] theorem State.core_carryStart (s : State) (p : Port) (l : List Bool) : (s.carryStart p l).core = s.core :=
  State.carryStart_keeps State.core (fun _ _ _ _ => rfl) s p l

@[simp] theorem State.core_frameBoundary (s : State) (p : Port) : (s.frameBoundary p).core = s.core :=
  State.frameBoundary_keeps State.core (fun _ _ => rfl) (fun _ _ => rfl) s p

theorem State.Whole.finish (h : s.Whole full) : s.finish.Whole full := h.of_core s.core_finish

theorem State.Whole.post (h : s.Whole full) (e : Event) : (s.post e).Whole full := h.of_core (s.core_post e)

theorem State.Whole.withResult (h : s.Whole full) (r : CommandResult) : (s.withResult r).Whole full := h.of_core rfl

theorem State.Whole.setMonitor (h : s.Whole full) (p : Port) (m : Monitor) : (s.setMonitor p m).Whole full :=
  h.of_core rfl

/-! ## Events that end in a settled turn -/

theorem State.keep_congr (hc : s'.conditions = s.conditions) (he : s'.regs.enable = s.regs.enable) :
    s'.keep full = s.keep full := by
  unfold State.keep State.condition
  rw [hc, he]

/-- The agreement stands in a state that has the enable, the conditions and the classes of a whole one. -/
theorem State.Whole.of_parts (h : s.Whole full) (hc : s'.conditions = s.conditions)
    (he : s'.regs.enable = s.regs.enable) (hr : ∀ k, (s'.record k).condClass = (s.record k).condClass)
    (hs : ∀ k, (s'.record k).swClass = (s.record k).swClass ∨ (s'.record k).swClass ∈ [0, 1, 4])
    (ht : s'.Steady (s.keep full) [] []) : s'.Whole full := by
  have hcon : ∀ p, s'.condition p = s.condition p := fun p => by unfold State.condition; rw [hc]
  refine ⟨State.keep_congr hc he ▸ ht, fun hf k => ?_, fun hf k => by rw [hr, hcon]; exact h.cond hf k⟩
  refine ⟨(hr k) ▸ (h.classes hf k).1, ?_⟩
  rcases hs k with e | e
  · rw [e]; exact (h.classes hf k).2
  · exact e

theorem State.lines_conditions (h : s'.lines = s.lines) : s'.conditions = s.conditions := by
  have e := congrArg State.conditions h
  exact e

theorem State.lines_enable (h : s'.lines = s.lines) : s'.regs.enable = s.regs.enable := by
  have e := congrArg (fun x : State => x.regs.enable) h
  exact e

theorem State.Whole.of_lines (h : s.Whole full) (hl : s'.lines = s.lines)
    (hr : ∀ k, (s'.record k).condClass = (s.record k).condClass)
    (hs : ∀ k, (s'.record k).swClass = (s.record k).swClass ∨ (s'.record k).swClass ∈ [0, 1, 4])
    (ht : s'.Steady (s.keep full) [] []) : s'.Whole full :=
  h.of_parts (State.lines_conditions hl) (State.lines_enable hl) hr hs ht

theorem State.Whole.of_base (h : s.Whole full) (hb : s'.base = s.base) (ht : s'.Steady (s.keep full) [] []) :
    s'.Whole full :=
  h.of_lines (State.lines_of_base hb) (fun k => (State.base_record hb k).1)
    (fun k => .inl (State.base_record hb k).2.1) ht

/-- An event that is a turn of moves, settled. -/
theorem State.Whole.settled (h : s.Whole full) (hb : t.st.base = s.base) (ht : t.st.Steady (s.keep full) [] [])
    (before : State) : (t.settle before).Whole full :=
  h.of_base (by rw [Turn.base_settle, hb]) (ht.settle before)

theorem State.keep_lax (s : State) (full : Prop) : (s.keep full).Lax := fun g r x v ho hl hr hf => by
  obtain ⟨h1, h2⟩ := hr hf
  cases x
  case off => exact absurd rfl ho
  case line => exact absurd rfl hl
  all_goals exact ⟨h1, h2⟩

/-- A reason other than OFF and LINE is added or removed. -/
theorem State.Whole.putReason (h : s.Whole full) (g : Spare) (x : Reason) (b : Bool) (ho : x ≠ .off) (hl : x ≠ .line) :
    ((s.turn.putReason g x b).settle s).Whole full :=
  h.settled (State.base_of_still (Turn.still_putReason ..))
    (State.Steady.putReason (t := s.turn) h.steady x b id (fun _ _ _ hr => hr) (fun _ hr _ => hr)
      fun r hr => s.keep_lax full g r x b ho hl hr) s

/-- A change of a record's classes within their range, that leaves its cond_class. -/
theorem State.Whole.sourceChange (h : s.Whole full) (k : Circuit) (f : Record → Record)
    (hf : ∀ r, (f r).stance = r.stance ∧ (f r).barred = r.barred ∧ (f r).condClass = r.condClass)
    (hd : ∀ r, (f r).declined = r.declined ∨ (f r).declined = false)
    (hs : ∀ r, (f r).swClass = r.swClass ∨ (f r).swClass ∈ [0, 1, 4]) :
    ((s.turn.sourceChange k f).settle s).Whole full := by
  have hbase : ((s.turn.sourceChange k f).settle s).base = (s.setRecord k (f (s.record k))).base :=
    (Turn.base_settle ..).trans (Turn.base_sourceChange ..)
  refine h.of_lines ((State.lines_of_base hbase).trans (State.lines_setRecord ..)) (fun j => ?_) (fun j => ?_)
    ((h.steady.sourceChange k f (hf _).1 (hf _).2.1 (hd _)).settle s)
  · rw [(State.base_record hbase j).1, State.setRecord_record]
    split
    · next e => subst e; exact (hf _).2.2
    · rfl
  · rw [(State.base_record hbase j).2.1, State.setRecord_record]
    split
    · next e => subst e; exact hs _
    · exact .inl rfl

/-! ## The commands -/

theorem State.Whole.withCircuit (h : s.Whole full) (body : Circuit → State) (hb : ∀ k, (body k).Whole full) :
    (s.withCircuit body).Whole full := by
  unfold State.withCircuit
  split
  · exact hb _
  · exact h.withResult _

theorem State.Whole.withSpare (h : s.Whole full) (body : Spare → State) (hb : ∀ g, (body g).Whole full) :
    (s.withSpare body).Whole full := by
  unfold State.withSpare
  split
  · exact hb _
  · exact h.withResult _

theorem State.Whole.cmdMove (h : s.Whole full) : s.cmdMove.Whole full :=
  h.withCircuit _ fun k => by
    split
    · exact h.withResult _
    · exact (h.withResult .done).sourceChange k _ (fun _ => ⟨rfl, rfl, rfl⟩) (fun _ => .inl rfl) fun _ => .inr (by simp)

theorem State.Whole.cmdForce (h : s.Whole full) : s.cmdForce.Whole full :=
  h.withCircuit _ fun k =>
    (h.withResult .done).sourceChange k _ (fun _ => ⟨rfl, rfl, rfl⟩) (fun _ => .inl rfl) fun _ => .inr (by simp)

theorem State.Whole.cmdClear (h : s.Whole full) : s.cmdClear.Whole full :=
  h.withCircuit _ fun k =>
    (h.withResult .done).sourceChange k _ (fun _ => ⟨rfl, rfl, rfl⟩) (fun _ => .inr rfl) fun _ => .inr (by simp)

/-- A bar writes the flag, and moves records and engines. -/
theorem Turn.still_bar (t : Turn) (k : Circuit) :
    (t.bar k).st.still = (t.st.setRecord k { t.st.record k with barred := true }).still := by
  unfold Turn.bar
  dsimp only
  split
  · exact Turn.still_drop ..
  · exact Turn.still_drop ..
  · exact Turn.still_reactUnheld ..

theorem Turn.still_unbar (t : Turn) (k : Circuit) :
    (t.unbar k).st.still = (t.st.setRecord k { t.st.record k with barred := false, declined := false }).still := by
  unfold Turn.unbar
  dsimp only
  split
  · rfl
  · rfl
  · exact Turn.still_reactUnheld ..

/-- Flags of one record are written, and the turn ends in the agreement. -/
theorem State.Whole.of_flags (h : s.Whole full) {k : Circuit} {r : Record}
    (hr : r.condClass = (s.record k).condClass ∧ r.swClass = (s.record k).swClass)
    (hb : s'.base = (s.setRecord k r).base) (ht : s'.Steady (s.keep full) [] []) : s'.Whole full := by
  refine h.of_lines ((State.lines_of_base hb).trans (State.lines_setRecord ..)) (fun j => ?_) (fun j => .inl ?_) ht
  · rw [(State.base_record hb j).1, State.setRecord_record]
    split
    · next e => subst e; exact hr.1
    · rfl
  · rw [(State.base_record hb j).2.1, State.setRecord_record]
    split
    · next e => subst e; exact hr.2
    · rfl

theorem State.Whole.cmdBar (h : s.Whole full) : s.cmdBar.Whole full :=
  h.withCircuit _ fun k => by
    split
    · exact h.withResult _
    · have hd := h.withResult .done
      exact hd.of_flags (r := { (s.withResult .done).record k with barred := true }) ⟨rfl, rfl⟩
        ((Turn.base_settle ..).trans (State.base_of_still (Turn.still_bar ..)))
        (State.Steady.settle (State.Steady.bar (t := (s.withResult .done).turn) hd.steady k) _)

theorem State.Whole.cmdUnbar (h : s.Whole full) : s.cmdUnbar.Whole full :=
  h.withCircuit _ fun k =>
    have hd := h.withResult .done
    hd.of_flags (r := { (s.withResult .done).record k with barred := false, declined := false }) ⟨rfl, rfl⟩
      ((Turn.base_settleWithPass ..).trans (State.base_of_still (Turn.still_unbar ..)))
      (State.Steady.settleWithPass (State.Steady.unbar (t := (s.withResult .done).turn) hd.steady k))

theorem State.Steady.returns (h : t.st.Steady w X []) (hk : (t.st.engine g).state.circuit = some k) :
    (t.enterReturning g k).st.Steady w X [] :=
  (h.mono (List.subset_cons_self k X) (List.nil_subset [g])).enterReturning hk

theorem State.classZeroHeld_some (h : s.classZeroHeld k = some g) :
    (s.record k).state = .assigned g ∧ s.effClass k = 0 ∧ (s.engine g).state = .carrying k := by
  unfold State.classZeroHeld at h
  split at h
  · next o ho =>
    split at h
    · next hc =>
      cases h
      exact ⟨ho, hc⟩
    · cases h
  · cases h

theorem State.Whole.cmdReturn (h : s.Whole full) : s.cmdReturn.Whole full :=
  h.withCircuit _ fun k => by
    split
    · next g hg =>
      have hd := h.withResult .done
      exact hd.settled (State.base_of_still (Turn.still_enterReturning ..))
        (State.Steady.returns (t := (s.withResult .done).turn) hd.steady (by
          rw [State.turn_st]
          exact (congrArg EngineState.circuit (State.classZeroHeld_some hg).2.2 : (s.engine g).state.circuit = some k))) _
    · exact h.withResult _

theorem State.Whole.reasonCommand (h : s.Whole full) (x : Reason) (b : Bool) (ho : x ≠ .off) (hl : x ≠ .line) :
    (s.reasonCommand x b).Whole full :=
  h.withSpare _ fun g => by
    split
    · exact h.withResult _
    · exact (h.withResult .done).putReason g x b ho hl

theorem State.Whole.cmdTest (h : s.Whole full) : s.cmdTest.Whole full := by
  unfold State.cmdTest
  split
  · exact h.withResult _
  · next g _ =>
    split
    · exact h.withResult _
    · split
      · next ht =>
        have hd := h.withResult .done
        have hfree : (s.engine g).state = .free := by
          unfold State.testable at ht
          simp only [Bool.and_eq_true, beq_iff_eq] at ht
          exact ht.1
        refine hd.settled (State.base_of_still (Turn.still_startTest ..)) ?_ _
        refine State.Steady.reidle (t := (s.withResult .done).turn.change fun s =>
          s.setEngine g { s.engine g with errorCount := 0, lastResult := .none }) (hd.steady.of_same rfl rfl (fun _ => rfl) fun i => ?_)
          ?_ ?_ (.testing (.ask s.regs.arg1)) rfl (by simp) _ _ ⟨rfl, rfl⟩
        · by_cases hi : g = i
          · subst hi; simp [Engine.stance]
          · simp [hi]
        · have : ((s.withResult .done).engine g).state = .free := hfree
          simp [this, EngineState.circuit]
        · have : ((s.withResult .done).engine g).state = .free := hfree
          simp [this]
      · exact h.withResult _

/-- A test in phase ASK or RUN enters END. -/
theorem State.Steady.endPhase (h : t.st.Steady w X G) {ph : TestPhase} (he : (t.st.engine g).state = .testing ph)
    (r : TestResult) : (t.endPhase g r).st.Steady w X G :=
  h.reidle (by rw [he]; rfl) (by rw [he]; simp) (.testing (.ending r)) rfl (by simp) _ _ ⟨rfl, rfl⟩

theorem State.Whole.cmdStopTest (h : s.Whole full) : s.cmdStopTest.Whole full :=
  h.withSpare _ fun g => by
    have hd := h.withResult .done
    have stop : ∀ ph, (s.engine g).state = .testing ph →
        (((s.withResult .done).turn.endPhase g .aborted).settle (s.withResult .done)).Whole full := fun ph he =>
      hd.settled (State.base_of_still (Turn.still_endPhase ..))
        (State.Steady.endPhase (t := (s.withResult .done).turn) hd.steady (ph := ph) he .aborted) _
    dsimp only
    split
    · next he => exact stop _ he
    · next he => exact stop _ he
    all_goals exact h.withResult _

theorem State.Whole.cmdResync (h : s.Whole full) : s.cmdResync.Whole full := by
  unfold State.cmdResync
  split
  · exact h.withResult _
  · split
    · exact h.withResult _
    · exact h.of_core rfl

end Whole

end Sys2Proof.Machine
end

