-- ==== Sys2Proof/Proofs/Ports.lean ====
section
/-! Proofs: what the ports bring, conditions, received streams, timers and transfers, keeps the agreement. -/

namespace Sys2Proof.Machine

theorem portUse_eq_working {p : Port} {k : Circuit} (h : portUse p = .working k) : p = workPort k := by
  revert p k
  decide

theorem portUse_eq_spare {p : Port} {g : Spare} (h : portUse p = .spare g) : p = sparePort g := by
  revert p g
  decide

theorem workPort_ne_sparePort (k : Circuit) (g : Spare) : workPort k ≠ sparePort g := by
  revert k g
  decide

theorem workPort_injective {j k : Circuit} (h : workPort j = workPort k) : j = k := by
  revert j k
  decide

theorem sparePort_injective {g i : Spare} (h : sparePort g = sparePort i) : g = i := by
  revert g i
  decide

theorem Condition.cls_mem (c : Condition) : c.cls ∈ [0, 2, 3] := by
  unfold Condition.cls
  split
  · simp
  · split <;> simp

@[simp] theorem State.post_condition (s : State) (e : Event) (p : Port) : (s.post e).condition p = s.condition p := by
  have h := congrArg (fun x : State => tabGet x.conditions p) (s.core_post e)
  exact h

section Ports

variable {full : Prop} {w : Keep} {X : List Circuit} {G : List Spare} {s s' : State} {t : Turn} {g : Spare} {k : Circuit}

/-! ## Conditions -/

/-- A change of a port's conditions that leaves DOWN and IMPAIRED. -/
theorem State.Whole.setCondition (h : s.Whole full) (p : Port) (c : Condition) (hd : c.down = (s.condition p).down)
    (hi : c.impaired = (s.condition p).impaired) : (s.setCondition p c).Whole full := by
  have hdown : ∀ q, ((s.setCondition p c).condition q).down = (s.condition q).down := fun q => by
    rw [State.setCondition_condition]
    split
    · next e => subst e; exact hd
    · rfl
  have hcls : ∀ q, ((s.setCondition p c).condition q).cls = (s.condition q).cls := fun q => by
    rw [State.setCondition_condition]
    split
    · next e => subst e; unfold Condition.cls; rw [hd, hi]
    · rfl
  have hkeep : (s.setCondition p c).keep full = s.keep full := by
    unfold State.keep
    simp only [hdown, State.setCondition_regs]
  refine ⟨?_, h.classes, fun hf k => by rw [hcls]; exact h.cond hf k⟩
  rw [hkeep]
  exact h.steady.of_same rfl rfl (fun _ => rfl) fun _ => rfl

theorem State.Steady.writeCondClass (h : s.Steady w [] []) (k : Circuit) (c : Nat) :
    (s.writeCondClass k c).Steady w [] [] := by
  unfold State.writeCondClass
  split
  · exact h
  · exact (h.sourceChange k (fun r => { r with condClass := c }) rfl rfl (.inl rfl)).settle s

/-- The classes after the condition unit's write: the one written, and the others. -/
theorem State.writeCondClass_classes (s : State) (k j : Circuit) (c : Nat) :
    ((s.writeCondClass k c).record j).condClass = (if j = k then c else (s.record j).condClass)
      ∧ ((s.writeCondClass k c).record j).swClass = (s.record j).swClass
      ∧ ((s.writeCondClass k c).record j).barred = (s.record j).barred := by
  unfold State.writeCondClass
  split
  · next e =>
    refine ⟨?_, rfl, rfl⟩
    split
    · next hj => subst hj; exact e
    · rfl
  · have hb : ((s.turn.sourceChange k fun r => { r with condClass := c }).settle s).base
        = (s.setRecord k { s.record k with condClass := c }).base := by
      rw [Turn.base_settle, Turn.base_sourceChange]
      rfl
    obtain ⟨h1, h2, h3⟩ := State.base_record hb j
    rw [h1, h2, h3, State.setRecord_record]
    split
    · next hj => subst hj; simp
    · next hj => simp [Ne.symm hj]

/-- The conditions of a working port change, and with them the cond_class of its record. -/
theorem State.Whole.working (h : s.Whole full) (k : Circuit) (c : Condition) (e : Event) :
    (((s.setCondition (workPort k) c).post e).writeCondClass k c.cls).Whole full := by
  set u := (s.setCondition (workPort k) c).post e with hu
  have hl : (u.writeCondClass k c.cls).lines = (s.setCondition (workPort k) c).lines :=
    (State.lines_writeCondClass ..).trans (State.lines_of_base (State.base_post ..))
  have hcond : ∀ p, (u.writeCondClass k c.cls).condition p = if workPort k = p then c else s.condition p := fun p => by
    rw [← State.setCondition_condition]
    unfold State.condition
    rw [State.lines_conditions hl]
  have hrec : ∀ j, u.record j = s.record j := fun j => State.postAll_record (s.setCondition (workPort k) c) [e] j
  have hkeep : (u.writeCondClass k c.cls).keep full = s.keep full := by
    unfold State.keep
    simp only [hcond, workPort_ne_sparePort, if_false, State.lines_enable hl, State.setCondition_regs]
  have husteady : u.Steady (s.keep full) [] [] :=
    (h.steady.of_same (s' := s.setCondition (workPort k) c) rfl rfl (fun _ => rfl) fun _ => rfl).post e
  refine ⟨hkeep ▸ husteady.writeCondClass k c.cls, fun hf j => ?_, fun hf j => ?_⟩
  · obtain ⟨h1, h2, _⟩ := u.writeCondClass_classes k j c.cls
    rw [h1, h2, hrec]
    split
    · exact ⟨c.cls_mem, (h.classes hf j).2⟩
    · exact h.classes hf j
  · rw [(u.writeCondClass_classes k j c.cls).1, hcond, hrec]
    by_cases hj : j = k
    · subst hj; simp
    · rw [if_neg hj, if_neg fun e => hj (workPort_injective e).symm]
      exact h.cond hf j

/-- DOWN of a spare port has changed: what is asked of its engine's reasons is asked anew. -/
theorem State.Whole.downed (h : s.Whole full) (g : Spare) (b : Bool)
    (hl : s'.lines = (s.setCondition (sparePort g) { s.condition (sparePort g) with down := b }).lines)
    (hr : ∀ k, (s'.record k).condClass = (s.record k).condClass ∧ (s'.record k).swClass = (s.record k).swClass)
    (ht : s'.Steady ((s.setCondition (sparePort g) { s.condition (sparePort g) with down := b }).keep full) [] []) :
    s'.Whole full := by
  refine ⟨State.keep_congr (State.lines_conditions hl) (State.lines_enable hl) ▸ ht, fun hf k => ?_, fun hf k => ?_⟩
  · rw [(hr k).1, (hr k).2]
    exact h.classes hf k
  · rw [(hr k).1, h.cond hf k]
    unfold State.condition
    rw [State.lines_conditions hl]
    exact congrArg Condition.cls
      (State.setCondition_condition_other s _ (Ne.symm (workPort_ne_sparePort k g))).symm

/-- The two ways a LINE reason goes with DOWN of its port. -/
theorem State.keep_line (s : State) (full : Prop) (g : Spare) (b : Bool) :
    let w := s.keep full
    let w' := (s.setCondition (sparePort g) { s.condition (sparePort g) with down := b }).keep full
    (∀ i, i ≠ g → ∀ r, w.reasons i r → w'.reasons i r)
      ∧ (∀ r, w.reasons g r → r.has .line = b → w'.reasons g r)
      ∧ ∀ r, w.reasons g r → w'.reasons g (r.put .line b) := by
  refine ⟨fun i hi r hr hf => ?_, fun r hr hb hf => ?_, fun r hr hf => ?_⟩
  · rw [State.setCondition_condition_other _ _ fun e => hi (sparePort_injective e).symm]
    exact hr hf
  · rw [State.setCondition_condition_same]
    exact ⟨(hr hf).1, hb⟩
  · rw [State.setCondition_condition_same]
    exact ⟨(hr hf).1, rfl⟩

theorem State.Whole.setDown (h : s.Whole full) (p : Port) (b : Bool) : (s.setDown p b).Whole full := by
  have hlines := s.lines_setDown p b
  unfold State.setDown at hlines ⊢
  dsimp only at hlines ⊢
  cases hp : portUse p with
  | working k =>
    obtain rfl := portUse_eq_working hp
    have hcls : (((s.setCondition (workPort k) { s.condition (workPort k) with down := b }).post
        (conditionEvent (s.setCondition (workPort k) { s.condition (workPort k) with down := b }) (workPort k) 0)).condition
          (workPort k)).cls = { s.condition (workPort k) with down := b }.cls := by
      rw [State.post_condition, State.setCondition_condition_same]
    dsimp only
    rw [hcls]
    exact h.working k _ _
  | spare g =>
    obtain rfl := portUse_eq_spare hp
    rw [hp] at hlines
    dsimp only at hlines ⊢
    obtain ⟨ho, hg, ha⟩ := s.keep_line full g b
    set s1 := s.setCondition (sparePort g) { s.condition (sparePort g) with down := b } with hs1
    set u := s1.post (conditionEvent s1 (sparePort g) 0) with hu
    have husteady : u.Steady (s.keep full) [] [] :=
      (h.steady.of_same (s' := s1) rfl rfl (fun _ => rfl) fun _ => rfl).post _
    have hubase : u.base = s1.base := State.base_post ..
    have hclasses : ∀ v : State, v.base = u.base → ∀ k, (v.record k).condClass = (s.record k).condClass
        ∧ (v.record k).swClass = (s.record k).swClass := fun v hv k =>
      have e := State.base_record (hv.trans hubase) k
      ⟨e.1, e.2.1⟩
    cases b with
    | true =>
      refine h.downed g true hlines (hclasses _ ?_) ?_
      · exact (Turn.base_settle ..).trans (Turn.base_changeFar _ _ _ _ fun v =>
          State.base_of_still (Turn.still_putReason ..))
      · exact State.Steady.settle (State.Steady.changeFar_unclaimed (t := u.turn) (w' := s1.keep full) husteady rfl
          (ActKeeps.putReason id ho hg ha)) u
    | false =>
      refine h.downed g false hlines (hclasses _ ?_) ?_
      · exact (Turn.base_settle ..).trans (State.base_of_still (Turn.still_putReason ..))
      · exact State.Steady.settle (State.Steady.putReason (t := u.turn) (w' := s1.keep full) husteady .line false id ho hg ha) u

theorem State.Whole.setImpaired (h : s.Whole full) (p : Port) (b : Bool) : (s.setImpaired p b).Whole full := by
  unfold State.setImpaired
  dsimp only
  cases hp : portUse p with
  | working k =>
    obtain rfl := portUse_eq_working hp
    dsimp only
    rw [State.post_condition, State.setCondition_condition_same]
    exact h.working k _ _
  | spare g =>
    obtain rfl := portUse_eq_spare hp
    refine State.Whole.post ?_ _
    -- IMPAIRED of a spare port is read by nothing
    have hcon : ∀ k, (s.setCondition (sparePort g) { s.condition (sparePort g) with impaired := b }).condition (workPort k)
        = s.condition (workPort k) := fun k =>
      State.setCondition_condition_other _ _ (Ne.symm (workPort_ne_sparePort k g))
    have hkeep : (s.setCondition (sparePort g) { s.condition (sparePort g) with impaired := b }).keep full
        = s.keep full := by
      have hdown : ∀ q, ((s.setCondition (sparePort g) { s.condition (sparePort g) with impaired := b }).condition q).down
          = (s.condition q).down := fun q => by
        rw [State.setCondition_condition]
        split
        · next e => subst e; rfl
        · rfl
      unfold State.keep
      simp only [hdown, State.setCondition_regs]
    refine ⟨?_, h.classes, fun hf k => by rw [hcon]; exact h.cond hf k⟩
    rw [hkeep]
    exact h.steady.of_same rfl rfl (fun _ => rfl) fun _ => rfl

theorem State.Whole.watch (h : s.Whole full) (p : Port) : (s.watch p).Whole full := by
  unfold State.watch
  dsimp only
  split
  · unfold State.rawDownBegins
    dsimp only
    split
    · exact h.setCondition _ _ rfl rfl
    · split
      · refine State.Whole.setDown ?_ p true
        exact h.setCondition p _ rfl rfl
      · exact h.setCondition _ _ rfl rfl
  · split
    · unfold State.rawDownEnds
      dsimp only
      split
      · split
        · refine State.Whole.setDown ?_ p false
          exact h.setCondition p _ rfl rfl
        · exact h.setCondition _ _ rfl rfl
      · exact h.setCondition _ _ rfl rfl
    · exact h

theorem State.Whole.endInterval (h : s.Whole full) (p : Port) : (s.endInterval p).Whole full := by
  have hset : ((s.setMonitor p { s.monitor p with errored := 0 }).setCondition p
      { s.condition p with downSeen := (s.condition p).rawDown }).Whole full :=
    (h.setMonitor p _).setCondition p _ rfl rfl
  unfold State.endInterval
  dsimp only
  split
  · exact hset
  · exact hset.setImpaired p _

/-- What each of a list of changes keeps, all of them keep. -/
theorem State.Whole.foldl {α : Type} {f : State → α → State} (hf : ∀ s a, State.Whole full s → (f s a).Whole full)
    (l : List α) (h : s.Whole full) : (l.foldl f s).Whole full := by
  induction l generalizing s with
  | nil => exact h
  | cons a l ih => exact ih (hf s a h)

/-! ## Received streams -/

theorem State.Whole.carryBits (h : s.Whole full) (p : Port) (l : List Bool) : (s.carryBits p l).Whole full :=
  h.of_core (s.core_carryBits p l)

theorem State.Whole.carryStart (h : s.Whole full) (p : Port) (l : List Bool) : (s.carryStart p l).Whole full :=
  h.of_core (s.core_carryStart p l)

theorem State.Whole.frameBoundary (h : s.Whole full) (p : Port) : (s.frameBoundary p).Whole full :=
  h.of_core (s.core_frameBoundary p)

theorem State.Whole.setQualifier (h : s.Whole full) (g : Spare) (q : Qualifier) (hq : q.far = (s.qualifier g).far) :
    (s.setQualifier g q).Whole full :=
  h.of_parts rfl rfl (fun _ => rfl) (fun _ => .inl rfl) (h.steady.setQualifier q hq)

theorem State.Whole.departed (h : s.Whole full) (p : Port) : (s.departed p).Whole full := by
  unfold State.departed
  dsimp only
  split
  · exact h.watch p
  · refine State.Whole.watch ?_ p
    exact h.setQualifier _ _ rfl

/-- The error count of a test is read by no rule of its state. -/
theorem State.Whole.countTestError (h : s.Whole full) (g : Spare) : (s.countTestError g).Whole full := by
  unfold State.countTestError
  dsimp only
  split
  · refine h.of_parts rfl rfl (fun _ => rfl) (fun _ => .inl rfl) (h.steady.of_same rfl rfl (fun _ => rfl) fun i => ?_)
    by_cases hi : g = i
    · subst hi; simp [Engine.stance]
    · simp [hi]
  · exact h

/-- A good frame's word writes the qualifier, and what a delivery writes. -/
theorem Turn.base_qualifyGood (t : Turn) (g : Spare) (f : Half) :
    ∃ q, (t.qualifyGood g f).st.base = (t.st.setQualifier g q).base := by
  unfold Turn.qualifyGood
  dsimp only
  split
  · exact ⟨_, rfl⟩
  · split
    · refine ⟨{ (t.st.qualifier g).received f with settled := true }, ?_⟩
      split
      · exact Turn.base_deliver ..
      · rfl
    · exact ⟨_, rfl⟩

theorem State.Whole.judgedOnSpare (h : s.Whole full) (g : Spare) (f : Frame) : (s.judgedOnSpare g f).Whole full := by
  unfold State.judgedOnSpare
  split
  · obtain ⟨q, hq⟩ := s.turn.base_qualifyGood g (frameWord f)
    have hb : ((s.turn.qualifyGood g (frameWord f)).settle s).base = (s.setQualifier g q).base :=
      (Turn.base_settle ..).trans hq
    have hl : ((s.turn.qualifyGood g (frameWord f)).settle s).lines = (s.setQualifier g q).lines :=
      State.lines_of_base hb
    exact h.of_parts (by rw [State.lines_conditions hl]; rfl) (by rw [State.lines_enable hl]; rfl)
      (fun k => (State.base_record hb k).1)
      (fun k => .inl (State.base_record hb k).2.1)
      (State.Steady.settle (State.Steady.qualifyGood (t := s.turn) h.steady (s.keep_lax full) g _) s)
  · refine State.Whole.countTestError ?_ g
    exact h.setQualifier g _ rfl

theorem State.Whole.judge (h : s.Whole full) (p : Port) (n : Nat) (f : Frame) : (s.judge p n f).Whole full := by
  have hcarried : ((s.setMonitor p ((s.monitor p).judged n f)).carryFrame p f).Whole full := h.of_core rfl
  unfold State.judge
  dsimp only
  refine State.Whole.frameBoundary ?_ p
  split
  · exact hcarried
  · exact hcarried.judgedOnSpare _ f

theorem State.Whole.loseAlignment (h : s.Whole full) (p : Port) (b : Byte) : (s.loseAlignment p b).Whole full :=
  ((h.setMonitor p _).carryBits p _).departed p

theorem State.Whole.receiveBits (h : s.Whole full) (p : Port) (l : List Bool) : (s.receiveBits p l).Whole full := by
  rcases s.receiveBits_cases p l with ⟨_, e⟩ | ⟨_, e⟩ | ⟨_, _, _, e⟩ <;> rw [e]
  · exact h
  · exact h.carryBits p l
  · exact ((h.carryBits p l).setMonitor p _).finish

theorem State.Whole.checkByte (h : s.Whole full) (p : Port) (before : List Byte) (b : Byte) :
    (s.checkByte p before b).Whole full := by
  unfold State.checkByte
  dsimp only
  split
  · split
    · split
      · exact ((((h.carryBits p _).setMonitor p _).watch p).frameBoundary p).finish
      · exact ((h.carryBits p _).setMonitor p _).finish
    · exact ((h.carryBits p _).setMonitor p _).finish
  · exact h
  · exact h

theorem State.Whole.frameReceived (h : s.Whole full) (p : Port) (f : Frame) : (s.frameReceived p f).Whole full := by
  unfold State.frameReceived
  dsimp only
  split
  · split
    · exact (h.loseAlignment p _).finish
    · exact (h.judge p _ f).finish
  · exact h
  · exact h

theorem State.Whole.alignedByte (h : s.Whole full) (p : Port) (b : Byte) : (s.alignedByte p b).Whole full := by
  unfold State.alignedByte
  dsimp only
  split
  · split
    · exact (h.loseAlignment p _).finish
    · exact h
  · exact h
  · exact h

theorem State.Whole.loseSignal (h : s.Whole full) (p : Port) (searched : Bool) (before : List Bool) :
    (s.loseSignal p searched before).Whole full := by
  unfold State.loseSignal
  dsimp only
  split
  · exact (((h.carryStart p _).setMonitor p _).departed p).finish
  · exact (((h.carryBits p _).setMonitor p _).watch p).finish
  · exact (((h.carryBits p _).setMonitor p _).watch p).finish

/-! ## Timers -/

@[simp] theorem tick_eq_none (x : Option Nat) : tick x = none ↔ x = none := by cases x <;> simp [tick]

@[simp] theorem tick_isSome (x : Option Nat) : (tick x).isSome = x.isSome := by cases x <;> rfl

@[simp] theorem State.tickTimers_record (s : State) (k : Circuit) : s.tickTimers.record k = (s.record k).tick := by
  simp [State.record, State.tickTimers]

@[simp] theorem State.tickTimers_engine (s : State) (g : Spare) : s.tickTimers.engine g = (s.engine g).tick := by
  simp [State.engine, State.tickTimers]

@[simp] theorem State.tickTimers_condition (s : State) (p : Port) :
    s.tickTimers.condition p = (s.condition p).tick := by
  simp [State.condition, State.tickTimers]

theorem State.sources_tickTimers (s : State) : s.tickTimers.sources = s.sources := by
  have e : (s.records.map Record.tick).map Record.classes = s.records.map Record.classes :=
    tab_ext fun k => by simp [tabGet_map, Record.tick, Record.classes]
  unfold State.sources State.tickTimers
  rw [e]

/-- A frame period runs no timer out and starts none. -/
theorem State.Steady.tickTimers (h : s.Steady w [] []) : s.tickTimers.Steady w [] [] := by
  have hsrc := s.sources_tickTimers
  have hstate : ∀ g, (s.tickTimers.engine g).state = (s.engine g).state := fun g => by simp [Engine.tick]
  have hreasons : ∀ g, (s.tickTimers.engine g).reasons = (s.engine g).reasons := fun g => by simp [Engine.tick]
  have hrec : ∀ k, (s.tickTimers.record k).state = (s.record k).state := fun k => by simp [Record.tick]
  refine ⟨?_, h.queue.of_same hsrc rfl hrec⟩
  exact {
    reasons := fun g hg => by rw [hreasons, hstate]; exact h.poised.reasons g hg
    watched := fun g => by rw [hreasons]; exact h.poised.watched g
    pairs := fun k g hk hg => by rw [hrec, hstate]; exact h.poised.pairs k g hk hg
    offSpare := fun k g hk hg => by rw [hrec]; exact h.poised.offSpare k g hk hg
    offRecord := fun k g hk hg => by rw [hstate]; exact h.poised.offRecord k g hk hg
    rested := fun k hk => by
      unfold State.Rested
      rw [hrec, State.restingState_of_sources hsrc, State.barred_of_sources hsrc, State.declined_of_sources hsrc]
      exact h.poised.rested k hk
    classZero := fun hw g k hg hp => by
      rw [State.effClass_of_sources hsrc]
      exact h.poised.classZero hw g k hg (hstate g ▸ hp)
    returnTimers := fun hw k hk hrt => by
      have hrt' : (s.record k).returnTimer ≠ none := by simpa [Record.tick] using hrt
      obtain ⟨hz, g, hg, ha, he⟩ := h.poised.returnTimers hw k hk hrt'
      rw [State.effClass_of_sources hsrc, hrec]
      exact ⟨hz, g, hg, ha, by rw [hstate]; exact he⟩
    engineTimers := fun hw g hg => by
      have := h.poised.engineTimers hw g hg
      unfold Engine.TimersAgree at this ⊢
      simpa [Engine.tick] using this
    contests := fun hw g hg hg' => (h.poised.contests hw g hg hg').of_same hsrc (hstate g) }

theorem State.Whole.tickTimers (h : s.Whole full) : s.tickTimers.Whole full := by
  have hkeep : s.tickTimers.keep full = s.keep full := by
    unfold State.keep
    simp only [State.tickTimers_condition, Condition.tick]
    rfl
  refine ⟨hkeep ▸ h.steady.tickTimers, fun hf k => ?_, fun hf k => ?_⟩
  · simpa [Record.tick] using h.classes hf k
  · simpa [Record.tick, Condition.tick, Condition.cls] using h.cond hf k

theorem State.Whole.referenceEdge (h : s.Whole full) (frames : Vector Frame 10) : (s.referenceEdge frames).Whole full := by
  have hcounted : (allSpares.foldl State.countUnaligned s.tickTimers).Whole full :=
    State.Whole.foldl (fun s g hs => by
      unfold State.countUnaligned
      split
      · exact hs
      · exact hs.countTestError g) _ h.tickTimers
  exact State.Whole.finish (hcounted.of_core rfl)

theorem State.Steady.answerExpired (h : t.st.Steady w [] []) (hw : w.Lax) (g : Spare) :
    (t.answerExpired g).st.Steady w [] [] := by
  unfold Turn.answerExpired
  split
  · exact h.putReason _ _ id (fun _ _ _ hr => hr) (fun _ hr _ => hr) fun r hr => hw g r _ _ (by simp) (by simp) hr
  · next k he =>
    exact State.Steady.completeReturn (h.mono (List.subset_cons_self k []) (List.Subset.refl _)) (by rw [he]; rfl)
  · next d he => exact h.testOver (.of_state (.inr (.inr ⟨_, he⟩))) _
  · next r he => exact h.testOver (.of_state (.inr (.inr ⟨_, he⟩))) _
  all_goals exact h

theorem State.Whole.answerExpiry (h : s.Whole full) (g : Spare) : (s.answerExpiry g).Whole full := by
  unfold State.answerExpiry
  split
  · exact (h.settled (State.base_of_still (Turn.still_answerExpired ..))
      (State.Steady.answerExpired (t := s.turn) h.steady (s.keep_lax full) g) s).finish
  · exact h

theorem State.Steady.returnExpired (h : t.st.Steady w [] []) (k : Circuit) : (t.returnExpired k).st.Steady w [] [] := by
  unfold Turn.returnExpired
  split
  · split
    · next he => exact h.returns (by rcases he with e | e <;> rw [e] <;> rfl)
    · exact h
  all_goals exact h

theorem State.Whole.returnExpiry (h : s.Whole full) (k : Circuit) : (s.returnExpiry k).Whole full := by
  unfold State.returnExpiry
  split
  · exact (h.settled (State.base_of_still (Turn.still_returnExpired ..))
      (State.Steady.returnExpired (t := s.turn) h.steady k) s).finish
  · exact h

theorem State.Whole.testExpiry (h : s.Whole full) (g : Spare) : (s.testExpiry g).Whole full := by
  unfold State.testExpiry
  split
  · next he _ =>
    exact (h.settled (State.base_of_still (Turn.still_endPhase ..))
      (State.Steady.endPhase (t := s.turn) h.steady he _) s).finish
  · exact h

theorem State.Whole.onsetExpiry (h : s.Whole full) (p : Port) : (s.onsetExpiry p).Whole full := by
  unfold State.onsetExpiry
  split
  · refine State.Whole.finish (State.Whole.setDown ?_ p true)
    exact h.setCondition p _ rfl rfl
  · exact h

theorem State.Whole.clearExpiry (h : s.Whole full) (p : Port) : (s.clearExpiry p).Whole full := by
  unfold State.clearExpiry
  split
  · refine State.Whole.finish (State.Whole.setDown ?_ p false)
    exact h.setCondition p _ rfl rfl
  · exact h

theorem State.Whole.setIntervalTimer (h : s.Whole full) (n : Nat) : ({ s with intervalTimer := n } : State).Whole full :=
  h.of_core rfl

theorem State.Whole.intervalEnds (h : s.Whole full) : s.intervalEnds.Whole full :=
  ((State.Whole.foldl (fun _ p hs => hs.endInterval p) allPorts h).setIntervalTimer _).finish

/-! ## Transfers -/

theorem carriesWord_eq_true {k : Circuit} {x : Option SpanWord} (h : carriesWord k x = true) :
    ∃ c, x = some (.carry k c) := by
  unfold carriesWord at h
  split at h
  · next j c => exact ⟨c, by rw [of_decide_eq_true h]⟩
  · cases h

/-- A completed transfer takes a PREPARING engine to CARRYING or BRIDGED. -/
theorem State.Steady.transferCompleted (h : t.st.Steady w [] []) (g : Spare) (src : TransferSource) :
    (t.transferCompleted g src).st.Steady w [] [] := by
  have h' : t.st.Steady w [] [g] := h.mono (List.Subset.refl _) (List.nil_subset _)
  unfold Turn.transferCompleted
  split
  · next k j he =>
    split
    · next e =>
      subst e
      have ha := h.poised.assigned_of (.inl he)
      split
      · next hc =>
        obtain ⟨c, hsays⟩ := carriesWord_eq_true hc
        refine (h'.rehold ha (.carrying k) (.inr rfl) none rfl).decide fun _ => .of_agreed (j := k) (c := c) ?_ ?_
        · rw [State.farClaim_of_sources (State.sources_of_still (Turn.still_enterEngine ..))]
          exact claimOf_eq_claimed hsays
        · simp [EngineState.circuit]
      · refine State.Steady.contest (t := t.enterEngine g (.bridged k) t.st.answerStart none)
          (h'.rehold ha (.bridged k) (.inl rfl) _ rfl) fun _ i _ _ hi => ?_
        simp at hi
    · exact h
  · exact h

theorem State.Whole.setTransaction (h : s.Whole full) (x : Option Transaction) :
    ({ s with transaction := x } : State).Whole full := h.of_core rfl

theorem State.Whole.setTransfer (h : s.Whole full) (g : Spare) (x : Option Transfer) : (s.setTransfer g x).Whole full :=
  h.of_core rfl

theorem State.Whole.setOutOfStep (h : s.Whole full) (p : Port) (b : Bool) : (s.setOutOfStep p b).Whole full :=
  h.of_core rfl

theorem State.Whole.completeTransfer (h : s.Whole full) (g : Spare) (src : TransferSource) :
    (s.completeTransfer g src).Whole full := by
  have hposted := ((h.setTransfer g none).setOutOfStep (sparePort g) false).post (transferDoneEvent g src)
  exact hposted.settled (State.base_of_still (Turn.still_transferCompleted ..))
    (State.Steady.transferCompleted (t := State.turn _) hposted.steady g src) _

theorem State.Whole.transferOutcome (h : s.Whole full) (g : Spare) (i : WordIndex) (ack : Bool) :
    (s.transferOutcome g i ack).Whole full := by
  unfold State.transferOutcome
  split
  · exact h
  · split
    · exact ((h.setTransfer g none).post _).putReason g .setup true (by simp) (by simp)
    · split
      · exact h.setTransfer g _
      · exact h.completeTransfer g _

theorem State.Whole.handOver (h : s.Whole full) (x : Transaction) (ack : Bool) : (s.handOver x ack).Whole full := by
  have hcleared := h.setTransaction none
  unfold State.handOver
  dsimp only
  split
  · unfold State.entryOutcome
    split
    · exact hcleared
    · exact (hcleared.setOutOfStep _ _).post _
  · split
    · exact hcleared
    · exact hcleared.transferOutcome _ _ _

theorem State.Whole.attemptEnd (h : s.Whole full) (ack : Bool) : (s.attemptEnd ack).Whole full := by
  unfold State.attemptEnd
  split
  · exact h
  · split
    · exact h.setTransaction _
    · exact (h.handOver _ ack).finish

end Ports

end Sys2Proof.Machine
end

