-- ==== Sys2Proof/Proofs/Restart.lean ====
section
/-! Proofs: what RESTART makes of each record, engine, qualifier and of the queue. -/

namespace Sys2Proof.Machine

/-- Changes of the records alone, one after another, change the records alone. -/
theorem foldl_records {β : Type} {f : State → β → State} (h : ∀ s b, ∃ rs, f s b = { s with records := rs })
    (l : List β) (s : State) : ∃ rs, l.foldl f s = { s with records := rs } := by
  induction l generalizing s with
  | nil => exact ⟨s.records, rfl⟩
  | cons b l ih =>
    obtain ⟨r1, e1⟩ := h s b
    obtain ⟨r2, e2⟩ := ih (f s b)
    exact ⟨r2, by rw [List.foldl_cons, e2, e1]⟩

@[simp] theorem State.sources_setQueue (s : State) (q : List Circuit) : (s.setQueue q).sources = s.sources := rfl

theorem mem_allCircuits (k : Circuit) : k ∈ allCircuits := by
  revert k
  decide

theorem allCircuits_nodup : allCircuits.Nodup := by decide

/-! ## Engines and qualifiers -/

theorem State.abandon_cases (s : State) (g : Spare) : ∃ x, s.abandon g = { s with transaction := x } := by
  unfold State.abandon
  split
  · split
    · exact ⟨_, rfl⟩
    · exact ⟨s.transaction, rfl⟩
  · exact ⟨s.transaction, rfl⟩

@[simp] theorem State.cancelTransfer_qualifier (s : State) (g i : Spare) :
    (s.cancelTransfer g).qualifier i = s.qualifier i := by
  obtain ⟨x, hx⟩ := s.abandon_cases g
  unfold State.cancelTransfer
  rw [hx]
  rfl

@[simp] theorem State.cancelTransfer_condition (s : State) (g : Spare) (p : Port) :
    (s.cancelTransfer g).condition p = s.condition p := by
  obtain ⟨x, hx⟩ := s.abandon_cases g
  unfold State.cancelTransfer
  rw [hx]
  rfl

@[simp] theorem State.cancelTransfer_regs (s : State) (g : Spare) : (s.cancelTransfer g).regs = s.regs := by
  obtain ⟨x, hx⟩ := s.abandon_cases g
  unfold State.cancelTransfer
  rw [hx]
  rfl

@[simp] theorem State.cancelTransfer_transfer_other (s : State) {g i : Spare} (h : g ≠ i) :
    (s.cancelTransfer g).transfer i = s.transfer i := by
  obtain ⟨x, hx⟩ := s.abandon_cases g
  unfold State.cancelTransfer
  rw [State.setTransfer_transfer_other _ _ h, hx]
  rfl

@[simp] theorem State.restartEngine_record (s : State) (g : Spare) (k : Circuit) :
    (s.restartEngine g).record k = s.record k := by
  unfold State.restartEngine
  dsimp only
  split <;> simp [State.startTransfer]

@[simp] theorem State.restartEngine_qualifier (s : State) (g i : Spare) :
    (s.restartEngine g).qualifier i = s.qualifier i := by
  unfold State.restartEngine
  dsimp only
  split <;> simp [State.startTransfer]

@[simp] theorem State.restartEngine_condition (s : State) (g : Spare) (p : Port) :
    (s.restartEngine g).condition p = s.condition p := by
  unfold State.restartEngine
  dsimp only
  split <;> simp [State.startTransfer]

@[simp] theorem State.restartEngine_regs (s : State) (g : Spare) : (s.restartEngine g).regs = s.regs := by
  unfold State.restartEngine
  dsimp only
  split <;> simp [State.startTransfer]

@[simp] theorem State.restartEngine_engine (s : State) (g : Spare) :
    (s.restartEngine g).engine g = s.restartedEngine g := by
  unfold State.restartEngine
  dsimp only
  split <;> simp [State.startTransfer]

@[simp] theorem State.restartEngine_engine_other (s : State) {g i : Spare} (h : g ≠ i) :
    (s.restartEngine g).engine i = s.engine i := by
  unfold State.restartEngine
  dsimp only
  split <;> simp [State.startTransfer, h]

/-- The transfer that RESTART leaves on a spare. -/
def State.restartedTransfer (s : State) (g : Spare) : Option Transfer :=
  if s.restsAtRestart g then some { source := .rest, cursor := 0, resend := [], inFlight := none } else none

@[simp] theorem State.restartEngine_transfer (s : State) (g : Spare) :
    (s.restartEngine g).transfer g = s.restartedTransfer g := by
  unfold State.restartEngine State.restartedTransfer
  dsimp only
  split <;> simp [State.startTransfer]

@[simp] theorem State.restartEngine_transfer_other (s : State) {g i : Spare} (h : g ≠ i) :
    (s.restartEngine g).transfer i = s.transfer i := by
  unfold State.restartEngine
  dsimp only
  split <;> simp [State.startTransfer, h]

/-- Records, engines and qualifiers torn down by RESTART. -/
def State.tornDown (s : State) : State := allSpares.foldl State.restartEngine (allSpares.foldl State.restartQualifier s)

@[simp] theorem State.tornDown_record (s : State) (k : Circuit) : s.tornDown.record k = s.record k := by
  simp [State.tornDown, allSpares, State.restartQualifier]

@[simp] theorem State.tornDown_condition (s : State) (p : Port) : s.tornDown.condition p = s.condition p := by
  simp [State.tornDown, allSpares, State.restartQualifier]

@[simp] theorem State.tornDown_regs (s : State) : s.tornDown.regs = s.regs := by
  simp [State.tornDown, allSpares, State.restartQualifier]

@[simp] theorem State.tornDown_qualifier (s : State) (g : Spare) : s.tornDown.qualifier g = Qualifier.reset := by
  have hg := spare_zero_or_one g
  rcases hg with rfl | rfl <;> simp [State.tornDown, allSpares, State.restartQualifier]

theorem State.restartedEngine_congr {s s' : State} {g : Spare} (he : s'.engine g = s.engine g)
    (hc : s'.condition (sparePort g) = s.condition (sparePort g)) : s'.restartedEngine g = s.restartedEngine g := by
  unfold State.restartedEngine
  rw [he, hc]

@[simp] theorem State.tornDown_engine (s : State) (g : Spare) : s.tornDown.engine g = s.restartedEngine g := by
  have hg := spare_zero_or_one g
  rcases hg with rfl | rfl
  · simp only [State.tornDown, allSpares, List.foldl_cons, List.foldl_nil, State.restartQualifier]
    rw [State.restartEngine_engine_other _ (by decide), State.restartEngine_engine]
    exact State.restartedEngine_congr rfl rfl
  · simp only [State.tornDown, allSpares, List.foldl_cons, List.foldl_nil, State.restartQualifier]
    rw [State.restartEngine_engine]
    exact State.restartedEngine_congr (by rw [State.restartEngine_engine_other _ (by decide)]; rfl) (by simp)

theorem State.restartedTransfer_congr {s s' : State} {g : Spare} (he : s'.engine g = s.engine g)
    (ht : s'.transfer g = s.transfer g) : s'.restartedTransfer g = s.restartedTransfer g := by
  unfold State.restartedTransfer State.restsAtRestart
  rw [he, ht]

@[simp] theorem State.tornDown_transfer (s : State) (g : Spare) : s.tornDown.transfer g = s.restartedTransfer g := by
  have hg := spare_zero_or_one g
  rcases hg with rfl | rfl
  · simp only [State.tornDown, allSpares, List.foldl_cons, List.foldl_nil, State.restartQualifier]
    rw [State.restartEngine_transfer_other _ (by decide), State.restartEngine_transfer]
    exact State.restartedTransfer_congr rfl rfl
  · simp only [State.tornDown, allSpares, List.foldl_cons, List.foldl_nil, State.restartQualifier]
    rw [State.restartEngine_transfer]
    exact State.restartedTransfer_congr (by rw [State.restartEngine_engine_other _ (by decide)]; rfl)
      (by rw [State.restartEngine_transfer_other _ (by decide)]; rfl)

/-! ## Records and queue -/

/-- One change made to every record of a list. -/
theorem State.foldl_setRecord_record (f : Record → Record) (l : List Circuit) (hn : l.Nodup) (s : State) (j : Circuit) :
    (l.foldl (fun s k => s.setRecord k (f (s.record k))) s).record j
      = if j ∈ l then f (s.record j) else s.record j := by
  induction l generalizing s with
  | nil => rfl
  | cons k l ih =>
    obtain ⟨hk, hl⟩ := List.nodup_cons.mp hn
    rw [List.foldl_cons, ih hl, State.setRecord_record]
    by_cases hj : k = j
    · subst hj; simp [hk]
    · simp [hj, Ne.symm hj]

@[simp] theorem State.sources_recomputeRecord (s : State) (k : Circuit) : (s.recomputeRecord k).sources = s.sources :=
  State.sources_of_still (State.still_setRecord _ _ _ rfl)

/-- The states of the records of a list recomputed. -/
theorem State.foldl_recomputeRecord_record (l : List Circuit) (hn : l.Nodup) (s : State) (j : Circuit) :
    (l.foldl State.recomputeRecord s).record j
      = if j ∈ l then { s.record j with state := s.restingState j } else s.record j := by
  induction l generalizing s with
  | nil => rfl
  | cons k l ih =>
    obtain ⟨hk, hl⟩ := List.nodup_cons.mp hn
    rw [List.foldl_cons, ih hl, State.restingState_of_sources (s.sources_recomputeRecord k)]
    unfold State.recomputeRecord
    rw [State.setRecord_record]
    by_cases hj : k = j
    · subst hj; simp [hk]
    · simp [hj, Ne.symm hj]

/-- The state of RESTART with every software class, hold and timer gone, the states of the records still to come. -/
def State.emptied (s : State) : State := allCircuits.foldl (fun s k => s.setRecord k (s.record k).restart) s.tornDown

theorem State.restarted_eq (s : State) :
    s.restarted = allCircuits.foldl State.recomputeRecord (s.emptied.setQueue s.emptied.rebuiltQueue) := rfl

@[simp] theorem State.emptied_record (s : State) (k : Circuit) : s.emptied.record k = (s.record k).restart := by
  unfold State.emptied
  rw [State.foldl_setRecord_record Record.restart _ allCircuits_nodup, if_pos (mem_allCircuits k), State.tornDown_record]

/-- The clearing of the records leaves all else. -/
theorem State.emptied_records (s : State) : ∃ rs, s.emptied = { s.tornDown with records := rs } :=
  foldl_records (fun _ _ => ⟨_, rfl⟩) allCircuits s.tornDown

/-- The last step of RESTART writes the records alone. -/
theorem State.restarted_records (s : State) :
    ∃ rs, s.restarted = { s.emptied.setQueue s.emptied.rebuiltQueue with records := rs } := by
  rw [State.restarted_eq]
  generalize s.emptied.setQueue s.emptied.rebuiltQueue = u
  exact foldl_records (fun _ _ => ⟨_, rfl⟩) allCircuits u

/-- RESTART writes records and queue behind the teardown. -/
theorem State.restarted_tornDown (s : State) :
    ∃ rs, s.restarted = { s.tornDown with records := rs, queue := s.emptied.rebuiltQueue } := by
  obtain ⟨r1, e1⟩ := s.restarted_records
  obtain ⟨r2, e2⟩ := s.emptied_records
  refine ⟨r1, e1.trans ?_⟩
  generalize s.emptied.rebuiltQueue = q
  rw [e2]
  rfl

theorem State.restarted_queue (s : State) : s.restarted.queue = s.emptied.rebuiltQueue := by
  obtain ⟨rs, e⟩ := s.restarted_tornDown
  rw [e]

theorem State.restarted_sources (s : State) : s.restarted.sources = s.emptied.sources := by
  rw [State.restarted_eq, ← State.sources_setQueue s.emptied s.emptied.rebuiltQueue]
  generalize s.emptied.setQueue s.emptied.rebuiltQueue = u
  generalize allCircuits = l
  induction l generalizing u with
  | nil => rfl
  | cons k l ih => exact (ih _).trans (u.sources_recomputeRecord k)

@[simp] theorem State.restarted_engine (s : State) (g : Spare) : s.restarted.engine g = s.restartedEngine g := by
  rw [← State.tornDown_engine]
  obtain ⟨rs, e⟩ := s.restarted_tornDown
  rw [e]
  rfl

@[simp] theorem State.restarted_transfer (s : State) (g : Spare) : s.restarted.transfer g = s.restartedTransfer g := by
  rw [← State.tornDown_transfer]
  obtain ⟨rs, e⟩ := s.restarted_tornDown
  rw [e]
  rfl

@[simp] theorem State.restarted_qualifier (s : State) (g : Spare) : s.restarted.qualifier g = Qualifier.reset := by
  rw [← State.tornDown_qualifier s g]
  obtain ⟨rs, e⟩ := s.restarted_tornDown
  rw [e]
  rfl

@[simp] theorem State.restarted_condition (s : State) (p : Port) : s.restarted.condition p = s.condition p := by
  rw [← State.tornDown_condition s p]
  obtain ⟨rs, e⟩ := s.restarted_tornDown
  rw [e]
  rfl

@[simp] theorem State.restarted_farClaim (s : State) (g : Spare) : s.restarted.farClaim g = none := by
  simp [State.farClaim, Qualifier.reset, claimOf]

theorem State.restarted_record (s : State) (k : Circuit) :
    s.restarted.record k = { (s.record k).restart with state := s.restarted.restingState k } := by
  rw [State.restingState_of_sources s.restarted_sources, State.restarted_eq,
    State.foldl_recomputeRecord_record _ allCircuits_nodup, if_pos (mem_allCircuits k), State.setQueue_record,
    State.emptied_record, State.restingState_of_sources (s.emptied.sources_setQueue _)]

theorem State.restarted_state (s : State) (k : Circuit) :
    (s.restarted.record k).state = s.restarted.restingState k := by rw [State.restarted_record]

@[simp] theorem State.restarted_effClass (s : State) (k : Circuit) : s.restarted.effClass k = (s.record k).condClass := by
  unfold State.effClass State.localClass State.farClass
  simp [State.restarted_record, Record.localClass, Record.restart, claimedClass]

/-! ## The queue -/

/-- Circuits placed one by one, each at the end of its class group. -/
theorem foldl_placeBack_perm (cls : Circuit → Nat) (l q : List Circuit) :
    (l.foldl (fun q k => placeBack cls k q) q).Perm (l ++ q) := by
  induction l generalizing q with
  | nil => exact List.Perm.refl _
  | cons k l ih =>
    refine (ih (placeBack cls k q)).trans ?_
    exact (List.Perm.append_left l (placeBack_perm cls k q)).trans List.perm_middle

theorem foldl_placeBack_sorted (cls : Circuit → Nat) (l q : List Circuit)
    (h : q.Pairwise fun i j => cls j ≤ cls i) :
    (l.foldl (fun q k => placeBack cls k q) q).Pairwise fun i j => cls j ≤ cls i := by
  induction l generalizing q with
  | nil => exact h
  | cons k l ih => exact ih _ (placeBack_sorted cls k q h)

theorem State.mem_rebuiltQueue (s : State) (k : Circuit) : k ∈ s.rebuiltQueue ↔ s.restingState k = .queued := by
  unfold State.rebuiltQueue
  rw [(foldl_placeBack_perm _ _ _).mem_iff]
  simp [mem_allCircuits]

theorem State.rebuiltQueue_nodup (s : State) : s.rebuiltQueue.Nodup := by
  unfold State.rebuiltQueue
  rw [(foldl_placeBack_perm _ _ _).nodup_iff, List.append_nil]
  exact allCircuits_nodup.filter _

theorem State.restarted_queueAgrees (s : State) : s.restarted.QueueAgrees := by
  have hsrc := s.restarted_sources
  have hq := s.restarted_queue
  refine ⟨hq ▸ s.emptied.rebuiltQueue_nodup, fun k => ?_, ?_⟩
  · rw [hq, State.mem_rebuiltQueue, ← State.restingState_of_sources hsrc, State.restarted_record]
  · simp only [hq, State.effClass_of_sources hsrc]
    exact foldl_placeBack_sorted _ _ _ List.Pairwise.nil

/-- RESTART leaves the agreement, whatever stood before. -/
theorem State.restarted_steady (s : State) {w : Keep}
    (hw : ∀ g, w.reasons g ((s.engine g).reasons.restart (s.condition (sparePort g)).down)) :
    s.restarted.Steady w [] [] := by
  have hempty : ∀ g, (s.restarted.engine g).state.circuit = none := fun g => by
    rw [State.restarted_engine]
    unfold State.restartedEngine
    dsimp only
    split <;> rfl
  have hunheld : ∀ k, (s.restarted.record k).state.unheld = true := fun k => by
    rw [State.restarted_state]
    exact State.restingState_unheld ..
  refine ⟨?_, s.restarted_queueAgrees⟩
  exact {
    reasons := fun g _ => by
      rw [State.restarted_engine]
      unfold State.restartedEngine
      dsimp only
      split <;> simp_all
    watched := fun g => by rw [State.restarted_engine]; exact hw g
    pairs := fun k g _ _ => by
      have hu := (RequestState.unheld_iff _).mp (hunheld k) g
      exact .apart hu.1 hu.2 fun e => by rw [hempty] at e; cases e
    offSpare := fun k g _ hg => absurd hg (by simp)
    offRecord := fun k g hk _ => absurd hk (by simp)
    rested := fun k _ => by
      unfold State.Rested
      rw [if_pos (hunheld k)]
      exact .inl (s.restarted_state k)
    classZero := fun _ g k _ hp => by
      have := hempty g
      rw [hp] at this
      cases this
    returnTimers := fun _ k _ hrt => by simp [State.restarted_record, Record.restart] at hrt
    engineTimers := fun _ g _ => by
      rw [State.restarted_engine]
      unfold State.restartedEngine Engine.TimersAgree
      dsimp only
      split <;> exact ⟨rfl, rfl⟩
    contests := fun _ g _ _ => .of_unclaimed (by simp) }

end Sys2Proof.Machine
end

