-- ==== Sys2Proof/Proofs/Invariants.lean ====
section
/-! Proofs: every step keeps the agreement, and with it what ProtocolLegal asks besides. -/

namespace Sys2Proof.Machine

section Invariants

variable {full : Prop} {w w' : Keep} {X : List Circuit} {G : List Spare} {s s' : State} {t : Turn} {g : Spare} {k : Circuit}

/-! ## RESTART -/

theorem State.Whole.cmdRestart (h : s.Whole full) : s.cmdRestart.Whole full := by
  unfold State.cmdRestart
  dsimp only
  have hd := h.withResult .done
  generalize s.withResult .done = u at hd
  generalize restartRequests u u.restarted ++ restartEngineEvents u u.restarted 0
    ++ restartEngineEvents u u.restarted 1 ++ [restartedEvent] = l
  have hst : (u.restarted.postAll l).Steady (u.keep full) [] [] :=
    (u.restarted_steady fun g hf => ⟨(hd.steady.poised.watched g hf).1, rfl⟩).postAll l
  have hb : ((u.restarted.postAll l).turn.settleWithPass).base = u.restarted.base :=
    (Turn.base_settleWithPass ..).trans (State.base_postAll ..)
  have hrec : ∀ k, (u.restarted.record k).condClass = (u.record k).condClass ∧ (u.restarted.record k).swClass = 0 :=
    fun k => by rw [State.restarted_record]; exact ⟨rfl, rfl⟩
  have hlines := State.lines_of_base hb
  obtain ⟨rs, hrs⟩ := u.restarted_tornDown
  refine hd.of_parts ?_ ?_ (fun k => ?_) (fun k => ?_)
    (State.Steady.settleWithPass (t := (u.restarted.postAll l).turn) hst)
  · rw [State.lines_conditions hlines]
    refine tab_ext fun p => ?_
    exact u.restarted_condition p
  · rw [State.lines_enable hlines, hrs]
    exact congrArg Registers.enable u.tornDown_regs
  · rw [(State.base_record hb k).1, (hrec k).1]
  · rw [(State.base_record hb k).2.1, (hrec k).2]
    exact .inr (by simp)

/-! ## The enable -/

theorem State.core_setRegs {s : State} {r : Registers} (h : r.enable = s.regs.enable) : (s.setRegs r).core = s.core := by
  unfold State.core State.setRegs
  simp only [h]

theorem State.Whole.setRegs (h : s.Whole full) (r : Registers) (he : r.enable = s.regs.enable) :
    (s.setRegs r).Whole full := h.of_core (State.core_setRegs he)

/-- What is asked of the reasons, with OFF asked as given. -/
def State.keepOff (s : State) (full : Prop) (off : Spare → Bool) : Keep where
  full := full
  reasons := fun g r => full → r.off = off g ∧ r.line = (s.condition (sparePort g)).down

theorem State.Steady.putOff {off : Spare → Bool} (h : t.st.Steady (s.keepOff full off) X []) (g : Spare) (b : Bool) :
    (t.putReason g .off b).st.Steady (s.keepOff full fun i => if i = g then b else off i) X [] := by
  refine State.Steady.putReason h .off b id (fun i hi r hr hf => ?_) (fun r hr hb hf => ?_) fun r hr hf => ?_
  · dsimp only [State.keepOff]
    rw [if_neg hi]
    exact hr hf
  · dsimp only [State.keepOff]
    rw [if_pos rfl]
    exact ⟨hb, (hr hf).2⟩
  · dsimp only [State.keepOff]
    rw [if_pos rfl]
    exact ⟨rfl, (hr hf).2⟩

theorem State.Steady.putOffs {off : Spare → Bool} (h : t.st.Steady (s.keepOff full off) X []) (b : Bool) :
    ((t.putReason 0 .off b).putReason 1 .off b).st.Steady (s.keepOff full fun _ => b) X [] := by
  have h2 := (h.putOff 0 b).putOff 1 b
  have e : (fun i : Spare => if i = 1 then b else if i = 0 then b else off i) = fun _ => b := by
    funext i
    rcases spare_zero_or_one i with rfl | rfl <;> rfl
  rwa [e] at h2

/-- A queued record is put before its class group. -/
theorem State.Steady.requeueFront (h : s.Steady w X G) (hk : (s.record k).state = .queued) :
    (s.setQueue (s.requeue k true .front)).Steady w X G := by
  refine ⟨h.poised.of_same rfl (fun _ => rfl) fun _ => rfl, s.requeue_nodup k true .front h.queue.1, fun j => ?_, ?_⟩
  · rw [State.setQueue_queue, State.mem_requeue, h.queue.2.1, State.setQueue_record]
    by_cases hj : j = k
    · subst hj; simp [hk]
    · simp [hj]
  · exact s.requeue_sorted k true .front (h.queue.2.2.filter _)

/-- A queued record of a turn put before its class group, another left. -/
def Turn.front (t : Turn) (c : Circuit) : Turn :=
  if (t.st.record c).state = .queued then t.change fun s => s.setQueue (s.requeue c true .front) else t

theorem Turn.placeTogether_eq (t : Turn) (j k : Circuit) :
    t.placeTogether j k = if j < k then (t.front k).front j else (t.front j).front k := rfl

theorem State.Steady.front (h : t.st.Steady w X G) (c : Circuit) : (t.front c).st.Steady w X G := by
  unfold Turn.front
  split
  · next hc => exact h.requeueFront hc
  · exact h

theorem State.Steady.placeTogether (h : t.st.Steady w X G) (j k : Circuit) : (t.placeTogether j k).st.Steady w X G := by
  rw [Turn.placeTogether_eq]
  split
  · exact (h.front k).front j
  · exact (h.front j).front k

theorem State.Steady.disable {off : Spare → Bool} (h : t.st.Steady (s.keepOff full off) [] []) :
    t.disable.st.Steady (s.keepOff full fun _ => true) [] [] := by
  unfold Turn.disable
  dsimp only
  split
  · exact (h.putOffs true).placeTogether _ _
  · exact h.putOffs true

theorem State.Whole.writeProtect (h : s.Whole full) (v : Byte) : (s.writeProtect v).Whole full := by
  unfold State.writeProtect
  dsimp only
  set u := s.setRegs { s.regs with enable := v.getLsbD 0, hold := v.getLsbD 1, interruptEnable := v.getLsbD 2 } with hu
  have hsteady : u.Steady (s.keepOff full fun _ => !s.regs.enable) [] [] :=
    h.steady.of_same rfl rfl (fun _ => rfl) fun _ => rfl
  -- the turn keeps the base of the state with the new registers
  have whole : ∀ x : Turn, x.st.base = u.base → x.st.Steady (s.keepOff full fun _ => !v.getLsbD 0) [] [] →
      x.settleWithPass.Whole full := fun x hx hst => by
    have hb : x.settleWithPass.base = u.base := (Turn.base_settleWithPass x).trans hx
    have hl := State.lines_of_base hb
    have hkeep : x.settleWithPass.keep full = s.keepOff full fun _ => !v.getLsbD 0 :=
      State.keep_congr (s := u) (State.lines_conditions hl) (State.lines_enable hl)
    refine ⟨hkeep ▸ hst.settleWithPass, fun hf k => ?_, fun hf k => ?_⟩
    · rw [(State.base_record hb k).1, (State.base_record hb k).2.1]
      exact h.classes hf k
    · rw [(State.base_record hb k).1]
      unfold State.condition
      rw [State.lines_conditions hl]
      exact h.cond hf k
  split
  · next he => exact h.setRegs _ he
  · split
    · next hv =>
      refine (whole u.turn.enable (State.base_of_still (Turn.still_enable ..)) ?_).finish
      rw [hv]
      exact State.Steady.putOffs (t := u.turn) hsteady false
    · next hv =>
      refine (whole u.turn.disable (State.base_of_still (Turn.still_disable ..)) ?_).finish
      rw [Bool.eq_false_iff.mpr hv]
      exact State.Steady.disable (t := u.turn) hsteady

/-! ## Accesses -/

theorem State.Whole.setBus (h : s.Whole full) (b : Bus) : (s.setBus b).Whole full := h.of_core rfl

theorem State.Whole.runCode (h : s.Whole full) (code : Byte) : (s.runCode code).Whole full := by
  unfold State.runCode
  split
  · exact h.cmdMove
  · exact h.cmdForce
  · exact h.cmdClear
  · exact h.cmdBar
  · exact h.cmdUnbar
  · exact h.cmdReturn
  · exact h.reasonCommand _ _ (by simp) (by simp)
  · exact h.reasonCommand _ _ (by simp) (by simp)
  · exact h.reasonCommand _ _ (by simp) (by simp)
  · exact h.cmdTest
  · exact h.cmdStopTest
  · exact h.cmdResync
  · exact h.cmdRestart
  · exact h.withResult _

theorem State.Whole.hostWrite (h : s.Whole full) (f : State → State) (hf : ∀ s, State.Whole full s → (f s).Whole full) :
    (s.hostWrite f).Whole full := by
  unfold State.hostWrite
  dsimp only
  split
  · exact h.setBus _
  · exact hf _ (h.setBus _)

theorem State.Whole.hostCommand (h : s.Whole full) (code : Byte) (body : State → State)
    (hf : ∀ s, State.Whole full s → (body s).Whole full) : (s.hostCommand code body).Whole full :=
  h.hostWrite _ fun s hs => by
    refine State.Whole.finish (hf _ ?_)
    exact hs.setRegs { s.regs with command := code } rfl

theorem State.Whole.inService (h : s.Whole full) (f : State → State) (hf : ∀ s, State.Whole full s → (f s).Whole full) :
    (s.inService f).Whole full := by
  unfold State.inService
  split
  · exact h
  · exact hf _ h

theorem State.Whole.commitWrite (h : s.Whole full) (v : Half) : (s.commitWrite v).Whole full := by
  have hr : ∀ s : State, s.Whole full → s.advanceIndex.Whole full := fun s hs => hs.setRegs _ rfl
  unfold State.commitWrite
  dsimp only
  refine hr _ ?_
  split
  · exact h.of_core rfl
  · refine State.Whole.post ?_ _
    exact h.setRegs { s.regs with refusedWrite := true } rfl

theorem Registers.store_enable (r : Registers) (a : Nat) (v : Byte) : (r.store a v).enable = r.enable := by
  unfold Registers.store
  split <;> (try split) <;> rfl

theorem State.Whole.writeAt (h : s.Whole full) (a : Nat) (v : Byte) : (s.writeAt a v).Whole full := by
  unfold State.writeAt
  split
  · refine State.Whole.finish (State.Whole.runCode ?_ v)
    exact h.setRegs { s.regs with command := v } rfl
  · exact h.writeProtect v
  · exact h.setRegs _ rfl
  · exact h.setRegs _ rfl
  · exact h.setRegs _ rfl
  · exact h.setRegs _ rfl
  · exact (h.commitWrite _).finish
  · exact h.setBus _
  · exact h.setBus _
  · exact h.setBus _
  · exact h.setBus _
  · exact h.setRegs _ (Registers.store_enable ..)

theorem State.Whole.busWrite (h : s.Whole full) (a : Address) (v : Byte) : (s.busWrite a v).Whole full :=
  h.hostWrite _ fun _ hs => hs.writeAt _ _

@[simp] theorem State.core_setBus (s : State) (b : Bus) : (s.setBus b).core = s.core := rfl

/-- A read touches the window, the events, the index register and the read holding byte. -/
theorem State.core_readAt (s : State) (a : Nat) : (s.readAt a).1.core = s.core := by
  unfold State.readAt
  split
  · dsimp only
    split <;> rfl
  · split
    · rfl
    · split
      · rfl
      · split
        · dsimp only
          unfold State.popEvent
          split <;> rfl
        · rfl

theorem State.Whole.busRead (h : s.Whole full) (a : Address) : (s.busRead a).Whole full := by
  unfold State.busRead State.hostRead
  dsimp only
  split
  · exact h.setBus _
  · exact h.of_core (by rw [State.core_setBus, State.core_readAt])

theorem State.Whole.busStrobes (h : s.Whole full) (a : Address) (v : Byte) (x : Strobes) :
    (s.busStrobes a v x).Whole full := by
  rcases s.busStrobes_cases a v x with e | e | ⟨b, e⟩ <;> rw [e]
  · exact h.busWrite a v
  · exact h.busRead a
  · exact h.setBus _

/-! ## Reset -/

theorem State.Whole.assertReset (h : State.reset.Whole full) (s : State) : s.assertReset.Whole full := h.of_core rfl

theorem State.reset_whole : State.reset.Whole full := by
  have h := State.whole_of_protocolLegal State.reset_protocolLegal
  refine ⟨⟨h.steady.poised.rewatch (fun _ => trivial) fun g hf => h.steady.poised.watched g trivial, h.steady.queue⟩,
    fun _ => h.classes trivial, fun _ => h.cond trivial⟩

theorem State.Whole.releaseReset (h : s.Whole full) (strap : Role) : (s.releaseReset strap).Whole full := by
  unfold State.releaseReset
  split
  · refine (State.Whole.foldl (fun _ p hs => hs.watch p) allPorts ?_).finish
    exact h.of_core rfl
  · exact h

/-! ## Steps -/

/-- Every command keeps the agreement. -/
theorem State.Whole.exec (h : s.Whole full) (i : Instr) : ∃ t, exec i s = .next t ∧ t.Whole full := by
  cases i
  case move => exact ⟨_, rfl, h.hostCommand _ _ fun _ hs => hs.cmdMove⟩
  case force => exact ⟨_, rfl, h.hostCommand _ _ fun _ hs => hs.cmdForce⟩
  case clear => exact ⟨_, rfl, h.hostCommand _ _ fun _ hs => hs.cmdClear⟩
  case bar => exact ⟨_, rfl, h.hostCommand _ _ fun _ hs => hs.cmdBar⟩
  case unbar => exact ⟨_, rfl, h.hostCommand _ _ fun _ hs => hs.cmdUnbar⟩
  case returnCircuit => exact ⟨_, rfl, h.hostCommand _ _ fun _ hs => hs.cmdReturn⟩
  case shut => exact ⟨_, rfl, h.hostCommand _ _ fun _ hs => hs.reasonCommand _ _ (by simp) (by simp)⟩
  case openSpare => exact ⟨_, rfl, h.hostCommand _ _ fun _ hs => hs.reasonCommand _ _ (by simp) (by simp)⟩
  case clearFault => exact ⟨_, rfl, h.hostCommand _ _ fun _ hs => hs.reasonCommand _ _ (by simp) (by simp)⟩
  case test => exact ⟨_, rfl, h.hostCommand _ _ fun _ hs => hs.cmdTest⟩
  case stopTest => exact ⟨_, rfl, h.hostCommand _ _ fun _ hs => hs.cmdStopTest⟩
  case resync => exact ⟨_, rfl, h.hostCommand _ _ fun _ hs => hs.cmdResync⟩
  case restart => exact ⟨_, rfl, h.hostCommand _ _ fun _ hs => hs.cmdRestart⟩
  case unknownCommand code => exact ⟨_, rfl, h.busWrite _ _⟩
  case protectEnableSet v => exact ⟨_, rfl, h.busWrite _ _⟩
  case protectEnableCleared v => exact ⟨_, rfl, h.busWrite _ _⟩
  case returnModeWrite v => exact ⟨_, rfl, h.busWrite _ _⟩
  case interruptEnableWrite v => exact ⟨_, rfl, h.busWrite _ _⟩
  case setThresholdWrite v => exact ⟨_, rfl, h.busWrite _ _⟩
  case clearThresholdWrite v => exact ⟨_, rfl, h.busWrite _ _⟩
  case statusWriteOneToClear v => exact ⟨_, rfl, h.busWrite _ _⟩
  case configurationWrite a v x => exact ⟨_, rfl, h.busStrobes _ _ _⟩
  case writeHoldingByte a v => exact ⟨_, rfl, h.busWrite _ _⟩
  case lowerAddressRead a => exact ⟨_, rfl, h.busRead _⟩
  case contextWriteCommit v => exact ⟨_, rfl, h.busWrite _ _⟩
  case contextDataRead => exact ⟨_, rfl, h.busRead _⟩
  case eventKindRead => exact ⟨_, rfl, h.busRead _⟩
  case eventPop => exact ⟨_, rfl, h.busRead _⟩
  case pinReset => exact ⟨_, rfl, State.reset_whole.assertReset s⟩
  case resetRelease strap => exact ⟨_, rfl, h.releaseReset strap⟩
  case frameReferenceEdge frames => exact ⟨_, rfl, h.inService _ fun _ hs => hs.referenceEdge frames⟩
  case answerTimerExpiry g => exact ⟨_, rfl, h.inService _ fun _ hs => hs.answerExpiry g⟩
  case returnTimerExpiry k => exact ⟨_, rfl, h.inService _ fun _ hs => hs.returnExpiry k⟩
  case testTimerExpiry g => exact ⟨_, rfl, h.inService _ fun _ hs => hs.testExpiry g⟩
  case onsetTimerExpiry p => exact ⟨_, rfl, h.inService _ fun _ hs => hs.onsetExpiry p⟩
  case clearTimerExpiry p => exact ⟨_, rfl, h.inService _ fun _ hs => hs.clearExpiry p⟩
  case intervalEnd => exact ⟨_, rfl, h.inService _ fun _ hs => hs.intervalEnds⟩
  case signalLostAsserted p before =>
    refine ⟨_, rfl, State.Whole.inService ?_ _ fun _ hs => hs.loseSignal p _ before⟩
    exact h.setMonitor p { s.monitor p with signalLost := true }
  case signalLostReleased p => exact ⟨_, rfl, h.setMonitor p { s.monitor p with signalLost := false }⟩
  case huntingMatch p l before => exact ⟨_, rfl, h.inService _ fun _ hs => hs.receiveBits p _⟩
  case checkingAlignmentWord p b before => exact ⟨_, rfl, h.inService _ fun _ hs => hs.checkByte p before b⟩
  case frameJudged p f => exact ⟨_, rfl, h.inService _ fun _ hs => hs.frameReceived p f⟩
  case alignmentLost p b => exact ⟨_, rfl, h.inService _ fun _ hs => hs.alignedByte p b⟩
  case lspTransactionStart => exact ⟨_, rfl, h.inService _ fun s hs => hs.of_core s.core_servePort⟩
  case lspAttemptEnd a b c => exact ⟨_, rfl, h.inService _ fun _ hs => hs.attemptEnd _⟩

theorem State.Whole.step (h : s.Whole full) (hs : step s = .next s') : s'.Whole full := by
  unfold Machine.step at hs
  split at hs
  · cases hs
    exact h
  · next c rest hc =>
    have hr : ({ s with pending := rest } : State).Whole full := h.of_core rfl
    obtain ⟨t, ht, hw⟩ := hr.exec c
    rw [ht] at hs
    cases hs
    exact hw

end Invariants

/-- Settles O59: the agreement between two events (State.Whole, without what ProtocolLegal asks besides) is kept by every
command. -/
theorem recordsQueueAndEnginesAgree : Obligations.RecordsQueueAndEnginesAgree := by
  intro s t h hs
  exact (State.Whole.step (State.whole_of_agreement h) hs).steady.agreement

/-- Settles O54: State.Whole with all that ProtocolLegal asks is kept by every command. -/
theorem protocolStaysLegal : Obligations.ProtocolStaysLegal := by
  intro s t h hs
  exact (State.Whole.step (State.whole_of_protocolLegal h) hs).protocolLegal

end Sys2Proof.Machine
end

