-- ==== Sys2Proof/Proofs/Preemption.lean ====
section
/-! Proofs: a preemption, field by field. -/

namespace Sys2Proof.Machine

section Preemption

variable {t : Turn} {g : Spare} {j k h : Circuit}

/-- A contest that this end's claim wins, or that there is none of, changes nothing. -/
theorem Turn.contest_won (hw : ∀ own far, t.st.contestClaim g = some own → t.st.farClaim g = some far →
    own.1 = far.1 ∨ beforeClaim own far = true) : t.contest g = t := by
  rcases t.contest_cases g with ⟨e, _⟩ | ⟨own, far, ho, hf, hne, hb, _⟩
  · exact e
  · rcases hw own far ho hf with e | e
    · exact absurd e hne
    · rw [hb] at e
      cases e

/-- The resting state of a record without a flag. -/
theorem State.restingState_of_unflagged {s : State} (hb : (s.record k).barred = false) (hd : (s.record k).declined = false) :
    s.restingState k = if s.effClass k = 0 then .quiet else .queued := by
  unfold State.restingState
  rw [hb, hd]
  rfl

/-- A preempted spare: its record put back, its engine in PREPARING for the head. -/
def Turn.taken (t : Turn) (g : Spare) (j h : Circuit) : Turn :=
  ((t.change fun s => s.cancelTransfer g).putBack g j).enterPreparing g h

theorem Turn.sources_taken (t : Turn) (g : Spare) (j h : Circuit) : (t.taken g j h).st.sources = t.st.sources :=
  (Turn.sources_enterPreparing ..).trans (State.sources_of_still (by simp))

/-- Where no far claim is decided against the head, a preemption ends with the head taken. -/
theorem Turn.preempt_eq (hj : (t.st.engine g).state.circuit = some j)
    (hf : ∀ k f, t.st.farClaim g = some (k, f) → k = h ∨ beforeClaim (h, t.st.effClass h) (k, f) = true) :
    t.preempt g h = (t.taken g j h).flush := by
  have hsrc : (t.taken g j h).flush.st.sources = t.st.sources := by
    rw [Turn.flush_st, State.sources_postAll, Turn.sources_taken]
  unfold Turn.preempt
  rw [hj]
  refine Turn.contest_won (t := (t.taken g j h).flush) fun own far ho hfar => ?_
  rw [State.farClaim_of_sources hsrc] at hfar
  have hstate : ((t.taken g j h).flush.st.engine g).state = .preparing h := by simp [Turn.taken]
  simp only [State.contestClaim, hstate, State.effClass_of_sources hsrc, Option.some.injEq] at ho
  subst ho
  exact (hf far.1 far.2 hfar).imp_left Eq.symm

theorem Turn.putBack_queue (t : Turn) (g : Spare) (k : Circuit) :
    (t.putBack g k).st.queue = t.st.requeue k (t.st.restingState k = .queued) .front :=
  Turn.moveRecord_queue ..

end Preemption

/-- Settles O46: the contest at the end changes nothing, so that the fields are those of the moves before it. -/
theorem preemptionPutsBack : Obligations.PreemptionPutsBack := by
  intro t g j h hj hne hb hd hf
  have hrest : (t.st.cancelTransfer g).restingState j
      = if t.st.effClass j = 0 then .quiet else .queued := by
    rw [State.restingState_of_sources (State.sources_of_still (t.st.still_cancelTransfer g)),
      State.restingState_of_unflagged hb hd]
  have heff : (t.st.cancelTransfer g).effClass = t.st.effClass := by
    funext i
    exact State.effClass_of_sources (State.sources_of_still (t.st.still_cancelTransfer g)) i
  rw [Turn.preempt_eq hj hf]
  refine ⟨by simp [Turn.taken], by simp [Turn.taken], by simp [Turn.taken], by simp [Turn.taken], ?_, ?_, ?_⟩
  · simp [Turn.taken, Ne.symm hne, Turn.putBack, hrest]
  · simp [Turn.taken, Ne.symm hne, Turn.putBack]
  · rw [Turn.flush_st, State.postAll_queue, Turn.taken, Turn.enterPreparing_queue, Turn.putBack_queue, Turn.change_st, hrest]
    unfold State.requeue
    rw [heff, State.cancelTransfer_queue]
    by_cases h0 : t.st.effClass j = 0 <;> simp [h0]

end Sys2Proof.Machine
end

