-- ==== Sys2Proof/Proofs/HoldingEngines.lean ====
section
/-! Proofs: what an engine that holds a circuit does on a taken word. -/

namespace Sys2Proof.Machine

section HoldingEngines

variable {t : Turn} {g : Spare} {j k : Circuit} {c : Nat} {w : SpanWord}

theorem State.farClaim_of_says {s : State} (h : s.farSays g = some w) : s.farClaim g = w.claimed :=
  claimOf_eq_claimed h

/-! ## Contests by the word -/

/-- A word that claims the circuit held decides nothing. -/
theorem Turn.contest_agreed (hf : t.st.farClaim g = some (k, c)) (hk : (t.st.engine g).state.circuit = some k) :
    t.contest g = t :=
  Turn.contest_won fun own far ho hfar => .inl (by
    rw [hf] at hfar
    rw [State.contestClaim_circuit ho] at hk
    rw [Option.some.inj hk, ← Option.some.inj hfar])

/-- A lost contest, written out. -/
theorem Turn.contest_lost (ho : t.st.contestClaim g = some (k, c)) {d : Nat} (hf : t.st.farClaim g = some (j, d))
    (hne : j ≠ k) (hb : beforeClaim (k, c) (j, d) = false) :
    t.contest g = (((t.letGo g).putBack g k).offer g j).gatherLate (contestLostEvent g k j) := by
  rcases t.contest_cases g with ⟨_, hw⟩ | ⟨own, far, ho', hf', _, _, e⟩
  · rcases hw _ _ ho hf with e | e
    · exact absurd e.symm hne
    · rw [hb] at e
      cases e
  · rw [ho] at ho'
    rw [hf] at hf'
    cases ho'
    cases hf'
    exact e

theorem Turn.endTestOrLoop_late (t : Turn) {g : Spare} (r : TestResult) (hg : (t.st.engine g).state.testingOrLooped = false) :
    (t.endTestOrLoop g r).late = t.late := by
  unfold Turn.endTestOrLoop
  split
  · next e => rw [e] at hg; cases hg
  · next e => rw [e] at hg; cases hg
  · rfl

theorem Turn.enterPreparing_late (t : Turn) {g : Spare} (k : Circuit)
    (hg : (t.st.engine g).state.testingOrLooped = false) : (t.enterPreparing g k).late = t.late := by
  unfold Turn.enterPreparing
  dsimp only
  rw [Turn.enterEngine_late]
  refine (Turn.moveRecord_late ..).trans ?_
  exact t.endTestOrLoop_late _ hg

/-- An offer to a FREE engine reports nothing late. -/
theorem Turn.offer_late (t : Turn) {g : Spare} (k : Circuit) (hg : (t.st.engine g).state = .free) :
    (t.offer g k).late = t.late := by
  rcases t.offer_cases g k with ⟨e, _⟩ | ⟨_, _, _, ⟨_, e⟩ | ⟨o, hlt, _, e⟩⟩
  · rw [e]; rfl
  · rw [e]
    exact (t.noteOffer g).enterPreparing_late k (by rw [Turn.noteOffer_st, hg]; rfl)
  · have hne : o ≠ g := fun e => absurd (e ▸ hlt) (lt_irrefl _)
    rw [e]
    exact ((t.noteOffer g).letGo o).enterPreparing_late k (by
      rw [Turn.letGo_engine_other _ hne, Turn.noteOffer_st, hg]; rfl)

/-- An offer leaves the records of other circuits. -/
theorem Turn.offer_record_other (t : Turn) (g : Spare) (h : k ≠ j) : (t.offer g k).st.record j = t.st.record j := by
  rcases t.offer_cases g k with ⟨e, _⟩ | ⟨_, _, _, ⟨_, e⟩ | ⟨o, _, _, e⟩⟩ <;> rw [e] <;> simp [h]

/-- An offer of a circuit that waits, without a flag and with a class, is taken. -/
theorem Turn.offer_taken (t : Turn) (g : Spare) (hb : (t.st.record k).barred = false)
    (hd : (t.st.record k).declined = false) (hz : t.st.effClass k ≠ 0) (hu : (t.st.record k).state.unheld = true) :
    t.offer g k = (t.noteOffer g).enterPreparing g k := by
  have hu' := (RequestState.unheld_iff _).mp hu
  rcases t.offer_cases g k with ⟨_, h | h | h | ⟨o, _, ho⟩⟩ | ⟨_, _, _, ⟨_, e⟩ | ⟨o, _, ho, _⟩⟩
  · rw [hb] at h; cases h
  · rw [hd] at h; cases h
  · exact absurd h hz
  · exact absurd ho (by simp [(hu' o).1, (hu' o).2])
  · exact e
  · exact absurd ho (by simp [(hu' o).1, (hu' o).2])

/-! ## CARRYING under a claim of another circuit -/

theorem Turn.stepBack_engine (t : Turn) (g : Spare) (k : Circuit) :
    (t.stepBack g k).st.engine g
      = { t.st.engine g with state := .bridged k, answerTimer := t.st.answerStart, testTimer := none } := by
  simp [Turn.stepBack]

theorem Turn.stepBack_contestClaim (t : Turn) (g : Spare) (k : Circuit) :
    (t.stepBack g k).st.contestClaim g = some (k, t.st.localClass k) := by
  unfold State.contestClaim
  rw [Turn.stepBack_engine]
  rfl

theorem Turn.stepBack_farClaim (t : Turn) (g : Spare) (k : Circuit) :
    (t.stepBack g k).st.farClaim g = t.st.farClaim g :=
  State.farClaim_of_sources (State.sources_of_still (t.still_stepBack g k)) g

/-- Won, the step back stands. -/
theorem Turn.stepBack_won (hf : t.st.farClaim g = some (j, c))
    (hb : j = k ∨ beforeClaim (k, t.st.localClass k) (j, c) = true) :
    (t.stepBack g k).contest g = t.stepBack g k :=
  Turn.contest_won fun own far ho hfar => by
    rw [Turn.stepBack_contestClaim] at ho
    rw [Turn.stepBack_farClaim, hf] at hfar
    cases ho
    cases hfar
    exact hb.imp_left Eq.symm

/-- Lost, the circuit is put back and the winner offered. -/
theorem Turn.stepBack_lost (hf : t.st.farClaim g = some (j, c)) (hne : j ≠ k)
    (hb : beforeClaim (k, t.st.localClass k) (j, c) = false) (hbar : (t.st.record k).barred = false)
    (hdec : (t.st.record k).declined = false) :
    let u := (t.stepBack g k).contest g
    (u.st.record k).state = (if t.st.effClass k = 0 then .quiet else .queued)
      ∧ ((u.st.engine g).state = .free ∨ (u.st.engine g).state = .preparing j)
      ∧ ((t.st.record j).barred = false → (t.st.record j).declined = false → t.st.effClass j ≠ 0 →
          (t.st.record j).state.unheld = true →
          (u.st.engine g).state = .preparing j ∧ (u.st.record j).state = .assigned g)
      ∧ u.late = t.late ++ [contestLostEvent g k j] := by
  set v := ((t.stepBack g k).letGo g).putBack g k with hv
  have hsrc : v.st.sources = t.st.sources := State.sources_of_still (by simp [hv])
  have hfree : (v.st.engine g).state = .free := by simp [hv, Turn.putBack]
  have hrec : ∀ i, i ≠ k → v.st.record i = t.st.record i := fun i hi => by
    simp [hv, Turn.putBack, Ne.symm hi, Turn.stepBack]
  have hback : (v.st.record k).state = ((t.stepBack g k).letGo g).st.restingState k := by simp [hv, Turn.putBack]
  have hu : (t.stepBack g k).contest g = (v.offer g j).gatherLate (contestLostEvent g k j) :=
    Turn.contest_lost (t.stepBack_contestClaim g k) ((t.stepBack_farClaim g k).trans hf) hne hb
  dsimp only
  rw [hu]
  refine ⟨?_, ?_, fun hb' hd' hz' hu' => ?_, ?_⟩
  · rw [Turn.gatherLate_st, Turn.offer_record_other _ _ hne, hback,
      State.restingState_of_sources (State.sources_of_still (Turn.still_letGo ..)),
      State.restingState_of_sources (State.sources_of_still (t.still_stepBack g k)),
      State.restingState_of_unflagged hbar hdec]
  · rw [Turn.gatherLate_st]
    exact (v.offer_engine g j).imp_left fun e => e.trans hfree
  · rw [Turn.gatherLate_st, Turn.offer_taken v g (by rw [hrec j hne]; exact hb') (by rw [hrec j hne]; exact hd')
      (by rwa [State.effClass_of_sources hsrc]) (by rw [hrec j hne]; exact hu')]
    simp
  · show (v.offer g j).late ++ _ = _
    rw [v.offer_late j hfree]
    simp [hv, Turn.putBack, Turn.stepBack]

/-! ## Declines -/

/-- A record marked declined rests without a place in the queue. -/
theorem State.restingState_declined (s : State) (k : Circuit) (r : Record) (hd : r.declined = true)
    (hl : r.localClass = (s.record k).localClass) :
    (s.setRecord k r).restingState k = if s.effClass k = 0 then .quiet else .parked := by
  have heff : (s.setRecord k r).effClass k = s.effClass k := by
    unfold State.effClass State.localClass
    rw [State.setRecord_record_same, hl, State.setRecord_farClass]
  unfold State.restingState
  rw [heff, State.setRecord_record_same, hd, Bool.or_true]
  simp

theorem Turn.drop_engine (t : Turn) (g : Spare) (k : Circuit) :
    (t.drop g k).st.engine g = { t.st.engine g with state := .free, answerTimer := none, testTimer := none } := by
  simp [Turn.drop, Turn.release]

theorem Turn.drop_transfer (t : Turn) (g : Spare) (k : Circuit) :
    (t.drop g k).st.transfer g = some { source := .rest, cursor := 0, resend := [], inFlight := none } := by
  simp [Turn.drop, Turn.release]

theorem Turn.drop_record (t : Turn) (g : Spare) (k : Circuit) :
    (t.drop g k).st.record k = { t.st.record k with state := t.st.restingState k, returnTimer := none } := by
  simp [Turn.drop, Turn.release, State.restingState_of_sources (State.sources_of_still (t.still_letGo g))]

/-- The decline of a circuit that the spare holds drops it. -/
theorem Turn.decline_held (hr : (t.st.record k).state = .assigned g ∨ (t.st.record k).state = .releasing g) :
    t.decline g k = (t.change fun s => s.setRecord k { s.record k with declined := true }).drop g k := by
  unfold Turn.decline
  dsimp only
  rcases hr with e | e <;> rw [e] <;> exact if_pos rfl

/-- The decline of a circuit that another spare holds does nothing. -/
theorem Turn.decline_elsewhere {h : Spare} (hne : h ≠ g)
    (hr : (t.st.record k).state = .assigned h ∨ (t.st.record k).state = .releasing h) : t.decline g k = t := by
  unfold Turn.decline
  dsimp only
  rcases hr with e | e <;> rw [e] <;> exact if_neg hne

/-- The decline of a circuit that no spare holds marks the record and puts it at rest. -/
theorem Turn.decline_unheld (hr : (t.st.record k).state.unheld = true) :
    t.decline g k = (t.change fun s => s.setRecord k { s.record k with declined := true }).reactUnheld g k false := by
  have hu := (RequestState.unheld_iff _).mp hr
  unfold Turn.decline
  dsimp only
  split
  · next o ho => exact absurd ho (hu o).1
  · next o ho => exact absurd ho (hu o).2
  · rfl

theorem Turn.reactUnheld_state (t : Turn) (g : Spare) (k : Circuit) (changed : Bool) :
    ((t.reactUnheld g k changed).st.record k).state = t.st.restingState k := by
  unfold Turn.reactUnheld
  dsimp only
  split
  · next h => exact h.1
  · simp

theorem Turn.reactUnheld_declined (t : Turn) (g : Spare) (k : Circuit) (changed : Bool) :
    ((t.reactUnheld g k changed).st.record k).declined = (t.st.record k).declined :=
  State.declined_of_sources (t.sources_reactUnheld g k changed) k

@[simp] theorem Turn.reactUnheld_engines (t : Turn) (g : Spare) (k : Circuit) (changed : Bool) :
    (t.reactUnheld g k changed).st.engines = t.st.engines :=
  tab_ext fun i => t.reactUnheld_engine g i k changed

/-! ## The states that hold a circuit -/

theorem Turn.act_of_preparing (he : (t.st.engine g).state = .preparing k) (w : SpanWord) :
    t.act g w = t.actPreparing g w := by
  unfold Turn.act
  rw [he]

theorem Turn.act_of_bridged (he : (t.st.engine g).state = .bridged k) (w : SpanWord) :
    t.act g w = t.actBridged g k w := by
  unfold Turn.act
  rw [he]

theorem Turn.act_of_carrying (he : (t.st.engine g).state = .carrying k) (w : SpanWord) :
    t.act g w = t.actCarrying g k w := by
  unfold Turn.act
  rw [he]

theorem Turn.act_of_returning (he : (t.st.engine g).state = .returning k) (w : SpanWord) :
    t.act g w = t.actReturning g k w := by
  unfold Turn.act
  rw [he]

theorem EngineState.circuit_eq_some {e : EngineState} (h : e.circuit = some k) :
    e = .preparing k ∨ e = .bridged k ∨ e = .carrying k ∨ e = .returning k := by
  cases e <;> simp_all [EngineState.circuit]

/-- A DECLINE is treated alike by every engine that holds a circuit. -/
theorem Turn.act_decline (hk : (t.st.engine g).state.circuit = some k) (j : Circuit) :
    t.act g (.decline j) = t.decline g j := by
  rcases EngineState.circuit_eq_some hk with e | e | e | e
  · exact Turn.act_of_preparing e _
  · exact Turn.act_of_bridged e _
  · exact Turn.act_of_carrying e _
  · exact Turn.act_of_returning e _

/-- BARRED, and YIELD of another circuit, do nothing of their own. -/
theorem Turn.act_idle_word (hk : (t.st.engine g).state.circuit = some k)
    (hw : (∃ r, w = .barred r) ∨ ∃ j, j ≠ k ∧ w = .yield j) : t.act g w = t := by
  rcases hw with ⟨r, rfl⟩ | ⟨j, hj, rfl⟩
  · rcases EngineState.circuit_eq_some hk with e | e | e | e
    · exact Turn.act_of_preparing e _
    · exact Turn.act_of_bridged e _
    · exact Turn.act_of_carrying e _
    · exact Turn.act_of_returning e _
  · rcases EngineState.circuit_eq_some hk with e | e | e | e
    · exact Turn.act_of_preparing e _
    · exact (Turn.act_of_bridged e _).trans (if_neg fun h => hj h.1)
    · exact (Turn.act_of_carrying e _).trans (if_neg fun h => hj h.1)
    · exact (Turn.act_of_returning e _).trans (if_neg hj)

/-- Outside CARRYING, a claim of another circuit is contested at once. -/
theorem Turn.act_contested (he : (t.st.engine g).state = .preparing k ∨ (t.st.engine g).state = .bridged k
      ∨ (t.st.engine g).state = .returning k) (hj : j ≠ k) (hw : w = .claim j c ∨ w = .carry j c) :
    t.act g w = t.contest g := by
  rcases he with e | e | e
  · rw [Turn.act_of_preparing e]
    rcases hw with rfl | rfl <;> rfl
  · rw [Turn.act_of_bridged e]
    rcases hw with rfl | rfl
    · rfl
    · exact if_neg hj
  · rw [Turn.act_of_returning e]
    rcases hw with rfl | rfl <;> exact if_neg hj

/-- The start of a return that the far end has already answered. -/
theorem Turn.enterReturning_answered (h : letGoWord k (t.st.farSays g) = true) :
    ((t.enterReturning g k).st.engine g).state = .free
      ∧ ((t.enterReturning g k).st.transfer g).map (·.source) = some .rest := by
  rw [Turn.enterReturning_eq]
  dsimp only
  rw [if_pos h]
  simp [Turn.completeReturn, Turn.release]

theorem Turn.completeReturn_rests (t : Turn) (g : Spare) (k : Circuit) :
    ((t.completeReturn g k).st.engine g).state = .free
      ∧ ((t.completeReturn g k).st.transfer g).map (·.source) = some .rest := by
  simp [Turn.completeReturn, Turn.release]

theorem Turn.act_preparing_agreed (hs : t.st.farSays g = some w) (he : (t.st.engine g).state = .preparing k)
    (hw : (∃ c, w = .claim k c ∨ w = .carry k c) ∨ w = .vacant ∨ (∃ j, w = .yield j) ∨ w = .loop ∨ w = .unloop) :
    t.act g w = t := by
  rw [Turn.act_of_preparing he]
  rcases hw with ⟨c, hw⟩ | rfl | ⟨j, rfl⟩ | rfl | rfl
  · have hf : t.st.farClaim g = some (k, c) := by
      rw [State.farClaim_of_says hs]
      rcases hw with rfl | rfl <;> rfl
    have hcontest : t.actPreparing g w = t.contest g := by rcases hw with rfl | rfl <;> rfl
    rw [hcontest]
    exact Turn.contest_agreed hf (by rw [he]; rfl)
  all_goals rfl

theorem Turn.act_bridged_word (hs : t.st.farSays g = some w) (he : (t.st.engine g).state = .bridged k) :
    ((∃ c, w = .carry k c) → (t.act g w).st.engine g
        = { t.st.engine g with state := .carrying k, answerTimer := none, testTimer := none })
    ∧ ((∃ c, w = .claim k c) ∨ w = .vacant ∨ w = .loop ∨ w = .unloop → t.act g w = t) := by
  rw [Turn.act_of_bridged he]
  refine ⟨?_, ?_⟩
  · rintro ⟨c, rfl⟩
    have e : t.actBridged g k (.carry k c) = t.enterEngine g (.carrying k) none none := if_pos rfl
    rw [e]
    simp
  · rintro (⟨c, rfl⟩ | rfl | rfl | rfl)
    · exact Turn.contest_agreed (State.farClaim_of_says hs) (by rw [he]; rfl)
    all_goals rfl

theorem Turn.act_carrying_word (hs : t.st.farSays g = some w) (he : (t.st.engine g).state = .carrying k) :
    ((∃ c, w = .claim k c) → (t.act g w).st.engine g
        = { t.st.engine g with state := .bridged k, answerTimer := t.st.answerStart, testTimer := none })
    ∧ ((∃ c, w = .carry k c) ∨ w = .vacant ∨ w = .loop ∨ w = .unloop → t.act g w = t)
    ∧ ∀ j c, j ≠ k → w = .claim j c ∨ w = .carry j c → t.act g w = (t.stepBack g k).contest g := by
  rw [Turn.act_of_carrying he]
  refine ⟨?_, ?_, fun j c hj hw => ?_⟩
  · rintro ⟨c, rfl⟩
    have e : t.actCarrying g k (.claim k c) = t.stepBack g k :=
      Turn.stepBack_won (State.farClaim_of_says hs) (.inl rfl)
    rw [e, Turn.stepBack_engine]
  · rintro (⟨c, rfl⟩ | rfl | rfl | rfl)
    · exact if_pos rfl
    all_goals rfl
  · rcases hw with rfl | rfl
    · rfl
    · exact if_neg hj

theorem Turn.act_yield (hs : t.st.farSays g = some (.yield k))
    (he : (t.st.engine g).state = .bridged k ∨ (t.st.engine g).state = .carrying k) :
    (t.st.localClass k ≠ 0 → t.act g (.yield k) = t)
    ∧ (t.st.localClass k = 0 → ((t.act g (.yield k)).st.engine g).state = .free
        ∧ ((t.act g (.yield k)).st.transfer g).map (·.source) = some .rest) := by
  have hact : t.act g (.yield k) = if k = k ∧ t.st.localClass k = 0 then t.enterReturning g k else t := by
    rcases he with e | e
    · exact Turn.act_of_bridged e _
    · exact Turn.act_of_carrying e _
  rw [hact]
  refine ⟨fun h => if_neg fun hc => h hc.2, fun h => ?_⟩
  rw [if_pos ⟨rfl, h⟩]
  exact Turn.enterReturning_answered (by rw [hs]; simp [letGoWord])

theorem Turn.act_returning_word (he : (t.st.engine g).state = .returning k) :
    (w = .yield k ∨ w = .vacant → ((t.act g w).st.engine g).state = .free
        ∧ ((t.act g w).st.transfer g).map (·.source) = some .rest)
    ∧ ((∃ c, w = .claim k c ∨ (w = .carry k c ∧ 0 < c)) →
        (t.act g w).st.engine g
          = { t.st.engine g with state := .bridged k, answerTimer := t.st.answerStart, testTimer := none }
        ∧ ((t.act g w).st.record k).state = .assigned g)
    ∧ (w = .carry k 0 ∨ w = .loop ∨ w = .unloop → t.act g w = t) := by
  have hanswer : (t.moveRecord g k (.assigned g) .back).st.answerStart = t.st.answerStart := by
    unfold State.answerStart
    rw [Turn.moveRecord_st]
    rfl
  have hrebridged : (t.rebridge g k).st.engine g
        = { t.st.engine g with state := .bridged k, answerTimer := t.st.answerStart, testTimer := none }
      ∧ ((t.rebridge g k).st.record k).state = .assigned g := by
    simp [Turn.rebridge, hanswer]
  rw [Turn.act_of_returning he]
  refine ⟨?_, ?_, ?_⟩
  · rintro (rfl | rfl)
    · have e : t.actReturning g k (.yield k) = t.completeReturn g k := if_pos rfl
      rw [e]
      exact t.completeReturn_rests g k
    · exact t.completeReturn_rests g k
  · rintro ⟨c, rfl | ⟨rfl, hc⟩⟩
    · have e : t.actReturning g k (.claim k c) = t.rebridge g k := if_pos rfl
      rw [e]
      exact hrebridged
    · have e : t.actReturning g k (.carry k c) = t.rebridge g k := (if_pos rfl).trans (if_pos hc)
      rw [e]
      exact hrebridged
  · rintro (rfl | rfl | rfl)
    · exact (if_pos rfl).trans (if_neg (lt_irrefl 0))
    · rfl
    · rfl

theorem Turn.act_decline_own (hk : (t.st.engine g).state.circuit = some k)
    (hr : (t.st.record k).state = .assigned g ∨ (t.st.record k).state = .releasing g) :
    ((t.act g (.decline k)).st.engine g).state = .free
      ∧ ((t.act g (.decline k)).st.transfer g).map (·.source) = some .rest
      ∧ ((t.act g (.decline k)).st.record k).declined = true
      ∧ ((t.act g (.decline k)).st.record k).state = (if t.st.effClass k = 0 then .quiet else .parked) := by
  rw [Turn.act_decline hk, Turn.decline_held hr, Turn.drop_engine, Turn.drop_transfer, Turn.drop_record, Turn.change_st,
    State.restingState_declined]
  · simp
  · rfl
  · rfl

theorem Turn.decline_unheld_fields (hu : (t.st.record j).state.unheld = true) :
    ((t.decline g j).st.record j).declined = true
      ∧ ((t.decline g j).st.record j).state = (if t.st.effClass j = 0 then .quiet else .parked)
      ∧ (t.decline g j).st.engines = t.st.engines ∧ ∀ i, i ≠ j → (t.decline g j).st.record i = t.st.record i := by
  rw [Turn.decline_unheld hu, Turn.reactUnheld_state, Turn.reactUnheld_declined, Turn.reactUnheld_engines, Turn.change_st,
    State.restingState_declined]
  · refine ⟨by simp, rfl, rfl, fun i hi => ?_⟩
    rw [Turn.reactUnheld_record_other _ _ _ (Ne.symm hi)]
    simp [Ne.symm hi]
  · rfl
  · rfl

end HoldingEngines

/-- Settles O49: the engine's action, state by state and word by word. -/
theorem holdingEnginesActOnWords : Obligations.HoldingEnginesActOnWords := by
  intro t g k w hs
  dsimp only
  refine ⟨Turn.act_idle_word, ?_, fun he hw => Turn.act_preparing_agreed hs he hw, Turn.act_bridged_word hs, fun he => ?_, ?_,
    Turn.act_returning_word, ?_, fun hk j hj hw => ?_⟩
  · rintro he ⟨j, c, hj, hw⟩
    exact Turn.act_contested he hj hw
  · obtain ⟨hclaim, hsame, hother⟩ := Turn.act_carrying_word hs he
    refine ⟨hclaim, hsame, fun j c hj hw => ?_⟩
    have hf : t.st.farClaim g = some (j, c) := by
      rw [State.farClaim_of_says hs]
      rcases hw with rfl | rfl <;> rfl
    rw [hother j c hj hw]
    refine ⟨fun hb => ?_, fun hb hbar hdec => ?_⟩
    · rw [Turn.stepBack_won hf (.inr hb), Turn.stepBack_engine]
      exact ⟨rfl, rfl, rfl, rfl⟩
    · obtain ⟨h1, h2, h3, h4⟩ := Turn.stepBack_lost hf hj hb hbar hdec
      refine ⟨h1, h2, fun hb' hd' hz' hq => h3 hb' hd' hz' ?_, h4⟩
      rcases hq with e | e <;> rw [e] <;> rfl
  · rintro he rfl
    exact Turn.act_yield hs he
  · rintro hk hr rfl
    exact Turn.act_decline_own hk hr
  · subst hw
    rw [Turn.act_decline hk]
    refine ⟨?_, fun hu => Turn.decline_unheld_fields ((RequestState.unheld_iff _).mpr hu)⟩
    rintro ⟨h, hne, hr⟩
    exact Turn.decline_elsewhere hne hr

end Sys2Proof.Machine
end

