-- ==== Sys2Proof/Proofs/Bystanders.lean ====
section
/-! Proofs: reactions of the other spare's circuits leave a spare alone whose engine holds none. -/

namespace Sys2Proof.Machine

/-- A record is on a spare: ASSIGNED or RELEASING with it. -/
def RequestState.On (r : RequestState) (g : Spare) : Prop := r = .assigned g ∨ r = .releasing g

theorem RequestState.not_on_of_unheld {r : RequestState} (h : r.unheld = true) (g : Spare) : ¬ r.On g := fun ho =>
  have hu := (RequestState.unheld_iff r).mp h g
  ho.elim hu.1 hu.2

/-- No record is on the spare. -/
def State.Bare (s : State) (g : Spare) : Prop := ∀ k, ¬ (s.record k).state.On g

/-- A turn goes on without touching spare g: neither its engine nor its transfer, and no record is put on it. -/
structure Turn.Beside (g : Spare) (t t' : Turn) : Prop where
  engine : t'.st.engine g = t.st.engine g
  transfer : t'.st.transfer g = t.st.transfer g
  late : t.late <+: t'.late
  on : ∀ k, (t'.st.record k).state.On g → (t.st.record k).state.On g

section Bystanders

variable {t u v : Turn} {g o : Spare} {j k : Circuit}

theorem Turn.Beside.refl (g : Spare) (t : Turn) : t.Beside g t := ⟨rfl, rfl, List.prefix_refl _, fun _ h => h⟩

theorem Turn.Beside.trans (h1 : t.Beside g u) (h2 : u.Beside g v) : t.Beside g v :=
  ⟨h2.engine.trans h1.engine, h2.transfer.trans h1.transfer, h1.late.trans h2.late, fun k h => h1.on k (h2.on k h)⟩

theorem Turn.Beside.bare (h : t.Beside g u) (hb : t.st.Bare g) : u.st.Bare g := fun k hk => hb k (h.on k hk)

/-! ## Single moves -/

theorem Turn.moveRecord_beside (t : Turn) (i : Spare) (k : Circuit) (r : RequestState) (place : Place) (hr : ¬ r.On g) :
    t.Beside g (t.moveRecord i k r place) where
  engine := by simp
  transfer := by simp
  late := by simp
  on := fun j hj => by
    by_cases hk : k = j
    · subst hk
      simp only [Turn.moveRecord_record] at hj
      exact absurd hj hr
    · rwa [Turn.moveRecord_record_other _ _ _ _ hk] at hj

theorem Turn.enterEngine_beside (t : Turn) (ho : o ≠ g) (e : EngineState) (a b : Option Nat) :
    t.Beside g (t.enterEngine o e a b) where
  engine := by simp [ho]
  transfer := rfl
  late := List.prefix_refl _
  on := fun _ h => h

theorem Turn.letGo_beside (t : Turn) (ho : o ≠ g) : t.Beside g (t.letGo o) where
  engine := by simp [ho]
  transfer := by simp [Turn.letGo, State.startTransfer, ho]
  late := List.prefix_refl _
  on := fun k h => by rwa [Turn.letGo_record] at h

theorem Turn.release_beside (t : Turn) (i : Spare) (k : Circuit) : t.Beside g (t.release i k) :=
  t.moveRecord_beside _ _ _ _ (RequestState.not_on_of_unheld (t.st.restingState_unheld k) g)

theorem Turn.putBack_beside (t : Turn) (i : Spare) (k : Circuit) : t.Beside g (t.putBack i k) :=
  t.moveRecord_beside _ _ _ _ (RequestState.not_on_of_unheld (t.st.restingState_unheld k) g)

/-- A drop, and the end of a return. -/
theorem Turn.drop_beside (t : Turn) (ho : o ≠ g) (k : Circuit) : t.Beside g (t.drop o k) :=
  (t.letGo_beside ho).trans ((t.letGo o).release_beside o k)

theorem Turn.endTestOrLoop_late_prefix (t : Turn) (g : Spare) (r : TestResult) : t.late <+: (t.endTestOrLoop g r).late := by
  unfold Turn.endTestOrLoop
  split
  · exact List.prefix_append _ _
  · exact List.prefix_append _ _
  · exact List.prefix_refl _

theorem Turn.enterPreparing_late_prefix (t : Turn) (g : Spare) (k : Circuit) : t.late <+: (t.enterPreparing g k).late := by
  have e : (t.enterPreparing g k).late = (t.endTestOrLoop g .overtaken).late := by
    unfold Turn.enterPreparing
    dsimp only
    rw [Turn.enterEngine_late]
    exact Turn.moveRecord_late ..
  rw [e]
  exact t.endTestOrLoop_late_prefix g _

theorem Turn.enterPreparing_transfer_other (t : Turn) (ho : o ≠ g) (k : Circuit) :
    (t.enterPreparing o k).st.transfer g = t.st.transfer g := by
  simp [Turn.enterPreparing, State.startTransfer, ho]

theorem Turn.enterPreparing_beside (t : Turn) (ho : o ≠ g) (k : Circuit) : t.Beside g (t.enterPreparing o k) where
  engine := by simp [ho]
  transfer := t.enterPreparing_transfer_other ho k
  late := t.enterPreparing_late_prefix o k
  on := fun j hj => by
    by_cases hk : k = j
    · subst hk
      rw [Turn.enterPreparing_state] at hj
      rcases hj with e | e
      · exact absurd (RequestState.assigned.inj e) ho
      · cases e
    · rwa [Turn.enterPreparing_record_other _ _ hk] at hj

/-! ## Offers, contests and reactions -/

theorem Turn.offer_beside (t : Turn) (ho : o ≠ g) (hk : ¬ (t.st.record k).state.On g) : t.Beside g (t.offer o k) := by
  have hnote : t.Beside g (t.noteOffer o) := ⟨rfl, rfl, List.prefix_refl _, fun _ h => h⟩
  rcases t.offer_cases o k with ⟨e, _⟩ | ⟨_, _, _, ⟨_, e⟩ | ⟨i, _, hi, e⟩⟩ <;> rw [e]
  · exact hnote
  · exact hnote.trans (Turn.enterPreparing_beside _ ho k)
  · have hne : i ≠ g := by
      rintro rfl
      exact hk hi
    exact hnote.trans ((Turn.letGo_beside _ hne).trans (Turn.enterPreparing_beside _ ho k))

theorem Turn.contest_beside (t : Turn) (ho : o ≠ g) (hb : t.st.Bare g) : t.Beside g (t.contest o) := by
  rcases t.contest_cases o with ⟨e, _⟩ | ⟨own, far, _, _, _, _, e⟩ <;> rw [e]
  · exact .refl g t
  · have hback : t.Beside g ((t.letGo o).putBack o own.1) := (t.letGo_beside ho).trans (Turn.putBack_beside ..)
    refine hback.trans ((Turn.offer_beside _ ho (hback.bare hb far.1)).trans ?_)
    exact ⟨rfl, rfl, List.prefix_append _ _, fun _ h => h⟩

theorem Turn.enterReturning_beside (t : Turn) (ho : o ≠ g) (hb : t.st.Bare g) (k : Circuit) :
    t.Beside g (t.enterReturning o k) := by
  have hmove : t.Beside g ((t.moveRecord o k (.releasing o) .back).enterEngine o (.returning k)
      (t.moveRecord o k (.releasing o) .back).st.answerStart none) := by
    refine (t.moveRecord_beside o k _ _ ?_).trans (Turn.enterEngine_beside _ ho _ _ _)
    rintro (e | e)
    · cases e
    · exact ho (RequestState.releasing.inj e)
  rw [Turn.enterReturning_eq]
  dsimp only
  split
  · exact hmove.trans (Turn.drop_beside _ ho k)
  · exact hmove.trans (Turn.contest_beside _ ho (hmove.bare hb))

theorem Turn.setTimer_beside (t : Turn) (k : Circuit) (x : State → Option Nat) :
    t.Beside g (t.change fun s => s.setTimer k (x s)) where
  engine := by simp [State.setTimer]
  transfer := by simp [State.setTimer]
  late := List.prefix_refl _
  on := fun j hj => by rwa [Turn.change_st, State.setTimer_state] at hj

theorem Turn.classGone_beside (t : Turn) (ho : o ≠ g) (hb : t.st.Bare g) (k : Circuit) :
    t.Beside g (t.classGone o k) := by
  unfold Turn.classGone
  split
  · exact t.drop_beside ho k
  · exact t.enterReturning_beside ho hb k
  · split
    · exact t.enterReturning_beside ho hb k
    · split
      · exact .refl g t
      · unfold Turn.startReturn
        split
        · exact t.enterReturning_beside ho hb k
        · exact t.setTimer_beside k fun s => some (s.regs.returnDelay.toNat * Config.per5s)
  · exact .refl g t

theorem Turn.reactHeld_beside (t : Turn) (ho : o ≠ g) (hb : t.st.Bare g) (k : Circuit) (before : Nat) :
    t.Beside g (t.reactHeld o k before) := by
  have hgone : t.Beside g (if before = 0 then t else t.classGone o k) := by
    split
    · exact .refl g t
    · exact t.classGone_beside ho hb k
  unfold Turn.reactHeld
  split
  · exact hgone.trans (Turn.contest_beside _ ho (hgone.bare hb))
  · exact (t.setTimer_beside k fun _ => none).trans (Turn.contest_beside _ ho ((t.setTimer_beside k fun _ => none).bare hb))

theorem Turn.reactUnheld_beside (t : Turn) (i : Spare) (k : Circuit) (changed : Bool) :
    t.Beside g (t.reactUnheld i k changed) := by
  unfold Turn.reactUnheld
  dsimp only
  split
  · exact .refl g t
  · exact t.moveRecord_beside _ _ _ _ (RequestState.not_on_of_unheld (t.st.restingState_unheld k) g)

theorem Turn.reactLater_beside (t : Turn) (b : State) (i : Spare) (hb : t.st.Bare g) (k : Circuit) :
    t.Beside g (t.reactLater b i k) := by
  unfold Turn.reactLater
  split
  · exact .refl g t
  · split
    · next o ho =>
      refine t.reactHeld_beside (fun e => ?_) hb k _
      subst e
      exact hb k (.inl ho)
    · exact .refl g t
    · split
      · exact .refl g t
      · exact t.reactUnheld_beside _ _ _
    · exact t.reactUnheld_beside _ _ _

/-- The last reactions leave a spare alone on which no record is. -/
theorem Turn.reacted_beside (t : Turn) (b : State) (i : Spare) (f : Option Half) (hb : t.st.Bare g) :
    t.Beside g (t.reacted b i f) := by
  unfold Turn.reacted
  generalize affected (b.farClaim i) (claimOf f) = l
  induction l generalizing t with
  | nil => exact .refl g t
  | cons k l ih =>
    have hstep := t.reactLater_beside b i hb k
    exact hstep.trans (ih _ (hstep.bare hb))

/-! ## A record that no engine holds -/

/-- A circuit is held by none, or by a spare other than g that has taken it for its far claim. -/
def Turn.Adopting (g : Spare) (k : Circuit) (t : Turn) : Prop :=
  (t.st.record k).state.unheld = true
  ∨ ∃ o c, o ≠ g ∧ t.st.farClaim o = some (k, c) ∧ (t.st.engine o).state = .preparing k
      ∧ (t.st.record k).state = .assigned o

theorem spare_eq_of_ne {g o i : Spare} (ho : o ≠ g) (hi : i ≠ g) : o = i := by
  revert g o i
  decide

/-- A contest leaves the circuit unheld, or adopts it. -/
theorem Turn.Adopting.contest (h : t.Adopting g k) (ho : o ≠ g) : (t.contest o).Adopting g k := by
  rcases h with hu | ⟨i, c, hi, hf, he, hr⟩
  · rcases t.contest_cases o with ⟨e, _⟩ | ⟨own, far, _, hfar, _, _, e⟩ <;> rw [e]
    · exact .inl hu
    · set v := (t.letGo o).putBack o own.1 with hv
      have hvu : (v.st.record k).state.unheld = true := by
        by_cases hk : own.1 = k
        · subst hk
          simpa [hv, Turn.putBack] using State.restingState_unheld ..
        · simpa [hv, Turn.putBack, hk] using hu
      have hvf : v.st.farClaim o = some far := by
        rw [← hfar]
        exact State.farClaim_of_sources (State.sources_of_still (by simp [hv])) o
      by_cases hk : far.1 = k
      · subst hk
        rcases v.offer_cases o far.1 with ⟨e', _⟩ | ⟨_, _, _, ⟨_, e'⟩ | ⟨i, _, hi, _⟩⟩
        · rw [e']
          exact .inl hvu
        · rw [e']
          refine .inr ⟨o, far.2, ho, ?_, by simp, by simp⟩
          rw [Turn.gatherLate_st, State.farClaim_of_sources (Turn.sources_enterPreparing ..)]
          exact hvf
        · have := (RequestState.unheld_iff _).mp hvu i
          exact absurd hi (by simp [this.1, this.2])
      · refine .inl ?_
        rw [Turn.gatherLate_st, Turn.offer_record_other _ _ hk]
        exact hvu
  · obtain rfl : o = i := spare_eq_of_ne ho hi
    have e : t.contest o = t := Turn.contest_agreed hf (by rw [he]; rfl)
    rw [e]
    exact .inr ⟨o, c, ho, hf, he, hr⟩

theorem Turn.enterReturning_adopting (hu : (t.st.record k).state.unheld = true) (ho : o ≠ g) (hj : j ≠ k) :
    (t.enterReturning o j).Adopting g k := by
  have hmove : (((t.moveRecord o j (.releasing o) .back).enterEngine o (.returning j)
      (t.moveRecord o j (.releasing o) .back).st.answerStart none).st.record k).state.unheld = true := by
    simpa [hj] using hu
  rw [Turn.enterReturning_eq]
  dsimp only
  split
  · refine .inl ?_
    simpa [Turn.completeReturn, Turn.release, hj] using hu
  · exact Turn.Adopting.contest (.inl hmove) ho

theorem Turn.classGone_adopting (hu : (t.st.record k).state.unheld = true) (ho : o ≠ g) (hj : j ≠ k) :
    (t.classGone o j).Adopting g k := by
  unfold Turn.classGone
  split
  · refine .inl ?_
    simpa [Turn.drop, Turn.release, hj] using hu
  · exact Turn.enterReturning_adopting hu ho hj
  · split
    · exact Turn.enterReturning_adopting hu ho hj
    · split
      · exact .inl hu
      · unfold Turn.startReturn
        split
        · exact Turn.enterReturning_adopting hu ho hj
        · refine .inl ?_
          simpa [hj] using hu
  · exact .inl hu

/-- The reaction of another circuit leaves the circuit unheld, or adopts it. -/
theorem Turn.reactLater_adopting (hu : (t.st.record k).state.unheld = true) (b : State) (i : Spare)
    (hb : t.st.Bare g) (j : Circuit) : (t.reactLater b i j).Adopting g k := by
  have hrest : ∀ i j c, (t.reactUnheld i j c).Adopting g k := fun i j c => .inl (by
    by_cases hj : j = k
    · subst hj
      rw [Turn.reactUnheld_state]
      exact t.st.restingState_unheld j
    · rwa [Turn.reactUnheld_record_other _ _ _ hj])
  unfold Turn.reactLater
  split
  · exact .inl hu
  · split
    · next o ho =>
      have hne : o ≠ g := fun e => hb j (.inl (e ▸ ho))
      have hj : j ≠ k := by
        rintro rfl
        rw [ho] at hu
        cases hu
      unfold Turn.reactHeld
      split
      · refine Turn.Adopting.contest ?_ hne
        split
        · exact .inl hu
        · exact Turn.classGone_adopting hu hne hj
      · refine Turn.Adopting.contest (.inl ?_) hne
        simpa [hj] using hu
    · exact .inl hu
    · split
      · exact .inl hu
      · exact hrest _ _ _
    · exact hrest _ _ _

/-- The last reactions to a word that claims nothing leave an unheld circuit so, or adopt it. -/
theorem Turn.reacted_adopting (hu : (t.st.record k).state.unheld = true) (b : State) (i : Spare) {f : Option Half}
    (hf : claimOf f = none) (hb : t.st.Bare g) : (t.reacted b i f).Adopting g k := by
  unfold Turn.reacted
  rw [hf]
  cases b.farClaim i with
  | none => exact .inl hu
  | some x => exact Turn.reactLater_adopting hu b i hb x.1

/-! ## Where no engine holds a circuit -/

/-- While no record is held, the last reactions offer nothing and hold nothing. -/
theorem Turn.reacted_unheld (t : Turn) (b : State) (i : Spare) (f : Option Half)
    (hu : ∀ k, (t.st.record k).state.unheld = true) :
    (∀ k, ((t.reacted b i f).st.record k).state.unheld = true) ∧ (t.reacted b i f).offered = t.offered := by
  have hstep : ∀ (t : Turn) (j : Circuit), (∀ k, (t.st.record k).state.unheld = true) →
      (∀ k, ((t.reactLater b i j).st.record k).state.unheld = true) ∧ (t.reactLater b i j).offered = t.offered := by
    intro t j hu
    have hrest : (∀ k, ((t.reactUnheld i j false).st.record k).state.unheld = true)
        ∧ (t.reactUnheld i j false).offered = t.offered := by
      refine ⟨fun k => ?_, ?_⟩
      · by_cases hj : j = k
        · subst hj
          rw [Turn.reactUnheld_state]
          exact t.st.restingState_unheld j
        · rw [Turn.reactUnheld_record_other _ _ _ hj]
          exact hu k
      · unfold Turn.reactUnheld
        dsimp only
        split
        · rfl
        · simp
    have hj := (RequestState.unheld_iff _).mp (hu j)
    unfold Turn.reactLater
    split
    · exact ⟨hu, rfl⟩
    · split
      · next o ho => exact absurd ho (hj o).1
      · exact ⟨hu, rfl⟩
      · split
        · exact ⟨hu, rfl⟩
        · exact hrest
      · exact hrest
  unfold Turn.reacted
  generalize affected (b.farClaim i) (claimOf f) = l
  induction l generalizing t with
  | nil => exact ⟨hu, rfl⟩
  | cons j l ih =>
    obtain ⟨h1, h2⟩ := hstep t j hu
    obtain ⟨h3, h4⟩ := ih _ h1
    exact ⟨h3, h4.trans h2⟩

end Bystanders

end Sys2Proof.Machine
end

