-- ==== Sys2Proof/Proofs/IdleEngines.lean ====
section
/-! Proofs: what an engine that holds no circuit does on a taken word.

The taking of a word is cut after the engine's action: what stands before it (State.heard, State.acted) is read off the
state the word met, and what follows it (Turn.concluded) leaves a spare alone whose engine holds nothing, but for the
offer of the claim that the word itself makes. -/

namespace Sys2Proof.Machine

/-! ## The parts of the taking of a word -/

/-- The turn before the engine's action on a taken word: word current, first reactions made, reasons updated, a grant
without a class revoked. -/
def State.heard (s : State) (g : Spare) (w : Half) (said : SpanWord) : Turn :=
  (((s.turn.change fun s => s.post (wordEvent .farWord g w)).refreshed g (some w)).takeReasons g said).revokeIfGone g

/-- The turn after the engine's action on a taken word. -/
def State.acted (s : State) (g : Spare) (w : Half) (said : SpanWord) : Turn := (s.heard g w said).act g said

/-- The last reactions to a taken word and the offer of its claim, on a turn that began in state b. -/
def Turn.concluded (t : Turn) (b : State) (g : Spare) (w : Half) : Turn := (t.reacted b g (some w)).offerStanding g

theorem State.take_eq (s : State) (g : Spare) (w : Half) (said : SpanWord) :
    s.turn.take g w said = (s.acted g w said).concluded (s.post (wordEvent .farWord g w)) g w := rfl

/-- The reasons as they are. -/
def State.watching (s : State) : Keep := ⟨False, fun i r => r = (s.engine i).reasons⟩

/-- The reasons as a taken word leaves them. -/
def State.taking (s : State) (g : Spare) (said : SpanWord) : Keep :=
  ⟨False, fun i r => r = if i = g then (s.engine g).reasons.taken said else (s.engine i).reasons⟩

theorem State.watching_takes (s : State) (g : Spare) (said : SpanWord) : s.watching.Takes (s.taking g said) g said where
  full := id
  others := fun i hi r hr => hr.trans (if_neg hi).symm
  taken := fun r hr => by
    rw [show r = (s.engine g).reasons from hr]
    exact (if_pos rfl).symm

theorem State.Agreement.watching {s : State} (h : s.Agreement) : s.Steady s.watching [] [] :=
  h.steady (fun _ => rfl) fun hf => hf.elim

section IdleEngines

variable {s b : State} {t : Turn} {g o : Spare} {j k : Circuit} {c : Nat} {w : Half} {said : SpanWord}

/-! ## What moves leave of a turn -/

@[simp] theorem State.post_record (s : State) (e : Event) (k : Circuit) : (s.post e).record k = s.record k :=
  s.postAll_record [e] k

@[simp] theorem State.post_engine (s : State) (e : Event) (g : Spare) : (s.post e).engine g = s.engine g :=
  s.postAll_engine [e] g

/-- What every step of a run of moves keeps, the run keeps. -/
theorem Turn.foldl_keeps {α β : Type} (F : Turn → β) (f : Turn → α → Turn) (h : ∀ t a, F (f t a) = F t) (l : List α)
    (t : Turn) : F (l.foldl f t) = F t := by
  induction l generalizing t with
  | nil => rfl
  | cons a l ih => exact (ih (f t a)).trans (h t a)

@[simp] theorem Turn.reactUnheld_late (t : Turn) (g : Spare) (k : Circuit) (changed : Bool) :
    (t.reactUnheld g k changed).late = t.late := by
  unfold Turn.reactUnheld
  dsimp only
  split
  · rfl
  · simp

@[simp] theorem Turn.refreshClass_late (t : Turn) (b : State) (g : Spare) (claimed : Bool) (k : Circuit) :
    (t.refreshClass b g claimed k).late = t.late := by
  rcases t.refreshClass_cases b g claimed k with e | e <;> rw [e]
  · rfl
  · rw [Turn.reactUnheld_late]
    rfl

@[simp] theorem State.outer_cleared (s : State) (k : Circuit) (claimed : Bool) :
    ((s.updateKind k).cleared k claimed).outer = s.outer := by
  have e : ((s.updateKind k).cleared k claimed).outer = (s.updateKind k).outer := by
    unfold State.cleared
    split <;> rfl
  exact e.trans (State.outer_of_still (State.still_updateKind ..))

@[simp] theorem Turn.outer_refreshClass (t : Turn) (b : State) (g : Spare) (claimed : Bool) (k : Circuit) :
    (t.refreshClass b g claimed k).st.outer = t.st.outer := by
  rcases t.refreshClass_cases b g claimed k with e | e <;> rw [e]
  · exact State.outer_cleared ..
  · exact (State.outer_of_still (Turn.still_reactUnheld ..)).trans (State.outer_cleared ..)

/-- The first reactions mark no record declined, and free that of a claimed circuit. -/
theorem Turn.refreshClass_declined (t : Turn) (b : State) (g : Spare) (claimed : Bool) (j k : Circuit) :
    ((t.refreshClass b g claimed j).st.record k).declined
      = ((t.st.record k).declined && !(decide (j = k) && claimed)) := by
  have h : (((t.st.updateKind j).cleared j claimed).record k).declined
      = ((t.st.record k).declined && !(decide (j = k) && claimed)) := by
    by_cases hj : j = k
    · subst hj
      rw [State.cleared_record, State.updateKind_record]
      cases claimed <;> simp
    · simp [hj]
  rcases t.refreshClass_cases b g claimed j with e | e <;> rw [e]
  · exact h
  · exact (State.declined_of_sources (Turn.sources_reactUnheld ..) k).trans h

theorem Turn.refreshClass_fold_declined (b : State) (g : Spare) (f : Circuit → Bool) (l : List Circuit) (t : Turn)
    (k : Circuit) :
    ((l.foldl (fun t j => t.refreshClass b g (f j) j) t).st.record k).declined
      = ((t.st.record k).declined && !(decide (k ∈ l) && f k)) := by
  induction l generalizing t with
  | nil => simp
  | cons j l ih =>
    rw [List.foldl_cons, ih, Turn.refreshClass_declined]
    by_cases hj : j = k
    · subst hj
      cases f j <;> simp
    · simp [hj, Ne.symm hj]

theorem Turn.refreshed_declined (t : Turn) (g : Spare) (f : Option Half) (k : Circuit) :
    ((t.refreshed g f).st.record k).declined
      = ((t.st.record k).declined && !decide ((claimOf f).map (·.1) = some k)) := by
  unfold Turn.refreshed
  rw [Turn.refreshClass_fold_declined]
  by_cases hc : (claimOf f).map (·.1) = some k
  · have : k ∈ affected (t.st.farClaim g) (claimOf f) := (mem_affected ..).mpr (.inr hc)
    simp [this, hc]
  · simp [hc]

theorem Turn.outer_refreshed (t : Turn) (g : Spare) (f : Option Half) :
    (t.refreshed g f).st.outer = (t.st.setFar g f).outer :=
  Turn.foldl_keeps (fun t => t.st.outer) _ (fun _ _ => Turn.outer_refreshClass ..) _ _

theorem Turn.base_refreshed (t : Turn) (g : Spare) (f : Option Half) : (t.refreshed g f).st.base = t.st.base :=
  (Turn.foldl_keeps (fun t => t.st.base) _ (fun _ _ => Turn.base_refreshClass ..) _ _).trans (State.base_setFar ..)

theorem Turn.refreshed_late (t : Turn) (g : Spare) (f : Option Half) : (t.refreshed g f).late = t.late :=
  Turn.foldl_keeps Turn.late _ (fun _ _ => Turn.refreshClass_late ..) _ _

theorem Turn.refreshed_offered (t : Turn) (g : Spare) (f : Option Half) : (t.refreshed g f).offered = t.offered :=
  Turn.foldl_keeps Turn.offered _ (fun _ _ => Turn.refreshClass_offered ..) _ _

/-! ## Reasons -/

theorem Reasons.isEmpty_iff (r : Reasons) : r.isEmpty = true ↔ r.flags = 0 := by
  cases r with
  | mk a b c d e f => revert a b c d e f; decide

/-- A word that is not BARRED leaves an engine without a reason. -/
theorem Reasons.taken_of_empty {r : Reasons} (h : r.isEmpty = true) (hb : ¬ ∃ d, said = .barred d) : r.taken said = r := by
  rw [Reasons.eq_empty h]
  cases said with
  | barred d => exact absurd ⟨d, rfl⟩ hb
  | _ => rfl

theorem Reasons.taken_barred (r : Reasons) (h : ∃ d, said = .barred d) : (r.taken said).isEmpty = false := by
  obtain ⟨d, rfl⟩ := h
  cases r with
  | mk a b c d e f => simp [Reasons.taken, Reasons.isEmpty]

/-- A first reason: the teardown, and UNAVAILABLE. -/
theorem Turn.setReasons_torn (t : Turn) {g : Spare} {after : Reasons} (hu : (t.st.engine g).state ≠ .unavailable)
    (ha : after.isEmpty = false) :
    (t.setReasons g after).st = (((t.tearDown g).rearm g after).enterEngine g .unavailable none none).st
      ∧ (t.setReasons g after).late = (t.tearDown g).late := by
  refine ⟨?_, ?_⟩
  · rcases t.setReasons_cases g after with ⟨_, _, e⟩ | ⟨hu', _⟩ | ⟨hiff, _⟩
    · exact e
    · exact absurd hu' hu
    · exact absurd (hiff.mpr ha) hu
  · have hgather : ∀ (l : List Event) (v : Turn), (l.foldl (fun t e => t.gather (.reasons g) e) v).late = v.late :=
      Turn.foldl_keeps Turn.late _ fun _ _ => rfl
    have hc : ((t.st.engine g).state != .unavailable && !after.isEmpty) = true := by simp [ha, hu]
    unfold Turn.setReasons
    dsimp only
    rw [if_pos hc, if_pos hc]
    exact hgather _ _

/-- The removal of the last reason offers nothing. -/
theorem Turn.setReasons_freed_offered (t : Turn) {g : Spare} {after : Reasons}
    (hu : (t.st.engine g).state = .unavailable) (ha : after.isEmpty = true) :
    (t.setReasons g after).offered = t.offered := by
  have hgather : ∀ (l : List Event) (v : Turn), (l.foldl (fun t e => t.gather (.reasons g) e) v).offered = v.offered :=
    Turn.foldl_keeps Turn.offered _ fun _ _ => rfl
  have hc : ((t.st.engine g).state != .unavailable && !after.isEmpty) = false := by simp [ha]
  have hc' : (!((t.st.engine g).state != .unavailable) && after.isEmpty) = true := by simp [hu, ha]
  unfold Turn.setReasons
  dsimp only
  rw [if_neg (by rw [hc]; simp), if_pos hc', if_neg (by rw [hc]; simp)]
  exact hgather _ _

theorem Turn.takeReasons_same (h : (t.st.engine g).reasons.taken said = (t.st.engine g).reasons) :
    t.takeReasons g said = t := if_pos h.symm

theorem Turn.takeReasons_changed (h : (t.st.engine g).reasons.taken said ≠ (t.st.engine g).reasons) :
    t.takeReasons g said = t.setReasons g ((t.st.engine g).reasons.taken said) := if_neg (Ne.symm h)

theorem Turn.tearDown_engine_other (t : Turn) (ho : g ≠ o) : (t.tearDown g).st.engine o = t.st.engine o := by
  unfold Turn.tearDown
  split
  · simp [State.startTransfer, Turn.putBack]
  · simp [ho]

theorem Turn.setReasons_engine_other (t : Turn) (after : Reasons) (ho : g ≠ o) :
    (t.setReasons g after).st.engine o = t.st.engine o := by
  rcases t.setReasons_cases g after with ⟨_, _, e⟩ | ⟨_, _, e⟩ | ⟨_, e⟩ <;> rw [e]
  · simp [Turn.rearm, ho, t.tearDown_engine_other ho]
  · simp [Turn.rearm, ho]
  · simp [Turn.rearm, ho]

theorem Turn.takeReasons_engine_other (t : Turn) (said : SpanWord) (ho : g ≠ o) :
    (t.takeReasons g said).st.engine o = t.st.engine o := by
  unfold Turn.takeReasons
  dsimp only
  split
  · rfl
  · exact t.setReasons_engine_other _ ho

theorem Turn.revokeIfGone_engine_other (t : Turn) (ho : g ≠ o) : (t.revokeIfGone g).st.engine o = t.st.engine o := by
  unfold Turn.revokeIfGone
  split
  · split
    · simp [Turn.drop, Turn.release, ho]
    · rfl
  · rfl

theorem Turn.revokeIfGone_of_empty (h : (t.st.engine g).state.circuit = none) : t.revokeIfGone g = t := by
  unfold Turn.revokeIfGone
  split
  · next k e => rw [e] at h; cases h
  · rfl

/-! ## Before the engine's action -/

theorem State.Agreement.heard_steady (h : s.Agreement) (g : Spare) (w : Half) (said : SpanWord) :
    (s.heard g w said).st.Steady (s.taking g said) ((s.post (wordEvent .farWord g w)).staled g (some w)) [g] :=
  ((State.Steady.refreshed (t := s.turn.change fun s => s.post (wordEvent .farWord g w)) (h.watching.post _) g
    (some w)).takeReasons (s.watching_takes g said)).revokeIfGone g

theorem State.still_heard (s : State) (g : Spare) (w : Half) (said : SpanWord) :
    (s.heard g w said).st.still
      = ((s.turn.change fun s => s.post (wordEvent .farWord g w)).refreshed g (some w)).st.still := by
  simp [State.heard]

theorem State.outer_heard (s : State) (g : Spare) (w : Half) (said : SpanWord) :
    (s.heard g w said).st.outer = ((s.post (wordEvent .farWord g w)).setFar g (some w)).outer :=
  (State.outer_of_still (s.still_heard g w said)).trans (Turn.outer_refreshed ..)

theorem State.base_heard (s : State) (g : Spare) (w : Half) (said : SpanWord) :
    (s.heard g w said).st.base = s.base :=
  (State.base_of_still (s.still_heard g w said)).trans ((Turn.base_refreshed ..).trans (State.base_post ..))

theorem State.heard_farClaim (s : State) (g : Spare) (hs : spanWord w = some said) :
    (s.heard g w said).st.farClaim g = said.claimed :=
  (State.farClaim_of_setFar (State.qualifiers_of_outer (s.outer_heard g w said))).trans
    (claimOf_eq_claimed (by simpa using hs))

/-- A claim on a circuit frees its record of the decline hold (R17). -/
theorem State.heard_declined (s : State) (g : Spare) (k : Circuit) (hs : spanWord w = some said) :
    ((s.heard g w said).st.record k).declined
      = ((s.record k).declined && !decide (said.claimed.map (·.1) = some k)) := by
  rw [State.declined_of_sources (State.sources_of_still (s.still_heard g w said)) k, Turn.refreshed_declined,
    claimOf_eq_claimed (f := some w) (by simpa using hs)]
  simp

theorem State.heard_engine_other (s : State) (w : Half) (said : SpanWord) (ho : g ≠ o) :
    (s.heard g w said).st.engine o = s.engine o := by
  unfold State.heard
  rw [Turn.revokeIfGone_engine_other _ ho, Turn.takeReasons_engine_other _ _ ho, (Turn.refreshed_keeps ..).1]
  simp

/-- The turn in which a taken word is current and its first reactions are made. -/
def State.told (s : State) (g : Spare) (w : Half) : Turn :=
  (s.turn.change fun s => s.post (wordEvent .farWord g w)).refreshed g (some w)

theorem State.told_engine (s : State) (g i : Spare) (w : Half) : (s.told g w).st.engine i = s.engine i := by
  rw [State.told, (Turn.refreshed_keeps ..).1]
  simp

theorem State.told_offered (s : State) (g : Spare) (w : Half) : (s.told g w).offered = [] := Turn.refreshed_offered ..

/-- An engine that holds nothing and has no reason is met as it stands, but by BARRED. -/
theorem State.Agreement.heard_idle (h : s.Agreement) (hi : s.Idle g) (hb : ¬ ∃ d, said = .barred d) :
    s.heard g w said = s.told g w := by
  have hr : (s.engine g).reasons.isEmpty = true := h.watching.poised.usable hi.2
  have e : (s.told g w).takeReasons g said = s.told g w := Turn.takeReasons_same (by
    rw [State.told_engine]
    exact Reasons.taken_of_empty hr hb)
  show ((s.told g w).takeReasons g said).revokeIfGone g = _
  rw [e]
  exact Turn.revokeIfGone_of_empty (by rw [State.told_engine]; exact hi.1)

theorem State.Agreement.heard_reasons (h : s.Agreement) (g : Spare) (w : Half) (said : SpanWord) :
    ((s.heard g w said).st.engine g).reasons = (s.engine g).reasons.taken said :=
  ((h.heard_steady g w said).poised.watched g).trans (if_pos rfl)

/-- What has left a reason, or removed the last, has left the engine UNAVAILABLE, or usable. -/
theorem State.Agreement.heard_unavailable (h : s.Agreement) (g : Spare) (w : Half) (said : SpanWord) :
    ((s.heard g w said).st.engine g).state = .unavailable ↔ ((s.engine g).reasons.taken said).isEmpty = false := by
  rw [← h.heard_reasons g w said]
  exact ((h.heard_steady g w said).poised.reasons g (by simp)).symm

/-- The end of the last reason leaves the engine FREE, and nothing late or offered. -/
theorem State.Agreement.heard_freed (h : s.Agreement) (he : (s.engine g).state = .unavailable)
    (hr : ((s.engine g).reasons.taken said).isEmpty = true) :
    ((s.heard g w said).st.engine g).state = .free ∧ (s.heard g w said).offered = [] := by
  have hne : (s.engine g).reasons.taken said ≠ (s.engine g).reasons := fun e => by
    have := (h.reasons g).mpr he
    rw [← e, hr] at this
    cases this
  have hset : (s.told g w).takeReasons g said = (s.told g w).setReasons g ((s.engine g).reasons.taken said) := by
    rw [Turn.takeReasons_changed (by rwa [State.told_engine]), State.told_engine]
  have hfree : (((s.told g w).setReasons g ((s.engine g).reasons.taken said)).st.engine g).state = .free := by
    rcases (s.told g w).setReasons_cases g ((s.engine g).reasons.taken said) with ⟨hu, _⟩ | ⟨_, _, e⟩ | ⟨hiff, _⟩
    · exact absurd (by rwa [State.told_engine]) hu
    · rw [e]
      simp
    · have := hiff.mp (by rwa [State.told_engine])
      rw [hr] at this
      cases this
  have hoff : ((s.told g w).setReasons g ((s.engine g).reasons.taken said)).offered = [] := by
    rw [Turn.setReasons_freed_offered _ (by rwa [State.told_engine]) hr, State.told_offered]
  have hrevoke : s.heard g w said = (s.told g w).setReasons g ((s.engine g).reasons.taken said) := by
    show ((s.told g w).takeReasons g said).revokeIfGone g = _
    rw [hset]
    exact Turn.revokeIfGone_of_empty (by rw [hfree]; rfl)
  rw [hrevoke]
  exact ⟨hfree, hoff⟩

/-- BARRED tears down an engine that was usable. -/
theorem State.heard_torn (s : State) (hu : (s.engine g).state ≠ .unavailable) (hr : (s.engine g).reasons.isEmpty = true)
    (hb : ∃ d, said = .barred d) :
    (s.heard g w said).st = ((((s.told g w).tearDown g).rearm g ((s.engine g).reasons.taken said)).enterEngine g
        .unavailable none none).st
      ∧ (s.heard g w said).late = ((s.told g w).tearDown g).late := by
  have hne : (s.engine g).reasons.taken said ≠ (s.engine g).reasons := fun e => by
    have := (s.engine g).reasons.taken_barred hb
    rw [e, hr] at this
    cases this
  have hset : (s.told g w).takeReasons g said = (s.told g w).setReasons g ((s.engine g).reasons.taken said) := by
    rw [Turn.takeReasons_changed (by rwa [State.told_engine]), State.told_engine]
  obtain ⟨hst, hlate⟩ := (s.told g w).setReasons_torn (g := g) (by rwa [State.told_engine])
    ((s.engine g).reasons.taken_barred hb)
  have hrevoke : s.heard g w said = (s.told g w).setReasons g ((s.engine g).reasons.taken said) := by
    show ((s.told g w).takeReasons g said).revokeIfGone g = _
    rw [hset]
    exact Turn.revokeIfGone_of_empty (by rw [hst]; simp [EngineState.circuit])
  rw [hrevoke]
  exact ⟨hst, hlate⟩

/-! ## After the engine's action -/

theorem State.Steady.bare {w : Keep} {X : List Circuit} {G : List Spare} (h : s.Steady w X G)
    (hg : (s.engine g).state.circuit = none) : s.Bare g := fun k hk => by
  have hoff := (h.poised.pairs k g (by simp) (by simp)).off (by rw [hg]; simp)
  exact hk.elim hoff.1 hoff.2

/-- Behind an engine that claims nothing nothing is offered. -/
theorem Turn.concluded_unclaimed (hf : t.st.farClaim g = none) : t.concluded b g w = t.reacted b g (some w) := by
  unfold Turn.concluded
  rw [Turn.offerStanding_eq, State.farClaim_of_sources (Turn.sources_reacted ..), hf]

theorem Turn.sources_concluded (t : Turn) (b : State) (g : Spare) (w : Half) :
    (t.concluded b g w).st.sources = t.st.sources :=
  (State.sources_of_still (Turn.still_offerStanding ..)).trans (Turn.sources_reacted ..)

@[simp] theorem Turn.afterOffer_engine (t : Turn) (g i : Spare) (k : Circuit) :
    (t.afterOffer g k).st.engine i = t.st.engine i := by
  unfold Turn.afterOffer
  split
  · rfl
  · rfl
  · exact Turn.reactUnheld_engine ..

@[simp] theorem Turn.afterOffer_late (t : Turn) (g : Spare) (k : Circuit) : (t.afterOffer g k).late = t.late := by
  unfold Turn.afterOffer
  split
  · rfl
  · rfl
  · exact Turn.reactUnheld_late ..

/-- An offer leaves a FREE engine as it is, or PREPARING with its last result. -/
theorem Turn.offer_engine_eq (t : Turn) {g : Spare} (k : Circuit) (hg : (t.st.engine g).state = .free) :
    (t.offer g k).st.engine g = t.st.engine g
      ∨ (t.offer g k).st.engine g = { t.st.engine g with state := .preparing k, answerTimer := none, testTimer := none } := by
  have hended : (t.st.engine g).ended .overtaken = (t.st.engine g).lastResult := Engine.ended_untested _ _ (by simp [hg])
  rcases t.offer_cases g k with ⟨e, _⟩ | ⟨_, _, _, ⟨_, e⟩ | ⟨i, hlt, _, e⟩⟩
  · rw [e]
    exact .inl rfl
  · refine .inr ?_
    rw [e, Turn.enterPreparing_engine, Turn.noteOffer_st, hended]
  · have hne : i ≠ g := fun e => absurd (e ▸ hlt) (lt_irrefl _)
    refine .inr ?_
    rw [e, Turn.enterPreparing_engine, Turn.letGo_engine_other _ hne, Turn.noteOffer_st, hended]

/-- A FREE engine stays so, or takes the circuit claimed. -/
theorem Turn.concluded_claimed (t : Turn) (b : State) (w : Half) (hf : t.st.farClaim g = some (k, c)) (hb : t.st.Bare g)
    (he : (t.st.engine g).state = .free) :
    ((t.concluded b g w).st.engine g = t.st.engine g
      ∨ (t.concluded b g w).st.engine g
          = { t.st.engine g with state := .preparing k, answerTimer := none, testTimer := none })
      ∧ t.late <+: (t.concluded b g w).late := by
  have hside := t.reacted_beside b g (some w) hb
  have hfar : (t.reacted b g (some w)).st.farClaim g = some (k, c) :=
    (State.farClaim_of_sources (Turn.sources_reacted ..) g).trans hf
  have hfree : ((t.reacted b g (some w)).st.engine g).state = .free := by rw [hside.engine]; exact he
  unfold Turn.concluded
  rw [Turn.offerStanding_eq, hfar, ← hside.engine]
  dsimp only
  split
  · refine ⟨?_, ?_⟩
    · rw [Turn.afterOffer_engine]
      exact Turn.offer_engine_eq _ k hfree
    · rw [Turn.afterOffer_late, Turn.offer_late _ k hfree]
      exact hside.late
  · exact ⟨.inl rfl, hside.late⟩

/-- Nothing held and nothing offered yet, the circuit claimed is taken, unless it is barred, declined or without a class. -/
theorem Turn.concluded_taken (t : Turn) (b : State) (w : Half) (hf : t.st.farClaim g = some (k, c)) (hb : t.st.Bare g)
    (he : (t.st.engine g).state = .free) (hu : ∀ j, (t.st.record j).state.unheld = true) (ho : t.offered = [])
    (hbar : (t.st.record k).barred = false) (hdec : (t.st.record k).declined = false) (hz : t.st.effClass k ≠ 0) :
    ((t.concluded b g w).st.engine g).state = .preparing k ∧ ((t.concluded b g w).st.record k).state = .assigned g := by
  have hside := t.reacted_beside b g (some w) hb
  obtain ⟨hu', ho'⟩ := t.reacted_unheld b g (some w) hu
  have hsrc := t.sources_reacted b g (some w)
  have hcond : ((t.reacted b g (some w)).st.engine g).state = .free ∧ g ∉ (t.reacted b g (some w)).offered := by
    rw [hside.engine, ho', ho]
    exact ⟨he, by simp⟩
  unfold Turn.concluded
  rw [Turn.offerStanding_eq, (State.farClaim_of_sources hsrc g).trans hf]
  dsimp only
  rw [if_pos hcond, Turn.offer_taken _ g (by rwa [State.barred_of_sources hsrc]) (by rwa [State.declined_of_sources hsrc])
    (by rwa [State.effClass_of_sources hsrc]) (hu' k), Turn.afterOffer_held (o := g) _ _ (.inl (by simp))]
  simp

end IdleEngines

end Sys2Proof.Machine
end

