-- ==== Sys2Proof/Proofs/TakenWords.lean ====
section
/-! Proofs: the clauses of what an engine without a circuit does on a taken word, and of what every word does. -/

namespace Sys2Proof.Machine

/-- A word by which the far end neither claims, bars nor loops. -/
def SpanWord.Lets (w : SpanWord) : Prop := w = .vacant ∨ (∃ j, w = .yield j) ∨ (∃ j, w = .decline j) ∨ w = .unloop

/-- A word that claims a circuit. -/
def SpanWord.Claims (w : SpanWord) (k : Circuit) : Prop := (∃ c, w = .claim k c) ∨ ∃ c, w = .carry k c

theorem SpanWord.Lets.unclaimed {w : SpanWord} (h : w.Lets) : w.claimed = none := by
  rcases h with rfl | ⟨j, rfl⟩ | ⟨j, rfl⟩ | rfl <;> rfl

theorem SpanWord.Lets.not_barred {w : SpanWord} (h : w.Lets) : ¬ ∃ d, w = .barred d := by
  rcases h with rfl | ⟨j, rfl⟩ | ⟨j, rfl⟩ | rfl <;> simp

theorem SpanWord.Claims.claimed {w : SpanWord} {k : Circuit} (h : w.Claims k) : ∃ c, w.claimed = some (k, c) := by
  rcases h with ⟨c, rfl⟩ | ⟨c, rfl⟩ <;> exact ⟨c, rfl⟩

theorem SpanWord.Claims.not_barred {w : SpanWord} {k : Circuit} (h : w.Claims k) : ¬ ∃ d, w = .barred d := by
  rcases h with ⟨c, rfl⟩ | ⟨c, rfl⟩ <;> simp

section TakenWords

variable {s : State} {t u : Turn} {g o : Spare} {j k : Circuit} {c : Nat} {w : Half} {said : SpanWord} {r : TestResult}

/-! ## The whole turn -/

theorem upperByte_eq (w : Half) : upperByte w = BitVec.ofNat 8 (w.toNat / 256) := by
  unfold upperByte
  apply BitVec.eq_of_toNat_eq
  rw [BitVec.extractLsb'_toNat, BitVec.toNat_ofNat, Nat.shiftRight_eq_div_pow]

theorem lowerByte_eq (w : Half) : lowerByte w = BitVec.ofNat 8 w.toNat := by
  unfold lowerByte
  apply BitVec.eq_of_toNat_eq
  rw [BitVec.extractLsb'_toNat, BitVec.toNat_ofNat, Nat.shiftRight_zero]

theorem wordEvent_farWord (g : Spare) (w : Half) :
    wordEvent .farWord g w = { kind := .farWord, subject := byte (10 + g.val), detail1 := BitVec.ofNat 8 (w.toNat / 256),
                               detail2 := BitVec.ofNat 8 w.toNat } := by
  unfold wordEvent
  rw [upperByte_eq, lowerByte_eq]
  rfl

@[simp] theorem State.post_qualifier (s : State) (e : Event) (g : Spare) : (s.post e).qualifier g = s.qualifier g :=
  s.postAll_qualifier [e] g

theorem State.Agreement.acted_steady (h : s.Agreement) (g : Spare) (hs : spanWord w = some said) :
    (s.acted g w said).st.Steady (s.taking g said) ((s.post (wordEvent .farWord g w)).staled g (some w)) [] :=
  (h.heard_steady g w said).act (s.heard_farClaim g hs)

theorem State.Agreement.take_steady (h : s.Agreement) (g : Spare) (hs : spanWord w = some said) :
    (s.turn.take g w said).st.Steady (s.taking g said) [] [] :=
  State.Steady.take (t := s.turn) h.watching (s.watching_takes g said) hs

theorem State.acted_farClaim (s : State) (g : Spare) (hs : spanWord w = some said) :
    (s.acted g w said).st.farClaim g = said.claimed :=
  (State.farClaim_of_qualifiers (Turn.qualifiers_act ..) g).trans (s.heard_farClaim g hs)

theorem Turn.outer_concluded (t : Turn) (b : State) (g : Spare) (w : Half) :
    (t.concluded b g w).st.outer = t.st.outer :=
  (State.outer_of_still (Turn.still_offerStanding ..)).trans
    (Turn.foldl_keeps (fun t => t.st.outer) _ (fun _ _ => State.outer_of_still (Turn.still_reactLater ..)) _ _)

theorem State.outer_take (s : State) (g : Spare) (w : Half) (said : SpanWord) :
    (s.turn.take g w said).st.outer = ((s.post (wordEvent .farWord g w)).setFar g (some w)).outer :=
  (Turn.outer_concluded ..).trans ((Turn.outer_act ..).trans (s.outer_heard g w said))

/-- The word is taken. -/
theorem State.Agreement.tookWord (h : s.Agreement) (g : Spare) (hs : spanWord w = some said) :
    s.TookWord (s.turn.take g w said) g w said := by
  have hout := s.outer_take g w said
  refine ⟨?_, ?_, ?_⟩
  · show tabGet (s.turn.take g w said).st.qualifiers g = _
    rw [State.qualifiers_of_outer hout]
    show tabGet (tabSet (s.post _).qualifiers g { (s.post _).qualifier g with far := some w }) g = _
    rw [tabGet_tabSet_same, State.post_qualifier]
  · rw [← wordEvent_farWord]
    exact (State.events_of_outer hout).trans rfl
  · refine ((h.take_steady g hs).poised.watched g).trans ((if_pos rfl).trans ?_)
    cases said <;> rfl

/-- Where the action on a word that claims nothing leaves no circuit, the rest of the turn leaves the spare alone. -/
theorem State.Agreement.take_unclaimed (h : s.Agreement) (hs : spanWord w = some said) (hc : said.claimed = none)
    (hg : ((s.acted g w said).st.engine g).state.circuit = none) :
    (s.acted g w said).Beside g (s.turn.take g w said) := by
  rw [State.take_eq, Turn.concluded_unclaimed ((s.acted_farClaim g hs).trans hc)]
  exact Turn.reacted_beside _ _ _ _ ((h.acted_steady g hs).bare hg)

/-- Where the action on a claim leaves FREE, the rest of the turn leaves so, or takes the circuit. -/
theorem State.Agreement.take_claimed (h : s.Agreement) (hs : spanWord w = some said) (hc : said.claimed = some (k, c))
    (hg : ((s.acted g w said).st.engine g).state = .free) :
    ((s.turn.take g w said).st.engine g = (s.acted g w said).st.engine g
      ∨ (s.turn.take g w said).st.engine g
          = { (s.acted g w said).st.engine g with state := .preparing k, answerTimer := none, testTimer := none })
      ∧ (s.acted g w said).late <+: (s.turn.take g w said).late := by
  rw [State.take_eq]
  exact Turn.concluded_claimed _ _ w ((s.acted_farClaim g hs).trans hc)
    ((h.acted_steady g hs).bare (by rw [hg]; rfl)) hg

/-! ## Tests that end -/

theorem State.TestEnded.beside (h : s.TestEnded t g r) (hb : t.Beside g u) : s.TestEnded u g r := by
  obtain ⟨h1, h2, h3, h4, h5⟩ := h
  unfold State.TestEnded
  rw [hb.engine]
  exact ⟨h1, h2, h3, h4, hb.late.subset h5⟩

theorem State.TestEnded.of_engine {e : EngineState} (h : s.TestEnded t g r) (hl : t.late <+: u.late)
    (he : u.st.engine g = t.st.engine g
      ∨ u.st.engine g = { t.st.engine g with state := e, answerTimer := none, testTimer := none }) :
    s.TestEnded u g r := by
  obtain ⟨h1, h2, h3, h4, h5⟩ := h
  unfold State.TestEnded
  rcases he with e | e <;> rw [e]
  · exact ⟨h1, h2, h3, h4, hl.subset h5⟩
  · exact ⟨h1, rfl, rfl, h4, hl.subset h5⟩

/-- A test that ends and leaves a state without timers. -/
theorem Turn.testEnded (t : Turn) (g : Spare) (r : TestResult) (e : EngineState)
    (hc : (t.st.engine g).errorCount = (s.engine g).errorCount) :
    s.TestEnded ((t.endTest g r).enterEngine g e none none) g r := by
  have he : ((t.endTest g r).enterEngine g e none none).st.engine g
      = { t.st.engine g with state := e, answerTimer := none, testTimer := none, lastResult := r } := by
    simp [Turn.endTest]
  have hl : ((t.endTest g r).enterEngine g e none none).late
      = t.late ++ [testResultEvent g r (t.st.engine g).errorCount] := rfl
  unfold State.TestEnded
  rw [he, hl, ← hc]
  exact ⟨rfl, rfl, rfl, rfl, by simp⟩

/-! ## BARRED -/

theorem Turn.tearDown_held (t : Turn) (hk : (t.st.engine g).state.circuit = some k) :
    t.tearDown g = (t.change fun s => (s.cancelTransfer g).startTransfer g .rest).putBack g k := by
  unfold Turn.tearDown
  rw [hk]

theorem Turn.tearDown_empty (t : Turn) (hk : (t.st.engine g).state.circuit = none) :
    t.tearDown g = t.endTestOrLoop g .aborted := by
  unfold Turn.tearDown
  rw [hk]

theorem Turn.act_of_unavailable (he : (t.st.engine g).state = .unavailable) (w : SpanWord) :
    t.act g w = t.actUnavailable g w := by
  unfold Turn.act
  rw [he]

/-- BARRED leaves UNAVAILABLE, and nothing after it touches the spare. -/
theorem State.Agreement.take_barred (h : s.Agreement) (hs : spanWord w = some said) (hb : ∃ d, said = .barred d) :
    (s.turn.take g w said = (s.heard g w said).reacted (s.post (wordEvent .farWord g w)) g (some w))
      ∧ (s.heard g w said).st.Bare g
      ∧ ((s.heard g w said).st.engine g).state = .unavailable := by
  have hu : ((s.heard g w said).st.engine g).state = .unavailable :=
    (h.heard_unavailable g w said).mpr ((s.engine g).reasons.taken_barred hb)
  have hact : s.acted g w said = s.heard g w said := by
    obtain ⟨d, rfl⟩ := hb
    exact Turn.act_of_unavailable hu _
  have hc : said.claimed = none := by
    obtain ⟨d, rfl⟩ := hb
    rfl
  refine ⟨?_, (h.heard_steady g w said).bare (by rw [hu]; rfl), hu⟩
  rw [State.take_eq, Turn.concluded_unclaimed ((s.acted_farClaim g hs).trans hc), hact]

/-- BARRED puts a held circuit back. -/
theorem State.Agreement.heard_putBack (h : s.Agreement) (hb : ∃ d, said = .barred d)
    (hk : (s.engine g).state.circuit = some k) :
    ((s.heard g w said).st.transfer g).map (·.source) = some .rest
      ∧ ((s.heard g w said).st.record k).state.unheld = true := by
  have hu : (s.engine g).state ≠ .unavailable := EngineState.not_unavailable hk
  rw [(s.heard_torn (w := w) hu (h.watching.poised.usable hu) hb).1,
    Turn.tearDown_held (k := k) (s.told g w) (by rw [State.told_engine]; exact hk)]
  refine ⟨?_, ?_⟩
  · simp [Turn.rearm, Turn.putBack, State.startTransfer]
  · simp [Turn.rearm, Turn.putBack, State.restingState_unheld]

theorem State.Steady.rests {w : Keep} {G : List Spare} (h : s.Steady w [] G) (hu : (s.record k).state.unheld = true)
    (hb : (s.record k).barred = false) (hd : (s.record k).declined = false) :
    (s.record k).state = if s.effClass k = 0 then .quiet else .queued := by
  have hr := h.poised.rested k (by simp)
  unfold State.Rested at hr
  rw [if_pos hu] at hr
  rw [← State.restingState_of_unflagged hb hd]
  exact hr.resolve_right fun hx => absurd hx.1 (by simp)

/-- After BARRED the circuit rests, or the other spare has adopted it. -/
theorem State.Agreement.barred_circuit (h : s.Agreement) (hs : spanWord w = some said) (hb : ∃ d, said = .barred d)
    (hk : (s.engine g).state.circuit = some k) :
    let u := s.turn.take g w said
    let atRest := (u.st.record k).state = if u.st.effClass k = 0 then .quiet else .queued
    (u.st.transfer g).map (·.source) = some .rest
      ∧ (atRest ∨ ∃ o c, o ≠ g ∧ s.farClaim o = some (k, c) ∧ (u.st.record k).state = .assigned o
          ∧ (u.st.engine o).state = .preparing k) := by
  obtain ⟨htake, hbare, _⟩ := h.take_barred (g := g) hs hb
  obtain ⟨hrest, hunheld⟩ := h.heard_putBack (w := w) hb hk
  have hc : said.claimed = none := by
    obtain ⟨d, rfl⟩ := hb
    rfl
  have hsteady := h.take_steady g hs
  have hflags := (h.watching.poised.held hk).2
  have hside := (s.heard g w said).reacted_beside (s.post (wordEvent .farWord g w)) g (some w) hbare
  have hadopt := Turn.reacted_adopting hunheld (s.post (wordEvent .farWord g w)) g (f := some w)
    ((claimOf_eq_claimed (by simpa using hs)).trans hc) hbare
  rw [← htake] at hside hadopt
  dsimp only
  refine ⟨by rw [hside.transfer]; exact hrest, ?_⟩
  rcases hadopt with hu | ⟨o, c, ho, hf, he, hr⟩
  · refine .inl (hsteady.rests hu ?_ ?_)
    · rw [(State.base_record (Turn.base_take s.turn g w said) k).2.2]
      exact hflags.1
    · have hsrc : (s.turn.take g w said).st.sources = (s.heard g w said).st.sources := by
        rw [htake]
        exact Turn.sources_reacted ..
      rw [State.declined_of_sources hsrc, State.heard_declined s g k hs, hflags.2]
      rfl
  · refine .inr ⟨o, c, ho, ?_, hr, he⟩
    rw [← hf, State.farClaim_of_qualifiers (State.qualifiers_of_outer (s.outer_take g w said)), State.setFar_farClaim,
      if_neg (Ne.symm ho)]
    exact (State.farClaim_of_sources (State.sources_post ..) o).symm

/-- BARRED aborts a test, or a loop. -/
theorem State.Agreement.barred_aborts (h : s.Agreement) (hs : spanWord w = some said) (hb : ∃ d, said = .barred d) :
    (∀ ph, (s.engine g).state = .testing ph → s.TestEnded (s.turn.take g w said) g .aborted)
      ∧ ((s.engine g).state = .looped → loopResultEvent g .aborted ∈ (s.turn.take g w said).late) := by
  obtain ⟨htake, hbare, _⟩ := h.take_barred (g := g) hs hb
  have hside := (s.heard g w said).reacted_beside (s.post (wordEvent .farWord g w)) g (some w) hbare
  rw [← htake] at hside
  have htorn : (s.engine g).state ≠ .unavailable → (s.engine g).state.circuit = none →
      (s.heard g w said).st = ((((s.told g w).endTestOrLoop g .aborted).rearm g ((s.engine g).reasons.taken said)).enterEngine
        g .unavailable none none).st ∧ (s.heard g w said).late = ((s.told g w).endTestOrLoop g .aborted).late := by
    intro hu hc
    rw [← Turn.tearDown_empty (s.told g w) (by rw [State.told_engine]; exact hc)]
    exact s.heard_torn hu (h.watching.poised.usable hu) hb
  refine ⟨fun ph he => State.TestEnded.beside ?_ hside, fun he => hside.late.subset ?_⟩
  · obtain ⟨hst, hlate⟩ := htorn (by simp [he]) (by rw [he]; rfl)
    have hend : (s.told g w).endTestOrLoop g .aborted = (s.told g w).endTest g .aborted := by
      unfold Turn.endTestOrLoop
      rw [State.told_engine, he]
    rw [hend] at hst hlate
    unfold State.TestEnded
    rw [hst, hlate]
    simp [Turn.rearm, Turn.endTest, State.told_engine, Turn.gatherLate]
  · obtain ⟨_, hlate⟩ := htorn (by simp [he]) (by rw [he]; rfl)
    have hend : (s.told g w).endTestOrLoop g .aborted = (s.told g w).endLoop g .aborted := by
      unfold Turn.endTestOrLoop
      rw [State.told_engine, he]
    rw [hlate, hend]
    simp [Turn.endLoop, Turn.gatherLate]

/-! ## Claims met -/

/-- The action on a claim has left the engine FREE and nothing else moved or offered. -/
structure State.Opened (s : State) (g : Spare) (w : Half) (said : SpanWord) (t : Turn) : Prop where
  free : (t.st.engine g).state = .free
  others : ∀ h, h ≠ g → t.st.engine h = s.engine h
  sources : t.st.sources = (s.heard g w said).st.sources
  offered : t.offered = []

theorem State.Agreement.met (h : s.Agreement) (hs : spanWord w = some said) (hc : said.claimed = some (k, c))
    (ho : s.Opened g w said (s.acted g w said)) : s.ClaimMet (s.turn.take g w said) g k := by
  have hsteady := h.acted_steady g hs
  have hbare := hsteady.bare (g := g) (by rw [ho.free]; rfl)
  have hfar := (s.acted_farClaim g hs).trans hc
  refine ⟨?_, fun hall hbar hz => ?_⟩
  · rcases (h.take_claimed hs hc ho.free).1 with e | e <;> rw [e]
    · exact .inl ho.free
    · exact .inr rfl
  · have hunheld : ∀ i, ((s.acted g w said).st.record i).state.unheld = true := fun i => by
      refine (RequestState.unheld_iff _).mpr fun x => ?_
      have hx : (s.acted g w said).st.Bare x := hsteady.bare (by
        by_cases hxg : x = g
        · rw [hxg, ho.free]
          rfl
        · rw [ho.others x hxg]
          exact hall x)
      exact ⟨fun e => hx i (.inl e), fun e => hx i (.inr e)⟩
    rw [State.take_eq] at hz ⊢
    refine Turn.concluded_taken _ _ w hfar hbare ho.free hunheld ho.offered ?_ ?_ ?_
    · have hbase : (s.acted g w said).st.base = s.base := (Turn.base_act ..).trans (s.base_heard g w said)
      rw [(State.base_record hbase k).2.2]
      exact hbar
    · rw [State.declined_of_sources ho.sources, State.heard_declined s g k hs, hc]
      simp
    · rwa [State.effClass_of_sources (Turn.sources_concluded ..)] at hz

end TakenWords

end Sys2Proof.Machine
end

