-- ==== Sys2Proof/Proofs/IdleWords.lean ====
section
/-! Proofs: engine state by engine state, the words that an engine without a circuit takes. -/

namespace Sys2Proof.Machine

section IdleWords

variable {s : State} {t u : Turn} {g o : Spare} {j k : Circuit} {c : Nat} {w : Half} {said : SpanWord} {r : TestResult}
  {ph : TestPhase}

theorem Turn.act_of_free (he : (t.st.engine g).state = .free) (w : SpanWord) : t.act g w = t.actFree g w := by
  unfold Turn.act
  rw [he]

theorem Turn.act_of_testing (he : (t.st.engine g).state = .testing ph) (w : SpanWord) :
    t.act g w = t.actTesting g ph w := by
  unfold Turn.act
  rw [he]

theorem Turn.act_of_looped (he : (t.st.engine g).state = .looped) (w : SpanWord) : t.act g w = t.actLooped g w := by
  unfold Turn.act
  rw [he]

/-! ## FREE -/

theorem State.Agreement.heard_opened (h : s.Agreement)
    (he : (s.engine g).state = .free ∨ (s.engine g).state = .unavailable) (hb : ¬ ∃ d, said = .barred d)
    (hr : ((s.engine g).reasons.taken said).isEmpty = true) :
    ((s.heard g w said).st.engine g).state = .free ∧ (s.heard g w said).offered = [] := by
  rcases he with he | he
  · rw [h.heard_idle (.of_state (.inl he)) hb, State.told_engine]
    exact ⟨he, s.told_offered g w⟩
  · exact h.heard_freed he hr

/-- A word that lets go leaves a FREE engine. -/
theorem State.Steady.actFree_engine {v : Keep} {X : List Circuit} {G : List Spare} (h : t.st.Steady v X G)
    (he : (t.st.engine g).state = .free) (hl : said.Lets) : (t.act g said).st.engine g = t.st.engine g := by
  rw [Turn.act_of_free he]
  rcases hl with rfl | ⟨j, rfl⟩ | ⟨j, rfl⟩ | rfl
  · rfl
  · rfl
  · exact h.decline_engine (by rw [he]; rfl) j
  · rfl

/-- What an engine does that is FREE, or becomes so on the word. -/
theorem State.Agreement.take_free (h : s.Agreement) (hs : spanWord w = some said)
    (he : (s.engine g).state = .free ∨ (s.engine g).state = .unavailable) (hb : ¬ ∃ d, said = .barred d)
    (hr : ((s.engine g).reasons.taken said).isEmpty = true) :
    let u := s.turn.take g w said
    (said.Lets → (u.st.engine g).state = .free) ∧ (said = .loop → (u.st.engine g).state = .looped)
      ∧ ∀ k, said.Claims k → s.ClaimMet u g k := by
  obtain ⟨hfree, hoff⟩ := h.heard_opened (w := w) he hb hr
  refine ⟨fun hl => ?_, fun hl => ?_, fun k hk => ?_⟩
  · have hact := (h.heard_steady g w said).actFree_engine hfree hl
    have hstate : ((s.acted g w said).st.engine g).state = .free := (congrArg Engine.state hact).trans hfree
    rw [(h.take_unclaimed hs hl.unclaimed (by rw [hstate]; rfl)).engine]
    exact hstate
  · subst hl
    have hstate : ((s.acted g w .loop).st.engine g).state = .looped := by
      rw [State.acted, Turn.act_of_free hfree]
      simp [Turn.actFree, Turn.enterLooped]
    rw [(h.take_unclaimed hs rfl (by rw [hstate]; rfl)).engine]
    exact hstate
  · obtain ⟨c, hc⟩ := hk.claimed
    have hact : s.acted g w said = s.heard g w said := by
      rw [State.acted, Turn.act_of_free hfree]
      rcases hk with ⟨c, rfl⟩ | ⟨c, rfl⟩ <;> rfl
    refine h.met hs hc ?_
    rw [hact]
    exact ⟨hfree, fun i hi => s.heard_engine_other w said (Ne.symm hi), rfl, hoff⟩

/-! ## TESTING and LOOPED -/

/-- A test or a loop that a claim ends leaves the engine open for it. -/
theorem State.Agreement.opened (h : s.Agreement) (hi : s.Idle g) (hk : said.Claims k)
    (ha : s.acted g w said = ((s.told g w).endTest g .overtaken).becomeFree g
      ∨ s.acted g w said = ((s.told g w).endLoop g .overtaken).becomeFree g) :
    s.Opened g w said (s.acted g w said) := by
  have hheard := h.heard_idle (w := w) hi hk.not_barred
  have hothers : ∀ i, i ≠ g → (s.told g w).st.engine i = s.engine i := fun i _ => s.told_engine g i w
  rcases ha with e | e <;> rw [e] <;> refine ⟨?_, fun i hi => ?_, ?_, s.told_offered g w⟩
  · simp [Turn.becomeFree]
  · simpa [Turn.becomeFree, Turn.endTest, Ne.symm hi] using hothers i hi
  · rw [hheard]
    exact State.sources_of_still (by simp)
  · simp [Turn.becomeFree]
  · simpa [Turn.becomeFree, Ne.symm hi] using hothers i hi
  · rw [hheard]
    exact State.sources_of_still (by simp)

theorem State.told_idle (s : State) (he : (s.engine g).state = .testing ph) (w : Half) :
    ((s.told g w).st.engine g).state = .testing ph := by
  rw [State.told_engine]
  exact he

theorem State.Agreement.acted_testing (h : s.Agreement) (he : (s.engine g).state = .testing ph)
    (hb : ¬ ∃ d, said = .barred d) : s.acted g w said = (s.told g w).actTesting g ph said := by
  rw [State.acted, h.heard_idle (.of_state (.inr (.inr ⟨ph, he⟩))) hb, Turn.act_of_testing (s.told_idle he w)]

/-- A claim overtakes a test, in every phase. -/
theorem State.Agreement.take_overtaken (h : s.Agreement) (hs : spanWord w = some said)
    (he : (s.engine g).state = .testing ph) (hk : said.Claims k) :
    s.ClaimMet (s.turn.take g w said) g k ∧ s.TestEnded (s.turn.take g w said) g .overtaken := by
  obtain ⟨c, hc⟩ := hk.claimed
  have hact : s.acted g w said = ((s.told g w).endTest g .overtaken).becomeFree g := by
    rw [h.acted_testing he hk.not_barred]
    rcases hk with ⟨c, rfl⟩ | ⟨c, rfl⟩ <;> rfl
  have hopen := h.opened (.of_state (.inr (.inr ⟨ph, he⟩))) hk (.inl hact)
  obtain ⟨heng, hlate⟩ := h.take_claimed hs hc hopen.free
  refine ⟨h.met hs hc hopen, State.TestEnded.of_engine ?_ hlate heng⟩
  rw [hact]
  exact (s.told g w).testEnded g .overtaken .free (by rw [State.told_engine])

/-- A turn that the action has ended with a test's result and no claim. -/
theorem State.Agreement.take_ended (h : s.Agreement) (hs : spanWord w = some said) (hc : said.claimed = none)
    {e : EngineState} (hce : e.circuit = none) (he : ((s.acted g w said).st.engine g).state = e)
    (ht : s.TestEnded (s.acted g w said) g r) :
    ((s.turn.take g w said).st.engine g).state = e ∧ s.TestEnded (s.turn.take g w said) g r := by
  have hside := h.take_unclaimed hs hc (by rw [he]; exact hce)
  rw [hside.engine]
  exact ⟨he, ht.beside hside⟩

/-- Phase ASK. -/
theorem State.Agreement.take_asking (h : s.Agreement) (hs : spanWord w = some said) {d : Byte}
    (he : (s.engine g).state = .testing (.ask d)) :
    let u := s.turn.take g w said
    (said.Lets ∨ (said = .loop ∧ s.role = .endA) → u.st.engine g = s.engine g)
      ∧ (said = .loop → s.role = .endB → (u.st.engine g).state = .looped ∧ s.TestEnded u g .overtaken) := by
  have hrole : (s.told g w).st.role = s.role :=
    (State.role_of_outer (Turn.outer_refreshed ..)).trans (State.role_of_outer (State.outer_of_still rfl)) |>.trans (by
      exact State.post_keeps State.role (fun _ _ => rfl) (fun _ _ => rfl) s _)
  have hcirc : ((s.told g w).st.engine g).state.circuit = none := by rw [s.told_idle he w]; rfl
  refine ⟨fun hl => ?_, fun hl hr => ?_⟩
  · have hc : said.claimed = none := by
      rcases hl with hl | ⟨rfl, _⟩
      · exact hl.unclaimed
      · rfl
    have hact : (s.acted g w said).st.engine g = s.engine g := by
      rw [h.acted_testing he (by rcases hl with hl | ⟨rfl, _⟩; exact hl.not_barred; simp), ← s.told_engine g g w]
      have hsteady := h.heard_steady g w said
      rcases hl with (rfl | ⟨j, rfl⟩ | ⟨j, rfl⟩ | rfl) | ⟨rfl, hr⟩
      · rfl
      · rfl
      · rw [h.heard_idle (.of_state (.inr (.inr ⟨_, he⟩))) (by simp)] at hsteady
        exact hsteady.decline_engine hcirc j
      · rfl
      · have e : (s.told g w).actTesting g (.ask d) .loop = s.told g w := if_pos (hrole.trans hr)
        rw [e]
    rw [(h.take_unclaimed hs hc (by rw [hact, he]; rfl)).engine]
    exact hact
  · subst hl
    have hact : s.acted g w .loop = ((s.told g w).endTest g .overtaken).enterLooped g := by
      rw [h.acted_testing he (by simp)]
      exact if_neg (by rw [hrole, hr]; simp)
    refine h.take_ended hs rfl rfl ?_ ?_
    · rw [hact]
      simp [Turn.enterLooped]
    · rw [hact]
      exact (s.told g w).testEnded g .overtaken .looped (by rw [State.told_engine])

/-- Phases RUN and END. -/
theorem State.Agreement.take_running (h : s.Agreement) (hs : spanWord w = some said)
    (he : (s.engine g).state = .testing ph) (hp : ∀ d, ph ≠ .ask d) :
    let u := s.turn.take g w said
    (said.Lets → (u.st.engine g).state = .free ∧ s.TestEnded u g ph.released)
      ∧ (said = .loop → (u.st.engine g).state = .looped ∧ s.TestEnded u g ph.released) := by
  have hcirc : ((s.told g w).st.engine g).state.circuit = none := by rw [s.told_idle he w]; rfl
  refine ⟨fun hl => ?_, fun hl => ?_⟩
  · have hact : ∃ v : Turn, s.acted g w said = (v.endTest g ph.released).becomeFree g
        ∧ v.st.engine g = s.engine g := by
      rw [h.acted_testing he hl.not_barred, ← s.told_engine g g w]
      have hsteady := h.heard_steady g w said
      rw [h.heard_idle (.of_state (.inr (.inr ⟨_, he⟩))) hl.not_barred] at hsteady
      cases ph with
      | ask d => exact absurd rfl (hp d)
      | run =>
        rcases hl with rfl | ⟨j, rfl⟩ | ⟨j, rfl⟩ | rfl
        · exact ⟨_, rfl, rfl⟩
        · exact ⟨_, rfl, rfl⟩
        · exact ⟨_, rfl, hsteady.decline_engine hcirc j⟩
        · exact ⟨_, rfl, rfl⟩
      | ending r =>
        rcases hl with rfl | ⟨j, rfl⟩ | ⟨j, rfl⟩ | rfl
        · exact ⟨_, rfl, rfl⟩
        · exact ⟨_, rfl, rfl⟩
        · exact ⟨_, rfl, hsteady.decline_engine hcirc j⟩
        · exact ⟨_, rfl, rfl⟩
    obtain ⟨v, hact, hv⟩ := hact
    refine h.take_ended hs hl.unclaimed rfl ?_ ?_
    · rw [hact]
      simp [Turn.becomeFree]
    · rw [hact]
      exact v.testEnded g _ .free (by rw [hv])
  · subst hl
    have hact : s.acted g w .loop = (((s.told g w).endTest g ph.released).becomeFree g).enterLooped g := by
      rw [h.acted_testing he (by simp)]
      cases ph with
      | ask d => exact absurd rfl (hp d)
      | run => rfl
      | ending r => rfl
    refine h.take_ended hs rfl rfl ?_ ?_
    · rw [hact]
      simp [Turn.enterLooped]
    · rw [hact]
      have hend := (s.told g w).testEnded (s := s) g ph.released .free (by rw [State.told_engine])
      refine hend.of_engine (e := .looped) (List.prefix_refl _) (.inr ?_)
      simp [Turn.enterLooped, Turn.becomeFree]

theorem State.Agreement.acted_looped (h : s.Agreement) (he : (s.engine g).state = .looped)
    (hb : ¬ ∃ d, said = .barred d) : s.acted g w said = (s.told g w).actLooped g said := by
  rw [State.acted, h.heard_idle (.of_state (.inr (.inl he))) hb,
    Turn.act_of_looped (by rw [State.told_engine]; exact he)]

/-- LOOPED. -/
theorem State.Agreement.take_looped (h : s.Agreement) (hs : spanWord w = some said) (he : (s.engine g).state = .looped) :
    let u := s.turn.take g w said
    (said.Lets → (u.st.engine g).state = .free) ∧ (said = .loop → (u.st.engine g).state = .looped)
      ∧ ∀ k, said.Claims k → s.ClaimMet u g k ∧ loopResultEvent g .overtaken ∈ u.late := by
  refine ⟨fun hl => ?_, fun hl => ?_, fun k hk => ?_⟩
  · have hact : ((s.acted g w said).st.engine g).state = .free := by
      rw [h.acted_looped he hl.not_barred]
      rcases hl with rfl | ⟨j, rfl⟩ | ⟨j, rfl⟩ | rfl <;> simp [Turn.actLooped, Turn.becomeFree]
    rw [(h.take_unclaimed hs hl.unclaimed (by rw [hact]; rfl)).engine]
    exact hact
  · subst hl
    have hact : ((s.acted g w .loop).st.engine g).state = .looped := by
      rw [h.acted_looped he (by simp)]
      simp [Turn.actLooped, Turn.enterLooped]
    rw [(h.take_unclaimed hs rfl (by rw [hact]; rfl)).engine]
    exact hact
  · obtain ⟨c, hc⟩ := hk.claimed
    have hact : s.acted g w said = ((s.told g w).endLoop g .overtaken).becomeFree g := by
      rw [h.acted_looped he hk.not_barred]
      rcases hk with ⟨c, rfl⟩ | ⟨c, rfl⟩ <;> rfl
    have hopen := h.opened (.of_state (.inr (.inl he))) hk (.inr hact)
    refine ⟨h.met hs hc hopen, (h.take_claimed hs hc hopen.free).2.subset ?_⟩
    rw [hact]
    show loopResultEvent g .overtaken ∈ (s.told g w).late ++ [loopResultEvent g .overtaken]
    simp

/-! ## DECLINE -/

/-- In every state a DECLINE is treated alike by the record. -/
theorem Turn.sources_act_decline (t : Turn) (g : Spare) (j : Circuit) :
    (t.act g (.decline j)).st.sources = (t.decline g j).st.sources := by
  cases he : (t.st.engine g).state with
  | free => rw [Turn.act_of_free he]; rfl
  | preparing k => rw [Turn.act_decline (k := k) (by rw [he]; rfl)]
  | bridged k => rw [Turn.act_decline (k := k) (by rw [he]; rfl)]
  | carrying k => rw [Turn.act_decline (k := k) (by rw [he]; rfl)]
  | returning k => rw [Turn.act_decline (k := k) (by rw [he]; rfl)]
  | unavailable => rw [Turn.act_of_unavailable he]; rfl
  | testing ph =>
    rw [Turn.act_of_testing he]
    cases ph with
    | ask d => rfl
    | run => exact State.sources_of_still (by simp [Turn.actTesting])
    | ending r => exact State.sources_of_still (by simp [Turn.actTesting])
  | looped =>
    rw [Turn.act_of_looped he]
    exact State.sources_of_still (by simp [Turn.actLooped])

theorem Turn.decline_declined (t : Turn) (g : Spare) (j : Circuit)
    (hn : ∀ h, h ≠ g → (t.st.record j).state ≠ .assigned h ∧ (t.st.record j).state ≠ .releasing h) :
    ((t.decline g j).st.record j).declined = true := by
  by_cases hr : (t.st.record j).state = .assigned g ∨ (t.st.record j).state = .releasing g
  · rw [Turn.decline_held hr, Turn.drop_record]
    simp
  · refine (Turn.decline_unheld_fields ((RequestState.unheld_iff _).mpr fun h => ?_)).1
    by_cases hh : h = g
    · subst hh
      exact ⟨fun e => hr (.inl e), fun e => hr (.inr e)⟩
    · exact hn h hh

/-- A circuit that the other spare does not hold is marked by its DECLINE. -/
theorem State.Agreement.take_declined (h : s.Agreement) (w : Half)
    (hn : ∀ h, h ≠ g → (s.record j).state ≠ .assigned h ∧ (s.record j).state ≠ .releasing h) :
    ((s.turn.take g w (.decline j)).st.record j).declined = true := by
  have hheard := h.heard_steady g w (.decline j)
  have hsrc : (s.acted g w (.decline j)).st.sources = ((s.heard g w (.decline j)).decline g j).st.sources :=
    Turn.sources_act_decline ..
  rw [State.take_eq, State.declined_of_sources ((Turn.sources_concluded ..).trans hsrc)]
  refine Turn.decline_declined _ g j fun i hi => ?_
  have hoff : ((s.heard g w (.decline j)).st.engine i).state.circuit ≠ some j := by
    rw [s.heard_engine_other w _ (Ne.symm hi)]
    exact PairAgrees.empty (h.holding j i) (hn i hi).1 (hn i hi).2
  exact (hheard.poised.pairs j i (by simp) (by simp)).off hoff

end IdleWords

/-- Settles O42: the taking of a word cut after the engine's action, engine state by engine state. -/
theorem idleEnginesActOnWords : Obligations.IdleEnginesActOnWords := by
  intro s g w said h hs _
  dsimp only
  have hreasons : (((s.turn.take g w said).st.engine g).reasons).flags = 0
      ↔ ((s.turn.take g w said).st.engine g).state ≠ .unavailable := by
    rw [← Reasons.isEmpty_iff, ne_eq, ← (h.take_steady g hs).poised.reasons g (by simp)]
    simp
  have htaken : ((s.turn.take g w said).st.engine g).reasons = (s.engine g).reasons.taken said :=
    ((h.take_steady g hs).poised.watched g).trans (if_pos rfl)
  refine ⟨h.tookWord g hs, fun hb => ⟨?_, fun k hk => ?_, h.barred_aborts hs hb⟩, fun he hb => ⟨fun hr => ?_, fun hr => ?_⟩,
    fun d he => ?_, fun ph result he hp => ?_, fun he => h.take_looped hs he, ?_⟩
  · refine ((h.take_steady g hs).poised.reasons g (by simp)).mp ?_
    rw [htaken]
    exact (s.engine g).reasons.taken_barred hb
  · obtain ⟨hrest, hcases⟩ := h.barred_circuit hs hb hk
    refine ⟨hrest, fun hn => ?_, fun i c hi hf => ?_⟩
    · exact hcases.resolve_right fun ⟨o, c, ho, hf, _⟩ => hn o c ho hf
    · refine hcases.imp_right fun ⟨o, _, ho, _, hr, hp⟩ => ?_
      obtain rfl : o = i := spare_eq_of_ne ho hi
      exact ⟨hr, hp⟩
  · by_contra hu
    exact hr (hreasons.mpr hu)
  · refine h.take_free hs he hb ?_
    rw [← htaken]
    exact (Reasons.isEmpty_iff _).mpr hr
  · obtain ⟨hstay, hloop⟩ := h.take_asking hs he
    exact ⟨hstay, hloop, fun k hk => h.take_overtaken hs he hk⟩
  · have hask : ∀ d, ph ≠ .ask d := by
      rcases hp with ⟨rfl, _⟩ | rfl <;> simp
    have hres : ph.released = result := by
      rcases hp with ⟨rfl, rfl⟩ | rfl <;> rfl
    subst hres
    obtain ⟨hlets, hloop⟩ := h.take_running hs he hask
    exact ⟨hlets, hloop, fun k hk => h.take_overtaken hs he hk⟩
  · rintro j rfl hn
    exact h.take_declined w hn

end Sys2Proof.Machine
end

