-- ==== Sys2Proof/Proofs/Ground.lean ====
section
/-! Proofs: what no reaction, no grant pass and no end of an event touches, and what a taken command answers. -/

namespace Sys2Proof.Machine

/-- A state without what reactions and the posting of events write: of the records all but their classes and flags, queue,
engines, transfers, the abandoned mark, events and the overrun-seen bit. -/
def State.ground (s : State) : State :=
  { s.still with events := EventQueue.reset, regs := { s.regs with overrunSeen := false } }

/-- The ground without the records. -/
def State.calm (s : State) : State := { s.ground with records := Vector.replicate 10 Record.reset }

theorem State.ground_of_still {s t : State} (h : s.still = t.still) : s.ground = t.ground :=
  congrArg (fun x : State => { x with events := EventQueue.reset, regs := { x.regs with overrunSeen := false } }) h

theorem State.calm_of_ground {s t : State} (h : s.ground = t.ground) : s.calm = t.calm :=
  congrArg (fun x : State => { x with records := Vector.replicate 10 Record.reset }) h

theorem State.sources_of_ground {s t : State} (h : s.ground = t.ground) : s.sources = t.sources :=
  congrArg (fun x : State => { State.reset with records := x.records, qualifiers := x.qualifiers }) h

@[simp] theorem State.calm_setRecord (s : State) (k : Circuit) (r : Record) : (s.setRecord k r).calm = s.calm := rfl

@[simp] theorem State.calm_updateKind (s : State) (k : Circuit) : (s.updateKind k).calm = s.calm :=
  State.calm_of_ground (State.ground_of_still (State.still_updateKind ..))

/-! ## Posting and the grant pass -/

@[simp] theorem State.ground_post (s : State) (e : Event) : (s.post e).ground = s.ground := by
  unfold State.post
  split
  · rfl
  · split
    · rfl
    · split
      · rfl
      · split <;> rfl

@[simp] theorem State.ground_postAll (s : State) (l : List Event) : (s.postAll l).ground = s.ground := by
  induction l generalizing s with
  | nil => rfl
  | cons e rest ih => exact (ih (s.post e)).trans (s.ground_post e)

@[simp] theorem Turn.ground_flush (t : Turn) : t.flush.st.ground = t.st.ground := State.ground_postAll _ _

@[simp] theorem Turn.ground_close (t : Turn) : t.close.ground = t.st.ground := by
  unfold Turn.close
  rw [State.ground_postAll, Turn.ground_flush]

theorem Turn.ground_preempt (t : Turn) (g : Spare) (h : Circuit) : (t.preempt g h).st.ground = t.st.ground := by
  unfold Turn.preempt
  split
  · refine (State.ground_of_still (Turn.still_contest ..)).trans ?_
    refine (Turn.ground_flush _).trans (State.ground_of_still ?_)
    simp
  · rfl

theorem Turn.ground_passStep {t t' : Turn} (h : t.passStep = some t') : t'.st.ground = t.st.ground := by
  rcases t.passStep_cases with e | ⟨i, rest, _, ⟨g, _, _, e⟩ | ⟨g, e⟩⟩ <;> rw [e] at h
  · cases h
  · obtain rfl := Option.some.inj h
    exact State.ground_of_still (Turn.still_enterPreparing ..)
  · obtain rfl := Option.some.inj h
    exact Turn.ground_preempt ..

theorem Turn.ground_pass (n : Nat) (t : Turn) : (Turn.pass n t).st.ground = t.st.ground := by
  induction n generalizing t with
  | zero => rfl
  | succ n ih =>
    unfold Turn.pass
    split
    · rfl
    · next t' h => rw [ih, Turn.ground_flush, Turn.ground_passStep h]

@[simp] theorem Turn.ground_settleWithPass (t : Turn) : t.settleWithPass.ground = t.st.ground := by
  unfold Turn.settleWithPass Turn.grantPass
  rw [Turn.ground_close, Turn.ground_pass, Turn.ground_flush]

@[simp] theorem Turn.ground_settle (t : Turn) (before : State) : (t.settle before).ground = t.st.ground := by
  unfold Turn.settle
  dsimp only
  split
  · unfold Turn.grantPass
    rw [Turn.ground_close, Turn.ground_pass, Turn.ground_flush, Turn.ground_flush]
  · rw [Turn.ground_close, Turn.ground_flush]

section Ground

variable {s t u : State} {code : Byte}

/-! ## The end of an event -/

/-- The end of an event takes at most an entry off the FIFO. -/
theorem State.finish_fifo (s : State) : s.finish.fifo <:+ s.fifo := by
  unfold State.finish
  rcases s.settleFeeds.servePort_cases with e | ⟨g, x, i, _, _, _, e⟩ | ⟨f, rest, _, hf, e⟩ <;> rw [e]
  · exact List.suffix_refl _
  · exact List.suffix_refl _
  · have hf' : s.fifo = f :: rest := hf
    rw [hf']
    exact List.suffix_cons f rest

/-- The end of an event leaves what a transfer is for. -/
theorem State.finish_transfer_source (s : State) (g : Spare) :
    (s.finish.transfer g).map (·.source) = (s.transfer g).map (·.source) := by
  unfold State.finish
  rcases s.settleFeeds.servePort_cases with e | ⟨i, x, n, _, hx, _, e⟩ | ⟨f, rest, _, _, e⟩ <;> rw [e]
  · rfl
  · have hx' : s.transfer i = some x := hx
    by_cases hi : i = g
    · subst hi
      have hstart : (s.settleFeeds.startOffer i x n).transfer i = some (x.started n) := by
        simp [State.startOffer, State.transfer, State.setTransfer]
      rw [hstart, hx']
      unfold Transfer.started
      split <;> rfl
    · have hstart : (s.settleFeeds.startOffer i x n).transfer g = s.transfer g := by
        simp [State.startOffer, State.transfer, State.setTransfer, hi, State.settleFeeds, State.followFeeds]
      rw [hstart]
  · rfl

theorem State.SameSurroundings.finish (h : s.SameSurroundings u) : s.SameSurroundings u.finish := by
  obtain ⟨h1, h2, h3, h4, h5, h6, h7, h8, h9, h10, h11, h12, h13⟩ := h
  exact ⟨u.finish_pending.trans h1, u.finish_inReset.trans h2, u.finish_role.trans h3, u.finish_store.trans h4,
    u.finish_monitors.trans h5, u.finish_recentBits.trans h6, u.finish_conditions.trans h7,
    u.finish_intervalTimer.trans h8, u.finish_lineOut.trans h9, u.finish_sendModes.trans h10,
    u.finish_systemOut.trans h11, u.finish_window.trans h12, u.finish_fifo.trans h13⟩

/-- What the calm keeps, calm states share. -/
theorem State.same_of_calm {α : Type} (f : State → α) (hf : ∀ x : State, f x.calm = f x) (h : u.calm = s.calm) :
    f u = f s := (hf u).symm.trans ((congrArg f h).trans (hf s))

theorem State.sameSurroundings_of_calm (h : u.calm = s.calm) : s.SameSurroundings u :=
  have same : ∀ {α : Type} (f : State → α), (∀ x : State, f x.calm = f x) → f u = f s := fun f hf =>
    State.same_of_calm f hf h
  ⟨same State.pending fun _ => rfl, same State.inReset fun _ => rfl, same State.role fun _ => rfl,
    same State.store fun _ => rfl, same State.monitors fun _ => rfl, same State.recentBits fun _ => rfl,
    same State.conditions fun _ => rfl, same State.intervalTimer fun _ => rfl, same State.lineOut fun _ => rfl,
    same State.sendModes fun _ => rfl, same State.systemOut fun _ => rfl, same State.window fun _ => rfl,
    by rw [same State.fifo fun _ => rfl]⟩

theorem State.qualifiers_of_calm (h : u.calm = s.calm) : u.qualifiers = s.qualifiers :=
  State.same_of_calm State.qualifiers (fun _ => rfl) h

theorem State.outOfStep_of_calm (h : u.calm = s.calm) : u.outOfStep = s.outOfStep :=
  State.same_of_calm State.outOfStep (fun _ => rfl) h

theorem State.regs_of_calm (h : u.calm = s.calm) : u.regs = { s.regs with overrunSeen := u.regs.overrunSeen } := by
  have e : { u.regs with overrunSeen := false } = { s.regs with overrunSeen := false } := congrArg State.regs h
  exact congrArg (fun r : Registers => { r with overrunSeen := u.regs.overrunSeen }) e

theorem State.bus_of_calm (h : u.calm = s.calm) : u.bus = s.bus := State.same_of_calm State.bus (fun _ => rfl) h

/-! ## Commands -/

/-- The state in which a taken command acts: ready asserted, code and DONE stored. -/
def State.answered (s : State) (code : Byte) : State := (s.commanded code).withResult .done

@[simp] theorem State.answered_record (s : State) (code : Byte) (k : Circuit) : (s.answered code).record k = s.record k :=
  rfl

@[simp] theorem State.answered_engine (s : State) (code : Byte) (g : Spare) : (s.answered code).engine g = s.engine g :=
  rfl

@[simp] theorem State.answered_queue (s : State) (code : Byte) : (s.answered code).queue = s.queue := rfl

@[simp] theorem State.answered_effClass (s : State) (code : Byte) (k : Circuit) :
    (s.answered code).effClass k = s.effClass k := rfl

@[simp] theorem State.answered_farClaim (s : State) (code : Byte) (g : Spare) :
    (s.answered code).farClaim g = s.farClaim g := rfl

@[simp] theorem State.sources_answered (s : State) (code : Byte) : (s.answered code).sources = s.sources := rfl

theorem State.Steady.answered {w : Keep} {X : List Circuit} {G : List Spare} (h : s.Steady w X G) (code : Byte) :
    (s.answered code).Steady w X G := h.of_same rfl rfl (fun _ => rfl) fun _ => rfl

/-- A command that is taken, and touches nothing but records, queue, engines and transfers. -/
theorem State.tookCommand (h : u.calm = (s.answered code).calm) :
    s.TookCommand u.finish code ∧ s.SameSurroundings u.finish ∧ u.finish.qualifiers = s.qualifiers
      ∧ u.finish.outOfStep = s.outOfStep := by
  refine ⟨⟨?_, ?_⟩, ?_, ?_, ?_⟩
  · rw [u.finish_regs]
    exact State.regs_of_calm h
  · rw [u.finish_bus]
    exact State.bus_of_calm h
  · exact State.SameSurroundings.finish (State.sameSurroundings_of_calm (s := s.answered code) h)
  · rw [u.finish_qualifiers]
    exact State.qualifiers_of_calm (s := s.answered code) h
  · rw [u.finish_outOfStep]
    exact State.outOfStep_of_calm (s := s.answered code) h

end Ground

end Sys2Proof.Machine
end

