-- ==== Sys2Proof/Proofs/Upkeep.lean ====
section
/-! Proofs: one record through the reactions of others and through a grant pass.

A pass moves a record in two ways alone, and a reaction in two more; what survives these ways survives every pass and every
reaction (Upkeep, Upkeep.Reacting).  And a pass that finds nothing waiting, or no engine usable, does nothing. -/

namespace Sys2Proof.Machine

/-- What of record k survives a grant and a return to rest, the sources being those of state b. -/
structure Upkeep (b : State) (k : Circuit) (Q : Record → Prop) : Prop where
  grant : ∀ r g, Q r → Q { r with
    state := .assigned g
    returnTimer := none
    returnKind := if b.effClass k = 0 then r.returnKind else returnKindOf (b.record k).condClass (b.farClass k) }
  rest : ∀ r, Q r → Q { r with state := b.restingState k, returnTimer := none }

/-- What besides survives the start of a return and the return timer. -/
structure Upkeep.Reacting (b : State) (k : Circuit) (Q : Record → Prop) : Prop extends Upkeep b k Q where
  returns : ∀ r g, Q r → Q { r with state := .releasing g, returnTimer := none }
  timer : ∀ r x, Q r → Q { r with returnTimer := x }

/-- A turn with the sources of state b, and a record k of which Q holds. -/
def Turn.Upkept (b : State) (k : Circuit) (Q : Record → Prop) (t : Turn) : Prop :=
  t.st.sources = b.sources ∧ Q (t.st.record k)

theorem State.condClass_of_sources {s t : State} (h : s.sources = t.sources) (k : Circuit) :
    (s.record k).condClass = (t.record k).condClass := by
  have e := congrArg Record.condClass (State.classes_of_sources h k)
  exact e

theorem State.swClass_of_sources {s t : State} (h : s.sources = t.sources) (k : Circuit) :
    (s.record k).swClass = (t.record k).swClass := by
  have e := congrArg Record.swClass (State.classes_of_sources h k)
  exact e

section Upkeep

variable {b : State} {k : Circuit} {Q : Record → Prop} {t : Turn}

theorem Turn.Upkept.letGo (h : t.Upkept b k Q) (g : Spare) : (t.letGo g).Upkept b k Q :=
  ⟨(State.sources_of_still (Turn.still_letGo ..)).trans h.1, by rw [Turn.letGo_record]; exact h.2⟩

theorem Turn.Upkept.enterEngine (h : t.Upkept b k Q) (g : Spare) (e : EngineState) (x y : Option Nat) :
    (t.enterEngine g e x y).Upkept b k Q := h

theorem Turn.Upkept.rests (hQ : Upkeep b k Q) (h : t.Upkept b k Q) (g : Spare) (j : Circuit) (place : Place) :
    (t.moveRecord g j (t.st.restingState j) place).Upkept b k Q := by
  refine ⟨(State.sources_of_still (Turn.still_moveRecord ..)).trans h.1, ?_⟩
  by_cases hj : j = k
  · subst hj
    rw [Turn.moveRecord_record, State.restingState_of_sources h.1]
    exact hQ.rest _ h.2
  · rw [Turn.moveRecord_record_other _ _ _ _ hj]
    exact h.2

theorem Turn.Upkept.enterPreparing (hQ : Upkeep b k Q) (h : t.Upkept b k Q) (g : Spare) (j : Circuit) :
    (t.enterPreparing g j).Upkept b k Q := by
  refine ⟨(Turn.sources_enterPreparing ..).trans h.1, ?_⟩
  by_cases hj : j = k
  · subst hj
    rw [Turn.enterPreparing_record, State.kindNow, State.effClass_of_sources h.1, State.farClass_of_sources h.1,
      State.condClass_of_sources h.1]
    exact hQ.grant _ g h.2
  · rw [Turn.enterPreparing_record_other _ _ hj]
    exact h.2

theorem Turn.Upkept.offer (hQ : Upkeep b k Q) (h : t.Upkept b k Q) (g : Spare) (j : Circuit) :
    (t.offer g j).Upkept b k Q := by
  have hnote : (t.noteOffer g).Upkept b k Q := h
  rcases t.offer_cases g j with ⟨e, _⟩ | ⟨_, _, _, ⟨_, e⟩ | ⟨o, _, _, e⟩⟩ <;> rw [e]
  · exact hnote
  · exact hnote.enterPreparing hQ g j
  · exact (hnote.letGo o).enterPreparing hQ g j

theorem Turn.Upkept.contest (hQ : Upkeep b k Q) (h : t.Upkept b k Q) (g : Spare) : (t.contest g).Upkept b k Q := by
  rcases t.contest_cases g with ⟨e, _⟩ | ⟨own, far, _, _, _, _, e⟩ <;> rw [e]
  · exact h
  · exact ((h.letGo g).rests hQ g own.1 .front).offer hQ g far.1

theorem Turn.Upkept.flush (h : t.Upkept b k Q) : t.flush.Upkept b k Q :=
  ⟨by rw [Turn.flush_st, State.sources_postAll]; exact h.1, by rw [Turn.flush_st, State.postAll_record]; exact h.2⟩

theorem Turn.Upkept.preempt (hQ : Upkeep b k Q) (h : t.Upkept b k Q) (g : Spare) (j : Circuit) :
    (t.preempt g j).Upkept b k Q := by
  unfold Turn.preempt
  split
  · next i _ =>
    have hcancel : (t.change fun s => s.cancelTransfer g).Upkept b k Q :=
      ⟨(State.sources_of_still (State.still_cancelTransfer ..)).trans h.1, by
        rw [Turn.change_st, State.cancelTransfer_record]
        exact h.2⟩
    exact ((hcancel.rests hQ g i .front).enterPreparing hQ g j).flush.contest hQ g
  · exact h

theorem Turn.Upkept.pass (hQ : Upkeep b k Q) (n : Nat) (h : t.Upkept b k Q) : (Turn.pass n t).Upkept b k Q := by
  induction n generalizing t with
  | zero => exact h
  | succ n ih =>
    unfold Turn.pass
    split
    · exact h
    · next t' ht =>
      refine ih (Turn.Upkept.flush ?_)
      rcases t.passStep_cases with e | ⟨i, rest, _, ⟨g, _, _, e⟩ | ⟨g, e⟩⟩ <;> rw [e] at ht
      · cases ht
      · obtain rfl := Option.some.inj ht
        exact h.enterPreparing hQ g i
      · obtain rfl := Option.some.inj ht
        exact h.preempt hQ g i

theorem Turn.Upkept.close (h : t.Upkept b k Q) : Q (t.close.record k) := by
  unfold Turn.close
  rw [State.postAll_record]
  exact h.flush.2

theorem Turn.Upkept.settleWithPass (hQ : Upkeep b k Q) (h : t.Upkept b k Q) : Q (t.settleWithPass.record k) :=
  (h.flush.pass hQ _).close

theorem Turn.Upkept.settle (hQ : Upkeep b k Q) (h : t.Upkept b k Q) (before : State) :
    Q ((t.settle before).record k) := by
  unfold Turn.settle
  dsimp only
  split
  · exact (h.flush.flush.pass hQ _).close
  · exact h.flush.close

/-! ## Reactions -/

theorem Turn.Upkept.enterReturning (hQ : Upkeep.Reacting b k Q) (h : t.Upkept b k Q) (g : Spare) (j : Circuit) :
    (t.enterReturning g j).Upkept b k Q := by
  have hmove : ((t.moveRecord g j (.releasing g) .back).enterEngine g (.returning j)
      (t.moveRecord g j (.releasing g) .back).st.answerStart none).Upkept b k Q := by
    refine Turn.Upkept.enterEngine ⟨(State.sources_of_still (Turn.still_moveRecord ..)).trans h.1, ?_⟩ _ _ _ _
    by_cases hj : j = k
    · subst hj
      rw [Turn.moveRecord_record]
      exact hQ.returns _ g h.2
    · rw [Turn.moveRecord_record_other _ _ _ _ hj]
      exact h.2
  rw [Turn.enterReturning_eq]
  dsimp only
  split
  · exact (hmove.letGo g).rests hQ.toUpkeep g j .back
  · exact hmove.contest hQ.toUpkeep g

theorem Turn.Upkept.setTimer (hQ : Upkeep.Reacting b k Q) (h : t.Upkept b k Q) (j : Circuit) (x : State → Option Nat) :
    (t.change fun s => s.setTimer j (x s)).Upkept b k Q := by
  refine ⟨(State.sources_setTimer ..).trans h.1, ?_⟩
  rw [Turn.change_st, State.setTimer, State.setRecord_record]
  split
  · next e =>
    subst e
    exact hQ.timer _ _ h.2
  · exact h.2

theorem Turn.Upkept.classGone (hQ : Upkeep.Reacting b k Q) (h : t.Upkept b k Q) (g : Spare) (j : Circuit) :
    (t.classGone g j).Upkept b k Q := by
  unfold Turn.classGone
  split
  · exact (h.letGo g).rests hQ.toUpkeep g j .back
  · exact h.enterReturning hQ g j
  · split
    · exact h.enterReturning hQ g j
    · split
      · exact h
      · unfold Turn.startReturn
        split
        · exact h.enterReturning hQ g j
        · exact h.setTimer hQ j fun s => some (s.regs.returnDelay.toNat * Config.per5s)
  · exact h

theorem Turn.Upkept.reactUnheld (hQ : Upkeep b k Q) (h : t.Upkept b k Q) (i : Spare) (j : Circuit) (changed : Bool) :
    (t.reactUnheld i j changed).Upkept b k Q := by
  unfold Turn.reactUnheld
  dsimp only
  split
  · exact h
  · exact h.rests hQ i j .back

theorem Turn.Upkept.react (hQ : Upkeep.Reacting b k Q) (h : t.Upkept b k Q) (j : Circuit) (before : Nat) :
    (t.react j before).Upkept b k Q := by
  unfold Turn.react
  split
  · next g _ =>
    unfold Turn.reactHeld
    split
    · refine Turn.Upkept.contest hQ.toUpkeep ?_ g
      split
      · exact h
      · exact h.classGone hQ g j
    · exact (h.setTimer hQ j fun _ => none).contest hQ.toUpkeep g
  · exact h
  · exact h.reactUnheld hQ.toUpkeep 0 j _

/-! ## A pass with nothing to do -/

theorem Turn.pass_of_none (h : t.passStep = none) (n : Nat) : Turn.pass n t = t := by
  cases n with
  | zero => rfl
  | succ n =>
    unfold Turn.pass
    rw [h]

theorem Turn.passStep_of_empty (h : t.st.queue = []) : t.passStep = none := by
  unfold Turn.passStep
  rw [h]

/-- No engine that is UNAVAILABLE is granted or preempted. -/
theorem Turn.passStep_of_unavailable (h : ∀ g, (t.st.engine g).state = .unavailable) : t.passStep = none := by
  have hopen : ∀ i c (ok : EngineState → Bool), ok .unavailable = false → t.st.openSpareWhere i c ok = none := by
    intro i c ok hok
    refine List.find?_eq_none.mpr fun g _ => ?_
    simp [h g, hok]
  have hloses : ∀ g i c, t.st.loses g i c = false := by
    intro g i c
    unfold State.loses State.holdingClaim
    rw [h g]
  unfold Turn.passStep
  split
  · rfl
  · dsimp only
    rw [hopen _ _ _ (by simp), hopen _ _ _ rfl]
    simp [State.victim, hloses]

/-- A pass with nothing to do leaves of a settled turn its events alone. -/
theorem Turn.settle_of_idle (h : t.flush.flush.passStep = none) (before : State) :
    ∃ l, t.settle before = t.st.postAll l := by
  unfold Turn.settle
  dsimp only
  split
  · unfold Turn.grantPass
    rw [Turn.pass_of_none h]
    exact ⟨t.ordered ++ (t.flush.ordered ++ (t.flush.flush.ordered ++ t.late)), by
      simp [Turn.close, State.postAll, List.foldl_append]⟩
  · exact ⟨t.ordered ++ (t.flush.ordered ++ t.late), by simp [Turn.close, State.postAll, List.foldl_append]⟩

theorem Turn.settleWithPass_of_idle (h : t.flush.passStep = none) : ∃ l, t.settleWithPass = t.st.postAll l := by
  unfold Turn.settleWithPass Turn.grantPass
  rw [Turn.pass_of_none h]
  exact ⟨t.ordered ++ (t.flush.ordered ++ t.late), by simp [Turn.close, State.postAll, List.foldl_append]⟩

end Upkeep

end Sys2Proof.Machine
end

