-- ==== Sys2Proof/Proofs/Bars.lean ====
section
/-! Proofs: BAR and UNBAR, and the place of a record that joins the queue. -/

namespace Sys2Proof.Machine

/-! ## A place at the end of a class group -/

/-- In an ordered queue the place at the end of a class group is the one behind every entry of equal or higher class. -/
theorem placeBack_eq_placedLast {cls cls' : Circuit → Nat} {k : Circuit} (hc : ∀ j, j ≠ k → cls' j = cls j)
    {q : List Circuit} (hs : q.Pairwise fun i j => cls j ≤ cls i) :
    placeBack cls' k (q.filter (· ≠ k)) = placedLast cls (cls' k) k q := by
  induction q with
  | nil => rfl
  | cons j rest ih =>
    obtain ⟨hj, hrest⟩ := List.pairwise_cons.mp hs
    have ih := ih hrest
    unfold placedLast at ih ⊢
    by_cases hk : j = k
    · subst hk
      simpa using ih
    · by_cases hle : cls' k ≤ cls j
      · have hnlt : ¬ cls j < cls' k := by omega
        simpa [hk, placeBack, hc j hk, hle, hnlt] using ih
      · have hlt : cls j < cls' k := by omega
        have hnone : rest.filter (fun i => decide (i ≠ k ∧ cls' k ≤ cls i)) = [] := by
          refine List.filter_eq_nil_iff.mpr fun i hi => ?_
          have := hj i hi
          simp only [decide_eq_true_eq]
          omega
        have hall : rest.filter (fun i => decide (i ≠ k ∧ cls i < cls' k)) = rest.filter (· ≠ k) := by
          refine List.filter_congr fun i hi => ?_
          have := hj i hi
          have hlt' : cls i < cls' k := by omega
          simp [hlt']
        simp only [List.filter_cons, hk, ne_eq, not_false_eq_true, decide_true, if_true, placeBack, hc j hk, hle,
          hlt, and_false, and_self, decide_false, if_false, hnone, hall, Bool.false_eq_true, List.nil_append]

section Bars

variable {s u : State} {k : Circuit}

/-! ## Flags of one record -/

/-- The record with the given bar and decline hold. -/
def State.flag (s : State) (k : Circuit) (barred declined : Bool) : State :=
  s.setRecord k { s.record k with barred := barred, declined := declined }

@[simp] theorem State.flag_effClass (s : State) (k j : Circuit) (b d : Bool) : (s.flag k b d).effClass j = s.effClass j := by
  refine State.effClass_congr rfl ?_
  unfold State.localClass State.flag
  rw [State.setRecord_record]
  split
  · next e =>
    subst e
    rfl
  · rfl

theorem State.flag_record (s : State) (k : Circuit) (b d : Bool) :
    (s.flag k b d).record k = { s.record k with barred := b, declined := d } := by simp [State.flag]

theorem State.flag_record_other (s : State) {k j : Circuit} (b d : Bool) (h : j ≠ k) :
    (s.flag k b d).record j = s.record j := by simp [State.flag, Ne.symm h]

/-- What a state with the ground of a flagged state says of the records. -/
theorem State.flagged_records {b d : Bool} (h : u.ground = (s.flag k b d).ground) :
    (∀ j, (u.record j).condClass = (s.record j).condClass ∧ (u.record j).swClass = (s.record j).swClass)
      ∧ (∀ j, j ≠ k → (u.record j).barred = (s.record j).barred ∧ (u.record j).declined = (s.record j).declined)
      ∧ (u.record k).barred = b ∧ (u.record k).declined = d ∧ ∀ j, u.effClass j = s.effClass j := by
  have hsrc := State.sources_of_ground h
  refine ⟨fun j => ?_, fun j hj => ?_, ?_, ?_, fun j => ?_⟩
  · rw [State.condClass_of_sources hsrc, State.swClass_of_sources hsrc]
    by_cases hj : j = k
    · subst hj
      rw [State.flag_record]
      exact ⟨rfl, rfl⟩
    · rw [State.flag_record_other _ _ _ hj]
      exact ⟨rfl, rfl⟩
  · rw [State.barred_of_sources hsrc, State.declined_of_sources hsrc, State.flag_record_other _ _ _ hj]
    exact ⟨rfl, rfl⟩
  · rw [State.barred_of_sources hsrc, State.flag_record]
  · rw [State.declined_of_sources hsrc, State.flag_record]
  · rw [State.effClass_of_sources hsrc, State.flag_effClass]

theorem State.answered_flag (s : State) (code : Byte) (k : Circuit) (b d : Bool) :
    ((s.answered code).flag k b d).calm = (s.answered code).calm := State.calm_setRecord ..

/-! ## BAR -/

theorem State.exec_bar (hs : s.inReset = false) (hk : s.regs.arg0.toNat = k.val) (hb : (s.record k).barred = false) :
    exec .bar s = .next (((s.answered 0x04).turn.bar k).settle (s.answered 0x04)).finish := by
  have e : (s.commanded 0x04).cmdBar = ((s.answered 0x04).turn.bar k).settle (s.answered 0x04) := by
    rw [State.cmdBar_at (s.commanded 0x04) k hk, if_neg]
    · rfl
    · show ¬ (s.record k).barred = true
      rw [hb]
      simp
  have hexec : exec .bar s = .next (s.hostCommand 0x04 State.cmdBar) := rfl
  rw [hexec, State.hostCommand_commanded _ _ _ hs, e]

/-- A barred record that agrees with the engines is held by none. -/
theorem State.Steady.barred_off {w : Keep} (h : s.Steady w [] []) (hb : (s.record k).barred = true) :
    (s.record k).state = (if s.effClass k = 0 then .quiet else .parked) ∧ k ∉ s.queue
      ∧ ∀ g, (s.engine g).state.circuit ≠ some k := by
  have hr := h.poised.rested k (by simp)
  unfold State.Rested at hr
  have hu : (s.record k).state.unheld = true := by
    by_contra hn
    rw [if_neg hn, hb] at hr
    exact absurd hr.1 (by simp)
  rw [if_pos hu] at hr
  have hstate : (s.record k).state = if s.effClass k = 0 then .quiet else .parked := by
    refine (hr.resolve_right fun hx => absurd hx.1 (by simp)).trans ?_
    unfold State.restingState
    rw [hb]
    rfl
  refine ⟨hstate, fun hq => ?_, fun g hg => ?_⟩
  · have := (h.queued hq).2.2.1
    rw [hb] at this
    cases this
  · have := (h.poised.held hg).2.1
    rw [hb] at this
    cases this

/-! ## UNBAR -/

theorem State.exec_unbar (hs : s.inReset = false) (hk : s.regs.arg0.toNat = k.val) :
    exec .unbar s = .next (((s.answered 0x05).turn.unbar k).settleWithPass).finish := by
  have e : (s.commanded 0x05).cmdUnbar = ((s.answered 0x05).turn.unbar k).settleWithPass :=
    State.cmdUnbar_at (s.commanded 0x05) k hk
  have hexec : exec .unbar s = .next (s.hostCommand 0x05 State.cmdUnbar) := rfl
  rw [hexec, State.hostCommand_commanded _ _ _ hs, e]

theorem Turn.unbar_unheld (t : Turn) (hu : (t.st.record k).state.unheld = true) :
    t.unbar k = (t.change fun s => s.flag k false false).reactUnheld 0 k false := by
  have hn := (RequestState.unheld_iff _).mp hu
  have hstate : ((t.change fun s => s.flag k false false).st.record k).state = (t.st.record k).state := by
    rw [Turn.change_st, State.flag_record]
  unfold Turn.unbar
  dsimp only
  split
  · next g hg => exact absurd (hstate.symm.trans hg) (hn g).1
  · next g hg => exact absurd (hstate.symm.trans hg) (hn g).2
  · rfl

theorem Turn.unbar_held (t : Turn) (hu : ¬ (t.st.record k).state.unheld = true) :
    t.unbar k = t.change fun s => s.flag k false false := by
  have hstate : ((t.change fun s => s.flag k false false).st.record k).state = (t.st.record k).state := by
    rw [Turn.change_st, State.flag_record]
  unfold Turn.unbar
  dsimp only
  split
  · rfl
  · rfl
  · next ha hr =>
    refine absurd ((RequestState.unheld_iff _).mpr fun g => ⟨fun e => ha g ?_, fun e => hr g ?_⟩) hu
    · exact hstate.trans e
    · exact hstate.trans e

theorem State.unflagged_rests (s : State) (k : Circuit) :
    (s.flag k false false).restingState k = if s.effClass k = 0 then .quiet else .queued := by
  rw [State.restingState_of_unflagged (by rw [State.flag_record]) (by rw [State.flag_record]), State.flag_effClass]

/-- What survives rest and grants, and holds at the unbarring, holds after its pass. -/
theorem State.unbarred_upkept {Q : Record → Prop} (s : State) (k : Circuit) (hQ : Upkeep (s.flag k false false) k Q)
    (h : ∀ r, (s.record k).state.unheld = true ∨ r = (s.record k).state →
      ((s.record k).state.unheld = true → r = if s.effClass k = 0 then .quiet else .queued) →
      ∀ x : Record, x.state = r → Q x) : Q ((s.turn.unbar k).settleWithPass.record k) := by
  have hsrc : (s.turn.unbar k).st.sources = (s.flag k false false).sources :=
    State.sources_of_still (Turn.still_unbar ..)
  refine Turn.Upkept.settleWithPass hQ ⟨hsrc, ?_⟩
  by_cases hu : (s.record k).state.unheld = true
  · refine h _ (.inl hu) (fun _ => ?_) _ rfl
    rw [Turn.unbar_unheld _ hu, Turn.reactUnheld_state]
    exact s.unflagged_rests k
  · refine h _ (.inr ?_) (fun hu' => absurd hu' hu) _ rfl
    rw [Turn.unbar_held _ hu, Turn.change_st, State.turn_st, State.flag_record]

theorem State.unbarred_not_parked (s : State) (k : Circuit) :
    ((s.turn.unbar k).settleWithPass.record k).state ≠ .parked := by
  refine s.unbarred_upkept (Q := fun r => r.state ≠ .parked) k ⟨fun _ _ _ => by simp, fun r _ => ?_⟩ fun r h1 h2 x hx => ?_
  · show (s.flag k false false).restingState k ≠ .parked
    rw [State.unflagged_rests]
    split <;> simp
  · rw [hx]
    rcases h1 with hu | rfl
    · rw [h2 hu]
      split <;> simp
    · intro hp
      have hu : (s.record k).state.unheld = true := by rw [hp]; rfl
      rw [h2 hu] at hp
      split at hp <;> cases hp

theorem State.unbarred_queued (s : State) (hp : (s.record k).state = .parked) (hz : s.effClass k ≠ 0) :
    ((s.turn.unbar k).settleWithPass.record k).state = .queued
      ∨ ∃ g, ((s.turn.unbar k).settleWithPass.record k).state = .assigned g := by
  refine s.unbarred_upkept (Q := fun r => r.state = .queued ∨ ∃ g, r.state = .assigned g) k
    ⟨fun _ g _ => .inr ⟨g, rfl⟩, fun r _ => .inl ?_⟩ fun r _ h2 x hx => .inl ?_
  · show (s.flag k false false).restingState k = .queued
    rw [State.unflagged_rests, if_neg hz]
  · rw [hx, h2 (by rw [hp]; rfl), if_neg hz]

/-- While no engine is usable, a record unbarred joins the queue at the end of its class group. -/
theorem State.unbarred_waits (s : State) (hp : (s.record k).state = .parked) (hz : s.effClass k ≠ 0)
    (hs : s.queue.Pairwise fun i j => s.effClass j ≤ s.effClass i) (hu : ∀ g, (s.engine g).state = .unavailable) :
    ((s.turn.unbar k).settleWithPass.record k).state = .queued
      ∧ (s.turn.unbar k).settleWithPass.queue = placedLast s.effClass (s.effClass k) k s.queue := by
  have hunheld : (s.record k).state.unheld = true := by rw [hp]; rfl
  have hrest : (s.flag k false false).restingState k = .queued := by rw [State.unflagged_rests, if_neg hz]
  have hturn : s.turn.unbar k = (s.turn.change fun s => s.flag k false false).moveRecord 0 k .queued .back := by
    rw [Turn.unbar_unheld _ hunheld]
    unfold Turn.reactUnheld
    dsimp only
    have hstate : ((s.flag k false false).record k).state = .parked := by rw [State.flag_record]; exact hp
    rw [Turn.change_st, State.turn_st, hrest, if_neg (by rw [hstate]; simp)]
  have hidle : (s.turn.unbar k).flush.passStep = none := by
    refine Turn.passStep_of_unavailable fun g => ?_
    rw [Turn.flush_st, State.postAll_engine, hturn, Turn.moveRecord_engine]
    exact hu g
  obtain ⟨l, hl⟩ := Turn.settleWithPass_of_idle hidle
  rw [hl, State.postAll_record, State.postAll_queue, hturn, Turn.moveRecord_record, Turn.moveRecord_queue]
  refine ⟨rfl, ?_⟩
  have heff : (s.flag k false false).effClass = s.effClass := funext fun j => State.flag_effClass ..
  unfold State.requeue
  dsimp only
  rw [Turn.change_st, State.turn_st, heff]
  simp only [decide_true, if_true]
  exact placeBack_eq_placedLast (fun _ _ => rfl) hs

end Bars

/-- Settles O18: BAR by the agreement that it ends in, UNBAR by what survives its grant pass. -/
theorem barAndUnbarTaken : Obligations.BarAndUnbarTaken := by
  intro s k hs hk
  dsimp only
  refine ⟨fun h hb => ?_, ?_⟩
  · set u := ((s.answered 0x04).turn.bar k).settle (s.answered 0x04) with hu
    have hground : u.ground = ((s.answered 0x04).flag k true (s.record k).declined).ground :=
      (Turn.ground_settle ..).trans (State.ground_of_still (Turn.still_bar ..))
    have hsteady : u.Steady s.watching [] [] :=
      (State.Steady.bar (t := (s.answered 0x04).turn) (h.watching.answered 0x04) k).settle _
    obtain ⟨hcls, hflags, hbar, hdec, heff⟩ := State.flagged_records hground
    obtain ⟨hstate, hqueue, hcirc⟩ := hsteady.barred_off hbar
    obtain ⟨htook, hsame, hqual, hout⟩ := State.tookCommand ((State.calm_of_ground hground).trans (s.answered_flag ..))
    refine ⟨u.finish, State.exec_bar hs hk hb, htook, ?_, ?_, ?_, ?_, ?_, ?_, ?_, hsame, hqual, hout⟩
    · rw [u.finish_record]
      exact hbar
    · rw [u.finish_record]
      exact hdec
    · rw [u.finish_record, hstate, heff]
      rfl
    · rw [u.finish_queue]
      exact hqueue
    · intro g
      rw [u.finish_engine]
      exact hcirc g
    · intro j
      rw [u.finish_record]
      exact hcls j
    · intro j hj
      rw [u.finish_record]
      exact hflags j hj
  · set u := ((s.answered 0x05).turn.unbar k).settleWithPass with hu
    have hground : u.ground = ((s.answered 0x05).flag k false false).ground :=
      (Turn.ground_settleWithPass ..).trans (State.ground_of_still (Turn.still_unbar ..))
    obtain ⟨hcls, hflags, hbar, hdec, _⟩ := State.flagged_records hground
    obtain ⟨htook, hsame, hqual, hout⟩ := State.tookCommand ((State.calm_of_ground hground).trans (s.answered_flag ..))
    refine ⟨u.finish, State.exec_unbar hs hk, htook, ?_, ?_, ?_, ⟨?_, ?_, hsame, hqual, hout⟩, fun h hp => ?_⟩
    · rw [u.finish_record]
      exact hbar
    · rw [u.finish_record]
      exact hdec
    · rw [u.finish_record]
      exact (s.answered 0x05).unbarred_not_parked k
    · intro j
      rw [u.finish_record]
      exact hcls j
    · intro j hj
      rw [u.finish_record]
      exact hflags j hj
    · have hz : s.effClass k ≠ 0 := fun hz => by
        have hr := h.watching.poised.rested k (by simp)
        unfold State.Rested at hr
        rw [if_pos (by rw [hp]; rfl), hp, State.restingState_of_zero hz] at hr
        rcases hr with e | e
        · cases e
        · exact absurd e.1 (by simp)
      rw [u.finish_record, u.finish_queue]
      exact ⟨(s.answered 0x05).unbarred_queued hp hz, fun hn => (s.answered 0x05).unbarred_waits hp hz h.queue.2.2 hn⟩

end Sys2Proof.Machine
end

