-- ==== Sys2Proof/Proofs/SourceCommands.lean ====
section
/-! Proofs: MOVE, FORCE and CLEAR. -/

namespace Sys2Proof.Machine

/-- A record with the software class written, and its decline hold kept or not. -/
def Record.software (sw : Nat) (keep : Bool) (r : Record) : Record :=
  { r with swClass := sw, declined := r.declined && keep }

/-- The state in which record k reacts to its new software class. -/
def State.rewritten (s : State) (k : Circuit) (sw : Nat) (keep : Bool) : State :=
  s.resource k ((s.record k).changed ((s.record k).software sw keep))

section SourceCommands

variable {s u : State} {t : Turn} {j k : Circuit} {sw : Nat} {keep : Bool}

/-! ## The record rewritten -/

theorem State.resource_effClass (s : State) (k : Circuit) (r : Record) :
    (s.resource k r).effClass k = max r.localClass (s.farClass k) := by
  unfold State.resource
  rw [State.effClass_of_sources (State.sources_updateKind ..)]
  unfold State.effClass State.localClass
  rw [State.setRecord_record_same, State.setRecord_farClass]

theorem State.resource_farClass (s : State) (k j : Circuit) (r : Record) : (s.resource k r).farClass j = s.farClass j := by
  unfold State.resource
  rw [State.farClass_of_sources (State.sources_updateKind ..), State.setRecord_farClass]

theorem State.rewritten_localClass (s : State) (k : Circuit) (sw : Nat) (keep : Bool) :
    ((s.record k).changed ((s.record k).software sw keep)).localClass = max (s.record k).condClass sw := by
  obtain ⟨_, _, hc, hsw, _⟩ := (s.record k).changed_cases ((s.record k).software sw keep)
  unfold Record.localClass
  rw [hc, hsw]
  rfl

theorem State.rewritten_effClass (s : State) (k : Circuit) (sw : Nat) (keep : Bool) :
    (s.rewritten k sw keep).effClass k = max (max (s.record k).condClass sw) (s.farClass k) := by
  unfold State.rewritten
  rw [State.resource_effClass, State.rewritten_localClass]

theorem State.rewritten_effClass_other (s : State) (sw : Nat) (keep : Bool) (h : j ≠ k) :
    (s.rewritten k sw keep).effClass j = s.effClass j := State.resource_effClass_other s _ (Ne.symm h)

/-- The return kind that new sources give (R12). -/
theorem State.kindNow_eq (s : State) (k : Circuit) (hz : s.effClass k = max (max (s.record k).condClass sw) (s.farClass k)) :
    s.kindNow k = if 0 < (s.record k).condClass ∨ 0 < s.farClass k then .condition
      else if 0 < sw then .software else (s.record k).returnKind := by
  unfold State.kindNow returnKindOf
  by_cases h : 0 < (s.record k).condClass ∨ 0 < s.farClass k
  · rw [if_pos h, if_pos h, if_neg (by rw [hz]; omega)]
  · rw [if_neg h, if_neg h]
    by_cases h0 : 0 < sw
    · rw [if_pos h0, if_neg (by rw [hz]; omega)]
    · rw [if_neg h0, if_pos (by rw [hz]; omega)]

/-- What the write leaves of the record written. -/
theorem State.rewritten_fields (s : State) (k : Circuit) (sw : Nat) (keep : Bool) :
    ((s.rewritten k sw keep).record k).condClass = (s.record k).condClass
      ∧ ((s.rewritten k sw keep).record k).barred = (s.record k).barred
      ∧ ((s.rewritten k sw keep).record k).swClass = sw
      ∧ ((s.rewritten k sw keep).record k).declined
          = ((s.record k).declined && keep && decide (max (s.record k).condClass sw = s.localClass k))
      ∧ ((s.rewritten k sw keep).record k).returnKind
          = (if 0 < (s.record k).condClass ∨ 0 < s.farClass k then .condition
            else if 0 < sw then .software else (s.record k).returnKind)
      ∧ ((s.rewritten k sw keep).record k).state = (s.record k).state := by
  obtain ⟨hst, hb, hc, hsw, hkind, hdec⟩ := (s.record k).changed_cases ((s.record k).software sw keep)
  have hlocal := s.rewritten_localClass k sw keep
  unfold State.rewritten
  set r := (s.record k).changed ((s.record k).software sw keep) with hr
  rw [State.resource_record]
  refine ⟨hc, hb, hsw, ?_, ?_, congrArg Prod.fst hst⟩
  · refine hdec.trans ?_
    have hl : ((s.record k).software sw keep).localClass = max (s.record k).condClass sw := rfl
    have hl' : (s.record k).localClass = s.localClass k := rfl
    rw [hl, hl']
    by_cases he : max (s.record k).condClass sw = s.localClass k
    · rw [if_pos he.symm]
      simp [he, Record.software]
    · rw [if_neg fun e => he e.symm]
      simp [he]
  · have hz : (s.setRecord k r).effClass k
        = max (max ((s.setRecord k r).record k).condClass sw) ((s.setRecord k r).farClass k) := by
      unfold State.effClass State.localClass
      rw [State.setRecord_record_same, State.setRecord_farClass, hlocal, hc]
      rfl
    refine (State.kindNow_eq _ k hz).trans ?_
    rw [State.setRecord_record_same, State.setRecord_farClass, hc, hkind]
    rfl

theorem State.rewritten_record_other (s : State) (sw : Nat) (keep : Bool) (h : j ≠ k) :
    (s.rewritten k sw keep).record j = s.record j := State.resource_record_other s _ (Ne.symm h)

theorem State.rewritten_calm (s : State) (k : Circuit) (sw : Nat) (keep : Bool) : (s.rewritten k sw keep).calm = s.calm :=
  (State.calm_updateKind ..).trans (State.calm_setRecord ..)

/-! ## The command -/

/-- A source command on the state that it answers in. -/
def State.sourced (s : State) (k : Circuit) (sw : Nat) (keep : Bool) : Turn :=
  s.turn.sourceChange k (Record.software sw keep)

theorem State.sourced_eq (s : State) (k : Circuit) (sw : Nat) (keep : Bool) :
    s.sourced k sw keep = (s.turn.change fun s => s.rewritten k sw keep).react k (s.effClass k) :=
  Turn.sourceChange_eq s.turn k (Record.software sw keep)

theorem State.exec_move (hs : s.inReset = false) (hk : s.regs.arg0.toNat = k.val) (hsw : (s.record k).swClass ≠ 4) :
    exec .move s = .next (((s.answered 0x01).sourced k 1 true).settle (s.answered 0x01)).finish := by
  have hf : (fun r : Record => { r with swClass := 1 }) = Record.software 1 true := by
    funext r
    simp [Record.software]
  have e : (s.commanded 0x01).cmdMove = ((s.answered 0x01).sourced k 1 true).settle (s.answered 0x01) := by
    rw [State.cmdMove_at (s.commanded 0x01) k hk, if_neg (show ¬ ((s.commanded 0x01).record k).swClass = 4 from hsw), hf]
    rfl
  have hexec : exec .move s = .next (s.hostCommand 0x01 State.cmdMove) := rfl
  rw [hexec, State.hostCommand_commanded _ _ _ hs, e]

theorem State.exec_force (hs : s.inReset = false) (hk : s.regs.arg0.toNat = k.val) :
    exec .force s = .next (((s.answered 0x02).sourced k 4 true).settle (s.answered 0x02)).finish := by
  have hf : (fun r : Record => { r with swClass := 4 }) = Record.software 4 true := by
    funext r
    simp [Record.software]
  have e : (s.commanded 0x02).cmdForce = ((s.answered 0x02).sourced k 4 true).settle (s.answered 0x02) := by
    rw [State.cmdForce_at (s.commanded 0x02) k hk, hf]
    rfl
  have hexec : exec .force s = .next (s.hostCommand 0x02 State.cmdForce) := rfl
  rw [hexec, State.hostCommand_commanded _ _ _ hs, e]

theorem State.exec_clear (hs : s.inReset = false) (hk : s.regs.arg0.toNat = k.val) :
    exec .clear s = .next (((s.answered 0x03).sourced k 0 false).settle (s.answered 0x03)).finish := by
  have hf : (fun r : Record => { r with swClass := 0, declined := false }) = Record.software 0 false := by
    funext r
    simp [Record.software]
  have e : (s.commanded 0x03).cmdClear = ((s.answered 0x03).sourced k 0 false).settle (s.answered 0x03) := by
    rw [State.cmdClear_at (s.commanded 0x03) k hk, hf]
    rfl
  have hexec : exec .clear s = .next (s.hostCommand 0x03 State.cmdClear) := rfl
  rw [hexec, State.hostCommand_commanded _ _ _ hs, e]

theorem State.sourced_ground (s : State) (k : Circuit) (sw : Nat) (keep : Bool) (before : State) :
    ((s.sourced k sw keep).settle before).ground = (s.rewritten k sw keep).ground := by
  rw [Turn.ground_settle, State.sourced_eq]
  exact State.ground_of_still (Turn.still_react ..)

/-- The return kind that the sources give survives every reaction and every grant. -/
theorem Upkeep.kind (b : State) (k : Circuit) {kind : ReturnKind}
    (h : b.effClass k ≠ 0 → kind = returnKindOf (b.record k).condClass (b.farClass k)) :
    Upkeep.Reacting b k fun r => r.returnKind = kind where
  grant := fun r g hr => by
    show (if b.effClass k = 0 then r.returnKind else _) = kind
    split
    · exact hr
    · next hz => exact (h hz).symm
  rest := fun _ hr => hr
  returns := fun _ _ hr => hr
  timer := fun _ _ hr => hr

theorem State.resource_kind (s : State) (k : Circuit) (r : Record) (hz : (s.resource k r).effClass k ≠ 0) :
    ((s.resource k r).record k).returnKind
      = returnKindOf ((s.resource k r).record k).condClass ((s.resource k r).farClass k) := by
  have hz' : (s.setRecord k r).effClass k ≠ 0 := by
    rwa [← State.effClass_of_sources (State.sources_updateKind (s.setRecord k r) k)]
  rw [State.resource_farClass, State.resource_record]
  unfold State.kindNow
  rw [if_neg hz', State.setRecord_record_same, State.setRecord_farClass]

theorem State.sourced_kind (s : State) (k : Circuit) (sw : Nat) (keep : Bool) (before : State) :
    (((s.sourced k sw keep).settle before).record k).returnKind = ((s.rewritten k sw keep).record k).returnKind := by
  have hQ := Upkeep.kind (s.rewritten k sw keep) k fun hz => s.resource_kind k _ hz
  refine Turn.Upkept.settle hQ.toUpkeep ?_ before
  rw [State.sourced_eq]
  exact Turn.Upkept.react hQ ⟨rfl, rfl⟩ k _

/-- What a source command that is taken leaves. -/
def State.Wrote (s : State) (k : Circuit) (t : State) (code : Byte) (sw : Nat) (declined : Bool) : Prop :=
  s.TookCommand t code ∧ (t.record k).swClass = sw ∧ (t.record k).declined = declined
    ∧ (t.record k).returnKind = (if 0 < (s.record k).condClass ∨ 0 < s.farClass k then .condition
        else if 0 < sw then .software else (s.record k).returnKind)
    ∧ (∀ j, (t.record j).condClass = (s.record j).condClass ∧ (t.record j).barred = (s.record j).barred)
    ∧ (∀ j, j ≠ k → (t.record j).swClass = (s.record j).swClass ∧ (t.record j).declined = (s.record j).declined)
    ∧ s.SameSurroundings t ∧ t.qualifiers = s.qualifiers ∧ t.outOfStep = s.outOfStep

theorem State.sourced_wrote (s : State) (k : Circuit) (code : Byte) (sw : Nat) (keep : Bool) :
    s.Wrote k (((s.answered code).sourced k sw keep).settle (s.answered code)).finish code sw
      ((s.record k).declined && keep && decide (max (s.record k).condClass sw = s.localClass k)) := by
  have hground := (s.answered code).sourced_ground k sw keep (s.answered code)
  have hkind := (s.answered code).sourced_kind k sw keep (s.answered code)
  set u := ((s.answered code).sourced k sw keep).settle (s.answered code) with hu
  have hsrc := State.sources_of_ground hground
  obtain ⟨hc, hb, hsw, hdec, hk, _⟩ := (s.answered code).rewritten_fields k sw keep
  obtain ⟨htook, hsame, hqual, hout⟩ := State.tookCommand
    ((State.calm_of_ground hground).trans ((s.answered code).rewritten_calm k sw keep))
  refine ⟨htook, ?_, ?_, ?_, fun j => ?_, fun j hj => ?_, hsame, hqual, hout⟩
  · rw [u.finish_record, State.swClass_of_sources hsrc]
    exact hsw
  · rw [u.finish_record, State.declined_of_sources hsrc]
    exact hdec
  · rw [u.finish_record, hkind]
    exact hk
  · rw [u.finish_record, State.condClass_of_sources hsrc, State.barred_of_sources hsrc]
    by_cases hj : j = k
    · subst hj
      exact ⟨hc, hb⟩
    · rw [State.rewritten_record_other _ _ _ hj]
      exact ⟨rfl, rfl⟩
  · rw [u.finish_record, State.swClass_of_sources hsrc, State.declined_of_sources hsrc,
      State.rewritten_record_other _ _ _ hj]
    exact ⟨rfl, rfl⟩

/-! ## The place of a record that no engine holds -/

theorem Turn.reactUnheld_queue (t : Turn) (g : Spare) (k : Circuit) (changed : Bool) :
    (t.reactUnheld g k changed).st.queue
      = if (t.st.record k).state = t.st.restingState k ∧ ¬ (t.st.restingState k = .queued ∧ changed = true) then t.st.queue
        else t.st.requeue k (t.st.restingState k = .queued) .back := by
  unfold Turn.reactUnheld
  dsimp only
  split
  · rfl
  · exact Turn.moveRecord_queue ..

theorem Turn.react_unheld (t : Turn) (before : Nat) (hu : (t.st.record k).state.unheld = true) :
    t.react k before = t.reactUnheld 0 k (before != t.st.effClass k) := by
  have hn := (RequestState.unheld_iff _).mp hu
  unfold Turn.react
  split
  · next g e => exact absurd e (hn g).1
  · next g e => exact absurd e (hn g).2
  · rfl

/-- Where a source command puts a record that no engine holds. -/
def State.Placed (s : State) (k : Circuit) (t : State) (sw : Nat) (declined : Bool) : Prop :=
  let c := max (max (s.record k).condClass sw) (s.farClass k)
  let others := s.queue.filter fun j => j ≠ k
  if c = 0 then (t.record k).state = .quiet ∧ t.queue = others
  else if (s.record k).barred = true ∨ declined = true then (t.record k).state = .parked ∧ t.queue = others
  else (t.record k).state = .queued ∧ t.queue =
    if (s.record k).state = .queued ∧ c = s.effClass k then s.queue else placedLast s.effClass c k s.queue

theorem State.sourced_rests (s : State) (k : Circuit) (sw : Nat) (keep : Bool) :
    (s.rewritten k sw keep).restingState k
      = if max (max (s.record k).condClass sw) (s.farClass k) = 0 then .quiet
        else if (s.record k).barred = true
            ∨ ((s.record k).declined && keep && decide (max (s.record k).condClass sw = s.localClass k)) = true then .parked
        else .queued := by
  obtain ⟨_, hb, _, hdec, _⟩ := s.rewritten_fields k sw keep
  unfold State.restingState
  rw [State.rewritten_effClass, hb, hdec]
  simp only [Bool.or_eq_true]

/-- A queue that an unheld record leaves, its order the classes'. -/
theorem State.Agreement.sourced_queue (h : s.Agreement) (hu : (s.record k).state.unheld = true)
    (hn : ∀ g, (s.engine g).state = .unavailable) (code : Byte) (sw : Nat) (keep : Bool) :
    s.Placed k (((s.answered code).sourced k sw keep).settle (s.answered code)).finish sw
      ((s.record k).declined && keep && decide (max (s.record k).condClass sw = s.localClass k)) := by
  set a := s.answered code with ha
  have hstate : ((a.rewritten k sw keep).record k).state = (s.record k).state := (a.rewritten_fields k sw keep).2.2.2.2.2
  have hturn : a.sourced k sw keep
      = (a.turn.change fun s => s.rewritten k sw keep).reactUnheld 0 k (a.effClass k != (a.rewritten k sw keep).effClass k) := by
    rw [State.sourced_eq, Turn.react_unheld]
    · rfl
    · rw [Turn.change_st, State.turn_st, hstate]
      exact hu
  have hidle : (a.sourced k sw keep).flush.flush.passStep = none := by
    refine Turn.passStep_of_unavailable fun g => ?_
    rw [Turn.flush_st, State.postAll_engine, Turn.flush_st, State.postAll_engine, hturn, Turn.reactUnheld_engine,
      Turn.change_st, State.turn_st, State.rewritten, State.resource_engine]
    exact hn g
  obtain ⟨l, hl⟩ := Turn.settle_of_idle hidle a
  have hout : s.queue.filter (· ≠ k) = s.queue ∨ (s.record k).state = .queued := by
    by_cases hq : (s.record k).state = .queued
    · exact .inr hq
    · refine .inl (List.filter_eq_self.mpr fun j hj => ?_)
      have : j ≠ k := by
        rintro rfl
        exact hq ((h.queue.2.1 j).mp hj)
      simpa using this
  have hqueue : (a.rewritten k sw keep).queue = s.queue := State.resource_queue ..
  have hplace : (a.rewritten k sw keep).requeue k true .back
      = placedLast s.effClass (max (max (s.record k).condClass sw) (s.farClass k)) k s.queue := by
    have e := placeBack_eq_placedLast (cls := s.effClass) (cls' := (a.rewritten k sw keep).effClass) (k := k)
      (fun j hj => a.rewritten_effClass_other sw keep hj) h.queue.2.2
    rw [State.rewritten_effClass] at e
    unfold State.requeue
    rw [hqueue]
    exact e
  have hrest : (a.rewritten k sw keep).restingState k
      = if max (max (s.record k).condClass sw) (s.farClass k) = 0 then .quiet
        else if (s.record k).barred = true
            ∨ ((s.record k).declined && keep && decide (max (s.record k).condClass sw = s.localClass k)) = true then .parked
        else .queued := a.sourced_rests k sw keep
  have hdrop : (a.rewritten k sw keep).requeue k false .back = s.queue.filter (· ≠ k) := by
    unfold State.requeue
    rw [hqueue]
    rfl
  unfold State.Placed
  dsimp only
  rw [State.finish_record, State.finish_queue, hl, State.postAll_record, State.postAll_queue, hturn,
    Turn.reactUnheld_state, Turn.reactUnheld_queue, Turn.change_st, State.turn_st, hstate, hqueue]
  by_cases hz : max (max (s.record k).condClass sw) (s.farClass k) = 0
  · rw [if_pos hz] at hrest ⊢
    rw [hrest]
    refine ⟨rfl, ?_⟩
    split
    · next hx =>
      exact (hout.resolve_right (by rw [hx.1]; simp)).symm
    · exact hdrop
  · rw [if_neg hz] at hrest ⊢
    by_cases hf : (s.record k).barred = true
        ∨ ((s.record k).declined && keep && decide (max (s.record k).condClass sw = s.localClass k)) = true
    · rw [if_pos hf] at hrest ⊢
      rw [hrest]
      refine ⟨rfl, ?_⟩
      split
      · next hx =>
        exact (hout.resolve_right (by rw [hx.1]; simp)).symm
      · exact hdrop
    · rw [if_neg hf] at hrest ⊢
      rw [hrest]
      refine ⟨rfl, ?_⟩
      have hchanged : (a.effClass k != (a.rewritten k sw keep).effClass k) = true
          ↔ ¬ max (max (s.record k).condClass sw) (s.farClass k) = s.effClass k := by
        rw [State.rewritten_effClass, bne_iff_ne, ne_comm]
        rfl
      have hiff : ((s.record k).state = .queued
            ∧ ¬ (RequestState.queued = .queued ∧ (a.effClass k != (a.rewritten k sw keep).effClass k) = true))
          ↔ ((s.record k).state = .queued ∧ max (max (s.record k).condClass sw) (s.farClass k) = s.effClass k) := by
        rw [hchanged]
        simp
      rw [if_congr hiff rfl rfl]
      split
      · rfl
      · exact hplace

end SourceCommands

/-- Settles O16: what the ground and the return kind keep of the record written. -/
theorem sourceCommandsTaken : Obligations.SourceCommandsTaken := by
  intro s k hs hk
  dsimp only
  refine ⟨fun hsw => ⟨_, State.exec_move hs hk hsw, ?_⟩, ⟨_, State.exec_force hs hk, ?_⟩, _, State.exec_clear hs hk, ?_⟩
  · have h := s.sourced_wrote k 0x01 1 true
    rw [Bool.and_true] at h
    exact h
  · have h := s.sourced_wrote k 0x02 4 true
    rw [Bool.and_true] at h
    exact h
  · have h := s.sourced_wrote k 0x03 0 false
    rw [Bool.and_false, Bool.false_and] at h
    exact h

/-- Settles O17: no engine usable, the pass does nothing, and the record stands where its reaction put it. -/
theorem sourceCommandsPlaceTheRecord : Obligations.SourceCommandsPlaceTheRecord := by
  intro s k hs h hk hn hoff
  have hu : (s.record k).state.unheld = true := (RequestState.unheld_iff _).mpr hoff
  dsimp only
  refine ⟨fun hsw => ⟨_, State.exec_move hs hk hsw, ?_⟩, ⟨_, State.exec_force hs hk, ?_⟩, _, State.exec_clear hs hk, ?_⟩
  · have hp := h.sourced_queue hu hn 0x01 1 true
    rw [Bool.and_true] at hp
    exact hp
  · have hp := h.sourced_queue hu hn 0x02 4 true
    rw [Bool.and_true] at hp
    exact hp
  · have hp := h.sourced_queue hu hn 0x03 0 false
    rw [Bool.and_false, Bool.false_and] at hp
    exact hp

end Sys2Proof.Machine
end

