-- ==== Sys2Proof/Proofs/Returns.lean ====
section
/-! Proofs: the start of a return, and the fall of a held circuit's class, while nothing waits and the far end claims no other
circuit on the spare. -/

namespace Sys2Proof.Machine

/-- State y has the records, engines, queue, qualifiers, flags, role and transfers of state x, but for how far a transfer has
come. -/
structure State.Alike (x y : State) : Prop where
  records : y.records = x.records
  engines : y.engines = x.engines
  queue : y.queue = x.queue
  qualifiers : y.qualifiers = x.qualifiers
  outOfStep : y.outOfStep = x.outOfStep
  role : y.role = x.role
  transfer : ∀ g, (y.transfer g).map (·.source) = (x.transfer g).map (·.source)

section Returns

variable {s x y : State} {t : Turn} {g : Spare} {k : Circuit}

theorem State.Alike.record (h : x.Alike y) (k : Circuit) : y.record k = x.record k := congrArg (fun v => tabGet v k) h.records

theorem State.Alike.engine (h : x.Alike y) (g : Spare) : y.engine g = x.engine g := congrArg (fun v => tabGet v g) h.engines

/-- The events of a turn and the end of its event leave a state alike. -/
theorem State.alike_finish (x : State) (l : List Event) : x.Alike (x.postAll l).finish where
  records := by rw [State.finish_records, State.postAll_records]
  engines := by rw [State.finish_engines, State.postAll_engines]
  queue := by rw [State.finish_queue, State.postAll_queue]
  qualifiers := by rw [State.finish_qualifiers, State.postAll_qualifiers]
  outOfStep := by
    rw [State.finish_outOfStep]
    exact State.postAll_keeps State.outOfStep (fun _ _ => rfl) (fun _ _ => rfl) x l
  role := by
    rw [State.finish_role]
    exact State.postAll_keeps State.role (fun _ _ => rfl) (fun _ _ => rfl) x l
  transfer := fun g => by rw [State.finish_transfer_source, State.postAll_transfer]

theorem State.Returned.alike (h : s.Returned x g k) (hy : x.Alike y) : s.Returned y g k := by
  unfold State.Returned
  rw [hy.engine, hy.record, hy.transfer]
  exact h

theorem State.ownWord_returning (h : (s.engine g).state = .returning k) :
    s.ownWord g = some ((SpanWord.yield k).encode s.role) := by
  unfold State.ownWord State.ownSays
  rw [h]
  rfl

theorem State.Returning.alike (h : s.Returning x g k) (hy : x.Alike y) : s.Returning y g k := by
  obtain ⟨he, hr, hw⟩ := h
  have hx : (x.engine g).state = .returning k := by rw [he]
  have hy' : (y.engine g).state = .returning k := by rw [hy.engine]; exact hx
  refine ⟨by rw [hy.engine]; exact he, by rw [hy.record]; exact hr, ?_⟩
  rw [State.ownWord_returning hx] at hw
  rw [State.ownWord_returning hy', hy.role]
  exact hw

theorem State.OthersAsBefore.alike (h : s.OthersAsBefore x g k) (hy : x.Alike y) : s.OthersAsBefore y g k := by
  obtain ⟨h1, h2, h3, h4, h5⟩ := h
  exact ⟨fun j hj => (hy.record j).trans (h1 j hj), fun i hi => (hy.engine i).trans (h2 i hi), hy.queue.trans h3,
    hy.qualifiers.trans h4, hy.outOfStep.trans h5⟩

theorem State.Fell.alike (h : s.Fell x g k) (hy : x.Alike y) : s.Fell y g k := by
  obtain ⟨hothers, hprep, hbridged, hcarry⟩ := h
  have hreturns : (if s.farSays g = some .vacant ∨ s.farSays g = some (.yield k) then s.Returned x g k
      else s.Returning x g k) →
      (if s.farSays g = some .vacant ∨ s.farSays g = some (.yield k) then s.Returned y g k else s.Returning y g k) := by
    intro hx
    split
    · next hc =>
      rw [if_pos hc] at hx
      exact hx.alike hy
    · next hc =>
      rw [if_neg hc] at hx
      exact hx.alike hy
  refine ⟨hothers.alike hy, fun he => (hprep he).alike hy, fun he => hreturns (hbridged he), fun he => ?_⟩
  obtain ⟨h1, h2, h3, h4⟩ := hcarry he
  rw [hy.engine, hy.record]
  exact ⟨fun hk => hreturns (h1 hk), h2, fun hk hh hd => hreturns (h3 hk hh hd), h4⟩

/-! ## A spare about which the far end and the queue say nothing else -/

/-- Nothing waits, the circuit has no class, and the far end claims no other on the spare. -/
structure State.Lonely (s : State) (g : Spare) (k : Circuit) : Prop where
  queue : s.queue = []
  zero : s.effClass k = 0
  far : ∀ j c, s.farClaim g = some (j, c) → j = k

theorem State.Lonely.requeue (h : s.Lonely g k) (place : Place) : s.requeue k false place = [] := by
  unfold State.requeue
  rw [h.queue]
  rfl

theorem State.Lonely.of_sources (h : s.Lonely g k) (hsrc : x.sources = s.sources) (hq : x.queue = []) : x.Lonely g k where
  queue := hq
  zero := (State.effClass_of_sources hsrc k).trans h.zero
  far := fun j c hj => h.far j c (by rwa [State.farClaim_of_sources hsrc] at hj)

/-- No contest moves a circuit whose claim no other stands against. -/
theorem State.Lonely.contest (h : t.st.Lonely g k)
    (hc : ∀ j, (t.st.engine g).state.circuit = some j → j = k) : t.contest g = t :=
  Turn.contest_won fun own far ho hf =>
    .inl ((hc own.1 (State.contestClaim_circuit ho)).trans (h.far far.1 far.2 hf).symm)

/-- A move of a record that leaves the queue leaves an empty queue so. -/
theorem Turn.moveRecord_lonely (h : t.st.Lonely g k) {r : RequestState} (hr : r ≠ .queued) (i : Spare) (place : Place) :
    (t.moveRecord i k r place).st.Lonely g k := by
  refine h.of_sources (State.sources_of_still (Turn.still_moveRecord ..)) ?_
  rw [Turn.moveRecord_queue, decide_eq_false hr]
  exact h.requeue place

/-! ## The moves -/

theorem State.othersAsBefore_of_still {x : State} (hs : x.still = s.still) (hr : ∀ j, j ≠ k → x.record j = s.record j)
    (he : ∀ i, i ≠ g → x.engine i = s.engine i) (hq : x.queue = s.queue) : s.OthersAsBefore x g k :=
  have hcalm := State.calm_of_ground (State.ground_of_still hs)
  ⟨hr, he, hq, State.qualifiers_of_calm hcalm, State.outOfStep_of_calm hcalm⟩

/-- A drop of a circuit without a class, or the end of its return. -/
theorem Turn.drop_lonely (h : t.st.Lonely g k) :
    t.st.Returned (t.drop g k).st g k ∧ t.st.OthersAsBefore (t.drop g k).st g k := by
  have hrest : t.st.restingState k = .quiet := State.restingState_of_zero h.zero
  refine ⟨⟨t.drop_engine g k, ?_, by rw [Turn.drop_transfer]; rfl⟩,
    State.othersAsBefore_of_still (by simp) (fun j hj => ?_) (fun i hi => ?_) ?_⟩
  · rw [Turn.drop_record, hrest]
  · simp [Turn.drop, Turn.release, Ne.symm hj]
  · simp [Turn.drop, Turn.release, Ne.symm hi]
  · have hgo : (t.letGo g).st.Lonely g k := h.of_sources (State.sources_of_still (Turn.still_letGo ..)) (by simp [h.queue])
    have hq : (t.drop g k).st.queue = (t.letGo g).st.requeue k ((t.letGo g).st.restingState k = .queued) .back :=
      Turn.moveRecord_queue ..
    rw [hq, State.restingState_of_zero hgo.zero]
    exact (hgo.requeue .back).trans h.queue.symm

/-- What a return leaves: completed where the far end has let go. -/
def State.Return (s : State) (x : State) (g : Spare) (k : Circuit) : Prop :=
  if s.farSays g = some .vacant ∨ s.farSays g = some (.yield k) then s.Returned x g k else s.Returning x g k

theorem letGoWord_iff (k : Circuit) (w : Option SpanWord) :
    letGoWord k w = true ↔ w = some .vacant ∨ w = some (.yield k) := by
  unfold letGoWord
  split
  · simp
  · simp
  · next h1 h2 =>
    constructor
    · intro h
      cases h
    · rintro (rfl | rfl)
      · exact absurd rfl h2
      · exact absurd rfl (h1 k)

theorem Turn.enterReturning_lonely (h : t.st.Lonely g k) :
    t.st.Return (t.enterReturning g k).st g k ∧ t.st.OthersAsBefore (t.enterReturning g k).st g k := by
  have hmove := Turn.moveRecord_lonely h (r := .releasing g) (by simp) g .back
  have hgo : ((t.moveRecord g k (.releasing g) .back).enterEngine g (.returning k)
      (t.moveRecord g k (.releasing g) .back).st.answerStart none).st.Lonely g k := ⟨hmove.queue, hmove.zero, hmove.far⟩
  have hanswer : (t.moveRecord g k (.releasing g) .back).st.answerStart = t.st.answerStart := by
    unfold State.answerStart
    rw [Turn.moveRecord_st]
    rfl
  have hrole : (t.moveRecord g k (.releasing g) .back).st.role = t.st.role := by
    rw [Turn.moveRecord_st]
    rfl
  rw [hanswer] at hgo
  rw [Turn.enterReturning_eq, hanswer]
  set v := (t.moveRecord g k (.releasing g) .back).enterEngine g (.returning k) t.st.answerStart none with hv
  have hengine : v.st.engine g
      = { t.st.engine g with state := .returning k, answerTimer := t.st.answerStart, testTimer := none } := by simp [hv]
  have hrecord : v.st.record k = { t.st.record k with state := .releasing g, returnTimer := none } := by simp [hv]
  have hothers : t.st.OthersAsBefore v.st g k :=
    State.othersAsBefore_of_still (by simp [hv]) (fun j hj => by simp [hv, Ne.symm hj])
      (fun i hi => by simp [hv, Ne.symm hi]) (hgo.queue.trans h.queue.symm)
  unfold State.Return
  dsimp only
  by_cases hl : letGoWord k (t.st.farSays g) = true
  · rw [if_pos hl, if_pos ((letGoWord_iff _ _).mp hl)]
    obtain ⟨⟨he, hr, htr⟩, h1, h2, h3, h4, h5⟩ := Turn.drop_lonely hgo
    obtain ⟨o1, o2, o3, o4, o5⟩ := hothers
    refine ⟨⟨?_, ?_, htr⟩, fun j hj => (h1 j hj).trans (o1 j hj), fun i hi => (h2 i hi).trans (o2 i hi), h3.trans o3,
      h4.trans o4, h5.trans o5⟩
    · rw [hengine] at he
      exact he
    · rw [hrecord] at hr
      exact hr
  · rw [if_neg hl, if_neg fun hx => hl ((letGoWord_iff _ _).mpr hx),
      hgo.contest fun j hj => by rw [hengine] at hj; exact (Option.some.inj hj).symm]
    refine ⟨⟨hengine, hrecord, ?_⟩, hothers⟩
    rw [State.ownWord_returning (k := k) (by rw [hengine])]
    exact congrArg (fun r => some ((SpanWord.yield k).encode r)) hrole

/-- Nothing waiting, a settled turn leaves what it made alike. -/
theorem Turn.settle_lonely (t : Turn) (hq : t.st.queue = []) (before : State) : t.st.Alike (t.settle before).finish := by
  obtain ⟨l, hl⟩ := Turn.settle_of_idle (t := t) (Turn.passStep_of_empty (by
    rw [Turn.flush_st, State.postAll_queue, Turn.flush_st, State.postAll_queue, hq])) before
  rw [hl]
  exact t.st.alike_finish l

end Returns

section ReturnsStart

variable {s : State} {g : Spare} {k : Circuit}

/-- What the start of a return leaves, in the event that it is part of. -/
theorem State.returns_started (h : s.Lonely g k) (a : State) (ha : a = s ∨ ∃ code, a = s.answered code) :
    let t := ((a.turn.enterReturning g k).settle a).finish
    (if s.farSays g = some .vacant ∨ s.farSays g = some (.yield k) then s.Returned t g k
      else s.Returning t g k ∧ t.bridge g = some k ∧ t.selector g = none)
      ∧ s.OthersAsBefore t g k ∧ s.SameSurroundings t := by
  have ha' : a.Lonely g k := by
    rcases ha with rfl | ⟨code, rfl⟩
    · exact h
    · exact ⟨h.queue, h.zero, h.far⟩
  obtain ⟨hreturn, hothers⟩ := Turn.enterReturning_lonely (t := a.turn) ha'
  have halike := (a.turn.enterReturning g k).settle_lonely (hothers.2.2.1.trans ha'.queue) a
  have hground : ((a.turn.enterReturning g k).settle a).ground = a.ground :=
    (Turn.ground_settle ..).trans (State.ground_of_still (Turn.still_enterReturning ..))
  have hsame : a.SameSurroundings ((a.turn.enterReturning g k).settle a).finish :=
    State.SameSurroundings.finish (State.sameSurroundings_of_calm (State.calm_of_ground hground))
  have hresult : a.Return ((a.turn.enterReturning g k).settle a).finish g k := by
    unfold State.Return at hreturn ⊢
    split
    · next hc =>
      rw [State.turn_st, if_pos hc] at hreturn
      exact State.Returned.alike hreturn halike
    · next hc =>
      rw [State.turn_st, if_neg hc] at hreturn
      exact State.Returning.alike hreturn halike
  have hfinal : s.Return ((a.turn.enterReturning g k).settle a).finish g k
      ∧ s.OthersAsBefore ((a.turn.enterReturning g k).settle a).finish g k
      ∧ s.SameSurroundings ((a.turn.enterReturning g k).settle a).finish := by
    have hx := hothers.alike halike
    rcases ha with rfl | ⟨code, rfl⟩
    · exact ⟨hresult, hx, hsame⟩
    · exact ⟨hresult, hx, hsame⟩
  dsimp only
  refine ⟨?_, hfinal.2⟩
  have hr := hfinal.1
  unfold State.Return at hr
  split
  · next hc =>
    rwa [if_pos hc] at hr
  · next hc =>
    rw [if_neg hc] at hr
    have he := hr.1
    refine ⟨hr, ?_, ?_⟩
    · unfold State.bridge
      rw [he]
    · unfold State.selector
      rw [he]

theorem State.inService_out (hs : s.inReset = false) (f : State → State) : s.inService f = f s :=
  if_neg (by rw [hs]; simp)

theorem State.exec_return (hs : s.inReset = false) (hk : s.regs.arg0.toNat = k.val) (hr : (s.record k).state = .assigned g)
    (hz : s.effClass k = 0) (he : (s.engine g).state = .carrying k) :
    exec .returnCircuit s
      = .next (((s.answered 0x06).turn.enterReturning g k).settle (s.answered 0x06)).finish := by
  have hheld : (s.commanded 0x06).classZeroHeld k = some g := by
    have hr' : ((s.commanded 0x06).record k).state = .assigned g := hr
    unfold State.classZeroHeld
    rw [hr']
    exact if_pos ⟨hz, he⟩
  have e : (s.commanded 0x06).cmdReturn = ((s.answered 0x06).turn.enterReturning g k).settle (s.answered 0x06) := by
    rw [State.cmdReturn_at (s.commanded 0x06) k hk, hheld]
    rfl
  have hexec : exec .returnCircuit s = .next (s.hostCommand 0x06 State.cmdReturn) := rfl
  rw [hexec, State.hostCommand_commanded _ _ _ hs, e]

theorem State.exec_returnTimerExpiry (hs : s.inReset = false) (hr : (s.record k).state = .assigned g)
    (he : (s.engine g).state = .carrying k ∨ (s.engine g).state = .bridged k) (ht : (s.record k).returnTimer ≠ none) :
    exec (.returnTimerExpiry k) s = .next ((s.turn.enterReturning g k).settle s).finish := by
  have hexec : exec (.returnTimerExpiry k) s = .next (s.inService fun s => s.returnExpiry k) := rfl
  have hexpired : s.turn.returnExpired k = s.turn.enterReturning g k := by
    unfold Turn.returnExpired
    rw [State.turn_st, hr]
    exact if_pos he
  have hsome : (s.record k).returnTimer.isSome = true := Option.isSome_iff_ne_none.mpr ht
  rw [hexec, State.inService_out hs]
  unfold State.returnExpiry
  rw [if_pos hsome, hexpired]

end ReturnsStart

/-- Settles O19: the entry into RETURNING, nothing else standing about the spare. -/
theorem returnsStart : Obligations.ReturnsStart := by
  intro s k hs
  dsimp only
  refine ⟨fun ht => ?_, fun g hr hz hq hf => ⟨fun he hk => ?_, fun he ht => ?_⟩⟩
  · have hexec : exec (.returnTimerExpiry k) s = .next (s.inService fun s => s.returnExpiry k) := rfl
    rw [hexec, State.inService_out hs]
    unfold State.returnExpiry
    rw [if_neg (by rw [ht]; simp)]
  · have hground : (((s.answered 0x06).turn.enterReturning g k).settle (s.answered 0x06)).ground
        = (s.answered 0x06).ground :=
      (Turn.ground_settle ..).trans (State.ground_of_still (Turn.still_enterReturning ..))
    exact ⟨_, State.exec_return hs hk hr hz he, (State.tookCommand (State.calm_of_ground hground)).1,
      State.returns_started ⟨hq, hz, hf⟩ _ (.inr ⟨_, rfl⟩)⟩
  · exact ⟨_, State.exec_returnTimerExpiry hs hr he ht, State.returns_started ⟨hq, hz, hf⟩ _ (.inl rfl)⟩

end Sys2Proof.Machine
end

