-- ==== Sys2Proof/Proofs/Falls.lean ====
section
/-! Proofs: the fall of eff_class of a held circuit to 0 by a change of its own sources. -/

namespace Sys2Proof.Machine

section Falls

variable {s a x y : State} {t : Turn} {g : Spare} {j k : Circuit} {r : Record}

/-! ## States alike -/

theorem State.Alike.trans {z : State} (h1 : x.Alike y) (h2 : y.Alike z) : x.Alike z where
  records := h2.records.trans h1.records
  engines := h2.engines.trans h1.engines
  queue := h2.queue.trans h1.queue
  qualifiers := h2.qualifiers.trans h1.qualifiers
  outOfStep := h2.outOfStep.trans h1.outOfStep
  role := h2.role.trans h1.role
  transfer := fun g => (h2.transfer g).trans (h1.transfer g)

theorem State.alike_postAll (x : State) (l : List Event) : x.Alike (x.postAll l) where
  records := State.postAll_records ..
  engines := State.postAll_engines ..
  queue := State.postAll_queue ..
  qualifiers := State.postAll_qualifiers ..
  outOfStep := State.postAll_keeps State.outOfStep (fun _ _ => rfl) (fun _ _ => rfl) _ l
  role := State.postAll_keeps State.role (fun _ _ => rfl) (fun _ _ => rfl) _ l
  transfer := fun g => by rw [State.postAll_transfer]

/-- What a fall reads of the state before it. -/
def State.falling (s : State) : State :=
  { State.reset with records := s.records, engines := s.engines, queue := s.queue, qualifiers := s.qualifiers,
                     outOfStep := s.outOfStep, role := s.role,
                     regs := { State.reset.regs with answerTimeout := s.regs.answerTimeout, hold := s.regs.hold,
                                                     returnDelay := s.regs.returnDelay } }

theorem State.fell_falling (s x : State) (g : Spare) (k : Circuit) : s.falling.Fell x g k ↔ s.Fell x g k := Iff.rfl

theorem State.Fell.of_falling (h : a.Fell x g k) (ha : a.falling = s.falling) : s.Fell x g k := by
  rw [← State.fell_falling, ← ha]
  exact h

@[simp] theorem State.falling_post (s : State) (e : Event) : (s.post e).falling = s.falling := by
  unfold State.post
  split
  · rfl
  · split
    · rfl
    · split
      · rfl
      · split <;> rfl

@[simp] theorem State.falling_setCondition (s : State) (p : Port) (c : Condition) :
    (s.setCondition p c).falling = s.falling := rfl

@[simp] theorem State.falling_setMonitor (s : State) (p : Port) (m : Monitor) : (s.setMonitor p m).falling = s.falling :=
  rfl

/-- What a fall reads, states that agree in it share. -/
theorem State.same_of_falling {α : Type} (f : State → α) (hf : ∀ x : State, f x.falling = f x)
    (h : a.falling = s.falling) : f a = f s := (hf a).symm.trans ((congrArg f h).trans (hf s))

/-- What the lines keep, states of the same lines share. -/
theorem State.same_of_lines {α : Type} (f : State → α) (hf : ∀ x : State, f x.lines = f x) (h : y.lines = x.lines) :
    f y = f x := (hf y).symm.trans ((congrArg f h).trans (hf x))

theorem State.falling_setRecord {a s : State} (h : a.falling = s.falling) (k : Circuit) (r : Record) :
    (a.setRecord k r).falling = (s.setRecord k r).falling :=
  congrArg (fun x : State => x.setRecord k r) h

/-! ## The reaction -/

theorem State.OthersAsBefore.refl (s : State) (g : Spare) (k : Circuit) : s.OthersAsBefore s g k :=
  ⟨fun _ _ => rfl, fun _ _ => rfl, rfl, rfl, rfl⟩

/-- A fall from a known engine state. -/
theorem State.Fell.of_state {e : EngineState} (he : (s.engine g).state = e) (ho : s.OthersAsBefore x g k)
    (h1 : e = .preparing k → s.Returned x g k) (h2 : e = .bridged k → s.Return x g k)
    (h3 : e = .carrying k →
      ((s.record k).returnKind = .software → s.Return x g k)
      ∧ ((s.record k).returnKind = .condition → s.regs.hold = true →
          x.engine g = s.engine g ∧ x.record k = { s.record k with returnTimer := (s.record k).returnTimer })
      ∧ ((s.record k).returnKind = .condition → s.regs.hold = false → s.regs.returnDelay = 0 → s.Return x g k)
      ∧ ((s.record k).returnKind = .condition → s.regs.hold = false → s.regs.returnDelay ≠ 0 →
          x.engine g = s.engine g
            ∧ x.record k = { s.record k with returnTimer := some (s.regs.returnDelay.toNat * 40000) })) :
    s.Fell x g k := by
  subst he
  exact ⟨ho, h1, h2, h3⟩

/-- A fall has left the spare without a circuit, or with the one it held. -/
theorem State.Return.circuit (h : s.Return x g k) (hj : (x.engine g).state.circuit = some j) : j = k := by
  unfold State.Return at h
  split at h
  · rw [h.1] at hj
    cases hj
  · rw [h.1] at hj
    exact (Option.some.inj hj).symm

/-- The fall under CARRYING: by return kind and return mode (R12, R13). -/
theorem Turn.carryingGone (h : t.st.Lonely g k) (e : (t.st.engine g).state = .carrying k)
    (hstay : ∀ j, (t.st.engine g).state.circuit = some j → j = k) :
    (t.st.OthersAsBefore (t.classGone g k).st g k
      ∧ ((t.st.record k).returnKind = .software → t.st.Return (t.classGone g k).st g k)
      ∧ ((t.st.record k).returnKind = .condition → t.st.regs.hold = true →
          (t.classGone g k).st.engine g = t.st.engine g
            ∧ (t.classGone g k).st.record k = { t.st.record k with returnTimer := (t.st.record k).returnTimer })
      ∧ ((t.st.record k).returnKind = .condition → t.st.regs.hold = false → t.st.regs.returnDelay = 0 →
          t.st.Return (t.classGone g k).st g k)
      ∧ ((t.st.record k).returnKind = .condition → t.st.regs.hold = false → t.st.regs.returnDelay ≠ 0 →
          (t.classGone g k).st.engine g = t.st.engine g
            ∧ (t.classGone g k).st.record k
                = { t.st.record k with returnTimer := some (t.st.regs.returnDelay.toNat * 40000) }))
      ∧ ∀ j, ((t.classGone g k).st.engine g).state.circuit = some j → j = k := by
  obtain ⟨hreturn, hothers⟩ := Turn.enterReturning_lonely h
  cases hkind : (t.st.record k).returnKind with
  | software =>
    have hgone : t.classGone g k = t.enterReturning g k := by
      unfold Turn.classGone
      rw [e]
      dsimp only
      rw [hkind]
    rw [hgone]
    exact ⟨⟨hothers, fun _ => hreturn, fun hx => (by cases hx), fun hx => (by cases hx), fun hx => (by cases hx)⟩,
      fun j hj => hreturn.circuit hj⟩
  | condition =>
    have hgone : t.classGone g k = if t.st.regs.hold then t else t.startReturn g k := by
      unfold Turn.classGone
      rw [e]
      dsimp only
      rw [hkind]
    by_cases hh : t.st.regs.hold = true
    · rw [if_pos hh] at hgone
      rw [hgone, hh]
      exact ⟨⟨.refl .., fun hx => (by cases hx), fun _ _ => ⟨rfl, rfl⟩, fun _ hx => (by cases hx),
        fun _ hx => (by cases hx)⟩, hstay⟩
    · rw [if_neg hh] at hgone
      by_cases hd : t.st.regs.returnDelay = 0
      · have hnow : t.startReturn g k = t.enterReturning g k := if_pos hd
        rw [hgone, hnow]
        exact ⟨⟨hothers, fun hx => (by cases hx), fun _ hx => absurd hx hh, fun _ _ _ => hreturn,
          fun _ _ hx => absurd hd hx⟩, fun j hj => hreturn.circuit hj⟩
      · have hlater : t.startReturn g k = t.change fun s => s.setTimer k (some (s.regs.returnDelay.toNat * Config.per5s)) :=
          if_neg hd
        rw [hgone, hlater]
        refine ⟨⟨?_, fun hx => (by cases hx), fun _ hx => absurd hx hh, fun _ _ hx => absurd hx hd, fun _ _ _ => ?_⟩,
          fun j hj => hstay j hj⟩
        · exact ⟨fun j hj => by simp [State.setTimer, Ne.symm hj], fun i _ => rfl, rfl, rfl, rfl⟩
        · exact ⟨rfl, by simp [State.setTimer, Config.per5s]⟩

theorem Turn.classGone_fell (h : t.st.Lonely g k) (hk : (t.st.engine g).state.circuit = some k) :
    t.st.Fell (t.classGone g k).st g k ∧ ∀ j, ((t.classGone g k).st.engine g).state.circuit = some j → j = k := by
  obtain ⟨hreturn, hothers⟩ := Turn.enterReturning_lonely h
  have hstay : ∀ j, (t.st.engine g).state.circuit = some j → j = k := fun j hj => by
    rw [hk] at hj
    exact (Option.some.inj hj).symm
  rcases EngineState.circuit_eq_some hk with e | e | e | e
  · have hgone : t.classGone g k = t.drop g k := by
      unfold Turn.classGone
      rw [e]
    obtain ⟨hdrop, hothers⟩ := Turn.drop_lonely h
    rw [hgone]
    refine ⟨.of_state e hothers (fun _ => hdrop) (fun hx => by cases hx) fun hx => (by cases hx), fun j hj => ?_⟩
    rw [Turn.drop_engine] at hj
    cases hj
  · have hgone : t.classGone g k = t.enterReturning g k := by
      unfold Turn.classGone
      rw [e]
    rw [hgone]
    exact ⟨.of_state e hothers (fun hx => by cases hx) (fun _ => hreturn) fun hx => (by cases hx),
      fun j hj => hreturn.circuit hj⟩
  · obtain ⟨h1, h2⟩ := Turn.carryingGone h e hstay
    exact ⟨.of_state e h1.1 (fun hx => by cases hx) (fun hx => by cases hx) fun _ => h1.2, h2⟩
  · have hgone : t.classGone g k = t := by
      unfold Turn.classGone
      rw [e]
    rw [hgone]
    exact ⟨.of_state e (.refl ..) (fun hx => by cases hx) (fun hx => by cases hx) fun hx => (by cases hx), hstay⟩

/-- The reaction of a held record to the loss of its class: the contest behind it changes nothing. -/
theorem Turn.reactHeld_fell (h : t.st.Lonely g k) (hk : (t.st.engine g).state.circuit = some k) {before : Nat}
    (hb : before ≠ 0) : t.st.Fell (t.reactHeld g k before).st g k := by
  obtain ⟨hfell, hcirc⟩ := Turn.classGone_fell h hk
  have hgone : (t.classGone g k).st.Lonely g k :=
    h.of_sources (State.sources_of_still (Turn.still_classGone ..)) (hfell.1.2.2.1.trans h.queue)
  unfold Turn.reactHeld
  rw [if_pos h.zero, if_neg hb, hgone.contest hcirc]
  exact hfell

/-! ## New sources -/

theorem State.resource_of_zero (s : State) (k : Circuit) (r : Record) (hz : max r.localClass (s.farClass k) = 0) :
    s.resource k r = s.setRecord k r := by
  have hz' : (s.setRecord k r).effClass k = 0 := by
    unfold State.effClass State.localClass
    rw [State.setRecord_record_same, State.setRecord_farClass]
    exact hz
  unfold State.resource State.updateKind
  rw [if_pos hz']

/-- A change of sources that leaves a held circuit without a class. -/
theorem State.sourceChange_fell (a : State) {f : Record → Record} (hr : (a.record k).changed (f (a.record k)) = r)
    (hstate : r.state = .assigned g) (hz : max r.localClass (a.farClass k) = 0) (hne : a.effClass k ≠ 0)
    (hk : (a.engine g).state.circuit = some k) (hq : a.queue = []) (hf : ∀ j c, a.farClaim g = some (j, c) → j = k)
    (before : State) :
    (a.setRecord k r).Fell ((a.turn.sourceChange k f).settle before) g k
      ∧ ((a.turn.sourceChange k f).settle before).queue = [] := by
  have hres := a.resource_of_zero k r hz
  have hturn : a.turn.sourceChange k f = (a.turn.change fun s => s.setRecord k r).reactHeld g k (a.effClass k) := by
    rw [Turn.sourceChange_eq, State.turn_st, hr]
    have hchange : (a.turn.change fun s => s.resource k r) = a.turn.change fun s => s.setRecord k r := by
      show Turn.mk (a.resource k r) _ _ _ = Turn.mk (a.setRecord k r) _ _ _
      rw [hres]
    rw [hchange]
    unfold Turn.react
    rw [Turn.change_st, State.turn_st, State.setRecord_record_same, hstate]
  have hlonely : (a.turn.change fun s => s.setRecord k r).st.Lonely g k := by
    refine ⟨hq, ?_, fun j c hj => hf j c (by simpa using hj)⟩
    rw [Turn.change_st, State.turn_st]
    unfold State.effClass State.localClass
    rw [State.setRecord_record_same, State.setRecord_farClass]
    exact hz
  have hfell := Turn.reactHeld_fell hlonely (by simpa using hk) hne
  rw [← hturn] at hfell
  have hqueue : (a.turn.sourceChange k f).st.queue = [] := hfell.1.2.2.1.trans hq
  obtain ⟨l, hl⟩ := Turn.settle_of_idle (t := a.turn.sourceChange k f) (Turn.passStep_of_empty (by
    rw [Turn.flush_st, State.postAll_queue, Turn.flush_st, State.postAll_queue, hqueue])) before
  rw [hl]
  exact ⟨hfell.alike (State.alike_postAll _ l), (State.postAll_queue ..).trans hqueue⟩

theorem State.alike_finish_self (x : State) : x.Alike x.finish := x.alike_finish []

/-- The held circuit of the statement: ASSIGNED with a class, nothing waiting, the far end claiming no other. -/
structure State.Alone (s : State) (g : Spare) (k : Circuit) : Prop where
  assigned : (s.record k).state = .assigned g
  circuit : (s.engine g).state.circuit = some k
  class_ne : s.effClass k ≠ 0
  queue : s.queue = []
  far : ∀ j f, s.farClaim g = some (j, f) → j = k

theorem State.effClass_eq (s : State) (k : Circuit) :
    s.effClass k = max (max (s.record k).condClass (s.record k).swClass) (s.farClass k) := rfl

/-- CLEAR of the only class. -/
theorem State.Alone.clear (h : s.Alone g k) (hfar : s.farClass k = 0) (hc : (s.record k).condClass = 0) :
    (s.setRecord k { s.record k with swClass := 0, declined := false }).Fell
      (((s.answered 0x03).sourced k 0 false).settle (s.answered 0x03)).finish g k := by
  have hr : (s.record k).changed ((s.record k).software 0 false)
      = { s.record k with swClass := 0, declined := false } := by
    unfold Record.changed Record.software
    rw [Bool.and_false]
    split <;> rfl
  have hfell := (s.answered 0x03).sourceChange_fell (g := g) (k := k) (f := Record.software 0 false) hr h.assigned
    (by show max (max (s.record k).condClass 0) (s.farClass k) = 0
        rw [hc, hfar]
        rfl) h.class_ne h.circuit h.queue h.far (s.answered 0x03)
  exact hfell.1.alike (State.alike_finish_self _)

/-- The write of cond_class 0 to a circuit that has no other class. -/
theorem State.Alone.uncondition (h : s.Alone g k) (hfar : s.farClass k = 0) (hsw : (s.record k).swClass = 0)
    {a : State} (ha : a.falling = s.falling) :
    (s.setRecord k { s.record k with condClass := 0, declined := false }).Fell (a.writeCondClass k 0) g k
      ∧ (a.writeCondClass k 0).queue = [] := by
  have same : ∀ {α : Type} (f : State → α), (∀ x : State, f x.falling = f x) → f a = f s := fun f hf =>
    State.same_of_falling f hf ha
  have hrec : ∀ j, a.record j = s.record j := fun j => same (fun x => x.record j) fun _ => rfl
  have hclaim : ∀ i, a.farClaim i = s.farClaim i := fun i => same (fun x => x.farClaim i) fun _ => rfl
  have hfarc : a.farClass k = s.farClass k := same (fun x => x.farClass k) fun _ => rfl
  have heff : a.effClass k = s.effClass k := same (fun x => x.effClass k) fun _ => rfl
  have heng : a.engine g = s.engine g := same (fun x => x.engine g) fun _ => rfl
  have hqueue : a.queue = s.queue := same State.queue fun _ => rfl
  have hc : (s.record k).condClass ≠ 0 := fun hc => h.class_ne (by rw [State.effClass_eq, hc, hsw, hfar]; rfl)
  have hr : (a.record k).changed { a.record k with condClass := 0 }
      = { s.record k with condClass := 0, declined := false } := by
    unfold Record.changed
    rw [hrec k, if_neg]
    show ¬ max (s.record k).condClass (s.record k).swClass = max 0 (s.record k).swClass
    rw [hsw]
    simpa using hc
  have hfell := a.sourceChange_fell (g := g) (k := k) (f := fun r => { r with condClass := 0 }) hr h.assigned
    (by show max (max 0 (s.record k).swClass) (a.farClass k) = 0
        rw [hsw, hfarc, hfar]
        rfl) (by rw [heff]; exact h.class_ne) (by rw [heng]; exact h.circuit) (hqueue.trans h.queue)
    (fun j c hj => h.far j c (by rwa [hclaim] at hj)) a
  unfold State.writeCondClass
  rw [if_neg (by rw [hrec]; exact hc)]
  exact ⟨hfell.1.of_falling (State.falling_setRecord ha k _), hfell.2⟩

/-- The clearing of DOWN on a line that is not IMPAIRED. -/
theorem State.Alone.clearExpiry (h : s.Alone g k) (hfar : s.farClass k = 0) (hsw : (s.record k).swClass = 0)
    (hi : (s.condition (workPort k)).impaired = false) :
    (s.setRecord k { s.record k with condClass := 0, declined := false }).Fell
      ((s.setCondition (workPort k) { s.condition (workPort k) with clearTimer := none }).setDown (workPort k) false).finish
      g k := by
  set c := s.setCondition (workPort k) { s.condition (workPort k) with clearTimer := none } with hc
  set d := c.setCondition (workPort k) { c.condition (workPort k) with down := false } with hd
  have hset : c.setDown (workPort k) false = (d.post (conditionEvent d (workPort k) 0)).writeCondClass k 0 := by
    have hcls : ((d.post (conditionEvent d (workPort k) 0)).condition (workPort k)).cls = 0 := by
      rw [State.post_condition, hd, State.setCondition_condition_same, hc, State.setCondition_condition_same]
      unfold Condition.cls
      dsimp only
      rw [hi]
      rfl
    unfold State.setDown
    dsimp only
    rw [portUse_workPort]
    dsimp only
    rw [hcls]
  rw [hset]
  refine State.Fell.alike (h.uncondition hfar hsw ?_).1 (State.alike_finish_self _)
  exact (State.falling_post ..).trans rfl

/-! ## The interval end -/

/-- An interval end at which the port's IMPAIRED stays. -/
def State.Unmoved (s : State) (p : Port) : Prop :=
  (s.condition p).impairedAfter (s.monitor p).errored s.regs.setThreshold s.regs.clearThreshold = (s.condition p).impaired

/-- Ports whose IMPAIRED stays have their counts restarted, and nothing else happens. -/
theorem State.endIntervals_unmoved (l : List Port) (hn : l.Nodup) (s : State) (h : ∀ p ∈ l, s.Unmoved p) :
    ∃ m c, l.foldl State.endInterval s = { s with monitors := m, conditions := c }
      ∧ ∀ p, p ∉ l → tabGet m p = s.monitor p ∧ tabGet c p = s.condition p := by
  induction l generalizing s with
  | nil => exact ⟨s.monitors, s.conditions, rfl, fun _ _ => ⟨rfl, rfl⟩⟩
  | cons p l ih =>
    obtain ⟨hp, hn⟩ := List.nodup_cons.mp hn
    have hstep : s.endInterval p = (s.setMonitor p { s.monitor p with errored := 0 }).setCondition p
        { s.condition p with downSeen := (s.condition p).rawDown } := if_pos (h p (by simp))
    have hkeep : ∀ q, q ≠ p → (s.endInterval p).monitor q = s.monitor q ∧ (s.endInterval p).condition q = s.condition q :=
      fun q hq => by
        rw [hstep]
        simp [Ne.symm hq]
    have hregs : (s.endInterval p).regs = s.regs := by
      rw [hstep]
      rfl
    obtain ⟨m, c, he, hmc⟩ := ih hn (s.endInterval p) fun q hq => by
      have hqp : q ≠ p := fun e => hp (e ▸ hq)
      unfold State.Unmoved
      rw [(hkeep q hqp).1, (hkeep q hqp).2, hregs]
      exact h q (by simp [hq])
    refine ⟨m, c, ?_, fun q hq => ?_⟩
    · rw [List.foldl_cons, he, hstep]
      rfl
    · obtain ⟨hqp, hql⟩ : q ≠ p ∧ q ∉ l := by simpa using hq
      exact ⟨(hmc q hql).1.trans (hkeep q hqp).1, (hmc q hql).2.trans (hkeep q hqp).2⟩

theorem State.Alone.endInterval (h : s.Alone g k) (hfar : s.farClass k = 0) (hsw : (s.record k).swClass = 0)
    {a : State} (ha : a.falling = s.falling) (hi : (a.condition (workPort k)).impaired = true)
    (hd : (a.condition (workPort k)).down = false) (hseen : (a.condition (workPort k)).downSeen = false)
    (he : (a.monitor (workPort k)).errored < a.regs.clearThreshold.toNat) :
    (s.setRecord k { s.record k with condClass := 0, declined := false }).Fell (a.endInterval (workPort k)) g k
      ∧ (∀ p, p ≠ workPort k → (a.endInterval (workPort k)).monitor p = a.monitor p
          ∧ (a.endInterval (workPort k)).condition p = a.condition p)
      ∧ (a.endInterval (workPort k)).regs.setThreshold = a.regs.setThreshold
      ∧ (a.endInterval (workPort k)).regs.clearThreshold = a.regs.clearThreshold := by
  set p := workPort k with hp
  set b := (a.setMonitor p { a.monitor p with errored := 0 }).setCondition p
    { a.condition p with downSeen := (a.condition p).rawDown } with hb
  have hafter : (a.condition p).impairedAfter (a.monitor p).errored a.regs.setThreshold a.regs.clearThreshold = false := by
    unfold Condition.impairedAfter
    rw [hseen, hi]
    simpa using he
  have hstep : a.endInterval p = b.setImpaired p false := by
    unfold State.endInterval
    dsimp only
    rw [hafter, if_neg (by rw [hi]; simp)]
  set d := b.setCondition p { b.condition p with impaired := false } with hdd
  have hset : b.setImpaired p false = (d.post (conditionEvent d p 1)).writeCondClass k 0 := by
    have hcls : ((d.post (conditionEvent d p 1)).condition p).cls = 0 := by
      rw [State.post_condition, hdd, State.setCondition_condition_same, hb, State.setCondition_condition_same]
      unfold Condition.cls
      dsimp only
      rw [hd]
      rfl
    unfold State.setImpaired
    dsimp only
    rw [hp, portUse_workPort]
    dsimp only
    rw [← hp, hcls]
  have hlines : (a.endInterval p).lines = d.lines := by
    rw [hstep, hset, State.lines_writeCondClass]
    exact State.lines_of_base (State.base_post ..)
  have hfalling : (d.post (conditionEvent d p 1)).falling = s.falling := by
    rw [State.falling_post, hdd, State.falling_setCondition, hb, State.falling_setCondition, State.falling_setMonitor]
    exact ha
  refine ⟨?_, fun q hq => ⟨?_, ?_⟩, ?_, ?_⟩
  · rw [hstep, hset]
    exact (h.uncondition hfar hsw hfalling).1
  · rw [State.same_of_lines (fun x => x.monitor q) (fun _ => rfl) hlines]
    simp [hdd, hb, Ne.symm hq]
  · rw [State.same_of_lines (fun x => x.condition q) (fun _ => rfl) hlines]
    simp [hdd, hb, Ne.symm hq]
  · rw [State.same_of_lines (fun x => x.regs.setThreshold) (fun _ => rfl) hlines]
    simp [hdd, hb]
  · rw [State.same_of_lines (fun x => x.regs.clearThreshold) (fun _ => rfl) hlines]
    simp [hdd, hb]

theorem allPorts_nodup : allPorts.Nodup := by decide

theorem mem_allPorts (p : Port) : p ∈ allPorts := by revert p; decide

/-- The clearing of IMPAIRED, at the end of an interval that changes no other port's. -/
theorem State.Alone.intervalEnds (h : s.Alone g k) (hfar : s.farClass k = 0) (hsw : (s.record k).swClass = 0)
    (hi : (s.condition (workPort k)).impaired = true) (hd : (s.condition (workPort k)).down = false)
    (hseen : (s.condition (workPort k)).downSeen = false)
    (he : (s.monitor (workPort k)).errored < s.regs.clearThreshold.toNat)
    (hother : ∀ p, p ≠ workPort k → s.Unmoved p) :
    (s.setRecord k { s.record k with condClass := 0, declined := false }).Fell s.intervalEnds g k := by
  obtain ⟨l1, l2, hl⟩ := List.append_of_mem (mem_allPorts (workPort k))
  have hn : (l1 ++ workPort k :: l2).Nodup := hl ▸ allPorts_nodup
  obtain ⟨hn1, hn2, hdis⟩ := List.nodup_append.mp hn
  obtain ⟨hk2, hn2⟩ := List.nodup_cons.mp hn2
  have hk1 : workPort k ∉ l1 := fun hm => hdis _ hm _ (by simp) rfl
  obtain ⟨m, c, e1, hmc⟩ := State.endIntervals_unmoved l1 hn1 s fun p hp => hother p fun e => hk1 (e ▸ hp)
  set a := l1.foldl State.endInterval s with ha
  have hport : a.monitor (workPort k) = s.monitor (workPort k) ∧ a.condition (workPort k) = s.condition (workPort k) := by
    rw [e1]
    exact hmc _ hk1
  obtain ⟨hfell, hkeep, hset, hclear⟩ := h.endInterval hfar hsw (a := a) (by rw [e1]; rfl) (by rw [hport.2]; exact hi)
    (by rw [hport.2]; exact hd) (by rw [hport.2]; exact hseen) (by rw [hport.1, e1]; exact he)
  have hothers : ∀ p, p ∉ l1 → a.monitor p = s.monitor p ∧ a.condition p = s.condition p := fun p hp => by
    rw [e1]
    exact hmc p hp
  obtain ⟨m', c', e2, _⟩ := State.endIntervals_unmoved l2 hn2 (a.endInterval (workPort k)) fun p hp => by
    have hpk : p ≠ workPort k := fun e => hk2 (e ▸ hp)
    have hp1 : p ∉ l1 := fun hm => hdis _ hm _ (by simp [hp]) rfl
    unfold State.Unmoved
    rw [(hkeep p hpk).1, (hkeep p hpk).2, hset, hclear, (hothers p hp1).1, (hothers p hp1).2]
    have hregs : a.regs = s.regs := by rw [e1]
    rw [hregs]
    exact hother p hpk
  have hfold : allPorts.foldl State.endInterval s = { a.endInterval (workPort k) with monitors := m', conditions := c' } := by
    rw [hl, List.foldl_append, List.foldl_cons, ← ha, e2]
  unfold State.intervalEnds
  rw [hfold]
  refine hfell.alike (State.Alike.trans ?_ (State.alike_finish_self _))
  exact ⟨rfl, rfl, rfl, rfl, rfl, rfl, fun _ => rfl⟩

end Falls

end Sys2Proof.Machine
end

