-- ==== Sys2Proof/Proofs/FarFalls.lean ====
section
/-! Proofs: the fall of eff_class of a held circuit to 0 by a far word that no longer claims it. -/

namespace Sys2Proof.Machine

/-! ## Words that are the same -/

theorem extract_of_masked {v w m : Half} {a n : Nat} (h : v &&& m = w &&& m)
    (hm : m.extractLsb' a n = BitVec.allOnes n) : v.extractLsb' a n = w.extractLsb' a n := by
  have e := congrArg (fun x : Half => x.extractLsb' a n) h
  simp only [BitVec.extractLsb'_and, hm, BitVec.and_allOnes] at e
  exact e

theorem comparedBits_kind (w : Half) : (comparedBits w).extractLsb' 12 4 = BitVec.allOnes 4 := by
  unfold comparedBits
  split <;> decide

theorem sameWord_kind {v w : Half} (h : sameWord v w = true) : wordKind v = wordKind w := by
  have he : v &&& comparedBits v = w &&& comparedBits w := by simpa [sameWord] using h
  have e := congrArg (fun x : Half => x.extractLsb' 12 4) he
  simp only [BitVec.extractLsb'_and, comparedBits_kind, BitVec.and_allOnes] at e
  exact congrArg BitVec.toNat e

/-- Words that are the same for a qualifier say the same. -/
theorem sameWord_spanWord {v w : Half} (h : sameWord v w = true) : spanWord v = spanWord w := by
  have hk := sameWord_kind h
  have hm : comparedBits v = comparedBits w := by
    unfold comparedBits
    rw [hk]
  have he : v &&& comparedBits w = w &&& comparedBits w := by
    rw [← hm]
    simpa [sameWord, hm] using h
  have hcircuit : (comparedBits w).extractLsb' 8 4 = BitVec.allOnes 4 → namedCircuit v = namedCircuit w := fun hx => by
    have e : wordCircuit v = wordCircuit w := congrArg BitVec.toNat (extract_of_masked he hx)
    unfold namedCircuit
    simp only [e]
  have hclass : (comparedBits w).extractLsb' 5 3 = BitVec.allOnes 3 → wordClass v = wordClass w := fun hx =>
    congrArg BitVec.toNat (extract_of_masked he hx)
  have hdetail : (comparedBits w).extractLsb' 2 3 = BitVec.allOnes 3 → wordDetail v = wordDetail w := fun hx =>
    congrArg BitVec.toNat (extract_of_masked he hx)
  unfold spanWord
  rw [hk]
  unfold comparedBits at hcircuit hclass hdetail
  split
  · rfl
  · next e =>
    rw [e] at hcircuit hclass
    rw [hcircuit (by decide), hclass (by decide)]
  · next e =>
    rw [e] at hcircuit hclass
    rw [hcircuit (by decide), hclass (by decide)]
  · next e =>
    rw [e] at hcircuit
    rw [hcircuit (by decide)]
  · next e =>
    rw [e] at hcircuit
    rw [hcircuit (by decide)]
  · next e =>
    rw [e] at hdetail
    rw [hdetail (by decide)]
  · rfl
  · rfl
  · rfl

theorem sameWord_self (w : Half) : sameWord w w = true := by simp [sameWord]

theorem foldl_xor_eq (f : Nat → Bool) (l : List Nat) (b : Bool) :
    l.foldl (fun odd i => odd ^^ f i) b = (b ^^ decide ((l.filter f).length % 2 = 1)) := by
  induction l generalizing b with
  | nil => simp
  | cons i l ih =>
    rw [List.foldl_cons, ih, List.filter_cons]
    cases hf : f i with
    | false => simp
    | true =>
      rw [if_pos rfl, List.length_cons]
      rcases Nat.mod_two_eq_zero_or_one (l.filter f).length with e | e
      · have e' : ((l.filter f).length + 1) % 2 = 1 := by omega
        simp [e, e']
      · have e' : ((l.filter f).length + 1) % 2 = 0 := by omega
        simp [e, e']

theorem oddOnes_eq (w : Half) : oddOnes w = decide (onesOf w % 2 = 1) := by
  unfold oddOnes onesOf
  rw [foldl_xor_eq]
  simp

section FarFalls

variable {s b x y : State} {t : Turn} {g : Spare} {j k : Circuit} {c : Nat} {w : Half} {said : SpanWord}

/-! ## The rest of the turn -/

/-- A record that is QUIET or held. -/
def RequestState.Settled (r : RequestState) : Prop := r = .quiet ∨ ∃ o, r = .assigned o ∨ r = .releasing o

/-- Without a class a record that settles stays settled. -/
theorem Upkeep.settled (b : State) (k : Circuit) (hz : b.effClass k = 0) :
    Upkeep.Reacting b k fun r => r.state.Settled where
  grant := fun _ g _ => .inr ⟨g, .inl rfl⟩
  rest := fun _ _ => .inl (State.restingState_of_zero hz)
  returns := fun _ g _ => .inr ⟨g, .inr rfl⟩
  timer := fun _ _ hr => hr

/-- The offer of a claim without a class, to a record that has settled, does nothing. -/
theorem Turn.offerStanding_lonely (h : t.st.Lonely g k) (hs : (t.st.record k).state.Settled) :
    (t.offerStanding g).st = t.st := by
  rw [Turn.offerStanding_eq]
  split
  · next x hx =>
    obtain rfl : x.1 = k := h.far x.1 x.2 hx
    split
    · have hoffer : t.offer g x.1 = t.noteOffer g := by
        rcases t.offer_cases g x.1 with ⟨e, _⟩ | ⟨_, _, hz, _⟩
        · exact e
        · exact absurd h.zero hz
      rw [hoffer]
      rcases hs with hq | ⟨o, ho⟩
      · rw [Turn.afterOffer_unheld (t.noteOffer g) g (by rw [Turn.noteOffer_st, hq]; rfl)]
        unfold Turn.reactUnheld
        dsimp only
        rw [Turn.noteOffer_st, State.restingState_of_zero h.zero, if_pos ⟨hq, by simp⟩]
        rfl
      · rw [Turn.afterOffer_held (t.noteOffer g) g ho]
        rfl
    · rfl
  · rfl

/-- Nothing is left to react for a QUIET record without a class. -/
theorem Turn.reactLater_quiet (h : t.st.Lonely g k) (hq : (t.st.record k).state = .quiet) : t.reactLater b g k = t := by
  unfold Turn.reactLater
  split
  · rfl
  · rw [hq]
    dsimp only
    split
    · rfl
    · unfold Turn.reactUnheld
      dsimp only
      rw [State.restingState_of_zero h.zero, if_pos ⟨hq, by simp⟩]

theorem Turn.reacted_single (t : Turn) (b : State) (g : Spare) (w : Half) (hb : b.farClaim g = some (k, c))
    (hw : ∀ j d, claimOf (some w) = some (j, d) → j = k) : t.reacted b g (some w) = t.reactLater b g k := by
  have haff : affected (b.farClaim g) (claimOf (some w)) = [k] := by
    rw [hb]
    cases hc : claimOf (some w) with
    | none => rfl
    | some x =>
      obtain rfl := hw x.1 x.2 hc
      simp [affected]
  unfold Turn.reacted
  rw [haff]
  rfl

/-- After the action on a word that takes the class away, a drop stands, and a circuit that is still held falls. -/
theorem Turn.concluded_fell (hx : x.Lonely g k) (hr : (x.record k).state = .assigned g)
    (hk : (x.engine g).state.circuit = some k) (hb : b.farClaim g = some (k, c)) (hne : b.effClass k ≠ 0)
    (hw : ∀ j d, claimOf (some w) = some (j, d) → j = k) :
    x.Fell (x.turn.concluded b g w).st g k
      ∧ (∀ v : Turn, v = x.turn.drop g k → (v.concluded b g w).st = v.st) := by
  have hstate : x.turn.reactLater b g k = x.turn.reactHeld g k (b.effClass k) := by
    unfold Turn.reactLater
    rw [if_neg (by rw [State.turn_st, hx.zero]; exact hne), State.turn_st, hr]
  have hfell : x.Fell (x.turn.reactHeld g k (b.effClass k)).st g k := Turn.reactHeld_fell (t := x.turn) hx hk hne
  refine ⟨?_, fun v hv => ?_⟩
  · unfold Turn.concluded
    rw [Turn.reacted_single _ _ _ _ hb hw, hstate, Turn.offerStanding_lonely (k := k)]
    · exact hfell
    · exact hx.of_sources (State.sources_of_still (Turn.still_reactHeld ..)) (hfell.1.2.2.1.trans hx.queue)
    · have hup : (x.turn.react k (b.effClass k)).Upkept x k fun r => r.state.Settled :=
        Turn.Upkept.react (Upkeep.settled x k hx.zero) ⟨rfl, .inr ⟨g, .inl hr⟩⟩ k _
      have hreact : x.turn.react k (b.effClass k) = x.turn.reactHeld g k (b.effClass k) := by
        unfold Turn.react
        rw [State.turn_st, hr]
      rw [hreact] at hup
      exact hup.2
  · obtain ⟨hreturned, hothers⟩ := Turn.drop_lonely (t := x.turn) hx
    rw [← hv] at hreturned hothers
    have hvl : v.st.Lonely g k := by
      refine hx.of_sources ?_ (hothers.2.2.1.trans hx.queue)
      rw [hv]
      exact State.sources_of_still (Turn.still_drop ..)
    have hq : (v.st.record k).state = .quiet := by rw [hreturned.2.1]
    unfold Turn.concluded
    rw [Turn.reacted_single _ _ _ _ hb hw, Turn.reactLater_quiet hvl hq]
    exact Turn.offerStanding_lonely hvl (.inl hq)

/-! ## The whole turn -/

/-- The word that takes the class of circuit k away: VACANT, UNLOOP, or CARRY at class 0. -/
def SpanWord.Takes (w : SpanWord) (k : Circuit) : Prop := w = .vacant ∨ w = .unloop ∨ w = .carry k 0

theorem SpanWord.Takes.claim (h : said.Takes k) (hs : spanWord w = some said) :
    ∀ j d, claimOf (some w) = some (j, d) → j = k ∧ d = 0 := by
  intro j d hc
  rw [claimOf_eq_claimed (f := some w) (said := said) (by simpa using hs)] at hc
  rcases h with rfl | rfl | rfl
  · cases hc
  · cases hc
  · cases hc
    exact ⟨rfl, rfl⟩

theorem SpanWord.Takes.not_barred (h : said.Takes k) : ¬ ∃ d, said = .barred d := by
  rcases h with rfl | rfl | rfl <;> simp

/-- The state in which the engine acts on a word that takes the class away. -/
def State.heardFrom (s : State) (g : Spare) (w : Half) : State := (s.post (wordEvent .farWord g w)).setFar g (some w)

/-- The first reactions leave a held record without a decline hold as it is. -/
theorem State.told_eq (hr : (s.record k).state = .assigned g) (hd : (s.record k).declined = false)
    (hf : s.farClaim g = some (k, c)) (hw : ∀ j d, claimOf (some w) = some (j, d) → j = k)
    (hz : (s.heardFrom g w).effClass k = 0) : s.told g w = (s.heardFrom g w).turn := by
  have hfar : (s.post (wordEvent .farWord g w)).farClaim g = some (k, c) :=
    (State.farClaim_of_sources (State.sources_post ..) g).trans hf
  have haff : affected ((s.post (wordEvent .farWord g w)).farClaim g) (claimOf (some w)) = [k] := by
    rw [hfar]
    cases hc : claimOf (some w) with
    | none => rfl
    | some x =>
      obtain rfl := hw x.1 x.2 hc
      simp [affected]
  have hkind : (s.heardFrom g w).updateKind k = s.heardFrom g w := by
    unfold State.updateKind
    rw [if_pos hz]
  have hrec : (s.heardFrom g w).record k = s.record k := by
    unfold State.heardFrom
    rw [State.setFar_record, State.post_record]
  have hstep : ∀ (b : State) (claimed : Bool), (s.heardFrom g w).turn.refreshClass b g claimed k = (s.heardFrom g w).turn := by
    intro b claimed
    have hclear : ((s.heardFrom g w).updateKind k).cleared k claimed = s.heardFrom g w := by
      rw [hkind, State.cleared_eq _ _ (by rw [hrec]; exact hd)]
    have hsame : ((s.heardFrom g w).turn.change fun s => (s.updateKind k).cleared k claimed) = (s.heardFrom g w).turn := by
      exact congrArg State.turn hclear
    rw [Turn.refreshClass_eq]
    dsimp only
    rw [hsame, State.turn_st, hrec, hr]
  unfold State.told Turn.refreshed
  rw [Turn.change_st, State.turn_st, haff]
  exact hstep _ _

/-- A word that takes the class of a held circuit away. -/
theorem State.take_fell (hr : (s.record k).state = .assigned g) (hk : (s.engine g).state.circuit = some k)
    (hne : s.effClass k ≠ 0) (hd : (s.record k).declined = false) (hf : s.farClaim g = some (k, c))
    (hx : (s.heardFrom g w).Lonely g k) (hempty : (s.engine g).reasons.isEmpty = true) (hs : spanWord w = some said)
    (ht : said.Takes k) (hb : said = .carry k 0 → (s.engine g).state ≠ .bridged k) :
    (s.heardFrom g w).Fell (s.turn.take g w said).st g k := by
  have hw : ∀ j d, claimOf (some w) = some (j, d) → j = k := fun j d hc => (ht.claim hs j d hc).1
  set x := s.heardFrom g w with hxe
  have hxr : x.record k = s.record k := by rw [hxe, State.heardFrom, State.setFar_record, State.post_record]
  have hxg : x.engine g = s.engine g := by rw [hxe, State.heardFrom, State.setFar_engine, State.post_engine]
  have htold : s.told g w = x.turn := State.told_eq hr hd hf hw hx.zero
  have hheard : s.heard g w said = x.turn.revokeIfGone g := by
    show ((s.told g w).takeReasons g said).revokeIfGone g = _
    rw [htold, Turn.takeReasons_same]
    rw [State.turn_st, hxg]
    exact Reasons.taken_of_empty hempty ht.not_barred
  have hbf : (s.post (wordEvent .farWord g w)).farClaim g = some (k, c) :=
    (State.farClaim_of_sources (State.sources_post ..) g).trans hf
  have hbne : (s.post (wordEvent .farWord g w)).effClass k ≠ 0 := by
    rwa [State.effClass_of_sources (State.sources_post ..)]
  obtain ⟨hstay, hdrop⟩ := Turn.concluded_fell (w := w) hx (by rw [hxr]; exact hr) (by rw [hxg]; exact hk) hbf hbne hw
  obtain ⟨hreturned, hothers⟩ := Turn.drop_lonely (t := x.turn) hx
  have dropped : s.acted g w said = x.turn.drop g k → (s.turn.take g w said).st = (x.turn.drop g k).st := fun e => by
    rw [State.take_eq, e]
    exact hdrop _ rfl
  have stayed : s.acted g w said = x.turn → x.Fell (s.turn.take g w said).st g k := fun e => by
    rw [State.take_eq, e]
    exact hstay
  have hrevoke : ∀ e : EngineState, x.turn.st.engine g = s.engine g → (s.engine g).state = e → e ≠ .preparing k →
      e.circuit = some k → s.heard g w said = x.turn := by
    intro e _ he hn hc
    rw [hheard]
    unfold Turn.revokeIfGone
    split
    · next i hi =>
      rw [State.turn_st, hxg, he] at hi
      subst hi
      obtain rfl : i = k := Option.some.inj hc
      exact absurd rfl hn
    · rfl
  rcases EngineState.circuit_eq_some hk with e | e | e | e
  · have hgone : s.heard g w said = x.turn.drop g k := by
      rw [hheard]
      unfold Turn.revokeIfGone
      rw [State.turn_st, hxg, e]
      exact if_pos hx.zero
    have hact : s.acted g w said = x.turn.drop g k := by
      unfold State.acted
      rw [hgone, Turn.act_of_free (by rw [Turn.drop_engine])]
      rcases ht with rfl | rfl | rfl <;> rfl
    rw [dropped hact]
    exact .of_state (e := .preparing k) (by rw [hxg]; exact e) hothers (fun _ => hreturned) (fun hy => by cases hy)
      (fun hy => by cases hy)
  · refine stayed ?_
    unfold State.acted
    rw [hrevoke _ hxg e (by simp) rfl, Turn.act_of_bridged (by rw [State.turn_st, hxg]; exact e)]
    rcases ht with rfl | rfl | rfl
    · rfl
    · rfl
    · exact absurd e (hb rfl)
  · refine stayed ?_
    unfold State.acted
    rw [hrevoke _ hxg e (by simp) rfl, Turn.act_of_carrying (by rw [State.turn_st, hxg]; exact e)]
    rcases ht with rfl | rfl | rfl
    · rfl
    · rfl
    · exact if_pos rfl
  · have hact := Turn.act_of_returning (t := x.turn) (k := k) (by rw [State.turn_st, hxg]; exact e) said
    have hreturning : ∀ {p : Prop}, EngineState.returning k = .preparing k → p := fun hy => by cases hy
    rcases ht with rfl | rfl | rfl
    · have hdone : s.acted g w .vacant = x.turn.drop g k := by
        unfold State.acted
        rw [hrevoke _ hxg e (by simp) rfl, hact]
        rfl
      rw [dropped hdone]
      exact .of_state (e := .returning k) (by rw [hxg]; exact e) hothers (fun hy => by cases hy) (fun hy => by cases hy)
        (fun hy => by cases hy)
    · refine stayed ?_
      unfold State.acted
      rw [hrevoke _ hxg e (by simp) rfl, hact]
      rfl
    · refine stayed ?_
      unfold State.acted
      rw [hrevoke _ hxg e (by simp) rfl, hact]
      exact (if_pos rfl).trans (if_neg (lt_irrefl 0))

end FarFalls

end Sys2Proof.Machine
end

