-- ==== Sys2Proof/Proofs/ClassFalls.lean ====
section
/-! Proofs: O9, the fall of eff_class of a held circuit to 0. -/

namespace Sys2Proof.Machine

section ClassFalls

variable {s x : State} {g : Spare} {k : Circuit} {c n : Nat} {w : Half} {said : SpanWord} {f : Frame}

/-! ## The far claim of a circuit without a local class -/

/-- The class of a circuit that only spare g's far end claims. -/
theorem State.farClaim_of_class (hl : s.localClass k = 0) (hne : s.effClass k ≠ 0)
    (hfar : ∀ j f, s.farClaim g = some (j, f) → j = k) (hother : ∀ h, h ≠ g → ∀ c, s.farClaim h ≠ some (k, c)) :
    ∃ c, s.farClaim g = some (k, c) ∧ c ≠ 0 := by
  have hfc : s.farClass k ≠ 0 := fun hz => hne (by
    unfold State.effClass
    rw [hl, hz]
    rfl)
  obtain ⟨h, hh⟩ := s.farClass_eq_claimed k
  rw [hh] at hfc
  cases hc : s.farClaim h with
  | none =>
    rw [hc] at hfc
    exact absurd rfl hfc
  | some y =>
    obtain ⟨j, c⟩ := y
    rw [hc] at hfc
    have hj : j = k := by
      by_contra hj
      exact hfc (if_neg hj)
    subst hj
    have hg : h = g := by
      by_contra hg
      exact hother h hg c hc
    subst hg
    exact ⟨c, hc, fun hz => hfc ((if_pos rfl).trans hz)⟩

/-- A far word that takes the class away from spare g leaves nothing of it. -/
theorem State.lonely_of_taken (hl : x.localClass k = 0) (hq : x.queue = [])
    (hg : ∀ j d, x.farClaim g = some (j, d) → j = k ∧ d = 0) (hother : ∀ h, h ≠ g → ∀ c, x.farClaim h ≠ some (k, c)) :
    x.Lonely g k := by
  refine ⟨hq, ?_, fun j d hj => (hg j d hj).1⟩
  obtain ⟨h, hh⟩ := x.farClass_eq_claimed k
  have hz : x.farClass k = 0 := by
    rw [hh]
    cases hc : x.farClaim h with
    | none => rfl
    | some y =>
      obtain ⟨j, d⟩ := y
      by_cases hj : j = k
      · subst hj
        by_cases hhg : h = g
        · subst hhg
          exact (if_pos rfl).trans (hg j d hc).2
        · exact absurd hc (hother h hhg d)
      · exact if_neg hj
  unfold State.effClass
  rw [hl, hz]
  rfl

/-! ## The judged frame -/

/-- The qualifier that has settled on a word. -/
def Qualifier.settledOn (q : Qualifier) (w : Half) : Qualifier :=
  { q with candidate := some w, run := min (q.run + 1) Config.runCap, settled := true }

theorem Qualifier.received_candidate {q : Qualifier} (h : q.candidate = some w) :
    q.received w = { q with candidate := some w, run := min (q.run + 1) Config.runCap } := by
  obtain ⟨candidate, run, settled, far⟩ := q
  obtain rfl : candidate = some w := h
  exact if_pos (sameWord_self w)

/-- A good word that settles its qualifier and differs from the current far word is taken. -/
theorem State.qualifyGood_takes (hodd : onesOf w % 2 = 1) (hs : spanWord w = some said) (ho : wordOrigin w ≠ s.role)
    (hcand : (s.qualifier g).candidate = some w) (hset : (s.qualifier g).settled = false)
    (hrun : s.regs.qCount.toNat ≤ min ((s.qualifier g).run + 1) 15)
    (hnew : ∀ v, (s.qualifier g).far = some v → sameWord w v = false) :
    s.turn.qualifyGood g w = (s.setQualifier g ((s.qualifier g).settledOn w)).turn.take g w said := by
  have hrec := Qualifier.received_candidate hcand
  have hsettles : ((s.qualifier g).received w).settles s.regs.qCount = true := by
    unfold Qualifier.settles
    rw [hrec]
    simpa [hset, Config.runCap] using hrun
  have hdelivers : ((s.qualifier g).received w).delivers = some w := by
    rw [hrec]
    unfold Qualifier.delivers
    dsimp only
    cases hf : (s.qualifier g).far with
    | none => rfl
    | some v =>
      dsimp only
      rw [hnew v hf]
      rfl
  have hq : ({ (s.qualifier g).received w with settled := true } : Qualifier) = (s.qualifier g).settledOn w := by
    rw [hrec]
    rfl
  unfold Turn.qualifyGood
  rw [oddOnes_eq, decide_eq_true hodd]
  dsimp only [Bool.not_true]
  rw [if_neg (by simp), State.turn_st, if_pos hsettles, hdelivers, hq]
  show Turn.deliver (s.setQualifier g ((s.qualifier g).settledOn w)).turn g w = _
  unfold Turn.deliver
  rw [hs]
  exact if_neg ho

/-- A good frame at the position of an ALIGNED spare is judged: its word goes to the qualifier. -/
theorem State.exec_goodFrame (hr : s.inReset = false) (hm : (s.monitor (sparePort g)).state = .aligned n)
    (hgood : frameGood f = true) :
    ∃ a : State, a.falling = s.falling ∧ a.regs = s.regs ∧ exec (.frameJudged (sparePort g) f) s
      = .next (((a.turn.qualifyGood g (frameWord f)).settle a).frameBoundary (sparePort g)).finish := by
  refine ⟨(s.setMonitor (sparePort g) ((s.monitor (sparePort g)).judged n f)).carryFrame (sparePort g) f, rfl, rfl, ?_⟩
  have hexec : exec (.frameJudged (sparePort g) f) s
    = .next (s.inService fun s => s.frameReceived (sparePort g) f) := rfl
  have halign : alignmentCorrect f = true := by
    unfold frameGood at hgood
    exact (Bool.and_eq_true_iff.mp hgood).1
  rw [hexec, State.inService_out hr]
  unfold State.frameReceived
  dsimp only
  rw [hm]
  dsimp only
  rw [if_neg fun hx => absurd hx.2 (by rw [halign]; simp)]
  unfold State.judge
  dsimp only
  rw [portUse_sparePort]
  dsimp only
  unfold State.judgedOnSpare
  rw [if_pos hgood]

theorem State.alike_frameBoundary (x : State) (p : Port) : x.Alike (x.frameBoundary p) where
  records := State.frameBoundary_keeps State.records (fun _ _ => rfl) (fun _ _ => rfl) x p
  engines := State.frameBoundary_keeps State.engines (fun _ _ => rfl) (fun _ _ => rfl) x p
  queue := State.frameBoundary_keeps State.queue (fun _ _ => rfl) (fun _ _ => rfl) x p
  qualifiers := State.frameBoundary_keeps State.qualifiers (fun _ _ => rfl) (fun _ _ => rfl) x p
  outOfStep := State.frameBoundary_keeps State.outOfStep (fun _ _ => rfl) (fun _ _ => rfl) x p
  role := State.frameBoundary_keeps State.role (fun _ _ => rfl) (fun _ _ => rfl) x p
  transfer := fun g =>
    congrArg _ (State.frameBoundary_keeps (fun y => y.transfer g) (fun _ _ => rfl) (fun _ _ => rfl) x p)

/-- The far word of a state that has settled on it. -/
theorem State.heardFrom_falling {a : State} (ha : a.falling = s.falling) :
    ((a.setQualifier g ((a.qualifier g).settledOn w)).heardFrom g w).falling
      = (s.setQualifier g { candidate := some w, run := min ((s.qualifier g).run + 1) 15, settled := true,
                            far := some w }).falling := by
  have hq : a.qualifier g = s.qualifier g := State.same_of_falling (fun x => x.qualifier g) (fun _ => rfl) ha
  set b := a.setQualifier g ((a.qualifier g).settledOn w) with hb
  have hpost : ((b.post (wordEvent .farWord g w)).setFar g (some w)).falling = (b.setFar g (some w)).falling := by
    unfold State.setFar
    rw [State.post_qualifier]
    exact congrArg (fun y : State => y.setQualifier g { b.qualifier g with far := some w }) (State.falling_post b _)
  have hset : b.setFar g (some w) = a.setQualifier g { (a.qualifier g).settledOn w with far := some w } := by
    rw [hb]
    unfold State.setFar
    simp
  unfold State.heardFrom
  rw [hpost, hset, hq]
  exact congrArg (fun y : State => y.setQualifier g { (s.qualifier g).settledOn w with far := some w }) ha

/-- A far word that takes the class of a held circuit away. -/
theorem State.Alone.farWord (h : s.Alone g k) (hl : s.localClass k = 0) (hd : (s.record k).declined = false)
    (hother : ∀ h, h ≠ g → ∀ c, s.farClaim h ≠ some (k, c)) (hempty : (s.engine g).reasons.isEmpty = true)
    (hodd : onesOf w % 2 = 1) (hs : spanWord w = some said) (ho : wordOrigin w ≠ s.role) (ht : said.Takes k)
    (hb : said = .carry k 0 → (s.engine g).state ≠ .bridged k) (hcand : (s.qualifier g).candidate = some w)
    (hset : (s.qualifier g).settled = false) (hrun : s.regs.qCount.toNat ≤ min ((s.qualifier g).run + 1) 15) {a : State}
    (ha : a.falling = s.falling) (hregs : a.regs = s.regs) :
    (s.setQualifier g { candidate := some w, run := min ((s.qualifier g).run + 1) 15, settled := true,
                        far := some w }).Fell
      (((a.turn.qualifyGood g w).settle a).frameBoundary (sparePort g)).finish g k := by
  have same : ∀ {α : Type} (f : State → α), (∀ x : State, f x.falling = f x) → f a = f s := fun f hf =>
    State.same_of_falling f hf ha
  have hq : a.qualifier g = s.qualifier g := same (fun x => x.qualifier g) fun _ => rfl
  obtain ⟨c, hc, hcne⟩ := State.farClaim_of_class hl h.class_ne h.far hother
  have hnew : ∀ v, (a.qualifier g).far = some v → sameWord w v = false := by
    intro v hv
    rw [hq] at hv
    by_contra hx
    have hsame : sameWord w v = true := by simpa using hx
    have hclaim : claimOf (some v) = some (k, c) := by rw [← hv]; exact hc
    exact hcne (ht.claim ((sameWord_spanWord hsame).symm.trans hs) k c hclaim).2
  have htake := State.qualifyGood_takes (s := a) (g := g) hodd hs (by rw [same State.role fun _ => rfl]; exact ho)
    (by rw [hq]; exact hcand) (by rw [hq]; exact hset) (by rw [hq, hregs]; exact hrun) hnew
  set b := a.setQualifier g ((a.qualifier g).settledOn w) with hbe
  have hfall := State.heardFrom_falling (g := g) (w := w) ha
  rw [← hbe] at hfall
  have hclaimb : ∀ i, b.farClaim i = s.farClaim i := by
    intro i
    have hi : a.farClaim i = s.farClaim i := same (fun x => x.farClaim i) fun _ => rfl
    rw [← hi, hbe]
    unfold State.farClaim
    by_cases hig : i = g
    · subst hig
      rw [State.setQualifier_qualifier_same]
      rfl
    · rw [State.setQualifier_qualifier_other _ _ (Ne.symm hig)]
  have hlonely : (b.heardFrom g w).Lonely g k := by
    have hx : ∀ {α : Type} (f : State → α), (∀ x : State, f x.falling = f x) → f (b.heardFrom g w) = f (s.setQualifier g
        { candidate := some w, run := min ((s.qualifier g).run + 1) 15, settled := true, far := some w }) :=
      fun f hf => State.same_of_falling f hf hfall
    refine State.lonely_of_taken ?_ ?_ ?_ ?_
    · rw [hx (fun x => x.localClass k) fun _ => rfl]
      exact hl
    · rw [hx State.queue fun _ => rfl]
      exact h.queue
    · intro j d hj
      rw [hx (fun x => x.farClaim g) fun _ => rfl] at hj
      refine ht.claim hs j d ?_
      unfold State.farClaim at hj
      rwa [State.setQualifier_qualifier_same] at hj
    · intro i hi d hd'
      rw [hx (fun x => x.farClaim i) fun _ => rfl] at hd'
      refine hother i hi d ?_
      unfold State.farClaim at hd' ⊢
      rwa [State.setQualifier_qualifier_other _ _ (Ne.symm hi)] at hd'
  have heff : b.effClass k = s.effClass k := by
    have hl : b.localClass k = s.localClass k := same (fun x => x.localClass k) fun _ => rfl
    unfold State.effClass State.farClass
    rw [hl, hclaimb, hclaimb]
  have hfell := State.take_fell (s := b) (g := g) (k := k) (c := c) (w := w) (said := said)
    (by rw [show b.record k = s.record k from same (fun x => x.record k) fun _ => rfl]; exact h.assigned)
    (by rw [show b.engine g = s.engine g from same (fun x => x.engine g) fun _ => rfl]; exact h.circuit)
    (by rw [heff]; exact h.class_ne)
    (by rw [show b.record k = s.record k from same (fun x => x.record k) fun _ => rfl]; exact hd)
    (by rw [hclaimb]; exact hc) hlonely
    (by rw [show b.engine g = s.engine g from same (fun x => x.engine g) fun _ => rfl]; exact hempty) hs ht
    (by rw [show b.engine g = s.engine g from same (fun x => x.engine g) fun _ => rfl]; exact hb)
  rw [htake]
  have hqueue : (b.turn.take g w said).st.queue = [] := hfell.1.2.2.1.trans hlonely.queue
  obtain ⟨l, hsettle⟩ := Turn.settle_of_idle (t := b.turn.take g w said) (Turn.passStep_of_empty (by
    rw [Turn.flush_st, State.postAll_queue, Turn.flush_st, State.postAll_queue, hqueue])) a
  rw [hsettle]
  refine (State.Fell.of_falling hfell hfall).alike (State.Alike.trans ?_ (State.alike_finish_self _))
  exact (State.alike_postAll _ l).trans (State.alike_frameBoundary ..)

end ClassFalls

/-- Settles O9: the reaction of the held record, nothing else standing about the spare, and by a far word the engine's
action on it before that. -/
theorem classFallsToZero : Obligations.ClassFallsToZero := by
  intro s g k hr hs hk hne hq hfar
  have h : s.Alone g k := ⟨hs, hk, hne, hq, hfar⟩
  refine ⟨fun hz => ⟨fun hc harg => ?_, fun hsw ht hi => ?_, fun hsw hi hd hseen he hp => ?_⟩,
    fun f n w said hl hd hother hflags hm h0 h3 hw hodd hsays ho hsaid hcand hset hrun => ?_⟩
  · obtain ⟨htook, _, _, _, _, _, hsame, _⟩ := s.sourced_wrote k 0x03 0 false
    exact ⟨_, State.exec_clear hr harg, htook, hsame, h.clear hz hc⟩
  · have hexec : exec (.clearTimerExpiry (workPort k)) s = .next (s.inService fun s => s.clearExpiry (workPort k)) := rfl
    refine ⟨_, by rw [hexec, State.inService_out hr], ?_⟩
    unfold State.clearExpiry
    rw [if_pos (Option.isSome_iff_ne_none.mpr ht)]
    exact h.clearExpiry hz hsw hi
  · have hexec : exec .intervalEnd s = .next (s.inService State.intervalEnds) := rfl
    refine ⟨_, by rw [hexec, State.inService_out hr], h.intervalEnds hz hsw hi hd hseen he fun p hpk => ?_⟩
    unfold State.Unmoved Condition.impairedAfter
    rcases hp p hpk with e | ⟨e1, e2⟩ | ⟨e1, e2⟩
    · simp [e]
    · simp [e1, e2]
    · simp [e1, e2]
  · have hgood : frameGood f = true := by
      unfold frameGood alignmentCorrect checkCorrect
      rw [Bool.and_eq_true_iff, beq_iff_eq, beq_iff_eq]
      exact ⟨h0, h3⟩
    obtain ⟨a, ha, hregs, hexec⟩ := State.exec_goodFrame hr hm hgood
    have hword : frameWord f = w := hw.symm
    rw [hword] at hexec
    have ht : said.Takes k := hsaid.imp_right fun hx => hx.imp_right And.left
    refine ⟨_, hexec, h.farWord hl hd hother ((Reasons.isEmpty_iff _).mpr hflags) hodd hsays ho ht (fun e => ?_) hcand hset
      hrun ha hregs⟩
    rcases hsaid with rfl | rfl | ⟨_, hb⟩
    · cases e
    · cases e
    · exact hb

end Sys2Proof.Machine
end

