-- ==== Sys2Proof/Proofs/Disable.lean ====
section
/-! Proofs: O13, the clearing of the enable takes both spares from service. -/

namespace Sys2Proof.Machine

/-! ## A place at the front of a class group -/

section Places

variable {cls : Circuit → Nat} {j k : Circuit} {q : List Circuit}

/-- In an ordered queue the entries of higher class come first. -/
theorem filter_append_filter_of_sorted (hs : q.Pairwise fun i j => cls j ≤ cls i) (c : Nat) :
    (q.filter fun j => c < cls j) ++ (q.filter fun j => cls j ≤ c) = q := by
  induction q with
  | nil => rfl
  | cons i rest ih =>
    obtain ⟨hi, hrest⟩ := List.pairwise_cons.mp hs
    by_cases hlt : c < cls i
    · have hnle : ¬ cls i ≤ c := by omega
      simpa [List.filter_cons, hlt, hnle] using ih hrest
    · have hle : cls i ≤ c := by omega
      have hnone : rest.filter (fun j => decide (c < cls j)) = [] := by
        refine List.filter_eq_nil_iff.mpr fun j hj => ?_
        have := hi j hj
        simp only [decide_eq_true_eq]
        omega
      have hall : rest.filter (fun j => decide (cls j ≤ c)) = rest := by
        refine List.filter_eq_self.mpr fun j hj => ?_
        have := hi j hj
        simp only [decide_eq_true_eq]
        omega
      simp [hlt, hle, hnone, hall]

/-- In an ordered queue the place at the front of a class group is the one behind every entry of higher class. -/
theorem placeFront_eq_placedFirst (hs : q.Pairwise fun i j => cls j ≤ cls i) : placeFront cls k q = placedFirst cls k q := by
  induction q with
  | nil => rfl
  | cons i rest ih =>
    obtain ⟨hi, hrest⟩ := List.pairwise_cons.mp hs
    have ih := ih hrest
    unfold placedFirst at ih ⊢
    by_cases hlt : cls k < cls i
    · have hnle : ¬ cls i ≤ cls k := by omega
      simpa [placeFront, List.filter_cons, hlt, hnle] using ih
    · have hle : cls i ≤ cls k := by omega
      have hnone : rest.filter (fun j => decide (cls k < cls j)) = [] := by
        refine List.filter_eq_nil_iff.mpr fun j hj => ?_
        have := hi j hj
        simp only [decide_eq_true_eq]
        omega
      have hall : rest.filter (fun j => decide (cls j ≤ cls k)) = rest := by
        refine List.filter_eq_self.mpr fun j hj => ?_
        have := hi j hj
        simp only [decide_eq_true_eq]
        omega
      simp [placeFront, hlt, hle, hnone, hall]

/-- The queue with circuit k taken out, and put before its class group where it has a class. -/
def restored (cls : Circuit → Nat) (k : Circuit) (q : List Circuit) : List Circuit :=
  if cls k = 0 then q.filter (· ≠ k) else placedFirst cls k (q.filter (· ≠ k))

theorem restored_of_zero (hz : cls k = 0) (hk : k ∉ q) : restored cls k q = q := by
  unfold restored
  rw [if_pos hz]
  exact List.filter_eq_self.mpr fun i hi => by simpa using fun e : i = k => hk (e ▸ hi)

theorem restored_of_ne (hz : cls k ≠ 0) (hk : k ∉ q) : restored cls k q = placedFirst cls k q := by
  unfold restored
  rw [if_neg hz, List.filter_eq_self.mpr fun i hi => by simpa using fun e : i = k => hk (e ▸ hi)]

theorem mem_restored {i : Circuit} : i ∈ restored cls k q ↔ (i ≠ k ∧ i ∈ q) ∨ (i = k ∧ cls k ≠ 0) := by
  unfold restored
  split
  · next hz => simp [hz, and_comm]
  · next hz =>
    unfold placedFirst
    simp only [List.mem_append, List.mem_cons, List.mem_filter, decide_eq_true_eq]
    constructor
    · rintro (⟨⟨h1, h2⟩, _⟩ | rfl | ⟨⟨h1, h2⟩, _⟩)
      · exact .inl ⟨h2, h1⟩
      · exact .inr ⟨rfl, hz⟩
      · exact .inl ⟨h2, h1⟩
    · rintro (⟨h1, h2⟩ | ⟨rfl, _⟩)
      · by_cases hlt : cls k < cls i
        · exact .inl ⟨⟨h2, h1⟩, hlt⟩
        · exact .inr (.inr ⟨⟨h2, h1⟩, by omega⟩)
      · exact .inr (.inl rfl)

theorem restored_sorted (hs : q.Pairwise fun i j => cls j ≤ cls i) :
    (restored cls k q).Pairwise fun i j => cls j ≤ cls i := by
  unfold restored
  split
  · exact hs.filter _
  · rw [← placeFront_eq_placedFirst (hs.filter _)]
    exact placeFront_sorted cls k _ (hs.filter _)

/-- A circuit taken out leaves the order of the others. -/
theorem filter_restored (hs : q.Pairwise fun i j => cls j ≤ cls i) : (restored cls k q).filter (· ≠ k) = q.filter (· ≠ k) := by
  unfold restored
  split
  · simp
  · have hf := filter_append_filter_of_sorted (hs.filter (· ≠ k)) (cls k)
    unfold placedFirst
    rw [List.filter_append, List.filter_cons_of_neg (by simp), ← List.filter_append, hf, List.filter_filter]
    simp

theorem filter_restored_other (hjk : j ≠ k) : (restored cls k q).filter (· ≠ j) = restored cls k (q.filter (· ≠ j)) := by
  have hcomm : ∀ l : List Circuit, (l.filter (· ≠ k)).filter (· ≠ j) = (l.filter (· ≠ j)).filter (· ≠ k) := fun l =>
    List.filter_comm ..
  have hmove : ∀ p : Circuit → Bool, ((q.filter (· ≠ k)).filter p).filter (· ≠ j)
      = ((q.filter (· ≠ j)).filter (· ≠ k)).filter p := fun p => by
    rw [List.filter_comm _ p, hcomm]
  unfold restored
  split
  · exact hcomm q
  · have hk : (decide (k ≠ j)) = true := by simpa using Ne.symm hjk
    unfold placedFirst
    rw [List.filter_append, List.filter_cons, if_pos hk, hmove, hmove]

theorem restored_congr {q' : List Circuit} (h : q.filter (· ≠ k) = q'.filter (· ≠ k)) :
    restored cls k q = restored cls k q' := by
  unfold restored
  rw [h]

/-- Put before its group again, a circuit stands before whatever has been put there since. -/
theorem restored_again (hjk : j ≠ k) (hs : q.Pairwise fun i j => cls j ≤ cls i) :
    restored cls j (restored cls k (restored cls j q)) = restored cls j (restored cls k q) := by
  refine restored_congr ?_
  rw [filter_restored_other hjk, filter_restored hs, filter_restored_other hjk]

theorem restored_idem (hs : q.Pairwise fun i j => cls j ≤ cls i) : restored cls k (restored cls k q) = restored cls k q :=
  restored_congr (filter_restored hs)

/-- Put back one after the other and then together, two circuits stand as if put back together. -/
theorem restored_together (hjk : j ≠ k) (hs : q.Pairwise fun i j => cls j ≤ cls i) :
    restored cls j (restored cls k (restored cls k (restored cls j q))) = restored cls j (restored cls k q)
      ∧ restored cls k (restored cls j (restored cls k (restored cls j q))) = restored cls k (restored cls j q) := by
  refine ⟨?_, ?_⟩
  · rw [restored_idem (restored_sorted hs), restored_again hjk hs]
  · rw [restored_again hjk hs, restored_again (Ne.symm hjk) hs]

end Places

section Disable

variable {full : Prop} {w : Keep} {X : List Circuit} {G : List Spare} {s x : State} {t : Turn} {g h : Spare} {j k : Circuit} {b : Bool}

theorem State.requeue_front (hs : s.queue.Pairwise fun i j => s.effClass j ≤ s.effClass i) (k : Circuit) :
    s.requeue k (decide (s.effClass k ≠ 0)) .front = restored s.effClass k s.queue := by
  unfold State.requeue restored
  by_cases hz : s.effClass k = 0
  · simp [hz]
  · simp only [hz, ne_eq, not_false_eq_true, decide_true, if_true, if_false]
    exact placeFront_eq_placedFirst (hs.filter _)

/-! ## A spare taken from service -/

/-- The queue that takes back what an engine held. -/
def State.queueWith (s : State) : Option Circuit → List Circuit
  | some k => restored s.effClass k s.queue
  | none => s.queue

/-- Spare g has been taken from service by OFF: its record, if it held one, is put back. -/
structure State.TakenFrom (s x : State) (g : Spare) : Prop where
  sources : x.sources = s.sources
  state : (x.engine g).state = .unavailable
  reasons : (x.engine g).reasons = { (s.engine g).reasons with off := true }
  others : ∀ h, h ≠ g → x.engine h = s.engine h
  back : ∀ k, (s.engine g).state.circuit = some k →
    x.record k = { s.record k with state := if s.effClass k = 0 then .quiet else .queued, returnTimer := none }
  records : ∀ k, (s.engine g).state.circuit ≠ some k → x.record k = s.record k
  queue : x.queue = s.queueWith (s.engine g).state.circuit

/-- The teardown puts the record back at the front of its class group. -/
theorem Turn.tearDown_back (h : t.st.Steady w X G) (hk : (t.st.engine g).state.circuit = some k) :
    (t.tearDown g).st.record k
        = { t.st.record k with state := if t.st.effClass k = 0 then .quiet else .queued, returnTimer := none }
      ∧ (∀ j, j ≠ k → (t.tearDown g).st.record j = t.st.record j)
      ∧ (t.tearDown g).st.queue = restored t.st.effClass k t.st.queue := by
  obtain ⟨hb, hd⟩ := (h.poised.held hk).2
  set u := t.change fun s => (s.cancelTransfer g).startTransfer g .rest with hu
  have hsrc : u.st.sources = t.st.sources := State.sources_of_still (by simp [hu])
  have hrec : ∀ j, u.st.record j = t.st.record j := fun j => by simp [hu, State.startTransfer]
  have hqueue : u.st.queue = t.st.queue := by simp [hu, State.startTransfer]
  have heff : u.st.effClass = t.st.effClass := funext fun i => State.effClass_of_sources hsrc i
  have hrest : u.st.restingState k = if t.st.effClass k = 0 then .quiet else .queued := by
    rw [State.restingState_of_sources hsrc, State.restingState_of_unflagged hb hd]
  rw [t.tearDown_held hk, ← hu]
  refine ⟨?_, fun j hj => ?_, ?_⟩
  · simp [Turn.putBack, hrest, hrec]
  · simp [Turn.putBack, Ne.symm hj, hrec]
  · have hq : decide (u.st.restingState k = .queued) = decide (u.st.effClass k ≠ 0) := by
      rw [hrest, heff]
      by_cases hz : t.st.effClass k = 0 <;> simp [hz]
    rw [Turn.putBack_queue, hq, State.requeue_front (by rw [heff, hqueue]; exact h.queue.2.2), heff, hqueue]

/-- OFF takes a spare from service. -/
theorem Turn.putOff_takes (h : t.st.Steady w X G) (g : Spare) : t.st.TakenFrom (t.putReason g .off true).st g := by
  have hsrc : (t.putReason g .off true).st.sources = t.st.sources := State.sources_of_still (Turn.still_putReason ..)
  have stands : (t.st.engine g).state = .unavailable → (t.st.engine g).state.circuit = none := fun e => by
    rw [e]
    rfl
  by_cases hoff : (t.st.engine g).reasons.has .off = true
  · have hsame : t.putReason g .off true = t := if_pos hoff
    have hr : { (t.st.engine g).reasons with off := true } = (t.st.engine g).reasons := by
      have hoff' : (t.st.engine g).reasons.off = true := hoff
      rw [← hoff']
    have hu : (t.st.engine g).state = .unavailable := by
      refine (h.poised.reasons g (by simp)).mp ?_
      rw [← hr]
      rfl
    rw [hsame]
    exact ⟨rfl, hu, hr.symm, fun _ _ => rfl, fun k hk => (by rw [stands hu] at hk; cases hk), fun _ _ => rfl,
      by rw [stands hu]; rfl⟩
  · have hset : t.putReason g .off true = t.setReasons g { (t.st.engine g).reasons with off := true } := if_neg hoff
    have hafter : ({ (t.st.engine g).reasons with off := true } : Reasons).isEmpty = false := rfl
    rw [hset] at hsrc ⊢
    have hother : ∀ h, h ≠ g → (t.setReasons g { (t.st.engine g).reasons with off := true }).st.engine h = t.st.engine h :=
      fun h hh => t.setReasons_engine_other _ (Ne.symm hh)
    rcases t.setReasons_cases g { (t.st.engine g).reasons with off := true } with ⟨hu, _, e⟩ | ⟨_, ha, _⟩ | ⟨hiff, e⟩
    · have hrec : ∀ j, (t.setReasons g { (t.st.engine g).reasons with off := true }).st.record j
          = (t.tearDown g).st.record j := fun j => by rw [e]; simp [Turn.rearm]
      have hq : (t.setReasons g { (t.st.engine g).reasons with off := true }).st.queue = (t.tearDown g).st.queue := by
        rw [e]
        simp [Turn.rearm]
      refine ⟨hsrc, by rw [e]; simp, by rw [e]; simp [Turn.rearm], hother, fun k hk => ?_, fun j hj => ?_, ?_⟩
      · rw [hrec]
        exact (Turn.tearDown_back h hk).1
      · rw [hrec]
        cases hk : (t.st.engine g).state.circuit with
        | some k => exact (Turn.tearDown_back h hk).2.1 j fun e => hj (e ▸ hk)
        | none =>
          rw [t.tearDown_empty hk]
          simp
      · rw [hq]
        cases hk : (t.st.engine g).state.circuit with
        | some k => exact (Turn.tearDown_back h hk).2.2
        | none =>
          rw [t.tearDown_empty hk]
          simp [State.queueWith]
    · rw [hafter] at ha
      cases ha
    · have hu := hiff.mpr hafter
      refine ⟨hsrc, by rw [e]; simpa [Turn.rearm] using hu, by rw [e]; simp [Turn.rearm], hother, fun k hk => ?_,
        fun j _ => by rw [e]; rfl, by rw [e, stands hu]; rfl⟩
      rw [stands hu] at hk
      cases hk

/-! ## Both spares -/

theorem Turn.front_st (t : Turn) (c : Circuit) : (t.front c).st = t.st.setQueue (t.front c).st.queue := by
  unfold Turn.front
  split
  · rfl
  · rfl

theorem State.held_not_queued {q : List Circuit} (h : s.Steady w X G) (hk : (s.engine g).state.circuit = some k)
    (hq : q = s.queue) : k ∉ q := by
  rw [hq, h.queue.2.1]
  rcases (h.poised.held hk).1 with e | e <;> simp [e]

/-- No circuit is held twice. -/
theorem State.held_apart (h : s.Steady w X G) (h0 : (s.engine 0).state.circuit = some k) :
    (s.engine 1).state.circuit ≠ some k := by
  intro h1
  rcases (h.poised.held h0).1 with e | e <;> rcases (h.poised.held h1).1 with e' | e' <;> rw [e] at e' <;> cases e'

/-- A record put back is put before its class group. -/
theorem Turn.front_queue (h : t.st.Steady w X G) (c : Circuit)
    (hc : (t.st.record c).state = if t.st.effClass c = 0 then .quiet else .queued) :
    (t.front c).st.queue = restored t.st.effClass c t.st.queue := by
  unfold Turn.front
  by_cases hz : t.st.effClass c = 0
  · have hq : c ∉ t.st.queue := by
      rw [h.queue.2.1, hc, if_pos hz]
      simp
    rw [if_neg (by rw [hc, if_pos hz]; simp), restored_of_zero hz hq]
  · rw [if_pos (by rw [hc, if_neg hz])]
    have hne := t.st.requeue_front h.queue.2.2 c
    rw [decide_eq_true hz] at hne
    exact hne

/-- Two records put back together stand with the lower-numbered first. -/
theorem Turn.placeTogether_queue (h : t.st.Steady w X G) (j k : Circuit)
    (hj : (t.st.record j).state = if t.st.effClass j = 0 then .quiet else .queued)
    (hk : (t.st.record k).state = if t.st.effClass k = 0 then .quiet else .queued) :
    (t.placeTogether j k).st = t.st.setQueue (if j < k
      then restored t.st.effClass j (restored t.st.effClass k t.st.queue)
      else restored t.st.effClass k (restored t.st.effClass j t.st.queue)) := by
  have both : ∀ i l, (t.st.record i).state = (if t.st.effClass i = 0 then .quiet else .queued) →
      (t.st.record l).state = (if t.st.effClass l = 0 then .quiet else .queued) →
      ((t.front i).front l).st = t.st.setQueue (restored t.st.effClass l (restored t.st.effClass i t.st.queue)) := by
    intro i l hi hl
    have h1 := t.front_st i
    have h2 := Turn.front_queue (h.front i) l (by rw [h1]; exact hl)
    rw [Turn.front_st, h2, Turn.front_queue h i hi, h1]
    rfl
  rw [Turn.placeTogether_eq]
  split
  · exact both k j hk hj
  · exact both j k hj hk

/-- The circuits of the two engines in ascending order. -/
theorem allCircuits_filter_pair : ∀ j k : Circuit, j < k → (allCircuits.filter fun i => i = j ∨ i = k) = [j, k] := by decide

theorem allCircuits_filter_single : ∀ j : Circuit, (allCircuits.filter fun i => i = j) = [j] := by decide

/-- Both spares taken from service. -/
structure State.BothTaken (s x : State) : Prop where
  sources : x.sources = s.sources
  state : ∀ g, (x.engine g).state = .unavailable
  reasons : ∀ g, (x.engine g).reasons = { (s.engine g).reasons with off := true }
  back : ∀ k g, (s.engine g).state.circuit = some k →
    x.record k = { s.record k with state := if s.effClass k = 0 then .quiet else .queued, returnTimer := none }
  records : ∀ k, (∀ g, (s.engine g).state.circuit ≠ some k) → x.record k = s.record k

/-- The one spare after the other. -/
theorem Turn.putOffs_take (h : t.st.Steady (s.keepOff full fun _ => b) [] []) :
    t.st.BothTaken ((t.putReason 0 .off true).putReason 1 .off true).st
      ∧ ((t.putReason 0 .off true).putReason 1 .off true).st.queue
          = (t.putReason 0 .off true).st.queueWith (t.st.engine 1).state.circuit := by
  have h0 := Turn.putOff_takes h 0
  have hu := h.putOff 0 true
  set u := t.putReason 0 .off true with hue
  have h1 := Turn.putOff_takes hu 1
  set v := u.putReason 1 .off true
  have he0 : v.st.engine 0 = u.st.engine 0 := h1.others 0 (by decide)
  have he1 : u.st.engine 1 = t.st.engine 1 := h0.others 1 (by decide)
  have heff : u.st.effClass = t.st.effClass := funext fun i => State.effClass_of_sources h0.sources i
  refine ⟨⟨h1.sources.trans h0.sources, fun g => ?_, fun g => ?_, fun k g hk => ?_, fun k hk => ?_⟩, ?_⟩
  · rcases spare_zero_or_one g with rfl | rfl
    · rw [he0, h0.state]
    · exact h1.state
  · rcases spare_zero_or_one g with rfl | rfl
    · rw [he0, h0.reasons]
    · rw [h1.reasons, he1]
  · rcases spare_zero_or_one g with rfl | rfl
    · rw [h1.records k (by rw [he1]; exact State.held_apart h hk)]
      exact h0.back k hk
    · rw [h1.back k (by rw [he1]; exact hk), heff, h0.records k fun e => State.held_apart h e hk]
  · rw [h1.records k (by rw [he1]; exact hk 1), h0.records k (hk 0)]
  · rw [h1.queue, he1]

theorem State.heldWaiting_none (h0 : (s.engine 0).state.circuit = none) (h1 : (s.engine 1).state.circuit = none) :
    s.heldWaiting = [] := by
  unfold State.heldWaiting
  simp [h0, h1]

theorem State.heldWaiting_single
    (h : ∀ i, ((s.engine 0).state.circuit = some i ∨ (s.engine 1).state.circuit = some i) ↔ i = k) :
    s.heldWaiting = if s.effClass k = 0 then [] else [k] := by
  have e : s.heldWaiting = (allCircuits.filter fun i => i = k).filter fun i => s.effClass i ≠ 0 := by
    unfold State.heldWaiting
    rw [List.filter_filter]
    simp only [h, Bool.decide_and]
  rw [e, allCircuits_filter_single]
  by_cases hz : s.effClass k = 0 <;> simp [hz]

theorem State.heldWaiting_pair (hjk : j < k)
    (h : ∀ i, ((s.engine 0).state.circuit = some i ∨ (s.engine 1).state.circuit = some i) ↔ i = j ∨ i = k) :
    s.heldWaiting = [j, k].filter fun i => s.effClass i ≠ 0 := by
  unfold State.heldWaiting
  rw [← allCircuits_filter_pair j k hjk, List.filter_filter]
  simp only [h, Bool.decide_and]

/-- Neither circuit queued, both are put back as the statement has it. -/
theorem restored_pair {cls : Circuit → Nat} {q : List Circuit} (hjk : j ≠ k) (hj : j ∉ q) (hk : k ∉ q) :
    restored cls j (restored cls k q) = ([j, k].filter fun i => cls i ≠ 0).foldr (placedFirst cls) q := by
  have hj' : j ∉ restored cls k q := by
    rw [mem_restored]
    simp [hj, hjk]
  by_cases zk : cls k = 0
  · have e : restored cls k q = q := restored_of_zero zk hk
    by_cases zj : cls j = 0
    · simp [e, zk, zj, restored_of_zero zj hj]
    · simp [e, zk, zj, restored_of_ne zj hj]
  · have e : restored cls k q = placedFirst cls k q := restored_of_ne zk hk
    rw [e] at hj'
    by_cases zj : cls j = 0
    · simp [zk, zj, restored_of_zero zj hj', e]
    · simp [zk, zj, restored_of_ne zj hj', e]

theorem restored_single {cls : Circuit → Nat} {q : List Circuit} (hk : k ∉ q) :
    restored cls k q = (if cls k = 0 then [] else [k]).foldr (placedFirst cls) q := by
  by_cases hz : cls k = 0
  · simp [hz, restored_of_zero hz hk]
  · simp [hz, restored_of_ne hz hk]

/-- The disabling takes both spares, and restores the queue. -/
theorem Turn.disable_takes (h : t.st.Steady (s.keepOff full fun _ => b) [] []) :
    t.st.BothTaken t.disable.st ∧ t.disable.st.queue = t.st.heldWaiting.foldr (placedFirst t.st.effClass) t.st.queue := by
  obtain ⟨hboth, hqueue⟩ := Turn.putOffs_take h
  have h0 := Turn.putOff_takes h 0
  have hsteady := h.putOffs true
  set u := (t.putReason 0 .off true).putReason 1 .off true with hue
  have hsrc0 := h0.sources
  have hq0 := h0.queue
  have heff0 : (t.putReason 0 .off true).st.effClass = t.st.effClass :=
    funext fun i => State.effClass_of_sources hsrc0 i
  have heff : u.st.effClass = t.st.effClass := funext fun i => State.effClass_of_sources hboth.sources i
  have hout : ∀ g k, (t.st.engine g).state.circuit = some k → k ∉ t.st.queue := fun g k hk =>
    State.held_not_queued h hk rfl
  have hsorted := h.queue.2.2
  have hdis : t.disable = match (t.st.engine 0).state.circuit, (t.st.engine 1).state.circuit with
      | some j, some k => u.placeTogether j k
      | _, _ => u := rfl
  rw [hdis]
  unfold State.queueWith at hqueue hq0
  rw [heff0] at hqueue
  cases e0 : (t.st.engine 0).state.circuit with
  | none =>
    rw [e0] at hq0
    cases e1 : (t.st.engine 1).state.circuit with
    | none =>
      rw [e1] at hqueue
      refine ⟨hboth, ?_⟩
      dsimp only at hqueue hq0 ⊢
      rw [hqueue, hq0, State.heldWaiting_none e0 e1]
      rfl
    | some k =>
      rw [e1] at hqueue
      refine ⟨hboth, ?_⟩
      dsimp only at hqueue hq0 ⊢
      rw [hqueue, hq0, restored_single (hout 1 k e1),
        State.heldWaiting_single (k := k) fun i => by simp [e0, e1, eq_comm]]
  | some j =>
    rw [e0] at hq0
    cases e1 : (t.st.engine 1).state.circuit with
    | none =>
      rw [e1] at hqueue
      refine ⟨hboth, ?_⟩
      dsimp only at hqueue hq0 ⊢
      rw [hqueue, hq0, restored_single (hout 0 j e0),
        State.heldWaiting_single (k := j) fun i => by simp [e0, e1, eq_comm]]
    | some k =>
      rw [e1] at hqueue
      have hjk : j ≠ k := by
        rintro rfl
        exact State.held_apart h e0 e1
      dsimp only at hqueue hq0 ⊢
      rw [hq0] at hqueue
      have hst := Turn.placeTogether_queue hsteady j k (by rw [hboth.back j 0 e0, heff]) (by rw [hboth.back k 1 e1, heff])
      rw [heff, hqueue] at hst
      refine ⟨?_, ?_⟩
      · rw [hst]
        exact ⟨hboth.sources, hboth.state, hboth.reasons, hboth.back, hboth.records⟩
      · rw [hst, State.setQueue_queue]
        obtain ⟨hup, hdown⟩ := restored_together hjk hsorted
        split
        · next hlt =>
          rw [hup, restored_pair hjk (hout 0 j e0) (hout 1 k e1),
            State.heldWaiting_pair hlt fun i => by simp [e0, e1, eq_comm]]
        · next hge =>
          have hlt : k < j := lt_of_le_of_ne (not_lt.mp hge) (Ne.symm hjk)
          rw [hdown, restored_pair (Ne.symm hjk) (hout 1 k e1) (hout 0 j e0),
            State.heldWaiting_pair hlt fun i => by simp [e0, e1, eq_comm, or_comm]]

/-- The state with a byte written to PROTECT. -/
def State.protected (s : State) (v : Byte) : State :=
  (s.setBus { s.bus with ready := true }).setRegs
    { s.regs with enable := v.getLsbD 0, hold := v.getLsbD 1, interruptEnable := v.getLsbD 2 }

theorem State.exec_disable (hs : s.inReset = false) (he : s.regs.enable = true) {v : Byte} (hv : v.getLsbD 0 = false) :
    exec (.protectEnableCleared v) s = .next (s.protected v).turn.disable.settleWithPass.finish := by
  have hexec : exec (.protectEnableCleared v) s = .next (s.hostWrite fun s => s.writeProtect v) := rfl
  have hdis : (s.setBus { s.bus with ready := true }).writeProtect v
      = (s.protected v).turn.disable.settleWithPass.finish := by
    unfold State.writeProtect
    dsimp only
    rw [if_neg (by rw [hv]; show ¬ false = s.regs.enable; rw [he]; simp), if_neg (by rw [hv]; simp)]
    rfl
  rw [hexec]
  unfold State.hostWrite
  dsimp only
  rw [if_neg (by show ¬ s.inReset = true; rw [hs]; simp), hdis]

end Disable

/-- Settles O13: each spare torn down, its record put back, and the two put back together; no engine is left to grant. -/
theorem clearingTheEnableTakesBothSpares : Obligations.ClearingTheEnableTakesBothSpares := by
  intro s v hs ha he hv
  refine ⟨_, State.exec_disable hs he hv, ?_⟩
  have hsteady : (s.protected v).Steady (s.keepOff False fun _ => !s.regs.enable) [] [] :=
    (State.whole_of_agreement ha).steady.of_same rfl rfl (fun _ => rfl) fun _ => rfl
  obtain ⟨hboth, hqueue⟩ := Turn.disable_takes (t := (s.protected v).turn) hsteady
  have hst : (s.protected v).turn.disable.st.Steady (s.keepOff False fun _ => true) [] [] :=
    State.Steady.disable (t := (s.protected v).turn) hsteady
  have hground : (s.protected v).turn.disable.settleWithPass.ground = (s.protected v).ground :=
    (Turn.ground_settleWithPass _).trans (State.ground_of_still (Turn.still_disable ..))
  obtain ⟨l, hl⟩ := Turn.settleWithPass_of_idle (t := (s.protected v).turn.disable)
    (Turn.passStep_of_unavailable fun g => by rw [Turn.flush_st, State.postAll_engine]; exact hboth.state g)
  have hcalm := State.calm_of_ground hground
  set u := (s.protected v).turn.disable.settleWithPass with hu
  have heng : ∀ g, u.finish.engine g = (s.protected v).turn.disable.st.engine g := fun g => by
    rw [State.finish_engine, hl, State.postAll_engine]
  have hrec : ∀ k, u.finish.record k = (s.protected v).turn.disable.st.record k := fun k => by
    rw [State.finish_record, hl, State.postAll_record]
  have hstate : ∀ g, (u.finish.engine g).state = .unavailable := fun g => by rw [heng, hboth.state]
  refine ⟨?_, fun g => ⟨hstate g, ?_, ?_, ?_, ?_⟩, fun k g => ?_, fun k g hk => ?_, fun k hk => ?_, ?_, ?_, ?_, ?_⟩
  · rw [u.finish_regs, ← hv]
    exact State.regs_of_calm hcalm
  · rw [heng]
    exact hboth.reasons g
  · unfold State.bridge
    rw [hstate]
  · unfold State.selector
    rw [hstate]
  · unfold State.loopOn
    rw [hstate]
    rfl
  · rw [hrec]
    have hp := hst.poised.pairs k g (by simp) (by simp)
    have hno : ∀ b, ¬ ((s.protected v).turn.disable.st.engine g).state.holdsAs k b = true := fun b => by
      rw [hboth.state]
      simp [EngineState.holdsAs]
    exact ⟨fun e => hno _ (hp.1.mp e), fun e => hno _ (hp.2.mp e)⟩
  · rw [hrec]
    exact hboth.back k g hk
  · rw [hrec]
    exact hboth.records k hk
  · rw [State.finish_queue, hl, State.postAll_queue]
    exact hqueue
  · exact (State.sameSurroundings_of_calm (s := s.protected v) hcalm).finish
  · rw [State.finish_qualifiers]
    exact State.qualifiers_of_calm (s := s.protected v) hcalm
  · rw [State.finish_outOfStep]
    exact State.outOfStep_of_calm (s := s.protected v) hcalm

end Sys2Proof.Machine
end

