-- ==== Sys2Proof/Proofs/DelayExpiry.lean ====
section
/-! Proofs: O38, the expiry of the onset timer and of the clear timer. -/

namespace Sys2Proof.Machine

/-! ## Engines that are FREE or PREPARING -/

/-- An engine that is FREE or has been granted a circuit. -/
def EngineState.Ready (e : EngineState) : Prop := e = .free ∨ ∃ k, e = .preparing k

section Ready

variable {x y z : State} {t : Turn} {g i : Spare} {k : Circuit}

/-- Every engine that was FREE or PREPARING is so still. -/
def State.KeepsReady (x y : State) : Prop := ∀ i, (x.engine i).state.Ready → (y.engine i).state.Ready

theorem State.KeepsReady.trans (h1 : x.KeepsReady y) (h2 : y.KeepsReady z) : x.KeepsReady z := fun i hi => h2 i (h1 i hi)

theorem State.KeepsReady.of_engine (h : ∀ i, y.engine i = x.engine i) : x.KeepsReady y := fun i hi => by
  rw [h i]
  exact hi

theorem Turn.letGo_ready (t : Turn) (g : Spare) : t.st.KeepsReady (t.letGo g).st := fun i hi => by
  by_cases hg : g = i
  · subst hg
    rw [Turn.letGo_engine_same]
    exact .inl rfl
  · rwa [Turn.letGo_engine_other _ hg]

theorem Turn.enterPreparing_ready (t : Turn) (g : Spare) (k : Circuit) : t.st.KeepsReady (t.enterPreparing g k).st :=
  fun i hi => by
    by_cases hg : g = i
    · subst hg
      exact .inr ⟨k, by simp⟩
    · simpa [hg] using hi

theorem Turn.offer_ready (t : Turn) (g : Spare) (k : Circuit) : t.st.KeepsReady (t.offer g k).st := by
  rcases t.offer_cases g k with ⟨e, _⟩ | ⟨_, _, _, ⟨_, e⟩ | ⟨o, _, _, e⟩⟩ <;> rw [e]
  · exact .of_engine fun _ => rfl
  · exact (t.noteOffer g).enterPreparing_ready g k
  · exact ((t.noteOffer g).letGo_ready o).trans (((t.noteOffer g).letGo o).enterPreparing_ready g k)

theorem Turn.contest_ready (t : Turn) (g : Spare) : t.st.KeepsReady (t.contest g).st := by
  rcases t.contest_cases g with ⟨e, _⟩ | ⟨own, far, _, _, _, _, e⟩ <;> rw [e]
  · exact .of_engine fun _ => rfl
  · refine (t.letGo_ready g).trans (State.KeepsReady.trans ?_ (Turn.offer_ready ((t.letGo g).putBack g own.1) g far.1))
    exact .of_engine fun _ => by simp [Turn.putBack]

theorem Turn.flush_ready (t : Turn) : t.st.KeepsReady t.flush.st := .of_engine fun i => by
  rw [Turn.flush_st, State.postAll_engine]

theorem Turn.preempt_ready (t : Turn) (g : Spare) (h : Circuit) : t.st.KeepsReady (t.preempt g h).st := by
  unfold Turn.preempt
  split
  · next j _ =>
    refine State.KeepsReady.trans (y := ((t.change fun s => s.cancelTransfer g).putBack g j).st) ?_
      ((Turn.enterPreparing_ready _ g h).trans ((Turn.flush_ready _).trans (Turn.contest_ready _ g)))
    exact .of_engine fun _ => by simp [Turn.putBack]
  · exact .of_engine fun _ => rfl

theorem Turn.passStep_ready {t' : Turn} (h : t.passStep = some t') : t.st.KeepsReady t'.st := by
  rcases t.passStep_cases with e | ⟨k, _, _, ⟨g, _, _, e⟩ | ⟨g, e⟩⟩ <;> rw [e] at h
  · cases h
  · obtain rfl := Option.some.inj h
    exact t.enterPreparing_ready g k
  · obtain rfl := Option.some.inj h
    exact t.preempt_ready g k

theorem Turn.pass_ready (n : Nat) (t : Turn) : t.st.KeepsReady (Turn.pass n t).st := by
  induction n generalizing t with
  | zero => exact .of_engine fun _ => rfl
  | succ n ih =>
    unfold Turn.pass
    split
    · exact .of_engine fun _ => rfl
    · next t' ht => exact (Turn.passStep_ready ht).trans (t'.flush_ready.trans (ih t'.flush))

theorem Turn.close_ready (t : Turn) : t.st.KeepsReady t.close := .of_engine fun i => by
  unfold Turn.close
  rw [State.postAll_engine, Turn.flush_st, State.postAll_engine]

/-- The grant pass takes no circuit from an engine but to grant it another. -/
theorem Turn.settle_ready (t : Turn) (before : State) : t.st.KeepsReady (t.settle before) := by
  unfold Turn.settle
  dsimp only
  refine t.flush_ready.trans ?_
  split
  · exact t.flush.flush_ready.trans ((Turn.pass_ready _ _).trans (Turn.close_ready _))
  · exact t.flush.close_ready

end Ready

section DelayExpiry

variable {s u : State} {g i : Spare} {k : Circuit} {p : Port} {b : Bool}

/-! ## What a change of DOWN leaves -/

theorem State.calm_writeCondClass (s : State) (k : Circuit) (c : Nat) : (s.writeCondClass k c).calm = s.calm := by
  unfold State.writeCondClass
  split
  · rfl
  · rw [State.calm_of_ground (Turn.ground_settle ..), Turn.sourceChange_eq]
    rw [State.calm_of_ground (State.ground_of_still (Turn.still_react ..))]
    exact (State.calm_updateKind ..).trans (State.calm_setRecord ..)

/-- The far words after DOWN of a spare's port is declared. -/
theorem State.spareDown_qualifiers (s : State) (g : Spare) : (s.spareDown g).qualifiers = (s.setFar g none).qualifiers := by
  obtain ⟨_, hqual, _⟩ := s.turn.refreshed_keeps g none
  have hact : ((s.turn.refreshed g none).putReason g .line true).st.qualifiers = (s.turn.refreshed g none).st.qualifiers :=
    State.qualifiers_of_sources (State.sources_of_still (Turn.still_putReason ..))
  unfold State.spareDown
  rw [State.qualifiers_of_sources (State.sources_of_ground (Turn.ground_settle ..)), Turn.changeFar_eq,
    State.qualifiers_of_sources (Turn.sources_reacted ..), hact]
  exact hqual

/-- The reasons with LINE on spare g as given. -/
def State.lining (s : State) (g : Spare) (b : Bool) : Keep :=
  ⟨False, fun i r => r = if i = g then { (s.engine g).reasons with line := b } else (s.engine i).reasons⟩

theorem State.watching_lining (s : State) (g : Spare) (b : Bool) :
    (∀ i, i ≠ g → ∀ r, s.watching.reasons i r → (s.lining g b).reasons i r)
      ∧ (∀ r, s.watching.reasons g r → r.has .line = b → (s.lining g b).reasons g r)
      ∧ ∀ r, s.watching.reasons g r → (s.lining g b).reasons g (r.put .line b) := by
  refine ⟨fun i hi r hr => hr.trans (if_neg hi).symm, fun r hr hb => ?_, fun r hr => ?_⟩
  · obtain rfl : r = (s.engine g).reasons := hr
    have hline : (s.engine g).reasons.line = b := hb
    refine Eq.trans ?_ (if_pos rfl).symm
    rw [← hline]
  · obtain rfl : r = (s.engine g).reasons := hr
    exact (if_pos rfl).symm

theorem State.Steady.spareDown (h : s.Steady s.watching [] []) (g : Spare) :
    (s.spareDown g).Steady (s.lining g true) [] [] := by
  obtain ⟨ho, hg, ha⟩ := s.watching_lining g true
  exact State.Steady.settle (State.Steady.changeFar_unclaimed (t := s.turn) (w' := s.lining g true) h rfl
    (ActKeeps.putReason id ho hg ha)) s

theorem State.Steady.spareUp (h : s.Steady s.watching [] []) (g : Spare) :
    (s.spareUp g).Steady (s.lining g false) [] [] := by
  obtain ⟨ho, hg, ha⟩ := s.watching_lining g false
  exact State.Steady.settle (State.Steady.putReason (t := s.turn) (w' := s.lining g false) h .line false id ho hg ha) s

theorem State.Steady.lined {s' : State} (h : s'.Steady (s.lining g b) [] []) :
    (s'.engine g).reasons = { (s.engine g).reasons with line := b } :=
  (h.poised.watched g).trans (if_pos rfl)

/-- The declaration of DOWN makes the engine UNAVAILABLE. -/
theorem State.Steady.spareDown_engine (h : s.Steady s.watching [] []) (g : Spare) :
    ((s.spareDown g).engine g).state = .unavailable
      ∧ ((s.spareDown g).engine g).reasons = { (s.engine g).reasons with line := true } := by
  have hst := h.spareDown g
  refine ⟨(hst.poised.reasons g (by simp)).mp ?_, hst.lined⟩
  rw [hst.lined]
  simp [Reasons.isEmpty]

/-- The clearing of DOWN removes a LINE that stands. -/
theorem State.Steady.spareUp_engine (h : s.Steady s.watching [] []) (g : Spare) :
    ((s.spareUp g).engine g).reasons = { (s.engine g).reasons with line := false }
      ∧ ((s.engine g).reasons.line = true →
        if ((s.spareUp g).engine g).reasons.flags = 0
        then ((s.spareUp g).engine g).state = .free ∨ ∃ k, ((s.spareUp g).engine g).state = .preparing k
        else ((s.spareUp g).engine g).state = .unavailable) := by
  have hst := h.spareUp g
  refine ⟨hst.lined, fun hline => ?_⟩
  split
  · next hz =>
    have hempty : ((s.engine g).reasons.put .line false).isEmpty = true := by
      rw [Reasons.isEmpty_iff]
      rw [hst.lined] at hz
      exact hz
    have hu : (s.engine g).state = .unavailable := by
      refine (h.poised.reasons g (by simp)).mp ?_
      simp [Reasons.isEmpty, hline]
    have hput : s.turn.putReason g .line false = s.turn.setReasons g ((s.engine g).reasons.put .line false) :=
      if_neg (by simp [Reasons.has, hline])
    refine Turn.settle_ready (s.turn.putReason g .line false) s g (.inl ?_)
    rw [hput]
    rcases s.turn.setReasons_cases g ((s.engine g).reasons.put .line false) with ⟨hn, _⟩ | ⟨_, _, e⟩ | ⟨hiff, _⟩
    · exact absurd hu hn
    · rw [e]
      simp
    · have := hiff.mp hu
      rw [hempty] at this
      cases this
  · next hz =>
    refine (hst.poised.reasons g (by simp)).mp ?_
    by_contra hne
    exact hz ((Reasons.isEmpty_iff _).mp (by simpa using hne))

/-! ## The change of DOWN -/

/-- A port's conditions with DOWN as given, the event posted. -/
def State.downed (s : State) (p : Port) (b : Bool) : State :=
  (s.setCondition p { s.condition p with down := b }).post
    (conditionEvent (s.setCondition p { s.condition p with down := b }) p 0)

theorem State.setDown_working (s : State) (k : Circuit) (b : Bool) :
    s.setDown (workPort k) b = (s.downed (workPort k) b).writeCondClass k ({ s.condition (workPort k) with down := b }.cls) := by
  have hcls : ((s.downed (workPort k) b).condition (workPort k)).cls = { s.condition (workPort k) with down := b }.cls := by
    unfold State.downed
    rw [State.post_condition, State.setCondition_condition_same]
  rw [← hcls]
  unfold State.setDown
  dsimp only
  rw [portUse_workPort]
  rfl

theorem State.setDown_spare (s : State) (g : Spare) (b : Bool) :
    s.setDown (sparePort g) b
      = if b then (s.downed (sparePort g) b).spareDown g else (s.downed (sparePort g) b).spareUp g := by
  unfold State.setDown
  dsimp only
  rw [portUse_sparePort]
  rfl

theorem State.downed_watching (s : State) (h : s.Agreement) (p : Port) (c : Condition) (b : Bool) :
    ((s.setCondition p c).downed p b).Steady ((s.setCondition p c).downed p b).watching [] [] := by
  have hw : ((s.setCondition p c).downed p b).watching = s.watching := by
    unfold State.watching State.downed
    simp only [State.post_engine]
    rfl
  rw [hw]
  refine State.Steady.post ?_ _
  exact h.watching.of_same rfl rfl (fun _ => rfl) fun _ => rfl

/-- What every change of DOWN leaves of the ports. -/
theorem State.setDown_ports (s : State) (p : Port) (c : Condition) (b : Bool) :
    let t := ((s.setCondition p c).setDown p b).finish
    t.conditions = tabSet s.conditions p { c with down := b } ∧ t.monitors = s.monitors ∧ t.store = s.store := by
  dsimp only
  have hl : ((s.setCondition p c).setDown p b).lines = (s.setCondition p { c with down := b }).lines := by
    rw [State.lines_setDown, State.setCondition_condition_same, State.setCondition_condition_twice]
  rw [State.finish_conditions, State.finish_monitors, State.finish_store, State.lines_conditions hl]
  exact ⟨rfl, (State.same_of_lines State.monitors (fun _ => rfl) hl).trans rfl,
    (State.same_of_lines State.store (fun _ => rfl) hl).trans rfl⟩

/-- The cond_class that a change of DOWN of a working line writes. -/
theorem State.setDown_condClass (s : State) (k : Circuit) (c : Condition) (b : Bool) :
    (((s.setCondition (workPort k) c).setDown (workPort k) b).finish.record k).condClass = { c with down := b }.cls := by
  rw [State.finish_record, State.setDown_working, (State.writeCondClass_classes _ k k _).1, if_pos rfl,
    State.setCondition_condition_same]

theorem State.downed_qualifiers (s : State) (p : Port) (c : Condition) (b : Bool) :
    ((s.setCondition p c).downed p b).qualifiers = s.qualifiers :=
  State.qualifiers_of_calm (s := s.setCondition p { c with down := b }) (by
    unfold State.downed
    rw [State.setCondition_condition_same, State.setCondition_condition_twice]
    exact State.calm_of_ground (State.ground_post ..))

/-- The clearing of DOWN leaves the qualifiers. -/
theorem State.setUp_qualifiers (s : State) (p : Port) (c : Condition) :
    ((s.setCondition p c).setDown p false).finish.qualifiers = s.qualifiers := by
  rw [State.finish_qualifiers]
  cases hp : portUse p with
  | working k =>
    obtain rfl := portUse_eq_working hp
    rw [State.setDown_working, State.qualifiers_of_calm (State.calm_writeCondClass ..)]
    exact State.downed_qualifiers ..
  | spare g =>
    obtain rfl := portUse_eq_spare hp
    rw [State.setDown_spare, if_neg (by simp)]
    unfold State.spareUp
    rw [State.qualifiers_of_sources (State.sources_of_ground (Turn.ground_settle ..)),
      State.qualifiers_of_sources (State.sources_of_still (Turn.still_putReason ..))]
    exact State.downed_qualifiers ..

theorem State.setDown_far (s : State) (g : Spare) (c : Condition) :
    (((s.setCondition (sparePort g) c).setDown (sparePort g) true).finish.qualifier g).far = none := by
  rw [State.finish_qualifier, State.setDown_spare, if_pos rfl]
  unfold State.qualifier
  rw [State.spareDown_qualifiers]
  exact congrArg Qualifier.far (State.setQualifier_qualifier_same ..)

theorem State.downed_engine (s : State) (p : Port) (c : Condition) (b : Bool) (g : Spare) :
    ((s.setCondition p c).downed p b).engine g = s.engine g := by
  unfold State.downed
  rw [State.post_engine]
  rfl

end DelayExpiry

/-- Settles O38: each delay's end changes DOWN, and a spare's LINE with it. -/
theorem onsetAndClearExpiry : Obligations.OnsetAndClearExpiry := by
  intro s p hs
  have honset : exec (.onsetTimerExpiry p) s = .next (s.inService fun s => s.onsetExpiry p) := rfl
  have hclear : exec (.clearTimerExpiry p) s = .next (s.inService fun s => s.clearExpiry p) := rfl
  rw [honset, hclear, State.inService_out hs, State.inService_out hs]
  unfold State.onsetExpiry State.clearExpiry
  refine ⟨fun h => by rw [h]; rfl, fun h => by rw [h]; rfl, fun h => ⟨_, rfl, ?_⟩, fun h => ⟨_, rfl, ?_⟩⟩ <;>
    rw [if_pos (Option.isSome_iff_ne_none.mpr h)]
  · obtain ⟨hcond, hmon, hstore⟩ := s.setDown_ports p { s.condition p with onsetTimer := none } true
    refine ⟨hcond, hmon, hstore, fun k hk => ?_, fun g hg => ?_⟩
    · obtain rfl := portUse_eq_working hk
      rw [State.setDown_condClass]
      rfl
    · obtain rfl := portUse_eq_spare hg
      refine ⟨State.setDown_far .., fun ha => ?_⟩
      rw [State.finish_engine, State.setDown_spare, if_pos rfl]
      have hdown := State.Steady.spareDown_engine
        (s.downed_watching ha (sparePort g) { s.condition (sparePort g) with onsetTimer := none } true) g
      rwa [State.downed_engine] at hdown
  · obtain ⟨hcond, hmon, hstore⟩ := s.setDown_ports p { s.condition p with clearTimer := none } false
    refine ⟨hcond, hmon, hstore, State.setUp_qualifiers .., fun k hk => ?_, fun g hg ha => ?_⟩
    · obtain rfl := portUse_eq_working hk
      rw [State.setDown_condClass]
      rfl
    · obtain rfl := portUse_eq_spare hg
      rw [State.finish_engine, State.setDown_spare, if_neg (by simp)]
      have hup := State.Steady.spareUp_engine
        (s.downed_watching ha (sparePort g) { s.condition (sparePort g) with clearTimer := none } false) g
      rwa [State.downed_engine] at hup

end Sys2Proof.Machine
end

