-- ==== Sys2Proof/Proofs/OpeningPass.lean ====
section
/-! Proofs: the grant pass on a state in which no engine holds a circuit. -/

namespace Sys2Proof.Machine

/-! ## What an event reads and writes -/

/-- What the posting of an event reads. -/
def State.reported (s : State) : State :=
  { State.reset with events := s.events, regs := { Registers.reset with eventMask := s.regs.eventMask } }

theorem State.reported_post (s : State) (e : Event) : (s.post e).reported = (s.reported.post e).reported := by
  have hr : s.reported.post e = if !s.unmasked e.kind then s.reported
      else if s.events.places.length < Config.eventPlaces then
        s.reported.setEvents { s.events with places := s.events.places ++ [{ sequence := s.events.next, event := e }],
                                             next := s.events.next + 1 }
      else match s.events.overflow with
        | none =>
          { s.reported.setEvents { s.events with overflow := some { sequence := s.events.next, lost := 1 },
                                                 next := s.events.next + 1 }
            with regs := { s.reported.regs with overrunSeen := true } }
        | some o =>
          if o.lost < Config.lostCap then
            s.reported.setEvents { s.events with overflow := some { o with lost := o.lost + 1 }, next := s.events.next + 1 }
          else s.reported := rfl
  rw [hr]
  unfold State.post
  split
  · rfl
  · split
    · rfl
    · cases s.events.overflow with
      | none => rfl
      | some o =>
        dsimp only
        split
        · rfl
        · rfl

theorem State.reported_postAll (s : State) (l : List Event) : (s.postAll l).reported = (s.reported.postAll l).reported := by
  induction l generalizing s with
  | nil => rfl
  | cons e l ih =>
    show ((s.post e).postAll l).reported = ((s.reported.post e).postAll l).reported
    rw [ih, ih (s.reported.post e), State.reported_post]

/-- States that an event reads alike report alike. -/
theorem State.reported_congr {x y : State} (h : x.reported = y.reported) (l : List Event) :
    (x.postAll l).reported = (y.postAll l).reported := by
  rw [State.reported_postAll, h, ← State.reported_postAll]

theorem State.events_of_reported {x y : State} (h : x.reported = y.reported) : x.events = y.events := by
  have e : x.reported.events = y.reported.events := by rw [h]
  exact e

theorem State.reported_of_still {x y : State} (h : x.still = y.still) : x.reported = y.reported := by
  have e : x.still.reported = y.still.reported := by rw [h]
  exact e

theorem State.postAll_append (s : State) (l1 l2 : List Event) : s.postAll (l1 ++ l2) = (s.postAll l1).postAll l2 :=
  List.foldl_append ..

section OpeningPass

variable {cls : Circuit → Nat} {x y z : State} {t : Turn} {F : List Spare} {Q R : List Circuit} {g i : Spare} {h k : Circuit}
  {P : List (Spare × Circuit)}

/-! ## A grant -/

theorem Turn.enterPreparing_of_free (hg : (t.st.engine g).state = .free) (k : Circuit) :
    t.enterPreparing g k = (((t.change fun s => (s.cancelTransfer g).startTransfer g (.circuit k)).moveRecord g k
      (.assigned g) .back).change fun s => s.updateKind k).enterEngine g (.preparing k) none none := by
  have hend : t.endTestOrLoop g .overtaken = t := by
    unfold Turn.endTestOrLoop
    rw [hg]
  unfold Turn.enterPreparing
  rw [hend]

/-- The REQUEST and the SPARE event of a grant. -/
def grantEvents (cls : Circuit → Nat) (p : Spare × Circuit) : List Event :=
  [{ kind := .request, subject := byte p.2.val, detail1 := byte (0x30 + p.1.val), detail2 := byte (cls p.2) },
   { kind := .spare, subject := byte (10 + p.1.val), detail1 := 1, detail2 := byte (16 * p.2.val + 15) }]

theorem requestEvent_assigned (hs : (x.record k).state = .assigned g) (hc : x.effClass k = cls k) :
    requestEvent x k
      = { kind := .request, subject := byte k.val, detail1 := byte (0x30 + g.val), detail2 := byte (cls k) } := by
  have hb : ∀ g : Spare, (RequestState.assigned g).byte = byte (0x30 + g.val) := by decide
  unfold requestEvent
  rw [hs, hc, hb]
  rfl

theorem spareEvent_preparing (hs : (x.engine g).state = .preparing k) :
    spareEvent x g
      = { kind := .spare, subject := byte (10 + g.val), detail1 := 1, detail2 := byte (16 * k.val + 15) } := by
  have hb : ∀ k : Circuit, (EngineState.preparing k).circuitByte = byte (16 * k.val + 15) := by decide
  unfold spareEvent
  rw [hs, hb]
  rfl

/-- A grant to a FREE engine reports the record and the spare. -/
theorem Turn.enterPreparing_ordered (hp : t.posts = []) (hg : (t.st.engine g).state = .free)
    (hk : (t.st.record k).state = .queued) (hc : t.st.effClass k = cls k) :
    (t.enterPreparing g k).ordered = grantEvents cls (g, k) := by
  set u := t.change fun s => (s.cancelTransfer g).startTransfer g (.circuit k) with hu
  set v := u.change fun s => (s.setQueue (s.requeue k (RequestState.assigned g = .queued) .back)).setRecord k
    { s.record k with state := .assigned g, returnTimer := none } with hv
  have hmove : u.moveRecord g k (.assigned g) .back = v.gatherRequest g (requestEvent v.st k) := by
    unfold Turn.moveRecord
    dsimp only
    rw [if_neg]
    simp [hu, State.startTransfer, hk]
  have hreq : requestEvent v.st k
      = { kind := .request, subject := byte k.val, detail1 := byte (0x30 + g.val), detail2 := byte (cls k) } := by
    refine requestEvent_assigned (by simp [hv]) ?_
    rw [← hc]
    refine State.effClass_of_sources ?_ k
    have hm := State.sources_of_still (Turn.still_moveRecord u g k (.assigned g) .back)
    rw [hmove] at hm
    exact hm.trans (State.sources_of_still (by simp [hu]))
  set w := ((v.gatherRequest g (requestEvent v.st k)).change fun s => s.updateKind k).change fun s =>
    s.setEngine g { s.engine g with state := .preparing k, answerTimer := none, testTimer := none } with hw
  have hspare : spareEvent w.st g
      = { kind := .spare, subject := byte (10 + g.val), detail1 := 1, detail2 := byte (16 * k.val + 15) } :=
    spareEvent_preparing (by simp [hw])
  have hall : t.enterPreparing g k = w.gather (.spares g) (spareEvent w.st g) := by
    rw [Turn.enterPreparing_of_free hg, ← hu, hmove]
    rfl
  have hposts : (t.enterPreparing g k).posts = [(.requests g, requestEvent v.st k), (.spares g, spareEvent w.st g)] := by
    rw [hall]
    show (t.posts.map (drawForward g (requestEvent v.st k)) ++ _) ++ _ = _
    rw [hp]
    rfl
  unfold Turn.ordered
  rw [hposts, hreq, hspare]
  rcases spare_zero_or_one g with rfl | rfl
  · rfl
  · rfl

/-! ## The state between two grants -/

/-- No engine holds a circuit but one that comes before the whole queue; the FREE spares, the queue in claim order, and the
class of each record. -/
structure State.Open (cls : Circuit → Nat) (x : State) (F : List Spare) (Q : List Circuit) : Prop where
  engines : ∀ g, (x.engine g).state = .free ∨ (x.engine g).state = .unavailable
    ∨ ∃ k, (x.engine g).state = .preparing k ∧ ∀ j ∈ Q, beforeClaim (k, cls k) (j, cls j) = true
  free : (allSpares.filter fun g => (x.engine g).state = .free) = F
  queue : x.queue = Q
  nodup : Q.Nodup
  order : Q.Pairwise fun j k => beforeClaim (j, cls j) (k, cls k) = true
  far : ∀ g, x.farClaim g = none
  queued : ∀ k ∈ Q, (x.record k).state = .queued
  condition : ∀ k ∈ Q, 0 < (x.record k).condClass
  effClass : ∀ k, x.effClass k = cls k

theorem State.Open.mem_free (hx : x.Open cls F Q) : g ∈ F ↔ (x.engine g).state = .free := by
  have hg : g ∈ allSpares := by
    revert g
    decide
  rw [← hx.free]
  simp [hg]

theorem State.Open.nodup_free (hx : x.Open cls F Q) : F.Nodup := by
  have hn : allSpares.Nodup := by decide
  rw [← hx.free]
  exact hn.filter _

theorem State.Open.openTo (hx : x.Open cls F Q) (g : Spare) (h : Circuit) (c : Nat) : x.openTo g h c = true := by
  unfold State.openTo
  rw [hx.far]

/-- A grant to the first FREE spare of the head. -/
theorem Turn.passStep_of_open (hx : t.st.Open cls (g :: F) (h :: R)) : t.passStep = some (t.enterPreparing g h) := by
  have hfind : t.st.openSpareWhere h (t.st.effClass h) (· = .free) = some g := by
    unfold State.openSpareWhere
    have hhead : (allSpares.filter fun i => t.st.openTo i h (t.st.effClass h) && decide ((t.st.engine i).state = .free)).head?
        = some g := by
      simp only [hx.openTo, Bool.true_and, hx.free]
      rfl
    rw [← List.head?_filter]
    exact hhead
  unfold Turn.passStep
  rw [hx.queue]
  dsimp only
  rw [hfind]

/-- No spare is left, and none that holds a circuit loses it. -/
theorem Turn.passStep_of_taken (hx : t.st.Open cls [] Q) : t.passStep = none := by
  have hfree : ∀ g, (t.st.engine g).state ≠ .free := fun g hg => by
    have := hx.mem_free.mpr hg
    cases this
  unfold Turn.passStep
  rw [hx.queue]
  cases Q with
  | nil => rfl
  | cons h rest =>
    have hnone : ∀ ok : EngineState → Bool, ok .unavailable = false → (∀ k, ok (.preparing k) = false) →
        t.st.openSpareWhere h (t.st.effClass h) ok = none := by
      intro ok hu hk
      refine List.find?_eq_none.mpr fun g _ => ?_
      rcases hx.engines g with e | e | ⟨k, e, _⟩
      · exact absurd e (hfree g)
      · simp [e, hu]
      · simp [e, hk]
    have hloses : ∀ g, t.st.loses g h (t.st.effClass h) = false := by
      intro g
      unfold State.loses State.holdingClaim
      rcases hx.engines g with e | e | ⟨k, e, hk⟩
      · rw [e]
      · rw [e]
      · have hb := hk h (by simp)
        have hne : k ≠ h := by
          rintro rfl
          simp [beforeClaim] at hb
        rw [e]
        dsimp only
        rw [hx.effClass, hx.effClass]
        by_contra hc
        exact (beforeClaim_total (k, cls k) (h, cls h) hne).mp hb (by simpa using hc)
    have hvictim : t.st.victim h (t.st.effClass h) = none := by
      unfold State.victim
      rw [hloses, hloses]
    dsimp only
    rw [hnone _ (by simp) (by simp), hnone _ rfl fun _ => rfl, hvictim]
    rfl

/-! ## The grants of the pass -/

/-- The grants made, each of a circuit to a spare, and nothing else. -/
structure State.Granted (cls : Circuit → Nat) (x y : State) (P : List (Spare × Circuit)) (R : List Circuit) : Prop where
  engine : ∀ g k, (g, k) ∈ P → (y.engine g) = { x.engine g with
    state := .preparing k, answerTimer := none, testTimer := none }
  engines : ∀ g, (∀ k, (g, k) ∉ P) → y.engine g = x.engine g
  record : ∀ g k, (g, k) ∈ P → y.record k = { x.record k with
    state := .assigned g, returnTimer := none, returnKind := .condition }
  records : ∀ k, (∀ g, (g, k) ∉ P) → y.record k = x.record k
  transfer : ∀ g k, (g, k) ∈ P → (y.transfer g).map (·.source) = some (.circuit k)
  transfers : ∀ g, (∀ k, (g, k) ∉ P) → y.transfer g = x.transfer g
  queue : y.queue = R
  reported : y.reported = (x.postAll (P.flatMap (grantEvents cls))).reported

theorem State.Granted.none (x : State) : x.Granted cls x [] x.queue where
  engine := fun _ _ hp => by cases hp
  engines := fun _ _ => rfl
  record := fun _ _ hp => by cases hp
  records := fun _ _ => rfl
  transfer := fun _ _ hp => by cases hp
  transfers := fun _ _ => rfl
  queue := rfl
  reported := rfl

/-- One grant of the pass. -/
theorem Turn.grant_granted (hp : t.posts = []) (hx : t.st.Open cls (g :: F) (h :: R)) :
    t.st.Granted cls (t.enterPreparing g h).flush.st [(g, h)] R := by
  have hg : (t.st.engine g).state = .free := hx.mem_free.mp (by simp)
  have hk := hx.queued h (by simp)
  have hpos := hx.condition h (by simp)
  have hkind : t.st.kindNow h = .condition := by
    have hne : t.st.effClass h ≠ 0 := by
      rw [State.effClass_eq]
      omega
    unfold State.kindNow returnKindOf
    rw [if_neg hne, if_pos (.inl hpos)]
  have hlast : (t.st.engine g).ended .overtaken = (t.st.engine g).lastResult := by
    unfold Engine.ended
    rw [hg]
  have hq : (h :: R).filter (· ≠ h) = R := by
    obtain ⟨hh, _⟩ := List.nodup_cons.mp hx.nodup
    rw [List.filter_cons_of_neg (by simp)]
    exact List.filter_eq_self.mpr fun i hi => by simpa using fun e : i = h => hh (e ▸ hi)
  exact {
    engine := fun i k hm => by
      obtain ⟨rfl, rfl⟩ := Prod.mk.inj (List.mem_singleton.mp hm)
      rw [Turn.flush_st, State.postAll_engine, Turn.enterPreparing_engine, hlast]
    engines := fun i hi => by
      have hne : g ≠ i := by
        rintro rfl
        exact hi h (by simp)
      rw [Turn.flush_st, State.postAll_engine, Turn.enterPreparing_engine_other _ _ hne]
    record := fun i k hm => by
      obtain ⟨rfl, rfl⟩ := Prod.mk.inj (List.mem_singleton.mp hm)
      rw [Turn.flush_st, State.postAll_record, Turn.enterPreparing_record, hkind]
    records := fun k hk => by
      have hne : h ≠ k := by
        rintro rfl
        exact hk g (by simp)
      rw [Turn.flush_st, State.postAll_record, Turn.enterPreparing_record_other _ _ hne]
    transfer := fun i k hm => by
      obtain ⟨rfl, rfl⟩ := Prod.mk.inj (List.mem_singleton.mp hm)
      rw [Turn.flush_st, State.postAll_transfer, Turn.enterPreparing_transfer]
      rfl
    transfers := fun i hi => by
      have hne : g ≠ i := by
        rintro rfl
        exact hi h (by simp)
      rw [Turn.flush_st, State.postAll_transfer, Turn.enterPreparing_transfer_other _ hne]
    queue := by
      rw [Turn.flush_st, State.postAll_queue, Turn.enterPreparing_queue, hx.queue, hq]
    reported := by
      rw [Turn.flush_st, Turn.enterPreparing_ordered hp hg hk (hx.effClass h), List.flatMap_cons, List.flatMap_nil,
        List.append_nil]
      exact State.reported_congr (State.reported_of_still (Turn.still_enterPreparing ..)) _ }

/-- After the grant the next spare and the next circuit stand first. -/
theorem State.Open.granted (hx : x.Open cls (g :: F) (h :: R)) (hy : x.Granted cls y [(g, h)] R)
    (hs : y.sources = x.sources) : y.Open cls F R := by
  obtain ⟨hh, hn⟩ := List.nodup_cons.mp hx.nodup
  obtain ⟨hgF, _⟩ := List.nodup_cons.mp hx.nodup_free
  obtain ⟨hfirst, horder⟩ := List.pairwise_cons.mp hx.order
  have hsame : ∀ k ∈ R, y.record k = x.record k := fun k hk => hy.records k fun i hi => by
    obtain ⟨_, rfl⟩ := Prod.mk.inj (List.mem_singleton.mp hi)
    exact hh hk
  have hg : (y.engine g).state = .preparing h := by rw [hy.engine g h (by simp)]
  have hother : ∀ i, i ≠ g → y.engine i = x.engine i := fun i hi => hy.engines i fun k hk =>
    hi (Prod.mk.inj (List.mem_singleton.mp hk)).1
  refine ⟨fun i => ?_, ?_, hy.queue, hn, horder, fun i => ?_, fun k hk => ?_, fun k hk => ?_, fun k => ?_⟩
  · by_cases hi : i = g
    · subst hi
      exact .inr (.inr ⟨h, hg, hfirst⟩)
    · rw [hother i hi]
      exact (hx.engines i).imp_right fun e => e.imp_right fun ⟨k, e, hk⟩ => ⟨k, e, fun j hj => hk j (by simp [hj])⟩
  · have hfilter : (allSpares.filter fun i => (y.engine i).state = .free)
        = (allSpares.filter fun i => (x.engine i).state = .free).filter (· ≠ g) := by
      rw [List.filter_filter]
      refine List.filter_congr fun i _ => ?_
      by_cases hi : i = g
      · subst hi
        simp [hg]
      · simp [hother i hi, hi]
    rw [hfilter, hx.free, List.filter_cons_of_neg (by simp)]
    exact List.filter_eq_self.mpr fun i hi => by simpa using fun e : i = g => hgF (e ▸ hi)
  · rw [State.farClaim_of_sources hs, hx.far]
  · rw [hsame k hk]
    exact hx.queued k (by simp [hk])
  · rw [hsame k hk]
    exact hx.condition k (by simp [hk])
  · rw [State.effClass_of_sources hs, hx.effClass]

/-- A grant before other grants. -/
theorem State.Granted.cons (hy : x.Granted cls y [(g, h)] Q) (hz : y.Granted cls z P R)
    (hg : ∀ k, (g, k) ∉ P) (hh : ∀ i, (i, h) ∉ P) : x.Granted cls z ((g, h) :: P) R := by
  have hnot : ∀ i, i ≠ g → ∀ k, (i, k) ∉ [(g, h)] := fun i hi k hk => hi (Prod.mk.inj (List.mem_singleton.mp hk)).1
  have hnot' : ∀ k, k ≠ h → ∀ i, (i, k) ∉ [(g, h)] := fun k hk i hi => hk (Prod.mk.inj (List.mem_singleton.mp hi)).2
  have hspare : ∀ i k, (i, k) ∈ P → i ≠ g := fun i k hm e => hg k (e ▸ hm)
  have hcircuit : ∀ i k, (i, k) ∈ P → k ≠ h := fun i k hm e => hh i (e ▸ hm)
  exact {
    engine := fun i k hm => by
      rcases List.mem_cons.mp hm with e | hm
      · obtain ⟨rfl, rfl⟩ := Prod.mk.inj e
        rw [hz.engines i hg, hy.engine i k (by simp)]
      · rw [hz.engine i k hm, hy.engines i (hnot i (hspare i k hm))]
    engines := fun i hi => by
      have hne : i ≠ g := by
        rintro rfl
        exact hi h (by simp)
      rw [hz.engines i fun k hk => hi k (by simp [hk]), hy.engines i (hnot i hne)]
    record := fun i k hm => by
      rcases List.mem_cons.mp hm with e | hm
      · obtain ⟨rfl, rfl⟩ := Prod.mk.inj e
        rw [hz.records k hh, hy.record i k (by simp)]
      · rw [hz.record i k hm, hy.records k (hnot' k (hcircuit i k hm))]
    records := fun k hk => by
      have hne : k ≠ h := by
        rintro rfl
        exact hk g (by simp)
      rw [hz.records k fun i hi => hk i (by simp [hi]), hy.records k (hnot' k hne)]
    transfer := fun i k hm => by
      rcases List.mem_cons.mp hm with e | hm
      · obtain ⟨rfl, rfl⟩ := Prod.mk.inj e
        rw [hz.transfers i hg, hy.transfer i k (by simp)]
      · exact hz.transfer i k hm
    transfers := fun i hi => by
      have hne : i ≠ g := by
        rintro rfl
        exact hi h (by simp)
      rw [hz.transfers i fun k hk => hi k (by simp [hk]), hy.transfers i (hnot i hne)]
    queue := hz.queue
    reported := by
      rw [hz.reported, State.reported_congr hy.reported, ← State.postAll_append]
      simp [List.flatMap_cons] }

/-- The pass grants the FREE spares the first circuits, and ends. -/
theorem Turn.pass_grants (n : Nat) (hp : t.posts = []) (hx : t.st.Open cls F Q) (hn : F.length < n) :
    t.st.Granted cls (Turn.pass n t).st (F.zip Q) (Q.drop (F.zip Q).length)
      ∧ (Turn.pass n t).posts = [] ∧ (Turn.pass n t).late = t.late := by
  induction n generalizing t F Q with
  | zero => omega
  | succ n ih =>
    have ends : t.passStep = none → F.zip Q = [] → t.st.Granted cls (Turn.pass (n + 1) t).st (F.zip Q)
        (Q.drop (F.zip Q).length) ∧ (Turn.pass (n + 1) t).posts = [] ∧ (Turn.pass (n + 1) t).late = t.late := by
      intro hstep hz
      have hpass : Turn.pass (n + 1) t = t := Turn.pass_of_none hstep _
      have hnone := State.Granted.none (cls := cls) t.st
      rw [hx.queue] at hnone
      rw [hpass, hz]
      exact ⟨hnone, hp, rfl⟩
    cases F with
    | nil => exact ends (Turn.passStep_of_taken hx) rfl
    | cons g F =>
      cases Q with
      | nil => exact ends (Turn.passStep_of_empty hx.queue) rfl
      | cons h R =>
        have hstep := Turn.passStep_of_open hx
        have hpass : Turn.pass (n + 1) t = Turn.pass n (t.enterPreparing g h).flush := by
          conv_lhs => unfold Turn.pass
          rw [hstep]
        have hgrant := Turn.grant_granted hp hx
        have hsrc : (t.enterPreparing g h).flush.st.sources = t.st.sources := by
          rw [Turn.flush_st, State.sources_postAll, Turn.sources_enterPreparing]
        have hopen := hx.granted hgrant hsrc
        obtain ⟨hrest, hposts, hlate⟩ := ih (t := (t.enterPreparing g h).flush) rfl hopen (by simpa using hn)
        obtain ⟨hgF, _⟩ := List.nodup_cons.mp hx.nodup_free
        obtain ⟨hhR, _⟩ := List.nodup_cons.mp hx.nodup
        have hg : (t.st.engine g).state = .free := hx.mem_free.mp (by simp)
        rw [hpass]
        refine ⟨hgrant.cons hrest (fun k hk => hgF (List.of_mem_zip hk).1) fun i hi => hhR (List.of_mem_zip hi).2, hposts,
          hlate.trans ?_⟩
        have hfree : (t.st.engine g).state.testingOrLooped = false := by
          rw [hg]
          rfl
        rw [Turn.flush_late, t.enterPreparing_late h hfree]

theorem Turn.close_of_empty (hp : t.posts = []) (hl : t.late = []) : t.close = t.st := by
  have hordered : t.ordered = [] := by
    unfold Turn.ordered
    rw [hp]
    rfl
  unfold Turn.close
  rw [Turn.flush_st, hordered, hl]
  rfl

theorem State.pass_closes (n : Nat) (hx : x.Open cls F Q) (hn : F.length < n) :
    x.Granted cls (Turn.pass n x.turn).close (F.zip Q) (Q.drop (F.zip Q).length) := by
  obtain ⟨hgranted, hposts, hlate⟩ := Turn.pass_grants (t := x.turn) n rfl hx hn
  rw [Turn.close_of_empty hposts hlate]
  exact hgranted

/-- A turn that begins with nothing gathered, and ends with its pass. -/
theorem State.settle_grants (hx : x.Open cls F Q) (hF : F.length < Config.passBound) :
    x.Granted cls x.turn.settleWithPass (F.zip Q) (Q.drop (F.zip Q).length) :=
  State.pass_closes Config.passBound hx hF

end OpeningPass

end Sys2Proof.Machine
end

