-- ==== Sys2Proof/Proofs/RestartTaken.lean ====
section
/-! Proofs: O23, RESTART. -/

namespace Sys2Proof.Machine

/-! ## The queue in class order -/

section RestedQueue

variable {cls : Circuit → Nat} {k : Circuit} {l A B : List Circuit}

theorem placeBack_append_of_le (hA : ∀ j ∈ A, cls k ≤ cls j) : placeBack cls k (A ++ B) = A ++ placeBack cls k B := by
  induction A with
  | nil => rfl
  | cons j A ih =>
    show (if cls k ≤ cls j then j :: placeBack cls k (A ++ B) else _) = _
    rw [if_pos (hA j (by simp)), ih fun i hi => hA i (by simp [hi])]
    rfl

theorem placeBack_of_lt (hB : ∀ j ∈ B, cls j < cls k) : placeBack cls k B = k :: B := by
  cases B with
  | nil => rfl
  | cons j B => exact if_neg (Nat.not_le.mpr (hB j (by simp)))

theorem placeBack_of_le (hB : ∀ j ∈ B, cls k ≤ cls j) : placeBack cls k B = B ++ [k] := by
  have h := placeBack_append_of_le (B := []) hB
  rwa [List.append_nil] at h

/-- Circuits of class 3 and 2 placed one by one stand in class order, each class as it came. -/
theorem foldl_placeBack_split (hl : ∀ k ∈ l, cls k = 3 ∨ cls k = 2) (hA : ∀ j ∈ A, cls j = 3) (hB : ∀ j ∈ B, cls j = 2) :
    l.foldl (fun q k => placeBack cls k q) (A ++ B)
      = (A ++ l.filter fun k => cls k = 3) ++ (B ++ l.filter fun k => cls k = 2) := by
  induction l generalizing A B with
  | nil => simp
  | cons k l ih =>
    have hrest : ∀ k ∈ l, cls k = 3 ∨ cls k = 2 := fun i hi => hl i (by simp [hi])
    rw [List.foldl_cons]
    rcases hl k (by simp) with hk | hk
    · have hplace : placeBack cls k (A ++ B) = (A ++ [k]) ++ B := by
        rw [placeBack_append_of_le fun j hj => by rw [hA j hj, hk],
          placeBack_of_lt fun j hj => by rw [hB j hj, hk]; omega]
        simp
      rw [hplace, ih hrest (fun j hj => (List.mem_append.mp hj).elim (hA j) fun e => List.mem_singleton.mp e ▸ hk) hB]
      simp [hk]
    · have hplace : placeBack cls k (A ++ B) = A ++ (B ++ [k]) := by
        rw [placeBack_append_of_le fun j hj => by rw [hA j hj, hk]; omega,
          placeBack_of_le fun j hj => by rw [hB j hj, hk]]
      rw [hplace, ih hrest hA fun j hj => (List.mem_append.mp hj).elim (hB j) fun e => List.mem_singleton.mp e ▸ hk]
      simp [hk]

theorem allCircuits_ascending : allCircuits.Pairwise (· < ·) := by decide

end RestedQueue

section RestartTaken

variable {s : State} {g : Spare} {k : Circuit}

theorem State.ClassesInRange.condition (h : s.ClassesInRange) (k : Circuit) :
    (s.record k).condClass = 0 ∨ (s.record k).condClass = 2 ∨ (s.record k).condClass = 3 := by
  simpa using (h k).1

theorem State.restarted_restingState (s : State) (k : Circuit) : s.restarted.restingState k = s.restedState k := by
  have hb : (s.restarted.record k).barred = (s.record k).barred := by
    rw [State.restarted_record]
    rfl
  have hd : (s.restarted.record k).declined = false := by
    rw [State.restarted_record]
    rfl
  unfold State.restingState State.restedState
  rw [State.restarted_effClass, hb, hd, Bool.or_false]

theorem State.mem_restedQueue (h : s.ClassesInRange) : k ∈ s.restedQueue ↔ s.restedState k = .queued := by
  unfold State.restedQueue State.restedState
  rcases h.condition k with e | e | e <;> cases hb : (s.record k).barred <;> simp [mem_allCircuits, e, hb]

theorem State.restarted_restedQueue (h : s.ClassesInRange) : s.restarted.queue = s.restedQueue := by
  have hsrc := s.restarted_sources
  have heff : s.emptied.effClass = fun k => (s.record k).condClass := funext fun k => by
    rw [← State.effClass_of_sources hsrc, State.restarted_effClass]
  have hrest : ∀ k, s.emptied.restingState k = s.restedState k := fun k => by
    rw [← State.restingState_of_sources hsrc, State.restarted_restingState]
  have hclass : ∀ k ∈ allCircuits.filter fun k => s.restedState k = .queued,
      (s.record k).condClass = 3 ∨ (s.record k).condClass = 2 := by
    intro k hk
    have hq : s.restedState k = .queued := by simpa using (List.mem_filter.mp hk).2
    rcases h.condition k with e | e | e
    · unfold State.restedState at hq
      rw [if_pos e] at hq
      cases hq
    · exact .inr e
    · exact .inl e
  have hsplit := foldl_placeBack_split (A := []) (B := []) hclass (by simp) (by simp)
  rw [State.restarted_queue]
  unfold State.rebuiltQueue State.restedQueue
  simp only [heff, hrest]
  rw [List.nil_append, List.nil_append] at hsplit
  rw [hsplit, List.filter_filter, List.filter_filter]
  have hfilter : ∀ c, c ≠ 0 → (allCircuits.filter fun k => decide ((s.record k).condClass = c) && decide (s.restedState k = .queued))
      = allCircuits.filter fun k => (s.record k).condClass = c ∧ (s.record k).barred = false := by
    intro c hc
    refine List.filter_congr fun k _ => ?_
    by_cases e : (s.record k).condClass = c
    · unfold State.restedState
      cases hb : (s.record k).barred <;> simp [e, hc]
    · simp [e]
  rw [hfilter 3 (by simp), hfilter 2 (by simp)]
  rfl

/-- The rebuilt queue stands in claim order. -/
theorem State.restedQueue_order (s : State) : s.restedQueue.Pairwise fun j k =>
    beforeClaim (j, (s.record j).condClass) (k, (s.record k).condClass) = true := by
  have group : ∀ c, (allCircuits.filter fun k => (s.record k).condClass = c ∧ (s.record k).barred = false).Pairwise
      fun j k => beforeClaim (j, (s.record j).condClass) (k, (s.record k).condClass) = true := by
    intro c
    have hclass : ∀ k ∈ allCircuits.filter (fun k => (s.record k).condClass = c ∧ (s.record k).barred = false),
        (s.record k).condClass = c := fun k hk => by
      have := (List.mem_filter.mp hk).2
      simp only [decide_eq_true_eq] at this
      exact this.1
    refine (allCircuits_ascending.filter _).imp_of_mem fun hj hk hlt => ?_
    rw [beforeClaim_iff]
    exact .inr ⟨(hclass _ hj).trans (hclass _ hk).symm, hlt⟩
  unfold State.restedQueue
  refine List.pairwise_append.mpr ⟨group 3, group 2, fun j hj k hk => ?_⟩
  have hj3 := (List.mem_filter.mp hj).2
  have hk2 := (List.mem_filter.mp hk).2
  simp only [decide_eq_true_eq] at hj3 hk2
  rw [beforeClaim_iff]
  exact .inl (by rw [hj3.1, hk2.1]; omega)

/-! ## The engines -/

theorem State.restartedEngine_reasons (s : State) (g : Spare) : (s.restartedEngine g).reasons = s.restedReasons g := rfl

theorem State.restartedEngine_state (s : State) (g : Spare) :
    (s.restartedEngine g).state = if (s.restedReasons g).flags = 0 then .free else .unavailable := by
  show (if (s.restedReasons g).isEmpty = true then EngineState.free else .unavailable) = _
  by_cases hz : (s.restedReasons g).flags = 0
  · rw [if_pos hz, if_pos ((Reasons.isEmpty_iff _).mpr hz)]
  · rw [if_neg hz, if_neg fun e => hz ((Reasons.isEmpty_iff _).mp e)]

theorem State.restartedTransfer_source (s : State) (g : Spare) : (s.restartedTransfer g).map (·.source)
    = if (s.engine g).state.circuit ≠ none ∨ (s.transfer g).map (·.source) = some .rest then some .rest else none := by
  have hrests : s.restsAtRestart g = true
      ↔ (s.engine g).state.circuit ≠ none ∨ (s.transfer g).map (·.source) = some .rest := by
    unfold State.restsAtRestart
    rw [Bool.or_eq_true, Option.isSome_iff_ne_none, beq_iff_eq]
  unfold State.restartedTransfer
  by_cases h : s.restsAtRestart g = true
  · rw [if_pos h, if_pos (hrests.mp h)]
    rfl
  · rw [if_neg h, if_neg fun e => h (hrests.mpr e)]
    rfl

/-- RESTART, its events posted, leaves the spares open to its queue. -/
theorem State.restarted_open (h : s.ClassesInRange) (l : List Event) :
    (s.restarted.postAll l).Open (fun k => (s.record k).condClass) (allSpares.filter fun g => (s.restedReasons g).flags = 0)
      s.restedQueue := by
  have hengine : ∀ g, ((s.restarted.postAll l).engine g).state
      = if (s.restedReasons g).flags = 0 then .free else .unavailable := fun g => by
    rw [State.postAll_engine, State.restarted_engine, State.restartedEngine_state]
  have hqueue : (s.restarted.postAll l).queue = s.restedQueue := by
    rw [State.postAll_queue, State.restarted_restedQueue h]
  refine ⟨fun g => ?_, ?_, hqueue, ?_, s.restedQueue_order, fun g => ?_, fun k hk => ?_, fun k hk => ?_, fun k => ?_⟩
  · rw [hengine]
    split
    · exact .inl rfl
    · exact .inr (.inl rfl)
  · refine List.filter_congr fun g _ => ?_
    rw [hengine]
    by_cases hz : (s.restedReasons g).flags = 0
    · rw [if_pos hz]
      simp [hz]
    · rw [if_neg hz]
      simpa using hz
  · rw [← State.restarted_restedQueue h]
    exact s.restarted_queueAgrees.1
  · rw [State.farClaim_of_sources (State.sources_postAll ..), State.restarted_farClaim]
  · rw [State.postAll_record, State.restarted_state, State.restarted_restingState]
    exact (State.mem_restedQueue h).mp hk
  · have hq := (State.mem_restedQueue h).mp hk
    rw [State.postAll_record, State.restarted_record]
    show 0 < (s.record k).condClass
    by_contra hz
    have e : (s.record k).condClass = 0 := by omega
    unfold State.restedState at hq
    rw [if_pos e] at hq
    cases hq
  · rw [State.effClass_of_sources (State.sources_postAll ..), State.restarted_effClass]

/-! ## What stays -/

theorem State.still_restartEngine (s : State) (g : Spare) : (s.restartEngine g).still = s.still := by
  unfold State.restartEngine
  dsimp only
  split <;> simp

/-- A state with both qualifiers reset. -/
def State.unqualified (s : State) : State := (s.setQualifier 0 Qualifier.reset).setQualifier 1 Qualifier.reset

theorem State.still_tornDown (s : State) : s.tornDown.still = s.unqualified.still :=
  (State.still_restartEngine (s.unqualified.restartEngine 0) 1).trans (State.still_restartEngine s.unqualified 0)

theorem State.restarted_calm (s : State) : s.restarted.calm = s.unqualified.calm := by
  obtain ⟨rs, e⟩ := s.restarted_tornDown
  have hrecords : s.restarted.calm = s.tornDown.calm := by
    rw [e]
    rfl
  exact hrecords.trans (State.calm_of_ground (State.ground_of_still s.still_tornDown))

theorem State.restarted_reported (s : State) : s.restarted.reported = s.reported := by
  obtain ⟨rs, e⟩ := s.restarted_tornDown
  have hrecords : s.restarted.reported = s.tornDown.reported := by
    rw [e]
    rfl
  exact hrecords.trans ((State.reported_of_still s.still_tornDown).trans rfl)

/-! ## The events -/

theorem State.restartRequests_eq (s : State) :
    restartRequests s s.restarted = (allCircuits.filter fun k => (s.record k).state ≠ s.restedState k).map fun k =>
      { kind := .request, subject := byte k.val, detail1 := (s.restedState k).byte,
        detail2 := byte (s.record k).condClass } := by
  have hevent : ∀ k, requestEvent s.restarted k
      = { kind := .request, subject := byte k.val, detail1 := (s.restedState k).byte,
          detail2 := byte (s.record k).condClass } := fun k => by
    unfold requestEvent
    rw [State.restarted_state, State.restarted_restingState, State.restarted_effClass]
    rfl
  unfold restartRequests
  simp only [State.restarted_state, State.restarted_restingState]
  exact List.map_congr_left fun k _ => hevent k

/-- The SPARE event of RESTART. -/
theorem State.restarted_spareEvent (s : State) (g : Spare) : spareEvent s.restarted g
    = { kind := .spare, subject := byte (10 + g.val),
        detail1 := if (s.restedReasons g).flags == 0 then 0 else 5, detail2 := 0xFF } := by
  unfold spareEvent
  rw [State.restarted_engine, State.restartedEngine_state]
  by_cases hz : (s.restedReasons g).flags = 0
  · rw [if_pos hz, hz]
    rfl
  · have hb : ((s.restedReasons g).flags == 0) = false := by simpa using hz
    rw [if_neg hz, hb]
    rfl

theorem State.restartEngineEvents_eq (s : State) (g : Spare) :
    restartEngineEvents s s.restarted g = s.restedEvents g := by
  have hstate : (s.restarted.engine g).state
      = if ((s.restedReasons g).flags == 0) = true then .free else .unavailable := by
    rw [State.restarted_engine, State.restartedEngine_state]
    simp only [beq_iff_eq]
  have hreasons : (s.restarted.engine g).reasons = s.restedReasons g := by
    rw [State.restarted_engine, State.restartedEngine_reasons]
  unfold restartEngineEvents State.restedEvents
  dsimp only
  rw [hstate, hreasons, State.restarted_spareEvent]
  cases (s.engine g).state <;> rfl

/-! ## The command -/

/-- The events of RESTART before its grants. -/
def State.restartEvents (s : State) : List Event :=
  restartRequests s s.restarted ++ restartEngineEvents s s.restarted 0 ++ restartEngineEvents s s.restarted 1
    ++ [restartedEvent]

/-- RESTART up to its grant pass. -/
def State.restartPosted (s : State) : State := s.restarted.postAll s.restartEvents

theorem State.exec_restart (hs : s.inReset = false) :
    exec .restart s = .next (s.answered 0x30).restartPosted.turn.settleWithPass.finish := by
  have hexec : exec .restart s = .next (s.hostCommand 0x30 State.cmdRestart) := rfl
  rw [hexec, State.hostCommand_commanded _ _ _ hs]
  rfl

/-- The grants of the pass that ends RESTART. -/
theorem State.restart_grants (h : s.ClassesInRange) :
    s.restartPosted.Granted (fun k => (s.record k).condClass) s.restartPosted.turn.settleWithPass s.restedGrants
      (s.restedQueue.drop s.restedGrants.length) := by
  refine State.settle_grants (State.restarted_open h _) ?_
  refine lt_of_le_of_lt (List.length_filter_le ..) ?_
  decide

/-- A record after RESTART is the record reset, in some state. -/
theorem State.restart_record (h : s.ClassesInRange) (k : Circuit) :
    ∃ r, s.restartPosted.turn.settleWithPass.record k = { (s.record k).restart with state := r } := by
  have hrec : s.restartPosted.record k = { (s.record k).restart with state := s.restarted.restingState k } := by
    unfold State.restartPosted
    rw [State.postAll_record, State.restarted_record]
  by_cases hk : ∃ g, (g, k) ∈ s.restedGrants
  · obtain ⟨g, hg⟩ := hk
    refine ⟨.assigned g, ?_⟩
    rw [(State.restart_grants h).record g k hg, hrec]
    rfl
  · refine ⟨s.restarted.restingState k, ?_⟩
    rw [(State.restart_grants h).records k fun g hg => hk ⟨g, hg⟩, hrec]

/-- An engine after RESTART is the engine reset, in some state. -/
theorem State.restart_engine (h : s.ClassesInRange) (g : Spare) :
    ∃ e, s.restartPosted.turn.settleWithPass.engine g = { s.restartedEngine g with state := e } := by
  have heng : s.restartPosted.engine g = s.restartedEngine g := by
    unfold State.restartPosted
    rw [State.postAll_engine, State.restarted_engine]
  by_cases hg : ∃ k, (g, k) ∈ s.restedGrants
  · obtain ⟨k, hk⟩ := hg
    refine ⟨.preparing k, ?_⟩
    rw [(State.restart_grants h).engine g k hk, heng]
    rfl
  · refine ⟨(s.restartedEngine g).state, ?_⟩
    rw [(State.restart_grants h).engines g fun k hk => hg ⟨k, hk⟩, heng]

/-- What the pass leaves of a spare it has not granted. -/
theorem State.restart_ungranted (h : s.ClassesInRange) (hg : ∀ k, (g, k) ∉ s.restedGrants) :
    (s.restartPosted.turn.settleWithPass.engine g).state
        = (if (s.restedReasons g).flags = 0 then .free else .unavailable)
      ∧ (s.restartPosted.turn.settleWithPass.transfer g).map (·.source)
          = if (s.engine g).state.circuit ≠ none ∨ (s.transfer g).map (·.source) = some .rest then some .rest else none := by
  rw [(State.restart_grants h).engines g hg, (State.restart_grants h).transfers g hg]
  unfold State.restartPosted
  rw [State.postAll_engine, State.postAll_transfer, State.restarted_engine, State.restarted_transfer,
    State.restartedEngine_state, State.restartedTransfer_source]
  exact ⟨rfl, rfl⟩

theorem State.restart_unheld (h : s.ClassesInRange) (hk : ∀ g, (g, k) ∉ s.restedGrants) :
    (s.restartPosted.turn.settleWithPass.record k).state = s.restedState k := by
  rw [(State.restart_grants h).records k hk]
  unfold State.restartPosted
  rw [State.postAll_record, State.restarted_state, State.restarted_restingState]

/-- The events of RESTART and of its grants, in order. -/
theorem State.restart_reported (h : s.ClassesInRange) :
    s.restartPosted.turn.settleWithPass.events
      = (s.postAll (s.restartEvents ++ s.restedGrants.flatMap (grantEvents fun k => (s.record k).condClass))).events := by
  refine State.events_of_reported ((State.restart_grants h).reported.trans ?_)
  rw [State.postAll_append]
  exact State.reported_congr (State.reported_congr s.restarted_reported _) _

theorem State.restart_calm (s : State) : s.restartPosted.turn.settleWithPass.calm = s.unqualified.calm :=
  (State.calm_of_ground ((Turn.ground_settleWithPass _).trans (State.ground_postAll ..))).trans s.restarted_calm

theorem State.unqualified_qualifier (s : State) (g : Spare) : s.unqualified.qualifier g = Qualifier.reset := by
  rcases spare_zero_or_one g with rfl | rfl <;> simp [State.unqualified]

end RestartTaken

/-- Settles O23: the reset of every record, engine and qualifier, and the grant pass over the rebuilt queue. -/
theorem restartTaken : Obligations.RestartTaken := by
  intro s hs hrange
  have h : (s.answered 0x30).ClassesInRange := hrange
  have hgrants := State.restart_grants h
  have hcalm := (s.answered 0x30).restart_calm
  refine ⟨_, State.exec_restart hs, ?_⟩
  set u := (s.answered 0x30).restartPosted.turn.settleWithPass with hu
  obtain ⟨htook, hsame, _, hout⟩ := State.tookCommand (s := s.unqualified) (code := 0x30) hcalm
  refine ⟨htook, fun k => ?_, fun g => ?_, fun g k hgk => ?_, fun g hg => ?_, fun k hk => ?_, ?_, ?_, hsame, hout⟩
  · obtain ⟨r, hr⟩ := State.restart_record h k
    rw [State.finish_record, hr]
    exact ⟨rfl, rfl, rfl, rfl, rfl, rfl⟩
  · obtain ⟨e, he⟩ := State.restart_engine h g
    have hq : u.qualifier g = Qualifier.reset :=
      (congrArg (fun v => tabGet v g) (State.qualifiers_of_calm hcalm)).trans ((s.answered 0x30).unqualified_qualifier g)
    rw [State.finish_qualifier, State.finish_engine, hq, he]
    exact ⟨rfl, rfl, rfl, rfl, rfl, rfl⟩
  · rw [State.finish_engine, State.finish_record, State.finish_transfer_source, hgrants.engine g k hgk,
      hgrants.record g k hgk]
    exact ⟨rfl, rfl, hgrants.transfer g k hgk⟩
  · rw [State.finish_engine, State.finish_transfer_source]
    exact State.restart_ungranted h hg
  · rw [State.finish_record]
    exact State.restart_unheld h hk
  · rw [State.finish_queue]
    exact hgrants.queue
  · have hl : (s.answered 0x30).restartEvents
        = (allCircuits.filter fun k => (s.record k).state ≠ s.restedState k).map (fun k =>
            { kind := .request, subject := byte k.val, detail1 := (s.restedState k).byte,
              detail2 := byte (s.record k).condClass })
          ++ s.restedEvents 0 ++ s.restedEvents 1
          ++ [{ kind := .restarted, subject := 15, detail1 := 0, detail2 := 0 }] := by
      unfold State.restartEvents
      rw [State.restartRequests_eq, State.restartEngineEvents_eq, State.restartEngineEvents_eq]
      rfl
    rw [State.finish_events, State.restart_reported h, hl]
    exact State.events_of_reported (State.reported_congr (x := s.answered 0x30) (y := s) rfl _)

end Sys2Proof.Machine
end

section
/-! Proofs: one step of the grant pass, by the first of its rules that applies. -/

namespace Sys2Proof.Machine

section PassStep

variable {s : State} {t : Turn} {g : Spare} {h : Circuit} {rest : List Circuit} {c : Nat} {claim : Circuit × Nat}
  {ok : EngineState → Bool}

/-! ## The spare that a head takes -/

/-- A taken circuit has all that R36 lays down. -/
theorem Turn.took_enterPreparing (t : Turn) (g : Spare) (h : Circuit) : t.Took (t.enterPreparing g h) g h := by
  refine ⟨by simp, by simp, by simp, ?_, by simp, by simp, by simp, fun j hj => ?_, fun i hi => ?_⟩
  · rw [Turn.enterPreparing_engine]
    rfl
  · exact t.enterPreparing_record_other g (Ne.symm hj)
  · exact t.enterPreparing_engine_other h (Ne.symm hi)

theorem EngineState.testingOrLooped_iff (e : EngineState) :
    e.testingOrLooped = true ↔ (∃ ph, e = .testing ph) ∨ e = .looped := by
  cases e <;> simp [EngineState.testingOrLooped]

/-- Of the open spares in a state that passes, the lowest-numbered is the one found. -/
theorem State.openSpareWhere_eq_some (hopen : s.openTo g h c = true) (hok : ok (s.engine g).state = true)
    (hlow : ∀ i, i < g → ¬ (s.openTo i h c = true ∧ ok (s.engine i).state = true)) :
    s.openSpareWhere h c ok = some g := by
  unfold State.openSpareWhere allSpares
  rcases spare_zero_or_one g with rfl | rfl
  · simp [hopen, hok]
  · have h0 : (s.openTo 0 h c && ok (s.engine 0).state) = false := by
      rw [← Bool.not_eq_true, Bool.and_eq_true]
      exact hlow 0 Nat.zero_lt_one
    simp [h0, hopen, hok]

theorem State.openSpareWhere_eq_none (hnone : ∀ g, ¬ (s.openTo g h c = true ∧ ok (s.engine g).state = true)) :
    s.openSpareWhere h c ok = none :=
  List.find?_eq_none.mpr fun g _ => by rw [Bool.and_eq_true]; exact hnone g

/-! ## The spare that is preempted -/

/-- Claim order holds one way round at most. -/
theorem beforeClaim_asymm {a b : Circuit × Nat} (hab : beforeClaim a b = true) : beforeClaim b a = false := by
  rw [beforeClaim_iff, Fin.lt_def] at hab
  rw [← Bool.not_eq_true, beforeClaim_iff, Fin.lt_def]
  omega

theorem State.loses_iff (s : State) (g : Spare) (h : Circuit) (c : Nat) :
    s.loses g h c = true ↔ ∃ claim, s.holdingClaim g = some claim ∧ beforeClaim (h, c) claim = true := by
  unfold State.loses
  cases s.holdingClaim g <;> simp

/-- The spare preempted loses, and its claim comes after that of any other that loses (R35). -/
theorem State.victim_eq_some (hclaim : s.holdingClaim g = some claim) (hb : beforeClaim (h, c) claim = true)
    (hlast : ∀ i claim', i ≠ g → s.holdingClaim i = some claim' → beforeClaim (h, c) claim' = true →
      beforeClaim claim' claim = true) : s.victim h c = some g := by
  have hg : s.loses g h c = true := (s.loses_iff g h c).mpr ⟨claim, hclaim, hb⟩
  have hother : ∀ i, i ≠ g → s.loses i h c = true → ∃ claim', s.holdingClaim i = some claim'
      ∧ beforeClaim claim' claim = true := fun i hi hl => by
    obtain ⟨claim', hc', hb'⟩ := (s.loses_iff i h c).mp hl
    exact ⟨claim', hc', hlast i claim' hi hc' hb'⟩
  unfold State.victim
  rcases spare_zero_or_one g with rfl | rfl
  · rw [hg]
    cases hl : s.loses 1 h c with
    | false => rfl
    | true =>
      obtain ⟨claim', hc', hbefore⟩ := hother 1 (by decide) hl
      simp [hclaim, hc', beforeClaim_asymm hbefore]
  · rw [hg]
    cases hl : s.loses 0 h c with
    | false => rfl
    | true =>
      obtain ⟨claim', hc', hbefore⟩ := hother 0 (by decide) hl
      simp [hclaim, hc', hbefore]

theorem State.victim_eq_none (hnone : ∀ g, s.loses g h c = false) : s.victim h c = none := by
  unfold State.victim
  rw [hnone 0, hnone 1]

/-! ## The rules of the step, in their order -/

theorem Turn.passStep_of_free (hq : t.st.queue = h :: rest)
    (hfree : t.st.openSpareWhere h (t.st.effClass h) (· = .free) = some g) :
    t.passStep = some (t.enterPreparing g h) := by
  unfold Turn.passStep
  rw [hq]
  dsimp only
  rw [hfree]

theorem Turn.passStep_of_tested (hq : t.st.queue = h :: rest)
    (hfree : t.st.openSpareWhere h (t.st.effClass h) (· = .free) = none)
    (htested : t.st.openSpareWhere h (t.st.effClass h) EngineState.testingOrLooped = some g) :
    t.passStep = some (t.enterPreparing g h) := by
  unfold Turn.passStep
  rw [hq]
  dsimp only
  rw [hfree, htested]

/-- With no spare to take, the step is a preemption or none. -/
theorem Turn.passStep_of_untaken (hq : t.st.queue = h :: rest)
    (hfree : t.st.openSpareWhere h (t.st.effClass h) (· = .free) = none)
    (htested : t.st.openSpareWhere h (t.st.effClass h) EngineState.testingOrLooped = none) :
    t.passStep = (t.st.victim h (t.st.effClass h)).map fun g => t.preempt g h := by
  unfold Turn.passStep
  rw [hq]
  dsimp only
  rw [hfree, htested]

end PassStep

/-- Settles O45: each rule of the step by the search that it makes, which the rules before it have left without a spare. -/
theorem grantPassStep : Obligations.GrantPassStep := by
  refine fun t => ⟨Turn.passStep_of_empty, fun h rest hq => ?_⟩
  intro c isOpen free tested loses granted
  have hopen : ∀ g, t.st.openTo g h c = true ↔ isOpen g := fun g => by
    simp only [State.openTo_iff, eq_comm (a := h)]
    rfl
  have hfree : ∀ g, t.st.openTo g h c = true ∧ decide ((t.st.engine g).state = .free) = true ↔ free g := fun g => by
    rw [hopen, decide_eq_true_eq]
  have htested : ∀ g, t.st.openTo g h c = true ∧ (t.st.engine g).state.testingOrLooped = true ↔ tested g := fun g => by
    rw [hopen, EngineState.testingOrLooped_iff]
  have nofree : (∀ g, ¬ free g) → t.st.openSpareWhere h c (· = .free) = none := fun hn =>
    State.openSpareWhere_eq_none fun g => by rw [hfree]; exact hn g
  have notested : (∀ g, ¬ tested g) → t.st.openSpareWhere h c EngineState.testingOrLooped = none := fun hn =>
    State.openSpareWhere_eq_none fun g => by rw [htested]; exact hn g
  have untaken : (∀ g, ¬ free g ∧ ¬ tested g) → t.passStep = (t.st.victim h c).map fun g => t.preempt g h := fun hn =>
    Turn.passStep_of_untaken hq (nofree fun g => (hn g).1) (notested fun g => (hn g).2)
  refine ⟨fun g hg hlow => ?_, fun hn g hg hlow => ?_, fun hn g claim hl hlast => ?_, fun hn hl => ?_⟩
  · obtain ⟨ho, hs⟩ := (hfree g).mpr hg
    exact ⟨_, Turn.passStep_of_free hq (State.openSpareWhere_eq_some ho hs fun i hi => by rw [hfree]; exact hlow i hi),
      t.took_enterPreparing g h⟩
  · obtain ⟨ho, hs⟩ := (htested g).mpr hg
    exact ⟨_, Turn.passStep_of_tested hq (nofree hn)
      (State.openSpareWhere_eq_some ho hs fun i hi => by rw [htested]; exact hlow i hi), t.took_enterPreparing g h⟩
  · rw [untaken hn, State.victim_eq_some hl.1 hl.2 fun i claim' hi hc hb => hlast i claim' hi ⟨hc, hb⟩]
    rfl
  · rw [untaken hn, State.victim_eq_none fun g => ?_]
    · rfl
    · rw [← Bool.not_eq_true, State.loses_iff]
      rintro ⟨claim, hc⟩
      exact hl g claim hc

end Sys2Proof.Machine
end

section
/-! Proofs: an offer by the rows of its table, and the word contest by the claims of its two words. -/

namespace Sys2Proof.Machine

section Offers

variable {t : Turn} {g : Spare} {k j : Circuit} {c f : Nat}

/-! ## Adoption -/

theorem Turn.offer_offered (t : Turn) (g : Spare) (k : Circuit) : (t.offer g k).offered = t.offered ++ [g] := by
  rcases t.offer_cases g k with ⟨e, _⟩ | ⟨_, _, _, ⟨_, e⟩ | ⟨o, _, _, e⟩⟩ <;> rw [e] <;> simp [Turn.noteOffer]

/-- A record that is on a spare is on that one alone. -/
theorem RequestState.On.unique {r : RequestState} {o o' : Spare} (h : r.On o) (h' : r.On o') : o = o' := by
  rcases h with rfl | rfl <;> rcases h' with h' | h' <;> cases h' <;> rfl

/-- A circuit that is barred or declined, that has no class, or that this or a lower-numbered spare holds is not adopted. -/
theorem Turn.offer_refused (hno : (t.st.record k).barred = true ∨ (t.st.record k).declined = true ∨ t.st.effClass k = 0
      ∨ ∃ o, ¬ g < o ∧ (t.st.record k).state.On o) : (t.offer g k).st = t.st := by
  rcases t.offer_cases g k with ⟨e, _⟩ | ⟨hb, hd, hz, hheld⟩
  · rw [e, Turn.noteOffer_st]
  · rcases hno with h | h | h | ⟨o, hge, ho⟩
    · simp [hb] at h
    · simp [hd] at h
    · exact absurd h hz
    · rcases hheld with ⟨hu, _⟩ | ⟨o', hlt, ho', _⟩
      · exact absurd ho (RequestState.not_on_of_unheld hu o)
      · exact absurd (RequestState.On.unique ho' ho ▸ hlt) hge

/-- A circuit that the higher-numbered spare holds is moved (R40). -/
theorem Turn.offer_moved {o : Spare} (hb : (t.st.record k).barred = false) (hd : (t.st.record k).declined = false)
    (hz : t.st.effClass k ≠ 0) (hlt : g < o) (ho : (t.st.record k).state.On o) :
    t.offer g k = ((t.noteOffer g).letGo o).enterPreparing g k := by
  rcases t.offer_cases g k with ⟨_, h | h | h | ⟨o', hge, ho'⟩⟩ | ⟨_, _, _, ⟨hu, _⟩ | ⟨o', _, ho', e⟩⟩
  · simp [hb] at h
  · simp [hd] at h
  · exact absurd h hz
  · exact absurd (RequestState.On.unique ho ho' ▸ hlt) hge
  · exact absurd ho (RequestState.not_on_of_unheld hu o)
  · rw [e, RequestState.On.unique ho' ho]

/-! ## The word contest -/

/-- After a lost contest the circuit is put back, and the engine FREE or PREPARING for the winner, by adoption. -/
theorem Turn.contest_lost_outcome (ho : t.st.contestClaim g = some (k, c)) (hf : t.st.farClaim g = some (j, f)) (hne : j ≠ k)
    (hb : beforeClaim (k, c) (j, f) = false) (hbar : (t.st.record k).barred = false)
    (hdec : (t.st.record k).declined = false) :
    let u := t.contest g
    (u.st.record k).state = (if t.st.effClass k = 0 then .quiet else .queued)
      ∧ ((u.st.engine g).state = .free ∨ (u.st.engine g).state = .preparing j)
      ∧ ((t.st.record j).barred = false → (t.st.record j).declined = false → t.st.effClass j ≠ 0 →
          (t.st.record j).state.unheld = true →
          (u.st.engine g).state = .preparing j ∧ (u.st.record j).state = .assigned g)
      ∧ u.late = t.late ++ [contestLostEvent g k j] := by
  -- the turn in which the circuit has been put back, and the winner is about to be offered
  set v := (t.letGo g).putBack g k with hv
  have hsrc : v.st.sources = t.st.sources := State.sources_of_still (by simp [hv])
  have hfree : (v.st.engine g).state = .free := by simp [hv, Turn.putBack]
  have hrec : v.st.record j = t.st.record j := by simp [hv, Turn.putBack, Ne.symm hne]
  have hback : (v.st.record k).state = t.st.restingState k := by
    simp [hv, Turn.putBack, State.restingState_of_sources (State.sources_of_still (t.still_letGo g))]
  dsimp only
  rw [Turn.contest_lost ho hf hne hb, Turn.gatherLate_st]
  refine ⟨?_, ?_, fun hb' hd' hz' hu' => ?_, ?_⟩
  · rw [Turn.offer_record_other v g hne, hback, State.restingState_of_unflagged hbar hdec]
  · exact (v.offer_engine g j).imp_left fun e => e.trans hfree
  · rw [v.offer_taken g (hrec ▸ hb') (hrec ▸ hd') (by rwa [State.effClass_of_sources hsrc]) (hrec ▸ hu')]
    simp
  · show (v.offer g j).late ++ _ = _
    rw [v.offer_late j hfree]
    simp [hv, Turn.putBack]

end Offers

/-- Settles O47: the rows of the table in their order. -/
theorem adoptionFollowsTheTable : Obligations.AdoptionFollowsTheTable := by
  intro t g k
  dsimp only
  refine ⟨t.offer_offered g k, fun h => Turn.offer_refused (h.imp_right .inl), fun h => Turn.offer_refused (.inr (.inr (.inl h))),
    fun o hlt ho => Turn.offer_refused (.inr (.inr (.inr ⟨o, lt_asymm hlt, ho⟩))), fun hb hd hz => ⟨fun o hlt ho => ?_, fun hu => ?_⟩⟩
  · have hne : g ≠ o := ne_of_lt hlt
    rw [Turn.offer_moved hb hd hz hlt ho, Turn.enterPreparing_engine_other _ _ hne, Turn.enterPreparing_transfer_other _ hne]
    simp
  · rw [Turn.offer_taken t g hb hd hz (by rcases hu with e | e <;> rw [e] <;> rfl)]
    exact (t.noteOffer g).took_enterPreparing g k

/-- Settles O48: the claims by the engine's state; a contest won changes nothing, one lost puts back and offers. -/
theorem contestsAreDecidedByTheWords : Obligations.ContestsAreDecidedByTheWords := by
  refine fun t g => ⟨fun k => ⟨fun e => by simp [State.contestClaim, e], fun e => by simp [State.contestClaim, e],
    fun e => by simp [State.contestClaim, e]⟩, fun hn => ?_, fun k j c f ho hf hne => ⟨fun hb => ?_, fun hb hbar hdec => ?_⟩⟩
  · refine Turn.contest_won fun own far _ hf => ?_
    rw [hn] at hf
    cases hf
  · refine Turn.contest_won fun own far ho' hf' => ?_
    rw [ho] at ho'
    rw [hf] at hf'
    cases ho'
    cases hf'
    exact .inr hb
  · obtain ⟨hback, hengine, htaken, hlate⟩ := Turn.contest_lost_outcome ho hf (Ne.symm hne) hb hbar hdec
    refine ⟨hback, hengine, fun hb' hd' hz' hq => htaken hb' hd' hz' ?_, hlate⟩
    rcases hq with e | e <;> rw [e] <;> rfl

end Sys2Proof.Machine
end

section
/-! Proofs: what the register window shows. -/

namespace Sys2Proof.Machine

section Views

variable {s : State}

/-! ## Bitmaps -/

theorem bit_eq_toNat (b : Bool) : bit b = b.toNat := by cases b <;> rfl

/-- A bit added above a number is the bit read at its own place. -/
theorem testBit_add_bit {n p : Nat} (b : Bool) (hn : n < 2 ^ p) (i : Nat) :
    (n + bit b * 2 ^ p).testBit i = (n.testBit i || (p == i && b)) := by
  cases b with
  | false => simp [bit]
  | true =>
    have hor : n + bit true * 2 ^ p = 2 ^ p ||| n := by
      rw [Nat.add_comm, bit, if_pos rfl, Nat.mul_comm, Nat.two_pow_add_eq_or_of_lt hn, Nat.mul_one]
    rw [hor, Nat.testBit_or, Nat.testBit_two_pow, Bool.or_comm, Bool.and_true, beq_eq_decide]

/-- The flags of ports in ascending order, summed on a number below them all, are read at the ports' places. -/
theorem testBit_foldl_flags (f : Port → Bool) (i : Nat) (l : List Port) (hl : l.Pairwise (· < ·)) (n : Nat)
    (hn : ∀ p ∈ l, n < 2 ^ p.val) :
    (l.foldl (fun n p => n + bit (f p) * 2 ^ p.val) n).testBit i = (n.testBit i || l.any fun p => p.val == i && f p) := by
  induction l generalizing n with
  | nil => simp
  | cons p rest ih =>
    obtain ⟨hp, hrest⟩ := List.pairwise_cons.mp hl
    have hnp : n < 2 ^ p.val := hn p (List.mem_cons_self ..)
    have hbit : bit (f p) ≤ 1 := by rw [bit_eq_toNat]; exact Bool.toNat_le _
    have hnext : ∀ q ∈ rest, n + bit (f p) * 2 ^ p.val < 2 ^ q.val := fun q hq =>
      calc n + bit (f p) * 2 ^ p.val < 2 ^ p.val + 1 * 2 ^ p.val :=
            Nat.add_lt_add_of_lt_of_le hnp (Nat.mul_le_mul_right _ hbit)
        _ = 2 ^ (p.val + 1) := by rw [Nat.pow_succ]; omega
        _ ≤ 2 ^ q.val := Nat.pow_le_pow_right Nat.two_pos (hp q hq)
    rw [List.foldl_cons, ih hrest _ hnext, testBit_add_bit _ hnp, List.any_cons, Bool.or_assoc]

theorem bitmap_getLsbD (f : Port → Bool) (i : Nat) :
    (bitmap f).getLsbD i = (decide (i < 16) && allPorts.any fun p => p.val == i && f p) := by
  rw [bitmap, BitVec.getLsbD_ofNat, testBit_foldl_flags f i allPorts (by decide) 0 (by decide), Nat.zero_testBit, Bool.false_or]

/-- A bitmap shows bit p for port p, and 0 above port 11 (R167). -/
theorem bitmap_shows (f : Port → Bool) :
    (∀ p : Port, (bitmap f).getLsbD p.val = f p) ∧ ∀ i, 12 ≤ i → (bitmap f).getLsbD i = false := by
  refine ⟨fun p => ?_, fun i hi => ?_⟩
  · have hany : (allPorts.any fun q => q.val == p.val && f q) = f p := by
      rw [Bool.eq_iff_iff, List.any_eq_true]
      refine ⟨fun ⟨q, _, hq⟩ => ?_, fun hp => ⟨p, mem_allPorts p, by simpa using hp⟩⟩
      obtain ⟨hval, hf⟩ := (Bool.and_eq_true ..).mp hq
      rwa [← Fin.ext (beq_iff_eq.mp hval)]
    rw [bitmap_getLsbD, hany, decide_eq_true (by omega), Bool.true_and]
  · have hany : (allPorts.any fun q => q.val == i && f q) = false :=
      List.any_eq_false.mpr fun q _ => by
        have : q.val ≠ i := by omega
        simp [this]
    rw [bitmap_getLsbD, hany, Bool.and_false]

/-! ## Reads of byte-wide locations -/

/-- An address whose plain read does nothing but return its location: no 16-bit quantity's, and none of the two addresses of the
event window that do something. -/
def plainAddress (a : Nat) : Bool :=
  !(([0x0A, 0x0C, 0x0E, 0x14, 0x16, 0x18, 0x1A, 0x47, 0x49, 0x4B, 0x62, 0x71, 0x74] ++ upperAddresses).contains a)

theorem State.quantity_of_plain {a : Nat} (ha : plainAddress a = true) : s.quantity a = none := by
  unfold State.quantity
  dsimp only
  split
  case h_12 => rfl
  all_goals exact absurd ha (by decide)

theorem State.readAt_of_plain {a : Nat} (ha : plainAddress a = true) : s.readAt a = (s, s.location a) := by
  have hne : ∀ b, plainAddress b = false → a ≠ b := by
    rintro b hb rfl
    rw [ha] at hb
    cases hb
  have hupper : upperAddresses.contains a = false := by
    have h := ha
    simp only [plainAddress, List.contains_append, Bool.not_or, Bool.and_eq_true, Bool.not_eq_true'] at h
    exact h.2
  unfold State.readAt
  rw [State.quantity_of_plain ha]
  dsimp only
  rw [hupper, if_neg Bool.false_ne_true, if_neg (hne _ rfl), if_neg (hne _ rfl)]

theorem exec_lowerAddressRead (a : Address) (s : State) : exec (.lowerAddressRead a) s = .next (s.busRead a) := rfl

/-- A plain read shows the location and changes nothing. -/
theorem State.exec_plainRead (hs : s.inReset = false) {a : Address} {v : Byte} (ha : plainAddress a.toNat = true)
    (hv : s.location a.toNat = v) : exec (.lowerAddressRead a) s = .next (s.showing v) := by
  rw [exec_lowerAddressRead, State.busRead, State.hostRead_inService _ _ hs, State.readAt_of_plain ha, hv]
  rfl

/-! ## Values -/

/-- A timer shows its steps of frame periods, rounded up, and 0 while it is absent (assumption 35). -/
theorem stepsLeft_eq (k : Nat) (t : Option Nat) :
    stepsLeft (k + 1) t = match t with | some n => byte ((n + k) / (k + 1)) | none => 0 := by
  cases t with
  | none => simp [stepsLeft, Nat.div_eq_of_lt (Nat.lt_succ_self k)]
  | some n => rfl

theorem Registers.protect_eq (r : Registers) :
    r.protect = byte (r.enable.toNat + 2 * r.hold.toNat + 4 * r.interruptEnable.toNat) := by
  simp [Registers.protect, bit_eq_toNat]

theorem Registers.status_eq (r : Registers) : r.status = byte (r.refusedWrite.toNat + 2 * r.overrunSeen.toNat) := by
  simp [Registers.status, bit_eq_toNat]

theorem Record.flags_eq (r : Record) : r.flags = byte (r.barred.toNat + 2 * r.declined.toNat
    + 4 * (r.returnKind == .software).toNat + 8 * r.returnTimer.isSome.toNat) := by
  simp [Record.flags, bit_eq_toNat]

theorem Reasons.flags_eq (r : Reasons) : r.flags = byte (r.off.toNat + 2 * r.shut.toNat + 4 * r.line.toNat
    + 8 * r.silent.toNat + 16 * r.setup.toNat + 32 * r.far.toNat) := by
  simp [Reasons.flags, bit_eq_toNat]

theorem EngineState.code_eq (e : EngineState) : byte e.code = match e with
    | .free => 0 | .preparing _ => 1 | .bridged _ => 2 | .carrying _ => 3 | .returning _ => 4
    | .unavailable => 5 | .testing _ => 6 | .looped => 7 := by
  cases e <;> rfl

theorem TestResult.code_eq (r : TestResult) : byte r.code = match r with
    | .none => 0 | .pass => 1 | .fail => 2 | .noLoop => 3 | .overtaken => 4 | .aborted => 5 := by
  cases r <;> rfl

theorem RequestState.byte_eq (r : RequestState) : r.byte = match r with
    | .quiet => 0x0F | .parked => 0x1F | .queued => 0x2F
    | .assigned g => Sys2Proof.byte (0x30 + g.val) | .releasing g => Sys2Proof.byte (0x40 + g.val) := by
  cases r <;> rfl

theorem EngineState.circuitByte_eq (e : EngineState) : e.circuitByte = match e with
    | .preparing j => byte (16 * j.val + 15) | .bridged j => byte (16 * j.val + 15)
    | .carrying j => byte (16 * j.val + 15) | .returning j => byte (16 * j.val + 15)
    | .testing (.ask _) => 0xF0 | .testing .run => 0xF1 | .testing (.ending _) => 0xF2
    | .free => 0xFF | .unavailable => 0xFF | .looped => 0xFF := by
  have held : ∀ j : Circuit, halves j.val 15 = byte (16 * j.val + 15) := fun j => by rw [halves, Nat.mul_comm]
  cases e with
  | preparing j => exact held j
  | bridged j => exact held j
  | carrying j => exact held j
  | returning j => exact held j
  | testing ph => cases ph <;> rfl
  | free => rfl
  | unavailable => rfl
  | looped => rfl

theorem sourceByte_eq (x : Option Transfer) : sourceByte x = match x with
    | some y => (match y.source with | .circuit j => byte j.val | .rest => 10)
    | none => 15 := by
  rcases x with _ | ⟨_ | _, _, _, _⟩ <;> rfl

/-! ## Unassigned locations -/

/-- The addresses to which Table 11-1 assigns nothing. -/
def Unassigned (a : Nat) : Prop :=
  a = 0x1F ∨ (0x2C ≤ a ∧ a ≤ 0x2F) ∨ (0x39 ≤ a ∧ a ≤ 0x3F) ∨ (0x51 ≤ a ∧ a ≤ 0x5F) ∨ (0x64 ≤ a ∧ a ≤ 0x6F) ∨ 0x75 ≤ a

/-- An unassigned location reads 0 (R163). -/
theorem State.location_of_unassigned {a : Nat} (ha : Unassigned a) : s.location a = 0 := by
  unfold Unassigned at ha
  have honset : ¬ (0x20 ≤ a ∧ a < 0x2C) := by omega
  unfold State.location
  dsimp only
  split
  case h_45 => exact dif_neg honset
  all_goals omega

theorem plainAddress_of_unassigned {a : Nat} (ha : Unassigned a) : plainAddress a = true := by
  unfold Unassigned at ha
  simp only [plainAddress, upperAddresses, List.cons_append, List.nil_append, List.contains_eq_mem, Bool.not_eq_true',
    decide_eq_false_iff_not, List.mem_cons, List.not_mem_nil, or_false]
  omega

/-- The onset delay of a port stands at its address. -/
theorem State.location_onset (p : Port) : s.location (BitVec.ofNat 7 (0x20 + p.val)).toNat = tabGet s.regs.onset p := by
  fin_cases p <;> rfl

theorem plainAddress_onset (p : Port) : plainAddress (BitVec.ofNat 7 (0x20 + p.val)).toNat = true := by
  revert p
  decide

end Views

/-- Settles O11: each bitmap by the bits of its sum, and each location by the one plain read and the value it holds. -/
theorem viewsShowTheState : Obligations.ViewsShowTheState := by
  refine ⟨fun s => ⟨⟨_, rfl, bitmap_shows _⟩, ⟨_, rfl, bitmap_shows _⟩, ⟨_, rfl, bitmap_shows _⟩, ⟨_, rfl, bitmap_shows _⟩,
    rfl, rfl, rfl, rfl, rfl, rfl, rfl⟩, fun s hs => ?_⟩
  intro k r e x reads
  have shown : ∀ (a : Address) (v : Byte), plainAddress a.toNat = true → s.location a.toNat = v → reads a v :=
    fun _ _ => State.exec_plainRead hs
  refine ⟨shown _ _ rfl rfl, shown _ _ rfl rfl, shown _ _ rfl rfl, shown _ _ rfl rfl,
    shown 0x04 _ rfl s.regs.protect_eq, shown _ _ rfl rfl, shown _ _ rfl rfl, shown _ _ rfl rfl, shown _ _ rfl rfl,
    shown _ _ rfl rfl, shown _ _ rfl rfl, shown 0x11 _ rfl rfl, shown 0x12 _ rfl s.regs.status_eq, shown _ _ rfl rfl,
    shown _ _ rfl rfl, shown _ _ rfl rfl, shown 0x1E _ rfl rfl,
    fun p => shown _ _ (plainAddress_onset p) (State.location_onset p),
    shown _ _ rfl rfl, shown _ _ rfl rfl, shown _ _ rfl rfl, shown _ _ rfl rfl, shown _ _ rfl rfl, shown _ _ rfl rfl,
    shown 0x36 _ rfl r.flags_eq, shown 0x37 _ rfl r.state.byte_eq, shown 0x38 _ rfl (stepsLeft_eq 39999 _),
    shown _ _ rfl rfl, shown 0x41 _ rfl e.state.code_eq, shown 0x42 _ rfl e.state.circuitByte_eq,
    shown 0x43 _ rfl e.reasons.flags_eq, shown 0x44 _ rfl e.lastResult.code_eq, shown 0x45 _ rfl (stepsLeft_eq 79 _),
    shown 0x46 _ rfl (stepsLeft_eq 7999 _), shown 0x4D _ rfl (sourceByte_eq x), shown 0x4E _ rfl ?_, shown 0x4F _ rfl ?_,
    shown 0x50 _ rfl rfl, shown _ _ rfl rfl, shown _ _ rfl rfl,
    fun a ha => shown a 0 (plainAddress_of_unassigned ha) (State.location_of_unassigned ha)⟩
  · show byte ((x.map (·.cursor)).getD 0) = _
    cases x <;> rfl
  · show byte ((x.map (·.resend.length)).getD 0) = _
    cases x <;> rfl

end Sys2Proof.Machine
end

section
/-! Proofs: O60, the transfers keep with the engines and with the line.

State.Fit says it of one state in the middle of a turn, an engine's transfer excepted while the engine is moved.  What it reads
of a state is its links: the engine states, the transfers and the transaction.  Three kinds of move touch them: an engine goes
on among the states without a circuit, or among those that bridge one; a circuit is let go or taken, the transfer with it; and
the port serves an offer or hears an outcome. -/

namespace Sys2Proof.Machine

/-! ## What fits -/

/-- The engine states in which a bridge stands (R47). -/
def EngineState.bridges : EngineState → Bool
  | .bridged _ => true
  | .carrying _ => true
  | .returning _ => true
  | _ => false

/-- An engine state goes with what a transfer is for: a circuit transfer runs exactly in PREPARING, of the circuit prepared, and
a rest transfer only without a circuit (R49, R51, R57). -/
def EngineState.Suits (e : EngineState) (x : Option TransferSource) : Prop :=
  (∀ k, e = .preparing k ↔ x = some (.circuit k)) ∧ (x = some .rest → e.circuit = none)

/-- The index of the word that the port carries for spare g's transfer (R124). -/
def Transaction.indexFor (g : Spare) : Option Transaction → Option WordIndex
  | some x => if x.source = .transfer g ∧ x.abandoned = false then some x.index else none
  | none => none

/-- What a transfer engine's state is to be on its own and with the word on the line (R111, R114, R124). -/
structure Wired (x : Option Transfer) (carried : Option WordIndex) : Prop where
  bounded : ∀ t ∈ x, t.Bounded
  inFlight : x.bind (·.inFlight) = carried

/-- The transfers keep with the line, and with the engines but for the engines S being moved. -/
structure State.Fit (S : List Spare) (s : State) : Prop where
  wired : ∀ g, Wired (s.transfer g) (Transaction.indexFor g s.transaction)
  suits : ∀ g, g ∉ S → (s.engine g).state.Suits ((s.transfer g).map (·.source))

/-- What State.Fit reads of a state. -/
def State.links (s : State) : Vector EngineState 2 × Vector (Option Transfer) 2 × Option Transaction :=
  (s.engines.map (·.state), s.transfers, s.transaction)

theorem State.engine_of_links {s t : State} (h : t.links = s.links) (g : Spare) :
    (t.engine g).state = (s.engine g).state := by
  have e := congrArg (fun l => tabGet l.1 g) h
  simp only [State.links, tabGet_map] at e
  exact e

theorem State.transfer_of_links {s t : State} (h : t.links = s.links) (g : Spare) : t.transfer g = s.transfer g :=
  congrArg (fun l : Vector EngineState 2 × Vector (Option Transfer) 2 × Option Transaction => tabGet l.2.1 g) h

theorem State.transaction_of_links {s t : State} (h : t.links = s.links) : t.transaction = s.transaction :=
  congrArg (fun l => l.2.2) h

/-! ## Engine states and transfers -/

theorem EngineState.Suits.idle {e e' : EngineState} {x : Option TransferSource} (h : e.Suits x) (he : e.circuit = none)
    (he' : e'.circuit = none) : e'.Suits x := by
  have hne : ∀ {e : EngineState} (k), e.circuit = none → e ≠ .preparing k := by rintro e k hc rfl; cases hc
  exact ⟨fun k => ⟨fun hk => absurd hk (hne k he'), fun hk => absurd ((h.1 k).mpr hk) (hne k he)⟩, fun _ => he'⟩

theorem EngineState.suits_none {e : EngineState} (h : ∀ k, e ≠ .preparing k) : e.Suits none :=
  ⟨fun k => ⟨fun hk => absurd hk (h k), fun hk => by cases hk⟩, fun hk => by cases hk⟩

theorem EngineState.suits_rest {e : EngineState} (h : e.circuit = none) : e.Suits (some .rest) :=
  ⟨fun k => ⟨fun hk => by simp [hk, EngineState.circuit] at h, fun hk => by cases hk⟩, fun _ => h⟩

theorem EngineState.suits_preparing (k : Circuit) : (EngineState.preparing k).Suits (some (.circuit k)) :=
  ⟨fun j => by simp, fun hk => by cases hk⟩

theorem EngineState.not_preparing_of_bridges {e : EngineState} (h : e.bridges = true) (k : Circuit) : e ≠ .preparing k := by
  rintro rfl
  cases h

/-- An engine that bridges a circuit has no transfer. -/
theorem EngineState.Suits.none_of_bridges {e : EngineState} {x : Option TransferSource} (h : e.Suits x)
    (he : e.bridges = true) : x = none := by
  match x with
  | none => rfl
  | some .rest =>
    have hc := h.2 rfl
    cases e <;> simp_all [EngineState.bridges, EngineState.circuit]
  | some (.circuit k) => exact absurd ((h.1 k).mpr rfl) (EngineState.not_preparing_of_bridges he k)

theorem EngineState.Suits.bridged {e e' : EngineState} {x : Option TransferSource} (h : e.Suits x) (he : e.bridges = true)
    (he' : e'.bridges = true) : e'.Suits x := by
  rw [h.none_of_bridges he]
  exact EngineState.suits_none (EngineState.not_preparing_of_bridges he')

section Fit

variable {S : List Spare} {s s' : State} {t : Turn} {g : Spare} {k : Circuit} {e : EngineState} {a b : Option Nat}

/-! ## Changes that leave the links -/

theorem State.Fit.of_links (h : s.Fit S) (hl : s'.links = s.links) : s'.Fit S where
  wired := fun g => by rw [State.transfer_of_links hl, State.transaction_of_links hl]; exact h.wired g
  suits := fun g hg => by rw [State.engine_of_links hl, State.transfer_of_links hl]; exact h.suits g hg

theorem State.Fit.mono (h : s.Fit []) : s.Fit S := ⟨h.wired, fun g _ => h.suits g (by simp)⟩

theorem State.links_setEngine (s : State) (g : Spare) (x : Engine) (h : x.state = (s.engine g).state) :
    (s.setEngine g x).links = s.links := by
  have e : (tabSet s.engines g x).map (·.state) = s.engines.map (·.state) := by
    refine tab_ext fun i => ?_
    simp only [tabGet_map, tabGet_tabSet]
    split
    · next hi => subst hi; exact h
    · rfl
  simp only [State.links, State.setEngine_engines, State.setEngine_transfers, State.setEngine_transaction, e]

@[simp] theorem State.links_post (s : State) (e : Event) : (s.post e).links = s.links :=
  State.post_keeps State.links (fun _ _ => rfl) (fun _ _ => rfl) s e

@[simp] theorem State.links_postAll (s : State) (l : List Event) : (s.postAll l).links = s.links :=
  State.postAll_keeps State.links (fun _ _ => rfl) (fun _ _ => rfl) s l

@[simp] theorem State.links_updateKind (s : State) (k : Circuit) : (s.updateKind k).links = s.links := by
  unfold State.updateKind
  split <;> rfl

@[simp] theorem Turn.links_moveRecord (t : Turn) (g : Spare) (k : Circuit) (r : RequestState) (place : Place) :
    (t.moveRecord g k r place).st.links = t.st.links := by
  unfold Turn.moveRecord
  dsimp only
  split <;> rfl

@[simp] theorem Turn.links_endTest (t : Turn) (g : Spare) (r : TestResult) : (t.endTest g r).st.links = t.st.links :=
  State.links_setEngine _ _ _ rfl

@[simp] theorem Turn.links_endTestOrLoop (t : Turn) (g : Spare) (r : TestResult) :
    (t.endTestOrLoop g r).st.links = t.st.links := by
  unfold Turn.endTestOrLoop
  split
  · exact Turn.links_endTest ..
  · rfl
  · rfl

@[simp] theorem Turn.links_reactUnheld (t : Turn) (g : Spare) (k : Circuit) (changed : Bool) :
    (t.reactUnheld g k changed).st.links = t.st.links := by
  unfold Turn.reactUnheld
  dsimp only
  split
  · rfl
  · exact Turn.links_moveRecord ..

@[simp] theorem Turn.links_rearm (t : Turn) (g : Spare) (after : Reasons) :
    (t.rearm g after).st.links = t.st.links := by
  unfold Turn.rearm
  exact State.links_setEngine t.st g { t.st.engine g with reasons := after } rfl

/-! ## An engine goes on -/

/-- An engine that has been moved fits again. -/
theorem State.Fit.setEngine (h : s.Fit (g :: S)) {x : Engine} (hx : x.state.Suits ((s.transfer g).map (·.source))) :
    (s.setEngine g x).Fit S where
  wired := h.wired
  suits := fun i hi => by
    by_cases hg : g = i
    · subst hg
      rw [State.setEngine_engine_same]
      exact hx
    · rw [State.setEngine_engine_other _ _ hg]
      exact h.suits i (by simp [Ne.symm hg, hi])

theorem State.Fit.enterEngine (h : t.st.Fit (g :: S)) (he : e.Suits ((t.st.transfer g).map (·.source))) :
    (t.enterEngine g e a b).st.Fit S :=
  h.setEngine (x := { t.st.engine g with state := e, answerTimer := a, testTimer := b }) he

/-- An engine without a circuit enters a state without one. -/
theorem State.Fit.enterIdle (h : t.st.Fit []) (hc : (t.st.engine g).state.circuit = none) (he : e.circuit = none) :
    (t.enterEngine g e a b).st.Fit [] :=
  h.mono.enterEngine ((h.suits g (by simp)).idle hc he)

/-- An engine that bridges a circuit enters a state that bridges one. -/
theorem State.Fit.enterBridging (h : t.st.Fit []) (hc : (t.st.engine g).state.bridges = true) (he : e.bridges = true) :
    (t.enterEngine g e a b).st.Fit [] :=
  h.mono.enterEngine ((h.suits g (by simp)).bridged hc he)

/-! ## Transfers begin and are cancelled -/

theorem wired_none : Wired none none := ⟨by simp, rfl⟩

theorem wired_begun (src : TransferSource) : Wired (some { source := src, cursor := 0, resend := [], inFlight := none }) none where
  bounded := by simp [Transfer.Bounded]
  inFlight := rfl

/-- A transfer that is cancelled has no word on the line any more (R115). -/
theorem State.abandon_indexFor (s : State) (g i : Spare) (h : Wired (s.transfer g) (Transaction.indexFor g s.transaction)) :
    Transaction.indexFor i (s.abandon g).transaction = if i = g then none else Transaction.indexFor i s.transaction := by
  have hin := h.inFlight
  unfold State.abandon
  split
  · next x y hx hy =>
    rw [hx, hy] at hin
    split
    · next hc =>
      rw [hx]
      split
      · simp [Transaction.indexFor]
      · next hi => simp [Transaction.indexFor, hc.1, Ne.symm hi]
    · next hc =>
      rw [hx]
      split
      · next hi =>
        subst hi
        rw [← hin]
        by_cases hs : x.source = .transfer i
        · simpa [hs] using hc
        · simpa [Transaction.indexFor, hs] using hin
      · rfl
  · next hnone =>
    split
    · next hi =>
      subst hi
      rw [← hin]
      cases hx : s.transaction with
      | none => simp [hin, hx, Transaction.indexFor]
      | some x =>
        cases hy : s.transfer i with
        | none => rfl
        | some y => exact absurd hy (hnone x y hx)
    · rfl

theorem State.Fit.cancelTransfer (h : s.Fit [g]) : (s.cancelTransfer g).Fit [g] where
  wired := fun i => by
    have hx : (s.cancelTransfer g).transaction = (s.abandon g).transaction := rfl
    rw [hx, s.abandon_indexFor g i (h.wired g)]
    by_cases hi : i = g
    · subst hi
      rw [if_pos rfl]
      simpa [State.cancelTransfer] using wired_none
    · rw [if_neg hi]
      have ht : (s.cancelTransfer g).transfer i = s.transfer i := by simp [Ne.symm hi]
      rw [ht]
      exact h.wired i
  suits := fun i hi => by
    have hne : g ≠ i := fun e => hi (by simp [e])
    simpa [hne] using h.suits i hi

theorem State.Fit.startTransfer (h : s.Fit [g]) (src : TransferSource) :
    ((s.cancelTransfer g).startTransfer g src).Fit [g] where
  wired := fun i => by
    have hc := h.cancelTransfer.wired i
    have hx : ((s.cancelTransfer g).startTransfer g src).transaction = (s.cancelTransfer g).transaction := rfl
    rw [hx]
    by_cases hi : g = i
    · subst hi
      have hnone : Transaction.indexFor g (s.cancelTransfer g).transaction = none := by
        rw [← hc.inFlight]
        simp [State.cancelTransfer]
      rw [hnone]
      simpa [State.startTransfer] using wired_begun src
    · simpa [State.startTransfer, hi] using hc
  suits := fun i hi => by
    have hne : g ≠ i := fun e => hi (by simp [e])
    simpa [State.startTransfer, hne] using h.suits i hi

/-! ## Circuits are let go and taken -/

theorem State.Fit.letGo (h : t.st.Fit [g]) : (t.letGo g).st.Fit [] := by
  refine State.Fit.enterEngine (h.startTransfer .rest) ?_
  simpa [State.startTransfer] using EngineState.suits_rest (e := .free) rfl

theorem State.Fit.enterPreparing (h : t.st.Fit [g]) (k : Circuit) : (t.enterPreparing g k).st.Fit [] := by
  have h1 : (t.endTestOrLoop g .overtaken).st.Fit [g] := h.of_links (Turn.links_endTestOrLoop ..)
  let u := (t.endTestOrLoop g .overtaken).change fun s => (s.cancelTransfer g).startTransfer g (.circuit k)
  have h2 : u.st.Fit [g] := h1.startTransfer (.circuit k)
  have hl : ((u.moveRecord g k (.assigned g) .back).change fun s => s.updateKind k).st.links = u.st.links :=
    (State.links_updateKind ..).trans (Turn.links_moveRecord ..)
  refine (h2.of_links hl).enterEngine ?_
  have hu : u.st.transfer g = some { source := .circuit k, cursor := 0, resend := [], inFlight := none } := by
    simp [u, State.startTransfer]
  rw [State.transfer_of_links hl, hu]
  exact EngineState.suits_preparing k

theorem State.Fit.offer (h : t.st.Fit []) (g : Spare) (k : Circuit) : (t.offer g k).st.Fit [] := by
  rcases t.offer_cases g k with ⟨e, _⟩ | ⟨_, _, _, ⟨_, e⟩ | ⟨o, _, _, e⟩⟩ <;> rw [e]
  · exact h
  · exact State.Fit.enterPreparing (t := t.noteOffer g) h.mono k
  · exact (State.Fit.letGo (t := t.noteOffer g) (g := o) h.mono).mono.enterPreparing k

theorem State.Fit.drop (h : t.st.Fit []) (g : Spare) (k : Circuit) : (t.drop g k).st.Fit [] :=
  (State.Fit.letGo h.mono).of_links (Turn.links_moveRecord ..)

theorem State.Fit.contest (h : t.st.Fit []) (g : Spare) : (t.contest g).st.Fit [] := by
  rcases t.contest_cases g with ⟨e, _⟩ | ⟨own, far, _, _, _, _, e⟩ <;> rw [e]
  · exact h
  · have hput : ((t.letGo g).putBack g own.1).st.Fit [] :=
      (State.Fit.letGo h.mono).of_links (Turn.links_moveRecord ..)
    exact hput.offer g far.1

theorem State.Fit.completeReturn (h : t.st.Fit []) (g : Spare) (k : Circuit) : (t.completeReturn g k).st.Fit [] := h.drop g k

theorem State.Fit.enterReturning (h : t.st.Fit []) (hb : (t.st.engine g).state.bridges = true) (k : Circuit) :
    (t.enterReturning g k).st.Fit [] := by
  rw [Turn.enterReturning_eq]
  dsimp only
  have hm : (t.moveRecord g k (.releasing g) .back).st.Fit [] := h.of_links (Turn.links_moveRecord ..)
  have hr := hm.enterBridging (g := g) (e := .returning k)
    (a := (t.moveRecord g k (.releasing g) .back).st.answerStart) (b := none) (by simpa using hb) rfl
  split
  · exact hr.completeReturn g k
  · exact hr.contest g

/-! ## Reasons -/

theorem State.Fit.tearDown (h : t.st.Fit [g])
    (hs : (t.st.engine g).state.circuit = none → EngineState.Suits .unavailable ((t.st.transfer g).map (·.source))) :
    (t.tearDown g).st.Fit [g] ∧ EngineState.Suits .unavailable (((t.tearDown g).st.transfer g).map (·.source)) := by
  unfold Turn.tearDown
  split
  · next k _ =>
    refine ⟨(h.startTransfer .rest).of_links (Turn.links_moveRecord ..), ?_⟩
    unfold Turn.putBack
    rw [State.transfer_of_links (Turn.links_moveRecord ..)]
    simpa [State.startTransfer] using EngineState.suits_rest (e := .unavailable) rfl
  · next hc =>
    refine ⟨h.of_links (Turn.links_endTestOrLoop ..), ?_⟩
    rw [State.transfer_of_links (Turn.links_endTestOrLoop ..)]
    exact hs hc

/-- An engine with a circuit that is torn down, its circuit transfer perhaps over already. -/
theorem State.Fit.tornDown (h : t.st.Fit [g])
    (hs : (t.st.engine g).state.circuit = none → EngineState.Suits .unavailable ((t.st.transfer g).map (·.source)))
    (after : Reasons) : (((t.tearDown g).rearm g after).enterEngine g .unavailable none none).st.Fit [] := by
  obtain ⟨hfit, hsuits⟩ := h.tearDown hs
  refine State.Fit.enterEngine (hfit.of_links (Turn.links_rearm ..)) ?_
  rw [State.transfer_of_links (Turn.links_rearm ..)]
  exact hsuits

theorem State.Fit.setReasons (h : t.st.Fit []) (g : Spare) (after : Reasons) : (t.setReasons g after).st.Fit [] := by
  have hre : (t.rearm g after).st.Fit [] := h.of_links (Turn.links_rearm ..)
  rcases t.setReasons_cases g after with ⟨_, _, e⟩ | ⟨hu, _, e⟩ | ⟨_, e⟩ <;> rw [e]
  · exact h.mono.tornDown (fun hc => (h.suits g (by simp)).idle hc rfl) after
  · refine hre.enterIdle ?_ rfl
    rw [State.engine_of_links (Turn.links_rearm ..), hu]
    rfl
  · exact hre

theorem State.Fit.putReason (h : t.st.Fit []) (g : Spare) (x : Reason) (v : Bool) : (t.putReason g x v).st.Fit [] := by
  unfold Turn.putReason
  split
  · exact h
  · exact h.setReasons g _

/-! ## Reactions -/

theorem State.Fit.startReturn (h : t.st.Fit []) (hb : (t.st.engine g).state.bridges = true) (k : Circuit) :
    (t.startReturn g k).st.Fit [] := by
  unfold Turn.startReturn
  split
  · exact h.enterReturning hb k
  · exact h.of_links rfl

theorem State.Fit.classGone (h : t.st.Fit []) (g : Spare) (k : Circuit) : (t.classGone g k).st.Fit [] := by
  unfold Turn.classGone
  split
  · exact h.drop g k
  · next he => exact h.enterReturning (by rw [he]; rfl) k
  · next he =>
    have hb : (t.st.engine g).state.bridges = true := by rw [he]; rfl
    split
    · exact h.enterReturning hb k
    · split
      · exact h
      · exact h.startReturn hb k
  · exact h

theorem State.Fit.reactHeld (h : t.st.Fit []) (g : Spare) (k : Circuit) (before : Nat) :
    (t.reactHeld g k before).st.Fit [] := by
  unfold Turn.reactHeld
  split
  · split
    · exact h.contest g
    · exact (h.classGone g k).contest g
  · refine State.Fit.contest ?_ g
    exact h.of_links rfl

theorem State.Fit.reactUnheld (h : t.st.Fit []) (g : Spare) (k : Circuit) (changed : Bool) :
    (t.reactUnheld g k changed).st.Fit [] := h.of_links (Turn.links_reactUnheld ..)

theorem State.Fit.react (h : t.st.Fit []) (k : Circuit) (before : Nat) : (t.react k before).st.Fit [] := by
  unfold Turn.react
  split
  · exact h.reactHeld _ k before
  · exact h
  · exact h.reactUnheld 0 k _

theorem State.Fit.sourceChange (h : t.st.Fit []) (k : Circuit) (f : Record → Record) : (t.sourceChange k f).st.Fit [] := by
  rw [Turn.sourceChange_eq]
  refine State.Fit.react (h.of_links ?_) k _
  exact State.links_updateKind ..

/-! ## The grant pass -/

theorem State.Fit.flush (h : t.st.Fit S) : t.flush.st.Fit S := h.of_links (State.links_postAll ..)

theorem State.Fit.close (h : t.st.Fit []) : t.close.Fit [] := h.flush.of_links (State.links_postAll ..)

theorem State.Fit.preempt (h : t.st.Fit []) (g : Spare) (k : Circuit) : (t.preempt g k).st.Fit [] := by
  unfold Turn.preempt
  split
  · next j _ =>
    have hc : ((t.change fun s => s.cancelTransfer g).putBack g j).st.Fit [g] :=
      (State.Fit.cancelTransfer h.mono).of_links (Turn.links_moveRecord ..)
    exact (hc.enterPreparing k).flush.contest g
  · exact h

theorem State.Fit.passStep {t' : Turn} (h : t.st.Fit []) (ht : t.passStep = some t') : t'.st.Fit [] := by
  rcases t.passStep_cases with e | ⟨k, _, _, ⟨g, _, _, e⟩ | ⟨g, e⟩⟩ <;> rw [e] at ht
  · cases ht
  · obtain rfl := Option.some.inj ht
    exact h.mono.enterPreparing k
  · obtain rfl := Option.some.inj ht
    exact h.preempt g k

theorem State.Fit.pass (h : t.st.Fit []) (n : Nat) : (Turn.pass n t).st.Fit [] := by
  induction n generalizing t with
  | zero => exact h
  | succ n ih =>
    unfold Turn.pass
    split
    · exact h
    · next t' ht => exact ih (h.passStep ht).flush

theorem State.Fit.settleWithPass (h : t.st.Fit []) : t.settleWithPass.Fit [] := (h.flush.pass _).close

theorem State.Fit.settle (h : t.st.Fit []) (before : State) : (t.settle before).Fit [] := by
  unfold Turn.settle
  dsimp only
  split
  · exact (h.flush.flush.pass _).close
  · exact h.flush.close

end Fit

end Sys2Proof.Machine
end

section
/-! Proofs: words, conditions and received streams keep the transfers with the engines. -/

namespace Sys2Proof.Machine

section Fit

variable {S : List Spare} {s s' : State} {t : Turn} {g : Spare} {k : Circuit} {e : EngineState} {a b : Option Nat}

/-! ## A change of far word -/

theorem State.Fit.refreshClass (h : t.st.Fit []) (before : State) (g : Spare) (claimed : Bool) (k : Circuit) :
    (t.refreshClass before g claimed k).st.Fit [] := by
  have hu : (t.change fun s => (s.updateKind k).cleared k claimed).st.Fit [] := by
    refine h.of_links (Eq.trans ?_ (State.links_updateKind t.st k))
    cases claimed <;> rfl
  rw [Turn.refreshClass_eq]
  dsimp only
  split
  · split
    · exact hu.reactUnheld g k true
    · exact hu
  · split
    · exact hu.reactUnheld g k true
    · exact hu
  · exact hu

theorem State.Fit.reactLater (h : t.st.Fit []) (before : State) (g : Spare) (k : Circuit) :
    (t.reactLater before g k).st.Fit [] := by
  unfold Turn.reactLater
  split
  · exact h
  · split
    · exact h.reactHeld _ k _
    · exact h
    · split
      · exact h
      · exact h.reactUnheld g k false
    · exact h.reactUnheld g k false

theorem State.Fit.turns {α : Type} {f : Turn → α → Turn} (hf : ∀ (t : Turn) (c : α), t.st.Fit [] → (f t c).st.Fit [])
    (l : List α) (h : t.st.Fit []) : (l.foldl f t).st.Fit [] := by
  induction l generalizing t with
  | nil => exact h
  | cons c l ih => exact ih (hf t c h)

/-- A change of far word keeps the fit where its action does, which finds the engines as they were. -/
theorem State.Fit.changeFar (h : t.st.Fit []) (g : Spare) (f : Option Half) (act : Turn → Turn)
    (hact : ∀ u : Turn, u.st.Fit [] → u.st.engine g = t.st.engine g → (act u).st.Fit []) :
    (t.changeFar g f act).st.Fit [] := by
  have hbegin : (t.change fun s => s.setFar g f).st.Fit [] := h.of_links rfl
  have hr : (t.refreshed g f).st.Fit [] := State.Fit.turns (fun _ k hu => hu.refreshClass t.st g _ k) _ hbegin
  rw [Turn.changeFar_eq]
  exact State.Fit.turns (fun _ k hu => hu.reactLater t.st g k) _ (hact _ hr ((t.refreshed_keeps g f).1 g))

/-! ## Words -/

theorem State.Fit.decline (h : t.st.Fit []) (g : Spare) (k : Circuit) : (t.decline g k).st.Fit [] := by
  have hm : (t.change fun s => s.setRecord k { s.record k with declined := true }).st.Fit [] := h.of_links rfl
  unfold Turn.decline
  dsimp only
  split
  · split
    · exact hm.drop g k
    · exact h
  · split
    · exact hm.drop g k
    · exact h
  · exact hm.reactUnheld g k false

theorem State.Fit.becomeFree (h : t.st.Fit []) (hc : (t.st.engine g).state.circuit = none) : (t.becomeFree g).st.Fit [] :=
  h.enterIdle hc rfl

theorem State.Fit.enterLooped (h : t.st.Fit []) (hc : (t.st.engine g).state.circuit = none) : (t.enterLooped g).st.Fit [] :=
  h.enterIdle hc rfl

theorem State.Fit.endTest (h : t.st.Fit []) (g : Spare) (r : TestResult) : (t.endTest g r).st.Fit [] :=
  h.of_links (Turn.links_endTest ..)

theorem State.Fit.testOver (h : t.st.Fit []) (hc : (t.st.engine g).state.circuit = none) (r : TestResult) :
    ((t.endTest g r).becomeFree g).st.Fit [] :=
  (h.endTest g r).becomeFree (by rwa [Turn.endTest_engine_state])

/-- A record that an engine in a test or a loop does not hold is declined: the engine holds no circuit after it. -/
theorem Turn.decline_idle (t : Turn) (hc : (t.st.engine g).state.circuit = none) (j : Circuit) :
    ((t.decline g j).st.engine g).state.circuit = none := by
  unfold Turn.decline Turn.drop Turn.release
  dsimp only
  split
  · split
    · simp [EngineState.circuit]
    · exact hc
  · split
    · simp [EngineState.circuit]
    · exact hc
  · rw [State.engine_of_links (Turn.links_reactUnheld ..)]
    exact hc

theorem State.Fit.actFree (h : t.st.Fit []) (hc : (t.st.engine g).state.circuit = none) (w : SpanWord) :
    (t.actFree g w).st.Fit [] := by
  unfold Turn.actFree
  split
  case h_1 j => exact h.decline g j
  case h_2 => exact h.enterLooped hc
  all_goals exact h

theorem State.Fit.actUnavailable (h : t.st.Fit []) (g : Spare) (w : SpanWord) : (t.actUnavailable g w).st.Fit [] := by
  unfold Turn.actUnavailable
  split
  case h_1 j => exact h.decline g j
  all_goals exact h

theorem State.Fit.actPreparing (h : t.st.Fit []) (g : Spare) (w : SpanWord) : (t.actPreparing g w).st.Fit [] := by
  unfold Turn.actPreparing
  split
  case h_1 => exact h.contest g
  case h_2 => exact h.contest g
  case h_3 j => exact h.decline g j
  all_goals exact h

theorem State.Fit.actBridged (h : t.st.Fit []) (hb : (t.st.engine g).state.bridges = true) (k : Circuit) (w : SpanWord) :
    (t.actBridged g k w).st.Fit [] := by
  unfold Turn.actBridged
  split
  · split
    · exact h.enterBridging hb rfl
    · exact h.contest g
  · exact h.contest g
  · split
    · exact h.enterReturning hb k
    · exact h
  · exact h.decline g _
  all_goals exact h

theorem State.Fit.actCarrying (h : t.st.Fit []) (hb : (t.st.engine g).state.bridges = true) (k : Circuit) (w : SpanWord) :
    (t.actCarrying g k w).st.Fit [] := by
  have hs : (t.stepBack g k).st.Fit [] := h.enterBridging hb rfl
  unfold Turn.actCarrying
  split
  · split
    · exact h
    · exact hs.contest g
  · exact hs.contest g
  · split
    · exact h.enterReturning hb k
    · exact h
  · exact h.decline g _
  all_goals exact h

theorem State.Fit.rebridge (h : t.st.Fit []) (hb : (t.st.engine g).state.bridges = true) (k : Circuit) :
    (t.rebridge g k).st.Fit [] := by
  have hm : (t.moveRecord g k (.assigned g) .back).st.Fit [] := h.of_links (Turn.links_moveRecord ..)
  exact hm.enterBridging (by rwa [State.engine_of_links (Turn.links_moveRecord ..)]) rfl

theorem State.Fit.actReturning (h : t.st.Fit []) (hb : (t.st.engine g).state.bridges = true) (k : Circuit) (w : SpanWord) :
    (t.actReturning g k w).st.Fit [] := by
  unfold Turn.actReturning
  split
  · exact h.completeReturn g k
  · split
    · exact h.completeReturn g k
    · exact h
  · split
    · exact h.rebridge hb k
    · exact h.contest g
  · split
    · split
      · exact h.rebridge hb k
      · exact h
    · exact h.contest g
  · exact h.decline g _
  all_goals exact h

theorem State.Fit.relooped (h : t.st.Fit []) (hc : (t.st.engine g).state.circuit = none) :
    ((t.becomeFree g).enterLooped g).st.Fit [] :=
  (h.becomeFree hc).enterLooped (by simp [Turn.becomeFree, EngineState.circuit])

theorem State.Fit.actTesting (h : t.st.Fit []) (hc : (t.st.engine g).state.circuit = none) (ph : TestPhase) (w : SpanWord) :
    (t.actTesting g ph w).st.Fit [] := by
  have ended : ∀ r, (t.endTest g r).st.Fit [] ∧ ((t.endTest g r).st.engine g).state.circuit = none := fun r =>
    ⟨h.endTest g r, by rwa [Turn.endTest_engine_state]⟩
  have declined : ∀ j r, (((t.decline g j).endTest g r).becomeFree g).st.Fit [] := fun j r =>
    (h.decline g j).testOver (t.decline_idle hc j) r
  unfold Turn.actTesting
  split
  · exact h.testOver hc _
  · exact h.testOver hc _
  · split
    · split
      · exact h
      · exact (ended _).1.enterLooped (ended _).2
    · exact (ended _).1.relooped (ended _).2
    · exact (ended _).1.relooped (ended _).2
  · split
    · exact h
    · exact h.testOver hc _
    · exact h.testOver hc _
  · split
    · exact h
    · exact h.testOver hc _
    · exact h.testOver hc _
  · split
    · exact h
    · exact h.testOver hc _
    · exact h.testOver hc _
  · split
    · exact h.decline g _
    · exact declined ..
    · exact declined ..
  · exact h

theorem State.Fit.actLooped (h : t.st.Fit []) (hc : (t.st.engine g).state.circuit = none) (w : SpanWord) :
    (t.actLooped g w).st.Fit [] := by
  unfold Turn.actLooped
  split
  case h_1 => exact State.Fit.becomeFree (t := t.endLoop g .overtaken) h hc
  case h_2 => exact State.Fit.becomeFree (t := t.endLoop g .overtaken) h hc
  case h_3 => exact h.relooped hc
  case h_7 j => exact (h.decline g j).becomeFree (t.decline_idle hc j)
  case h_8 => exact h
  all_goals exact h.becomeFree hc

theorem State.Fit.act (h : t.st.Fit []) (g : Spare) (w : SpanWord) : (t.act g w).st.Fit [] := by
  unfold Turn.act
  split
  · next he => exact h.actFree (by rw [he]; rfl) w
  · exact h.actPreparing g w
  · next k he => exact h.actBridged (by rw [he]; rfl) k w
  · next k he => exact h.actCarrying (by rw [he]; rfl) k w
  · next k he => exact h.actReturning (by rw [he]; rfl) k w
  · exact h.actUnavailable g w
  · next ph he => exact h.actTesting (by rw [he]; rfl) ph w
  · next he => exact h.actLooped (by rw [he]; rfl) w

theorem State.Fit.takeReasons (h : t.st.Fit []) (g : Spare) (w : SpanWord) : (t.takeReasons g w).st.Fit [] := by
  unfold Turn.takeReasons
  dsimp only
  split
  · exact h
  · exact h.setReasons g _

theorem State.Fit.revokeIfGone (h : t.st.Fit []) (g : Spare) : (t.revokeIfGone g).st.Fit [] := by
  unfold Turn.revokeIfGone
  split
  · split
    · exact h.drop g _
    · exact h
  · exact h

theorem State.Fit.offerStanding (h : t.st.Fit []) (g : Spare) : (t.offerStanding g).st.Fit [] := by
  unfold Turn.offerStanding
  split
  · next k _ _ =>
    split
    · dsimp only
      split
      · exact h.offer g k
      · exact h.offer g k
      · exact (h.offer g k).reactUnheld g k false
    · exact h
  · exact h

theorem State.Fit.post (h : s.Fit S) (e : Event) : (s.post e).Fit S := h.of_links (State.links_post ..)

theorem State.Fit.deliver (h : t.st.Fit []) (g : Spare) (w : Half) : (t.deliver g w).st.Fit [] := by
  have posted : ∀ e, (t.change fun s => s.post e).st.Fit [] := fun e => h.post e
  unfold Turn.deliver
  split
  · exact (posted _).changeFar g none id fun _ hu _ => hu
  · next said _ =>
    split
    · split
      · next d hd _ =>
        refine h.changeFar g none _ fun u hu he => hu.enterIdle ?_ rfl
        rw [he]
        unfold EngineState.asking at hd
        split at hd
        · next he => rw [he]; rfl
        · cases hd
      · exact (posted _).changeFar g none id fun _ hu _ => hu
    · refine State.Fit.offerStanding ((posted _).changeFar g (some w) _ fun u hu _ => ?_) g
      exact ((hu.takeReasons g said).revokeIfGone g).act g said

theorem State.Fit.qualifyGood (h : t.st.Fit []) (g : Spare) (w : Half) : (t.qualifyGood g w).st.Fit [] := by
  unfold Turn.qualifyGood
  split
  · exact h.of_links rfl
  · dsimp only
    split
    · have hs : ∀ q, (t.change fun s => s.setQualifier g q).st.Fit [] := fun q => h.of_links rfl
      split
      · exact (hs _).deliver g _
      · exact hs _
    · exact h.of_links rfl

/-! ## Conditions and received streams -/

theorem State.Fit.writeCondClass (h : s.Fit []) (k : Circuit) (c : Nat) : (s.writeCondClass k c).Fit [] := by
  unfold State.writeCondClass
  split
  · exact h
  · exact State.Fit.settle (State.Fit.sourceChange (t := s.turn) h k _) s

theorem State.Fit.spareDown (h : s.Fit []) (g : Spare) : (s.spareDown g).Fit [] :=
  State.Fit.settle (State.Fit.changeFar (t := s.turn) h g none _ fun _ hu _ => hu.putReason g .line true) s

theorem State.Fit.spareUp (h : s.Fit []) (g : Spare) : (s.spareUp g).Fit [] :=
  State.Fit.settle (State.Fit.putReason (t := s.turn) h g .line false) s

theorem State.Fit.setDown (h : s.Fit []) (p : Port) (b : Bool) : (s.setDown p b).Fit [] := by
  have hc : ∀ c e, ((s.setCondition p c).post e).Fit [] := fun c e =>
    State.Fit.post (s := s.setCondition p c) (h.of_links rfl) e
  unfold State.setDown
  dsimp only
  split
  · exact (hc _ _).writeCondClass _ _
  · split
    · exact (hc _ _).spareDown _
    · exact (hc _ _).spareUp _

theorem State.Fit.setImpaired (h : s.Fit []) (p : Port) (b : Bool) : (s.setImpaired p b).Fit [] := by
  have hc : ∀ c e, ((s.setCondition p c).post e).Fit [] := fun c e =>
    State.Fit.post (s := s.setCondition p c) (h.of_links rfl) e
  unfold State.setImpaired
  dsimp only
  split
  · exact (hc _ _).writeCondClass _ _
  · exact hc _ _

theorem State.Fit.watch (h : s.Fit []) (p : Port) : (s.watch p).Fit [] := by
  have hc : ∀ c, (s.setCondition p c).Fit [] := fun c => h.of_links rfl
  unfold State.watch State.rawDownBegins State.rawDownEnds
  dsimp only
  split
  · split
    · exact hc _
    · split
      · exact (hc _).setDown p true
      · exact hc _
  · split
    · split
      · split
        · exact (hc _).setDown p false
        · exact hc _
      · exact hc _
    · exact h

theorem State.Fit.endInterval (h : s.Fit []) (p : Port) : (s.endInterval p).Fit [] := by
  have hc : ∀ m c, ((s.setMonitor p m).setCondition p c).Fit [] := fun m c => h.of_links rfl
  unfold State.endInterval
  dsimp only
  split
  · exact hc _ _
  · exact (hc _ _).setImpaired p _

theorem State.Fit.foldl {α : Type} {f : State → α → State} (hf : ∀ s c, State.Fit [] s → (f s c).Fit [])
    (l : List α) (h : s.Fit []) : (l.foldl f s).Fit [] := by
  induction l generalizing s with
  | nil => exact h
  | cons c l ih => exact ih (hf s c h)

theorem State.Fit.carryFrame (h : s.Fit []) (p : Port) (f : Frame) : (s.carryFrame p f).Fit [] := h.of_links rfl

theorem State.Fit.carryBits (h : s.Fit []) (p : Port) (l : List Bool) : (s.carryBits p l).Fit [] :=
  h.of_links (State.carryBits_keeps State.links (fun _ _ _ _ => rfl) s p l)

theorem State.Fit.carryStart (h : s.Fit []) (p : Port) (l : List Bool) : (s.carryStart p l).Fit [] :=
  h.of_links (State.carryStart_keeps State.links (fun _ _ _ _ => rfl) s p l)

theorem State.Fit.frameBoundary (h : s.Fit []) (p : Port) : (s.frameBoundary p).Fit [] :=
  h.of_links (State.frameBoundary_keeps State.links (fun _ _ => rfl) (fun _ _ => rfl) s p)

end Fit

end Sys2Proof.Machine
end

section
/-! Proofs: the port's choice, a context write and the outcome of a transfer's word keep the transfers with the line. -/

namespace Sys2Proof.Machine

/-! ## Transfers and the port -/

/-- An index put into a resend set is in it, with those that were (R108). -/
theorem mem_addResend (i j : WordIndex) (l : List WordIndex) : j ∈ addResend i l ↔ j = i ∨ j ∈ l := by
  induction l with
  | nil => simp [addResend]
  | cons h rest ih =>
    unfold addResend
    split
    · simp
    · split
      · next e => subst e; simp
      · simp only [List.mem_cons, ih]
        tauto

/-- A resend set stays in ascending order (R111). -/
theorem addResend_sorted (i : WordIndex) (l : List WordIndex) (h : l.Pairwise (· < ·)) : (addResend i l).Pairwise (· < ·) := by
  induction l with
  | nil => simp [addResend]
  | cons j rest ih =>
    obtain ⟨hj, hrest⟩ := List.pairwise_cons.mp h
    unfold addResend
    split
    · next hlt => exact List.pairwise_cons.mpr ⟨fun a ha => (List.mem_cons.mp ha).elim (· ▸ hlt) fun ha => hlt.trans (hj a ha), h⟩
    · next hlt =>
      split
      · exact h
      · next hne =>
        refine List.pairwise_cons.mpr ⟨fun a ha => ?_, ih hrest⟩
        rcases (mem_addResend i a rest).mp ha with rfl | ha
        · exact lt_of_le_of_ne (not_lt.mp hlt) (Ne.symm hne)
        · exact hj a ha

/-- A context write keeps a running transfer in bounds (R108). -/
theorem Transfer.Bounded.written {x : Transfer} (h : x.Bounded) (g : Spare) (p : Port) (i : WordIndex) :
    (x.written g p i).Bounded := by
  obtain ⟨hcursor, hresend, hsorted, hflight, hover⟩ := h
  unfold Transfer.written
  split
  · next hc =>
    refine ⟨hcursor, fun j hj => ?_, addResend_sorted i _ hsorted, hflight, fun _ => .inl fun e => ?_⟩
    · rcases (mem_addResend i j x.resend).mp hj with rfl | hj
      · exact hc.2
      · exact hresend j hj
    · have hnil : addResend i x.resend = [] := e
      exact List.not_mem_nil (hnil ▸ (mem_addResend i i x.resend).mpr (.inl rfl))
  · exact ⟨hcursor, hresend, hsorted, hflight, hover⟩

theorem Transfer.written_kept (x : Transfer) (g : Spare) (p : Port) (i : WordIndex) :
    (x.written g p i).source = x.source ∧ (x.written g p i).inFlight = x.inFlight := by
  unfold Transfer.written
  split <;> exact ⟨rfl, rfl⟩

/-- An offered word that is started leaves the transfer in bounds, in flight (R113). -/
theorem Transfer.Bounded.started {x : Transfer} {i : WordIndex} (h : x.Bounded) (hi : x.offer = some i) :
    (x.started i).Bounded ∧ (x.started i).inFlight = some i ∧ (x.started i).source = x.source := by
  obtain ⟨hcursor, hresend, hsorted, _, _⟩ := h
  unfold Transfer.offer at hi
  split at hi
  · cases hi
  · unfold Transfer.started
    split
    · next hlt =>
      rw [dif_pos hlt] at hi
      obtain rfl := Option.some.inj hi
      exact ⟨⟨hlt, fun j hj => Nat.lt_succ_of_lt (hresend j hj), hsorted, by simp, by simp⟩, rfl, rfl⟩
    · next hge =>
      rw [dif_neg hge] at hi
      have hmem : i ∈ x.resend := List.mem_of_mem_head? hi
      refine ⟨⟨hcursor, fun j hj => hresend j (List.mem_filter.mp hj).1, hsorted.filter _, ?_, by simp⟩, rfl, rfl⟩
      simpa using hresend i hmem

section Fit

variable {S : List Spare} {s s' : State} {t : Turn} {g : Spare} {k : Circuit} {e : EngineState} {a b : Option Nat}

theorem State.Fit.servePort (h : s.Fit []) : s.servePort.Fit [] := by
  rcases s.servePort_cases with e | ⟨g, x, i, htr, hx, hi, e⟩ | ⟨f, rest, htr, _, e⟩ <;> rw [e]
  · exact h
  · have hoffer : x.offer = some i := by
      unfold State.eligibleOffer at hi
      rw [hx] at hi
      split at hi
      · cases hi
      · exact hi
    obtain ⟨hbound, hflight, hsource⟩ := ((h.wired g).bounded x hx).started hoffer
    have hother : ∀ j, g ≠ j → (s.startOffer g x i).transfer j = s.transfer j := fun j hj =>
      State.setTransfer_transfer_other s _ hj
    have hsame : (s.startOffer g x i).transfer g = some (x.started i) := State.setTransfer_transfer_same ..
    refine ⟨fun j => ?_, fun j _ => ?_⟩
    · by_cases hj : g = j
      · subst hj
        rw [hsame]
        exact ⟨fun y hy => Option.some.inj hy ▸ hbound, by simp [State.startOffer, Transaction.indexFor, hflight]⟩
      · rw [hother j hj]
        have hw := h.wired j
        rw [htr] at hw
        simpa [State.startOffer, Transaction.indexFor, hj] using hw
    · have heng : (s.startOffer g x i).engine j = s.engine j := rfl
      rw [heng]
      by_cases hj : g = j
      · subst hj
        have hs := h.suits g (by simp)
        rw [hx] at hs
        rw [hsame]
        simpa [hsource] using hs
      · rw [hother j hj]
        exact h.suits j (by simp)
  · refine ⟨fun j => ?_, fun j _ => h.suits j (by simp)⟩
    have hw := h.wired j
    rw [htr] at hw
    simpa [State.startEntry, Transaction.indexFor, State.transfer] using hw

theorem State.Fit.finish (h : s.Fit []) : s.finish.Fit [] :=
  State.Fit.servePort (s := s.settleFeeds) (h.of_links rfl)

theorem State.Fit.takeWrite (h : s.Fit []) (p : Port) (i : WordIndex) (v : Half) : (s.takeWrite p i v).Fit [] := by
  have htr : ∀ g, (s.takeWrite p i v).transfer g = (s.transfer g).map (Transfer.written g p i) := fun g => by
    simp [State.takeWrite, State.transfer]
  refine ⟨fun g => ?_, fun g _ => ?_⟩
  · rw [htr]
    have hw := h.wired g
    refine ⟨fun y hy => ?_, ?_⟩
    · obtain ⟨x, hx, rfl⟩ := Option.map_eq_some_iff.mp hy
      exact (hw.bounded x hx).written g p i
    · refine Eq.trans ?_ hw.inFlight
      cases s.transfer g with
      | none => rfl
      | some x => exact (x.written_kept g p i).2
  · have hs := h.suits g (by simp)
    rw [htr, Option.map_map]
    have hsrc : (fun x : Transfer => x.source) ∘ Transfer.written g p i = fun x => x.source :=
      funext fun x => (x.written_kept g p i).1
    rw [hsrc]
    exact hs

/-- A word that is no transfer's, or is abandoned, leaves the line. -/
theorem State.Fit.clearLine (h : s.Fit []) {x : Transaction} (hx : s.transaction = some x)
    (hsrc : x.source = .fifo ∨ x.abandoned = true) : ({ s with transaction := none } : State).Fit [] where
  wired := fun g => by
    have hw := h.wired g
    rw [hx] at hw
    have hnone : Transaction.indexFor g (some x) = none := by
      rcases hsrc with e | e <;> simp [Transaction.indexFor, e]
    rw [hnone] at hw
    exact hw
  suits := h.suits

/-- The line idle, and spare g's transfer engine as the outcome of its word leaves it (R114, R116). -/
def State.heardOut (s : State) (g : Spare) (y : Option Transfer) : State :=
  ({ s with transaction := none } : State).setTransfer g y

@[simp] theorem State.heardOut_engine (s : State) (g i : Spare) (y : Option Transfer) :
    (s.heardOut g y).engine i = s.engine i := rfl

@[simp] theorem State.heardOut_transfer (s : State) (g : Spare) (y : Option Transfer) :
    (s.heardOut g y).transfer g = y := State.setTransfer_transfer_same ..

/-- Acknowledged with words left, the transfer goes on (R114). -/
theorem State.handOver_goesOn {x : Transaction} {y : Transfer} (hsrc : x.source = .transfer g) (hab : x.abandoned = false)
    (hy : s.transfer g = some y) (hmore : y.cursor < 16 ∨ y.resend ≠ []) :
    s.handOver x true = s.heardOut g (some { y with inFlight := none }) := by
  have htr : ({ s with transaction := none } : State).transfer g = some y := hy
  unfold State.handOver State.transferOutcome
  simp only [hsrc, hab, htr, Bool.false_eq_true, if_false, Bool.not_true, if_pos hmore]
  rfl

/-- Acknowledged as the last word, the transfer completes (R114). -/
theorem State.handOver_completes {x : Transaction} {y : Transfer} (hsrc : x.source = .transfer g) (hab : x.abandoned = false)
    (hy : s.transfer g = some y) (hover : ¬ (y.cursor < 16 ∨ y.resend ≠ [])) :
    s.handOver x true =
      let u := ((s.heardOut g none).setOutOfStep (sparePort g) false).post (transferDoneEvent g y.source)
      (u.turn.transferCompleted g y.source).settle u := by
  have htr : ({ s with transaction := none } : State).transfer g = some y := hy
  unfold State.handOver State.transferOutcome
  simp only [hsrc, hab, htr, Bool.false_eq_true, if_false, Bool.not_true, if_neg hover]
  rfl

/-- Not acknowledged, the transfer fails (R116). -/
theorem State.handOver_fails {x : Transaction} {y : Transfer} (hsrc : x.source = .transfer g) (hab : x.abandoned = false)
    (hy : s.transfer g = some y) :
    s.handOver x false =
      let u := (s.heardOut g none).post (transferFailedEvent g y.source x.index)
      (u.turn.putReason g .setup true).settle u := by
  have htr : ({ s with transaction := none } : State).transfer g = some y := hy
  unfold State.handOver State.transferOutcome
  simp only [hsrc, hab, htr, Bool.false_eq_true, if_false, Bool.not_false, if_true]
  rfl

theorem State.Fit.heardOut (h : s.Fit []) {x : Transaction} (hx : s.transaction = some x) (hsrc : x.source = .transfer g)
    {y : Option Transfer} (hy : Wired y none) : (s.heardOut g y).Fit [g] where
  wired := fun i => by
    by_cases hi : g = i
    · subst hi
      rw [State.heardOut_transfer]
      exact hy
    · have hw := h.wired i
      have hnone : Transaction.indexFor i s.transaction = none := by
        simp [hx, Transaction.indexFor, hsrc, hi]
      rw [hnone] at hw
      unfold State.heardOut
      rw [State.setTransfer_transfer_other _ _ hi]
      exact hw
  suits := fun i hi => by
    unfold State.heardOut
    rw [State.setTransfer_transfer_other _ _ fun e => hi (by simp [e])]
    exact h.suits i (by simp)

/-- The one engine whose fit was open fits. -/
theorem State.Fit.closed (h : s.Fit [g]) (hs : (s.engine g).state.Suits ((s.transfer g).map (·.source))) : s.Fit [] where
  wired := h.wired
  suits := fun i _ => by
    by_cases hi : i = g
    · exact hi ▸ hs
    · exact h.suits i (by simpa using hi)

/-- A completed transfer (R51, R57). -/
theorem State.Fit.transferCompleted {src : TransferSource} (h : t.st.Fit [g]) (hnone : t.st.transfer g = none)
    (hs : (t.st.engine g).state.Suits (some src)) : (t.transferCompleted g src).st.Fit [] := by
  have hidle : (∀ k, (t.st.engine g).state ≠ .preparing k) → t.st.Fit [] := fun hne =>
    h.closed (by rw [hnone]; exact EngineState.suits_none hne)
  have enter : ∀ (e : EngineState) (a b : Option Nat), e.bridges = true → (t.enterEngine g e a b).st.Fit [] := fun e a b he =>
    h.enterEngine (by rw [hnone]; exact EngineState.suits_none (EngineState.not_preparing_of_bridges he))
  cases src with
  | rest =>
    refine hidle fun k hk => ?_
    rw [hk] at hs
    exact absurd (hs.2 rfl) (by simp [EngineState.circuit])
  | circuit k =>
    have hk : (t.st.engine g).state = .preparing k := (hs.1 k).mpr rfl
    unfold Turn.transferCompleted
    rw [hk]
    dsimp only
    rw [if_pos rfl]
    split
    · exact enter _ _ _ rfl
    · exact (enter _ _ _ rfl).contest g

/-- A failed transfer: with Agreement a PREPARING engine has no reason yet, so that SETUP tears it down (R52, R57, R116). -/
theorem State.Fit.failed (h : t.st.Fit [g]) (hnone : t.st.transfer g = none)
    (hr : (t.st.engine g).state.circuit ≠ none → (t.st.engine g).reasons.isEmpty = true) :
    (t.putReason g .setup true).st.Fit [] := by
  by_cases hc : (t.st.engine g).state.circuit = none
  · refine State.Fit.putReason (h.closed ?_) g .setup true
    rw [hnone]
    exact EngineState.suits_none fun k hk => by rw [hk] at hc; cases hc
  · have hempty := Reasons.eq_empty (hr hc)
    have hu : (t.st.engine g).state ≠ .unavailable := fun e => hc (by rw [e]; rfl)
    have hput : t.putReason g .setup true = t.setReasons g { Reasons.empty with setup := true } := by
      unfold Turn.putReason
      rw [hempty]
      rfl
    rw [hput]
    rcases t.setReasons_cases g { Reasons.empty with setup := true } with ⟨_, _, e⟩ | ⟨e, _⟩ | ⟨e, _⟩
    · rw [e]
      exact h.tornDown (fun hn => absurd hn hc) _
    · exact absurd e hu
    · exact absurd (e.mpr rfl) hu

theorem State.Fit.transferOutcome (h : s.Fit []) (ha : s.Agreement) {x : Transaction} (hx : s.transaction = some x)
    (hsrc : x.source = .transfer g) (hab : x.abandoned = false) (ack : Bool) : (s.handOver x ack).Fit [] := by
  have hw := h.wired g
  have hindex : Transaction.indexFor g s.transaction = some x.index := by simp [hx, Transaction.indexFor, hsrc, hab]
  rw [hindex] at hw
  obtain ⟨y, hy, _⟩ := Option.bind_eq_some_iff.mp hw.inFlight
  have hs := h.suits g (by simp)
  rw [hy] at hs
  have hfit := h.heardOut hx hsrc wired_none
  cases ack with
  | false =>
    rw [State.handOver_fails hsrc hab hy]
    generalize hu : (s.heardOut g none).post (transferFailedEvent g y.source x.index) = u
    have hpost : u.Fit [g] := hu ▸ hfit.post _
    have htr : u.transfer g = none := by
      rw [← hu, State.transfer_of_links (State.links_post ..), State.heardOut_transfer]
    have heng : u.engine g = s.engine g := by rw [← hu, State.post_engine, State.heardOut_engine]
    refine State.Fit.settle (State.Fit.failed (t := u.turn) hpost htr fun hc => ?_) u
    rw [State.turn_st, heng] at hc ⊢
    by_contra hne
    rw [(ha.reasons g).mp (by simpa using hne)] at hc
    exact hc rfl
  | true =>
    by_cases hmore : y.cursor < 16 ∨ y.resend ≠ []
    · rw [State.handOver_goesOn hsrc hab hy hmore]
      obtain ⟨hcursor, hresend, hsorted, _, _⟩ := hw.bounded y hy
      have hwired : Wired (some { y with inFlight := none }) none := by
        refine ⟨fun z hz => ?_, rfl⟩
        obtain rfl := Option.some.inj hz
        exact ⟨hcursor, hresend, hsorted, by simp, fun (hc : y.cursor = 16) => .inl (hmore.resolve_left (by omega))⟩
      refine (h.heardOut hx hsrc hwired).closed ?_
      rw [State.heardOut_transfer]
      exact hs
    · rw [State.handOver_completes hsrc hab hy hmore]
      have hstep : ((s.heardOut g none).setOutOfStep (sparePort g) false).Fit [g] := hfit.of_links rfl
      generalize hu : ((s.heardOut g none).setOutOfStep (sparePort g) false).post (transferDoneEvent g y.source) = u
      have hpost : u.Fit [g] := hu ▸ hstep.post _
      have htr : u.transfer g = none := by
        rw [← hu, State.transfer_of_links (State.links_post ..)]
        exact State.heardOut_transfer ..
      have heng : (u.engine g).state = (s.engine g).state := by
        rw [← hu, State.engine_of_links (State.links_post ..)]
        rfl
      exact State.Fit.settle (State.Fit.transferCompleted (t := u.turn) hpost htr (heng ▸ hs)) u

theorem State.Fit.handOver (h : s.Fit []) (ha : s.Agreement) {x : Transaction} (hx : s.transaction = some x) (ack : Bool) :
    (s.handOver x ack).Fit [] := by
  cases hsrc : x.source with
  | transfer g =>
    cases hab : x.abandoned with
    | false => exact h.transferOutcome ha hx hsrc hab ack
    | true =>
      have hc := h.clearLine hx (.inr hab)
      unfold State.handOver
      simp only [hsrc, hab, if_true]
      exact hc
  | fifo =>
    have hc := h.clearLine hx (.inl hsrc)
    unfold State.handOver State.entryOutcome
    simp only [hsrc]
    split
    · exact hc
    · exact State.Fit.post (s := State.setOutOfStep _ x.port true) (hc.of_links rfl) _

theorem State.Fit.attemptEnd (h : s.Fit []) (ha : s.Agreement) (ack : Bool) : (s.attemptEnd ack).Fit [] := by
  unfold State.attemptEnd
  split
  · exact h
  · next x hx =>
    split
    · refine ⟨fun g => ?_, h.suits⟩
      have hw := h.wired g
      rw [hx] at hw
      exact hw
    · exact (h.handOver ha hx ack).finish

end Fit

end Sys2Proof.Machine
end

section
/-! Proofs: every command keeps the transfers with the engines and with the line. -/

namespace Sys2Proof.Machine

section Fit

variable {S : List Spare} {s s' : State} {t : Turn} {g : Spare} {k : Circuit} {e : EngineState} {a b : Option Nat}

/-! ## Received streams and timers -/

theorem State.Fit.countTestError (h : s.Fit []) (g : Spare) : (s.countTestError g).Fit [] := by
  unfold State.countTestError
  dsimp only
  split
  · exact h.of_links (State.links_setEngine _ _ _ rfl)
  · exact h

theorem State.Fit.departed (h : s.Fit []) (p : Port) : (s.departed p).Fit [] := by
  unfold State.departed
  dsimp only
  split
  · exact h.watch p
  · next g _ => exact State.Fit.watch (s := s.breakQualifier g) (h.of_links rfl) p

theorem State.Fit.judgedOnSpare (h : s.Fit []) (g : Spare) (f : Frame) : (s.judgedOnSpare g f).Fit [] := by
  unfold State.judgedOnSpare
  split
  · exact State.Fit.settle (State.Fit.qualifyGood (t := s.turn) h g _) s
  · exact State.Fit.countTestError (s := s.breakQualifier g) (h.of_links rfl) g

theorem State.Fit.judge (h : s.Fit []) (p : Port) (n : Nat) (f : Frame) : (s.judge p n f).Fit [] := by
  have hc : ((s.setMonitor p ((s.monitor p).judged n f)).carryFrame p f).Fit [] := h.of_links rfl
  unfold State.judge
  dsimp only
  split
  · exact hc.frameBoundary p
  · exact (hc.judgedOnSpare _ f).frameBoundary p

theorem State.Fit.setMonitor (h : s.Fit []) (p : Port) (m : Monitor) : (s.setMonitor p m).Fit [] := h.of_links rfl

theorem State.Fit.loseAlignment (h : s.Fit []) (p : Port) (b : Byte) : (s.loseAlignment p b).Fit [] :=
  ((h.setMonitor p _).carryBits p _).departed p

theorem State.Fit.receiveBits (h : s.Fit []) (p : Port) (l : List Bool) : (s.receiveBits p l).Fit [] := by
  rcases s.receiveBits_cases p l with ⟨_, e⟩ | ⟨_, e⟩ | ⟨_, _, _, e⟩ <;> rw [e]
  · exact h
  · exact h.carryBits p l
  · exact ((h.carryBits p l).setMonitor p _).finish

theorem State.Fit.checkByte (h : s.Fit []) (p : Port) (before : List Byte) (b : Byte) :
    (s.checkByte p before b).Fit [] := by
  have hc : ∀ l m, ((s.carryBits p l).setMonitor p m).Fit [] := fun l m => (h.carryBits p l).setMonitor p m
  unfold State.checkByte
  dsimp only
  split
  · split
    · split
      · exact (((hc _ _).watch p).frameBoundary p).finish
      · exact (hc _ _).finish
    · exact (hc _ _).finish
  · exact h
  · exact h

theorem State.Fit.frameReceived (h : s.Fit []) (p : Port) (f : Frame) : (s.frameReceived p f).Fit [] := by
  unfold State.frameReceived
  dsimp only
  split
  · split
    · exact (h.loseAlignment p _).finish
    · exact (h.judge p _ f).finish
  · exact h
  · exact h

theorem State.Fit.alignedByte (h : s.Fit []) (p : Port) (b : Byte) : (s.alignedByte p b).Fit [] := by
  unfold State.alignedByte
  dsimp only
  split
  · split
    · exact (h.loseAlignment p b).finish
    · exact h
  · exact h
  · exact h

theorem State.Fit.loseSignal (h : s.Fit []) (p : Port) (searched : Bool) (before : List Bool) :
    (s.loseSignal p searched before).Fit [] := by
  unfold State.loseSignal
  dsimp only
  split
  · exact (((h.carryStart p _).setMonitor p _).departed p).finish
  · exact (((h.carryBits p _).setMonitor p _).watch p).finish
  · exact (((h.carryBits p _).setMonitor p _).watch p).finish

theorem State.links_tickTimers (s : State) : s.tickTimers.links = s.links := by
  have e : (s.engines.map Engine.tick).map (·.state) = s.engines.map (·.state) :=
    tab_ext fun i => by simp only [tabGet_map]; rfl
  simp only [State.links, State.tickTimers, e]

theorem State.Fit.referenceEdge (h : s.Fit []) (frames : Vector Frame 10) : (s.referenceEdge frames).Fit [] := by
  refine State.Fit.finish ?_
  have hcount : (allSpares.foldl State.countUnaligned s.tickTimers).Fit [] :=
    State.Fit.foldl (fun s g hs => by
      unfold State.countUnaligned
      split
      · exact hs
      · exact hs.countTestError g) _ (h.of_links s.links_tickTimers)
  exact hcount.of_links rfl

theorem State.Fit.answerExpired (h : t.st.Fit []) (g : Spare) : (t.answerExpired g).st.Fit [] := by
  unfold Turn.answerExpired
  split
  case h_1 => exact h.putReason g .silent true
  case h_2 k _ => exact h.completeReturn g k
  case h_3 he => exact h.testOver (by rw [he]; rfl) _
  case h_4 he => exact h.testOver (by rw [he]; rfl) _
  all_goals exact h

theorem State.Fit.answerExpiry (h : s.Fit []) (g : Spare) : (s.answerExpiry g).Fit [] := by
  unfold State.answerExpiry
  split
  · exact (State.Fit.settle (State.Fit.answerExpired (t := s.turn) h g) s).finish
  · exact h

theorem State.Fit.returnExpired (h : t.st.Fit []) (k : Circuit) : (t.returnExpired k).st.Fit [] := by
  unfold Turn.returnExpired
  split
  case h_1 =>
    split
    · next he => exact h.enterReturning (by rcases he with e | e <;> rw [e] <;> rfl) k
    · exact h
  all_goals exact h

theorem State.Fit.returnExpiry (h : s.Fit []) (k : Circuit) : (s.returnExpiry k).Fit [] := by
  unfold State.returnExpiry
  split
  · exact (State.Fit.settle (State.Fit.returnExpired (t := s.turn) h k) s).finish
  · exact h

/-- A test goes on to phase END. -/
theorem State.Fit.endPhase (h : t.st.Fit []) {ph : TestPhase} (he : (t.st.engine g).state = .testing ph) (r : TestResult) :
    (t.endPhase g r).st.Fit [] := h.enterIdle (by rw [he]; rfl) rfl

theorem State.Fit.testExpiry (h : s.Fit []) (g : Spare) : (s.testExpiry g).Fit [] := by
  unfold State.testExpiry
  split
  · next he _ => exact (State.Fit.settle (State.Fit.endPhase (t := s.turn) h he _) s).finish
  · exact h

theorem State.Fit.onsetExpiry (h : s.Fit []) (p : Port) : (s.onsetExpiry p).Fit [] := by
  unfold State.onsetExpiry
  split
  · exact State.Fit.finish (State.Fit.setDown (s := s.setCondition p _) (h.of_links rfl) p true)
  · exact h

theorem State.Fit.clearExpiry (h : s.Fit []) (p : Port) : (s.clearExpiry p).Fit [] := by
  unfold State.clearExpiry
  split
  · exact State.Fit.finish (State.Fit.setDown (s := s.setCondition p _) (h.of_links rfl) p false)
  · exact h

theorem State.Fit.intervalEnds (h : s.Fit []) : s.intervalEnds.Fit [] := by
  have hf : (allPorts.foldl State.endInterval s).Fit [] := State.Fit.foldl (fun _ p hs => hs.endInterval p) _ h
  unfold State.intervalEnds
  generalize allPorts.foldl State.endInterval s = u at hf
  have hn : ({ u with intervalTimer := Config.intervalFrames } : State).Fit [] := hf.of_links rfl
  exact hn.finish

/-! ## Commands -/

theorem State.Fit.setRegs (h : s.Fit []) (r : Registers) : (s.setRegs r).Fit [] := h.of_links rfl

theorem State.Fit.setBus (h : s.Fit []) (b : Bus) : (s.setBus b).Fit [] := h.of_links rfl

theorem State.Fit.withResult (h : s.Fit []) (r : CommandResult) : (s.withResult r).Fit [] := h.of_links rfl

theorem State.Fit.withCircuit (h : s.Fit []) (body : Circuit → State) (hb : ∀ k, (body k).Fit []) :
    (s.withCircuit body).Fit [] := by
  unfold State.withCircuit
  split
  · exact hb _
  · exact h.withResult _

theorem State.Fit.withSpare (h : s.Fit []) (body : Spare → State) (hb : ∀ g, (body g).Fit []) :
    (s.withSpare body).Fit [] := by
  unfold State.withSpare
  split
  · exact hb _
  · exact h.withResult _

/-- MOVE, FORCE and CLEAR write a source. -/
theorem State.Fit.sourced (h : s.Fit []) (k : Circuit) (f : Record → Record) :
    (((s.withResult .done).turn.sourceChange k f).settle (s.withResult .done)).Fit [] :=
  State.Fit.settle (State.Fit.sourceChange (t := (s.withResult .done).turn) (h.withResult _) k f) _

theorem State.Fit.cmdMove (h : s.Fit []) : s.cmdMove.Fit [] :=
  h.withCircuit _ fun k => by
    split
    · exact h.withResult _
    · exact h.sourced k _

theorem State.Fit.cmdForce (h : s.Fit []) : s.cmdForce.Fit [] := h.withCircuit _ fun k => h.sourced k _

theorem State.Fit.cmdClear (h : s.Fit []) : s.cmdClear.Fit [] := h.withCircuit _ fun k => h.sourced k _

theorem State.Fit.bar (h : t.st.Fit []) (k : Circuit) : (t.bar k).st.Fit [] := by
  have hm : (t.change fun s => s.setRecord k { s.record k with barred := true }).st.Fit [] := h.of_links rfl
  unfold Turn.bar
  dsimp only
  split
  · exact hm.drop _ k
  · exact hm.drop _ k
  · exact hm.reactUnheld 0 k false

theorem State.Fit.unbar (h : t.st.Fit []) (k : Circuit) : (t.unbar k).st.Fit [] := by
  have hm : (t.change fun s => s.setRecord k { s.record k with barred := false, declined := false }).st.Fit [] :=
    h.of_links rfl
  unfold Turn.unbar
  dsimp only
  split
  · exact hm
  · exact hm
  · exact hm.reactUnheld 0 k false

theorem State.Fit.cmdBar (h : s.Fit []) : s.cmdBar.Fit [] :=
  h.withCircuit _ fun k => by
    split
    · exact h.withResult _
    · exact State.Fit.settle (State.Fit.bar (t := (s.withResult .done).turn) (h.withResult _) k) _

theorem State.Fit.cmdUnbar (h : s.Fit []) : s.cmdUnbar.Fit [] :=
  h.withCircuit _ fun k =>
    State.Fit.settleWithPass (State.Fit.unbar (t := (s.withResult .done).turn) (h.withResult _) k)

theorem State.Fit.cmdReturn (h : s.Fit []) : s.cmdReturn.Fit [] :=
  h.withCircuit _ fun k => by
    split
    · next g hg =>
      have he : (((s.withResult .done).turn.st).engine g).state = .carrying k := (State.classZeroHeld_some hg).2.2
      exact State.Fit.settle (State.Fit.enterReturning (t := (s.withResult .done).turn) (h.withResult _)
        (by rw [he]; rfl) k) _
    · exact h.withResult _

theorem State.Fit.reasonCommand (h : s.Fit []) (x : Reason) (b : Bool) : (s.reasonCommand x b).Fit [] :=
  h.withSpare _ fun g => by
    split
    · exact h.withResult _
    · exact State.Fit.settle (State.Fit.putReason (t := (s.withResult .done).turn) (h.withResult _) g x b) _

theorem State.Fit.cmdTest (h : s.Fit []) : s.cmdTest.Fit [] := by
  unfold State.cmdTest
  split
  · exact h.withResult _
  · next g _ =>
    split
    · exact h.withResult _
    · split
      · next ht =>
        have hfree : (s.engine g).state = .free := by
          unfold State.testable at ht
          simp only [Bool.and_eq_true, beq_iff_eq] at ht
          exact ht.1
        have hclear : ((s.withResult .done).setEngine g
            { (s.withResult .done).engine g with errorCount := 0, lastResult := .none }).Fit [] :=
          (h.withResult .done).of_links (State.links_setEngine _ _ _ rfl)
        refine State.Fit.settle (State.Fit.enterIdle (t := (s.withResult .done).turn.change fun s =>
          s.setEngine g { s.engine g with errorCount := 0, lastResult := .none }) hclear ?_ rfl) _
        have he : ((s.withResult .done).engine g).state = .free := hfree
        simp [he, EngineState.circuit]
      · exact h.withResult _

theorem State.Fit.cmdStopTest (h : s.Fit []) : s.cmdStopTest.Fit [] :=
  h.withSpare _ fun g => by
    have stop : ∀ ph, (s.engine g).state = .testing ph →
        (((s.withResult .done).turn.endPhase g .aborted).settle (s.withResult .done)).Fit [] := fun ph he =>
      State.Fit.settle (State.Fit.endPhase (t := (s.withResult .done).turn) (h.withResult _) (ph := ph) he .aborted) _
    dsimp only
    split
    · next he => exact stop _ he
    · next he => exact stop _ he
    all_goals exact h.withResult _

theorem State.Fit.cmdResync (h : s.Fit []) : s.cmdResync.Fit [] := by
  unfold State.cmdResync
  split
  · exact h.withResult _
  · split
    · exact h.withResult _
    · exact h.of_links rfl

/-- RESTART leaves every engine without a circuit, a rest transfer running or none (R65, R118). -/
theorem State.Fit.restartEngine (h : s.Fit []) (g : Spare) : (s.restartEngine g).Fit [] := by
  have hidle : (s.restartedEngine g).state.circuit = none := by
    unfold State.restartedEngine
    dsimp only
    split <;> rfl
  unfold State.restartEngine
  dsimp only
  split
  · refine State.Fit.setEngine (s := (s.cancelTransfer g).startTransfer g .rest) (g := g) (h.mono.startTransfer .rest) ?_
    simpa [State.startTransfer] using EngineState.suits_rest hidle
  · refine State.Fit.setEngine (State.Fit.cancelTransfer h.mono) ?_
    have hnone : (s.cancelTransfer g).transfer g = none := by simp [State.cancelTransfer]
    rw [hnone]
    exact EngineState.suits_none fun k hk => by rw [hk] at hidle; cases hidle

theorem State.Fit.restarted (h : s.Fit []) : s.restarted.Fit [] := by
  have hq : (allSpares.foldl State.restartQualifier s).Fit [] :=
    State.Fit.foldl (f := State.restartQualifier) (fun _ _ hs => hs.of_links rfl) _ h
  have he : s.tornDown.Fit [] := State.Fit.foldl (fun _ g hs => hs.restartEngine g) _ hq
  have hr : s.emptied.Fit [] :=
    State.Fit.foldl (f := fun s k => s.setRecord k (s.record k).restart) (fun _ _ hs => hs.of_links rfl) _ he
  rw [State.restarted_eq]
  generalize s.emptied = u at hr
  have hb : (u.setQueue u.rebuiltQueue).Fit [] := hr.of_links rfl
  exact State.Fit.foldl (f := State.recomputeRecord) (fun _ _ hs => hs.of_links rfl) _ hb

theorem State.Fit.cmdRestart (h : s.Fit []) : s.cmdRestart.Fit [] :=
  State.Fit.settleWithPass (t := State.turn _)
    (State.Fit.of_links (h.withResult .done).restarted (State.links_postAll ..))

theorem State.Fit.enable (h : t.st.Fit []) : t.enable.st.Fit [] := (h.putReason 0 .off false).putReason 1 .off false

theorem State.Fit.disable (h : t.st.Fit []) : t.disable.st.Fit [] := by
  have hb := (h.putReason 0 .off true).putReason 1 .off true
  have hf : ∀ (t : Turn) c, t.st.Fit [] → (t.front c).st.Fit [] := fun t c ht => by
    unfold Turn.front
    split
    · exact ht.of_links rfl
    · exact ht
  unfold Turn.disable
  dsimp only
  split
  · rw [Turn.placeTogether_eq]
    split <;> exact hf _ _ (hf _ _ hb)
  · exact hb

theorem State.Fit.writeProtect (h : s.Fit []) (v : Byte) : (s.writeProtect v).Fit [] := by
  unfold State.writeProtect
  dsimp only
  split
  · exact h.setRegs _
  · split
    · exact (State.Fit.settleWithPass (State.Fit.enable (t := State.turn _) (h.setRegs _))).finish
    · exact (State.Fit.settleWithPass (State.Fit.disable (t := State.turn _) (h.setRegs _))).finish

/-! ## Accesses -/

theorem State.Fit.runCode (h : s.Fit []) (code : Byte) : (s.runCode code).Fit [] := by
  unfold State.runCode
  split
  · exact h.cmdMove
  · exact h.cmdForce
  · exact h.cmdClear
  · exact h.cmdBar
  · exact h.cmdUnbar
  · exact h.cmdReturn
  · exact h.reasonCommand ..
  · exact h.reasonCommand ..
  · exact h.reasonCommand ..
  · exact h.cmdTest
  · exact h.cmdStopTest
  · exact h.cmdResync
  · exact h.cmdRestart
  · exact h.withResult _

theorem State.Fit.hostWrite (h : s.Fit []) (f : State → State) (hf : ∀ s, State.Fit [] s → (f s).Fit []) :
    (s.hostWrite f).Fit [] := by
  unfold State.hostWrite
  dsimp only
  split
  · exact h.setBus _
  · exact hf _ (h.setBus _)

theorem State.Fit.hostCommand (h : s.Fit []) (code : Byte) (body : State → State)
    (hf : ∀ s, State.Fit [] s → (body s).Fit []) : (s.hostCommand code body).Fit [] :=
  h.hostWrite _ fun _ hs => (hf _ (hs.setRegs _)).finish

theorem State.Fit.inService (h : s.Fit []) (f : State → State) (hf : s.inReset = false → (f s).Fit []) :
    (s.inService f).Fit [] := by
  unfold State.inService
  split
  · exact h
  · next hr => exact hf (by simpa using hr)

theorem State.Fit.commitWrite (h : s.Fit []) (v : Half) : (s.commitWrite v).Fit [] := by
  unfold State.commitWrite
  dsimp only
  refine State.Fit.setRegs ?_ _
  split
  · exact h.takeWrite _ _ v
  · exact (h.setRegs _).post _

theorem State.Fit.writeAt (h : s.Fit []) (a : Nat) (v : Byte) : (s.writeAt a v).Fit [] := by
  unfold State.writeAt
  split
  · exact ((h.setRegs _).runCode v).finish
  · exact h.writeProtect v
  · exact h.setRegs _
  · exact h.setRegs _
  · exact h.setRegs _
  · exact h.setRegs _
  · exact (h.commitWrite _).finish
  · exact h.setBus _
  · exact h.setBus _
  · exact h.setBus _
  · exact h.setBus _
  · exact h.setRegs _

theorem State.Fit.busWrite (h : s.Fit []) (a : Address) (v : Byte) : (s.busWrite a v).Fit [] :=
  h.hostWrite _ fun _ hs => hs.writeAt _ _

/-- A read touches the window, the events, the index register and the read holding byte. -/
theorem State.links_readAt (s : State) (a : Nat) : (s.readAt a).1.links = s.links := by
  unfold State.readAt
  split
  · dsimp only
    split <;> rfl
  · split
    · rfl
    · split
      · rfl
      · split
        · dsimp only
          unfold State.popEvent
          split <;> rfl
        · rfl

theorem State.Fit.busRead (h : s.Fit []) (a : Address) : (s.busRead a).Fit [] := by
  unfold State.busRead State.hostRead
  dsimp only
  split
  · exact h.setBus _
  · exact State.Fit.setBus (h.of_links (State.links_readAt ..)) _

theorem State.Fit.busStrobes (h : s.Fit []) (a : Address) (v : Byte) (x : Strobes) : (s.busStrobes a v x).Fit [] := by
  rcases s.busStrobes_cases a v x with e | e | ⟨b, e⟩ <;> rw [e]
  · exact h.busWrite a v
  · exact h.busRead a
  · exact h.setBus _

/-! ## Reset and steps -/

/-- Under a pin reset no transfer runs and no engine holds a circuit. -/
theorem State.fit_assertReset (s : State) : s.assertReset.Fit [] where
  wired := fun g => by
    have : s.assertReset.transfer g = none := tabGet_replicate ..
    rw [this]
    exact wired_none
  suits := fun g _ => by
    have : s.assertReset.transfer g = none := tabGet_replicate ..
    have he : s.assertReset.engine g = Engine.reset := tabGet_replicate ..
    rw [this, he]
    exact EngineState.suits_none (by simp [Engine.reset])

theorem State.Fit.releaseReset (h : s.Fit []) (strap : Role) : (s.releaseReset strap).Fit [] := by
  unfold State.releaseReset
  split
  · have hb : ({ s with inReset := false, role := strap, intervalTimer := Config.intervalFrames } : State).Fit [] :=
      h.of_links rfl
    exact (State.Fit.foldl (fun _ p hs => hs.watch p) allPorts hb).finish
  · exact h

/-- Every command keeps the fit; that a failed transfer's engine has no reason yet is from the agreement. -/
theorem State.Fit.exec (h : s.Fit []) (ha : s.Agreement) (i : Instr) : ∃ t, exec i s = .next t ∧ t.Fit [] := by
  cases i
  case move => exact ⟨_, rfl, h.hostCommand _ _ fun _ hs => hs.cmdMove⟩
  case force => exact ⟨_, rfl, h.hostCommand _ _ fun _ hs => hs.cmdForce⟩
  case clear => exact ⟨_, rfl, h.hostCommand _ _ fun _ hs => hs.cmdClear⟩
  case bar => exact ⟨_, rfl, h.hostCommand _ _ fun _ hs => hs.cmdBar⟩
  case unbar => exact ⟨_, rfl, h.hostCommand _ _ fun _ hs => hs.cmdUnbar⟩
  case returnCircuit => exact ⟨_, rfl, h.hostCommand _ _ fun _ hs => hs.cmdReturn⟩
  case shut => exact ⟨_, rfl, h.hostCommand _ _ fun _ hs => hs.reasonCommand ..⟩
  case openSpare => exact ⟨_, rfl, h.hostCommand _ _ fun _ hs => hs.reasonCommand ..⟩
  case clearFault => exact ⟨_, rfl, h.hostCommand _ _ fun _ hs => hs.reasonCommand ..⟩
  case test => exact ⟨_, rfl, h.hostCommand _ _ fun _ hs => hs.cmdTest⟩
  case stopTest => exact ⟨_, rfl, h.hostCommand _ _ fun _ hs => hs.cmdStopTest⟩
  case resync => exact ⟨_, rfl, h.hostCommand _ _ fun _ hs => hs.cmdResync⟩
  case restart => exact ⟨_, rfl, h.hostCommand _ _ fun _ hs => hs.cmdRestart⟩
  case unknownCommand code => exact ⟨_, rfl, h.busWrite _ _⟩
  case protectEnableSet v => exact ⟨_, rfl, h.busWrite _ _⟩
  case protectEnableCleared v => exact ⟨_, rfl, h.busWrite _ _⟩
  case returnModeWrite v => exact ⟨_, rfl, h.busWrite _ _⟩
  case interruptEnableWrite v => exact ⟨_, rfl, h.busWrite _ _⟩
  case setThresholdWrite v => exact ⟨_, rfl, h.busWrite _ _⟩
  case clearThresholdWrite v => exact ⟨_, rfl, h.busWrite _ _⟩
  case statusWriteOneToClear v => exact ⟨_, rfl, h.busWrite _ _⟩
  case configurationWrite a v x => exact ⟨_, rfl, h.busStrobes _ _ _⟩
  case writeHoldingByte a v => exact ⟨_, rfl, h.busWrite _ _⟩
  case lowerAddressRead a => exact ⟨_, rfl, h.busRead _⟩
  case contextWriteCommit v => exact ⟨_, rfl, h.busWrite _ _⟩
  case contextDataRead => exact ⟨_, rfl, h.busRead _⟩
  case eventKindRead => exact ⟨_, rfl, h.busRead _⟩
  case eventPop => exact ⟨_, rfl, h.busRead _⟩
  case pinReset => exact ⟨_, rfl, s.fit_assertReset⟩
  case resetRelease strap => exact ⟨_, rfl, h.releaseReset strap⟩
  case frameReferenceEdge frames => exact ⟨_, rfl, h.inService _ fun _ => h.referenceEdge frames⟩
  case answerTimerExpiry g => exact ⟨_, rfl, h.inService _ fun _ => h.answerExpiry g⟩
  case returnTimerExpiry k => exact ⟨_, rfl, h.inService _ fun _ => h.returnExpiry k⟩
  case testTimerExpiry g => exact ⟨_, rfl, h.inService _ fun _ => h.testExpiry g⟩
  case onsetTimerExpiry p => exact ⟨_, rfl, h.inService _ fun _ => h.onsetExpiry p⟩
  case clearTimerExpiry p => exact ⟨_, rfl, h.inService _ fun _ => h.clearExpiry p⟩
  case intervalEnd => exact ⟨_, rfl, h.inService _ fun _ => h.intervalEnds⟩
  case signalLostAsserted p before =>
    have hm : (s.setSignalLost p true).Fit [] := h.setMonitor p _
    exact ⟨_, rfl, hm.inService _ fun _ => hm.loseSignal p _ before⟩
  case signalLostReleased p => exact ⟨_, rfl, h.setMonitor p _⟩
  case huntingMatch p l before => exact ⟨_, rfl, h.inService _ fun _ => h.receiveBits p _⟩
  case checkingAlignmentWord p b before => exact ⟨_, rfl, h.inService _ fun _ => h.checkByte p before b⟩
  case frameJudged p f => exact ⟨_, rfl, h.inService _ fun _ => h.frameReceived p f⟩
  case alignmentLost p b => exact ⟨_, rfl, h.inService _ fun _ => h.alignedByte p b⟩
  case lspTransactionStart => exact ⟨_, rfl, h.inService _ fun _ => h.servePort⟩
  case lspAttemptEnd a b c => exact ⟨_, rfl, h.inService _ fun _ => h.attemptEnd ha _⟩

theorem State.Fit.step (h : s.Fit []) (ha : s.Agreement) (hs : step s = .next s') : s'.Fit [] := by
  unfold Machine.step at hs
  split at hs
  · cases hs
    exact h
  · next c rest _ =>
    have hr : ({ s with pending := rest } : State).Fit [] := h.of_links rfl
    obtain ⟨t, ht, hw⟩ := hr.exec (s := { s with pending := rest }) ⟨ha.reasons, ha.holding, ha.resting, ha.queue⟩ c
    rw [ht] at hs
    cases hs
    exact hw

theorem State.TransfersLegal.fit (h : s.TransfersLegal) : s.Fit [] where
  wired := fun g => ⟨h.bounded g, (h.inFlight g).trans (by cases s.transaction <;> rfl)⟩
  suits := fun g _ => ⟨fun k => h.circuits g k, h.rests g⟩

theorem State.Fit.transfersLegal (h : s.Fit []) (ha : s.Agreement) : s.TransfersLegal where
  agreement := ha
  circuits := fun g k => (h.suits g (by simp)).1 k
  rests := fun g => (h.suits g (by simp)).2
  bounded := fun g => (h.wired g).bounded
  inFlight := fun g => (h.wired g).inFlight.trans (by cases s.transaction <;> rfl)

end Fit

/-- Settles O60: the agreement is kept by every command (O59), and with it the fit of transfers, engines and line. -/
theorem transfersStayWithTheEngines : Obligations.TransfersStayWithTheEngines := by
  intro s t h hs
  exact (h.fit.step h.agreement hs).transfersLegal (recordsQueueAndEnginesAgree s t h.agreement hs)

end Sys2Proof.Machine
end

section
/-! Proofs: O53, the own word and the crosspoint settings of each engine state. -/

namespace Sys2Proof.Machine

section Crosspoint

variable {s : State} {g : Spare} {k : Circuit}

theorem State.bridge_eq_some : s.bridge g = some k ↔
    (s.engine g).state = .bridged k ∨ (s.engine g).state = .carrying k ∨ (s.engine g).state = .returning k := by
  unfold State.bridge
  cases (s.engine g).state <;> simp

theorem State.selector_eq_some : s.selector g = some k ↔ (s.engine g).state = .carrying k := by
  unfold State.selector
  cases (s.engine g).state <;> simp

theorem State.loopOn_iff : s.loopOn g = true ↔ (s.engine g).state = .looped := by simp [State.loopOn]

/-- With one selector for each circuit a system port is to receive from the spare that names it (R47). -/
theorem State.selectedFeed_of_selector (h : s.OneSelector) (hg : s.selector g = some k) : s.selectedFeed k = .spare g := by
  unfold State.selectedFeed
  rcases spare_zero_or_one g with rfl | rfl
  · rw [if_pos hg]
  · rw [if_neg fun h0 => h k ⟨h0, hg⟩, if_pos hg]

theorem State.selectedFeed_of_unnamed (h : ∀ g, s.selector g ≠ some k) : s.selectedFeed k = .working := by
  unfold State.selectedFeed
  rw [if_neg (h 0), if_neg (h 1)]

/-- What the engine says goes out with this end's role in its origin (R70, R72). -/
theorem State.ownWord_of_says {w : SpanWord} (h : s.ownSays g = some w) : s.ownWord g = some (w.encode s.role) := by
  rw [State.ownWord, h]
  rfl

/-- The first local reason, in the order of R59, is the detail of the BARRED word; without one VACANT is sent (R70). -/
theorem State.ownSays_unavailable (h : (s.engine g).state = .unavailable) :
    let r := (s.engine g).reasons
    s.ownSays g = some (if r.off then .barred 0 else if r.shut then .barred 1 else if r.line then .barred 2
      else if r.silent then .barred 3 else if r.setup then .barred 4 else .vacant) := by
  unfold State.ownSays Reasons.firstLocal
  rw [h]
  dsimp only
  split_ifs <;> rfl

/-- A FREE engine answers a claim on a barred or declined circuit with DECLINE (R70). -/
theorem State.ownSays_free (h : (s.engine g).state = .free) :
    match s.farClaim g with
      | some (k, _) => s.ownSays g = some (if (s.record k).barred || (s.record k).declined then .decline k else .vacant)
      | none => s.ownSays g = some .vacant := by
  unfold State.ownSays
  rw [h]
  cases s.farClaim g with
  | none => rfl
  | some c =>
    dsimp only
    split <;> rfl

end Crosspoint

/-- Settles O53: the crosspoint by the engine states that set it, the own word by what each engine state says. -/
theorem ownWordsAndCrosspoint : Obligations.OwnWordsAndCrosspoint := by
  refine ⟨fun s g k => ⟨State.bridge_eq_some, State.selector_eq_some, State.loopOn_iff, State.selectedFeed_of_selector,
    State.selectedFeed_of_unnamed⟩, fun s g => ?_⟩
  intro sends
  have spoken : ∀ w, s.ownSays g = some w → sends w := fun w h => State.ownWord_of_says h
  refine ⟨fun h => ?_, fun k h => spoken _ ?_, fun k h => spoken _ ?_, fun k h => spoken _ ?_, fun h => spoken _ ?_,
    fun d h => spoken _ ?_, fun h => spoken _ ?_, fun r h => spoken _ ?_, fun h => ?_⟩
  · have hfree := State.ownSays_free h
    cases hc : s.farClaim g with
    | none =>
      rw [hc] at hfree
      exact spoken _ hfree
    | some c =>
      rw [hc] at hfree
      exact spoken _ hfree
  · simp [State.ownSays, h]
  · rcases h with h | h <;> simp [State.ownSays, h]
  · simp [State.ownSays, h]
  · exact State.ownSays_unavailable h
  · simp [State.ownSays, h]
  · simp [State.ownSays, h]
  · simp [State.ownSays, h]
  · simp [State.ownWord, State.ownSays, h]

end Sys2Proof.Machine
end

section
/-! Proofs: O20 and O14, the commands and the write of PROTECT that put one reason or remove one. -/

namespace Sys2Proof.Machine

/-! ## One reason put or removed -/

/-- Each engine's reasons exactly as given. -/
def Keep.exactly (f : Spare → Reasons) : Keep := ⟨False, fun i r => r = f i⟩

/-- Spare g's reasons with one put or removed, the others as they are. -/
def putAt (f : Spare → Reasons) (g : Spare) (x : Reason) (b : Bool) : Spare → Reasons :=
  fun i => if i = g then (f g).put x b else f i

@[simp] theorem putAt_same (f : Spare → Reasons) (g : Spare) (x : Reason) (b : Bool) : putAt f g x b g = (f g).put x b :=
  if_pos rfl

theorem putAt_other (f : Spare → Reasons) {g i : Spare} (x : Reason) (b : Bool) (h : i ≠ g) : putAt f g x b i = f i :=
  if_neg h

theorem Reasons.put_has (r : Reasons) (x : Reason) : r.put x (r.has x) = r := by cases x <;> rfl

theorem Reasons.has_put (r : Reasons) (x : Reason) (b : Bool) : (r.put x b).has x = b := by cases x <;> rfl

theorem Reasons.nonempty_of_has {r : Reasons} {x : Reason} (h : r.has x = true) : r.isEmpty = false := by
  cases x <;> simp_all [Reasons.has, Reasons.isEmpty]

section Putting

variable {s u : State} {t : Turn} {f : Spare → Reasons} {g i : Spare} {k : Circuit} {x : Reason} {b : Bool}

theorem State.Steady.exactly (h : s.Steady s.watching [] []) :
    s.Steady (.exactly fun i => (s.engine i).reasons) [] [] := h

theorem State.Steady.putExactly (h : t.st.Steady (.exactly f) [] []) (g : Spare) (x : Reason) (b : Bool) :
    (t.putReason g x b).st.Steady (.exactly (putAt f g x b)) [] [] := by
  refine State.Steady.putReason (w' := .exactly (putAt f g x b)) h x b id (fun i hi r hr => ?_) (fun r hr hx => ?_)
    fun r hr => ?_
  · exact hr.trans (putAt_other f x b hi).symm
  · obtain rfl : r = f g := hr
    rw [← hx]
    exact ((putAt_same f g x _).trans ((f g).put_has x)).symm
  · obtain rfl : r = f g := hr
    exact (putAt_same f g x b).symm

/-- Spare g's engine has the reasons r; with none it is FREE or has been granted a circuit, with one it is UNAVAILABLE. -/
def State.Left (s : State) (g : Spare) (r : Reasons) : Prop :=
  (s.engine g).reasons = r
    ∧ if r.flags = 0 then (s.engine g).state = .free ∨ ∃ k, (s.engine g).state = .preparing k
      else (s.engine g).state = .unavailable

/-- Where the reasons are agreed, an engine left with none has only to be shown FREE or granted. -/
theorem State.Steady.left (h : s.Steady (.exactly f) [] []) (g : Spare)
    (hready : (f g).isEmpty = true → (s.engine g).state.Ready) : s.Left g (f g) := by
  have hr : (s.engine g).reasons = f g := h.poised.watched g
  refine ⟨hr, ?_⟩
  split
  · next hz => exact hready ((Reasons.isEmpty_iff _).mpr hz)
  · next hz =>
    refine (h.poised.reasons g (by simp)).mp ?_
    rw [hr]
    exact Bool.eq_false_iff.mpr fun he => hz ((Reasons.isEmpty_iff _).mp he)

theorem State.Steady.unavailable (h : s.Steady (.exactly f) [] []) (hx : (f g).has x = true) :
    (s.engine g).state = .unavailable := by
  refine (h.poised.reasons g (by simp)).mp ?_
  rw [show (s.engine g).reasons = f g from h.poised.watched g]
  exact Reasons.nonempty_of_has hx

/-- A reason removed from an UNAVAILABLE engine leaves it FREE where it was the last, and moves nothing else. -/
theorem Turn.removeReason_engine (hu : (t.st.engine g).state = .unavailable) (hx : (t.st.engine g).reasons.has x = true) :
    (((t.st.engine g).reasons.put x false).isEmpty = true →
        ((t.putReason g x false).st.engine g).state = .free)
      ∧ (∀ i, i ≠ g → (t.putReason g x false).st.engine i = t.st.engine i)
      ∧ (∀ k, (t.putReason g x false).st.record k = t.st.record k)
      ∧ (t.putReason g x false).st.queue = t.st.queue := by
  have hput : t.putReason g x false = t.setReasons g ((t.st.engine g).reasons.put x false) :=
    if_neg (by rw [hx]; simp)
  rw [hput]
  rcases t.setReasons_cases g ((t.st.engine g).reasons.put x false) with ⟨hn, _⟩ | ⟨_, _, e⟩ | ⟨hiff, e⟩
  · exact absurd hu hn
  · rw [e]
    refine ⟨fun _ => by simp, fun i hi => ?_, fun k => ?_, ?_⟩
    · rw [Turn.enterEngine_engine_other _ _ _ _ (Ne.symm hi)]
      exact State.setEngine_engine_other _ _ (Ne.symm hi)
    · rw [Turn.enterEngine_record]
      rfl
    · rw [Turn.enterEngine_queue]
      rfl
  · rw [e]
    refine ⟨fun he => ?_, fun i hi => State.setEngine_engine_other _ _ (Ne.symm hi), fun _ => rfl, rfl⟩
    rw [hiff.mp hu] at he
    cases he

/-- Classes, bars and holds are read from the sources. -/
theorem State.flags_of_sources (h : u.sources = s.sources) (k : Circuit) :
    (u.record k).condClass = (s.record k).condClass ∧ (u.record k).swClass = (s.record k).swClass
      ∧ (u.record k).barred = (s.record k).barred ∧ (u.record k).declined = (s.record k).declined :=
  ⟨State.condClass_of_sources h k, State.swClass_of_sources h k, State.barred_of_sources h k,
    State.declined_of_sources h k⟩

/-! ## SHUT, OPEN and CLEAR_FAULT -/

/-- The state that a reason command taken leaves, before the end of the event. -/
def State.reasoned (s : State) (code : Byte) (g : Spare) (x : Reason) (b : Bool) : State :=
  ((s.answered code).turn.putReason g x b).settle (s.answered code)

theorem State.reasonCommand_taken {code : Byte} (hs : s.inReset = false) (hg : s.regs.arg0.toNat = g.val)
    (hx : (s.engine g).reasons.has x ≠ b) :
    s.hostCommand code (fun s => s.reasonCommand x b) = (s.reasoned code g x b).finish := by
  rw [State.hostCommand_commanded s code _ hs]
  have hbody : (s.commanded code).reasonCommand x b = s.reasoned code g x b := by
    unfold State.reasonCommand
    rw [State.withSpare_some (s.commanded code) _ g hg]
    exact if_neg hx
  rw [hbody]

theorem State.reasonCommand_refused {code : Byte} (hs : s.inReset = false) (ho : s.EventOver)
    (hg : s.regs.arg0.toNat = g.val) (hx : (s.engine g).reasons.has x = b) :
    s.hostCommand code (fun s => s.reasonCommand x b) = s.refusedWith code .state := by
  refine State.hostCommand_refused s code _ .state hs ho ?_
  unfold State.reasonCommand
  rw [State.withSpare_some (s.commanded code) _ g hg]
  exact if_pos hx

theorem State.reasonCommand_badArg {code : Byte} (hs : s.inReset = false) (ho : s.EventOver)
    (hg : 1 < s.regs.arg0.toNat) :
    s.hostCommand code (fun s => s.reasonCommand x b) = s.refusedWith code .badArg :=
  State.hostCommand_refused s code _ .badArg hs ho (State.withSpare_none (s.commanded code) _ hg)

theorem State.reasoned_ground (s : State) (code : Byte) (g : Spare) (x : Reason) (b : Bool) :
    (s.reasoned code g x b).ground = (s.answered code).ground :=
  (Turn.ground_settle ..).trans (State.ground_of_still (Turn.still_putReason ..))

theorem State.Steady.reasoned (h : s.Steady s.watching [] []) (code : Byte) (g : Spare) (x : Reason) (b : Bool) :
    (s.reasoned code g x b).Steady (.exactly (putAt (fun i => (s.engine i).reasons) g x b)) [] [] :=
  State.Steady.settle (State.Steady.putExactly (t := (s.answered code).turn) (h.exactly.answered code) g x b) _

/-- What a reason command taken leaves of the engine: UNAVAILABLE with a reason, else FREE or granted. -/
theorem State.Steady.reasoned_left (h : s.Steady s.watching [] []) (code : Byte) (hx : (s.engine g).reasons.has x ≠ b) :
    (s.reasoned code g x b).Left g ((s.engine g).reasons.put x b) := by
  have hleft := (h.reasoned code g x b).left g
  rw [putAt_same] at hleft
  refine hleft fun hempty => ?_
  obtain rfl : b = false := by
    rw [← Reasons.has_put (s.engine g).reasons x b]
    exact Bool.eq_false_iff.mpr fun e => by simp [Reasons.nonempty_of_has e] at hempty
  have hhas : (s.engine g).reasons.has x = true := by simpa using hx
  have hu : (s.engine g).state = .unavailable := h.exactly.unavailable hhas
  exact Turn.settle_ready ((s.answered code).turn.putReason g x false) (s.answered code) g
    (.inl ((Turn.removeReason_engine (t := (s.answered code).turn) hu hhas).1 hempty))

end Putting

/-- Settles O20: each command puts one reason or removes it, or finds it there or gone. -/
theorem spareCommands : Obligations.SpareCommands := by
  intro s hs ho ha
  refine ⟨fun hbad => ⟨?_, ?_, ?_⟩, fun g hg => ?_⟩
  · exact congrArg Host.Outcome.next (State.reasonCommand_badArg hs ho hbad)
  · exact congrArg Host.Outcome.next (State.reasonCommand_badArg hs ho hbad)
  · exact congrArg Host.Outcome.next (State.reasonCommand_badArg hs ho hbad)
  have took : ∀ (code : Byte) (x : Reason) (b : Bool), (s.engine g).reasons.has x ≠ b →
      let t := (s.reasoned code g x b).finish
      s.TookCommand t code ∧ (t.engine g).reasons = (s.engine g).reasons.put x b
        ∧ (if ((s.engine g).reasons.put x b).flags = 0
           then (t.engine g).state = .free ∨ ∃ k, (t.engine g).state = .preparing k
           else (t.engine g).state = .unavailable)
        ∧ (∀ h, h ≠ g → (t.engine h).reasons = (s.engine h).reasons)
        ∧ (∀ k, (t.record k).condClass = (s.record k).condClass ∧ (t.record k).swClass = (s.record k).swClass
            ∧ (t.record k).barred = (s.record k).barred ∧ (t.record k).declined = (s.record k).declined)
        ∧ s.SameSurroundings t ∧ t.qualifiers = s.qualifiers ∧ t.outOfStep = s.outOfStep := by
    intro code x b hx
    have hground := s.reasoned_ground code g x b
    obtain ⟨htook, hsame, hqual, hout⟩ := State.tookCommand (State.calm_of_ground hground)
    obtain ⟨hreasons, hstate⟩ := ha.watching.reasoned_left code hx
    refine ⟨htook, ?_, ?_, fun i hi => ?_, fun k => ?_, hsame, hqual, hout⟩
    · rw [State.finish_engine]
      exact hreasons
    · rw [State.finish_engine]
      exact hstate
    · rw [State.finish_engine]
      exact ((ha.watching.reasoned code g x b).poised.watched i).trans (putAt_other _ x b hi)
    · rw [State.finish_record]
      exact State.flags_of_sources (s := s.answered code) (State.sources_of_ground hground) k
  refine ⟨fun h => ⟨_, congrArg Host.Outcome.next (State.reasonCommand_taken hs hg ?_), took 0x10 .shut true ?_⟩,
    fun h => congrArg Host.Outcome.next (State.reasonCommand_refused hs ho hg h),
    fun h => ⟨_, congrArg Host.Outcome.next (State.reasonCommand_taken hs hg ?_), took 0x11 .shut false ?_⟩,
    fun h => congrArg Host.Outcome.next (State.reasonCommand_refused hs ho hg h),
    fun h => ⟨_, congrArg Host.Outcome.next (State.reasonCommand_taken hs hg ?_), took 0x12 .setup false ?_⟩,
    fun h => congrArg Host.Outcome.next (State.reasonCommand_refused hs ho hg h)⟩ <;> simp [Reasons.has, h]

/-! ## Setting the enable -/

section Enable

variable {s u : State} {t : Turn} {g i : Spare}

theorem State.exec_enable (hs : s.inReset = false) (he : s.regs.enable = false) {v : Byte} (hv : v.getLsbD 0 = true) :
    exec (.protectEnableSet v) s = .next (s.protected v).turn.enable.settleWithPass.finish := by
  have hexec : exec (.protectEnableSet v) s = .next (s.hostWrite fun s => s.writeProtect v) := rfl
  have hset : (s.setBus { s.bus with ready := true }).writeProtect v
      = (s.protected v).turn.enable.settleWithPass.finish := by
    unfold State.writeProtect
    dsimp only
    rw [if_neg (by rw [hv]; show ¬ true = s.regs.enable; rw [he]; simp), if_pos hv]
    rfl
  rw [hexec]
  unfold State.hostWrite
  dsimp only
  rw [if_neg (by show ¬ s.inReset = true; rw [hs]; simp), hset]

/-- The grant pass alone takes no circuit from an engine either. -/
theorem Turn.settleWithPass_ready (t : Turn) : t.st.KeepsReady t.settleWithPass :=
  t.flush_ready.trans ((Turn.pass_ready _ _).trans (Turn.close_ready _))

/-- Removing OFF from both engines frees the ones left with no reason, and moves no record. -/
theorem Turn.enable_frees (h : ∀ g, (t.st.engine g).state = .unavailable) (hoff : ∀ g, (t.st.engine g).reasons.off = true) :
    (∀ g, ((t.st.engine g).reasons.put .off false).isEmpty = true → (t.enable.st.engine g).state = .free)
      ∧ (∀ k, t.enable.st.record k = t.st.record k) ∧ t.enable.st.queue = t.st.queue := by
  obtain ⟨hfree0, hother0, hrec0, hqueue0⟩ := Turn.removeReason_engine (x := .off) (h 0) (hoff 0)
  have h1 : ((t.putReason 0 .off false).st.engine 1) = t.st.engine 1 := hother0 1 (by decide)
  obtain ⟨hfree1, hother1, hrec1, hqueue1⟩ := Turn.removeReason_engine (t := t.putReason 0 .off false) (g := 1) (x := .off)
    (by rw [h1]; exact h 1) (by rw [h1]; exact hoff 1)
  rw [h1] at hfree1
  refine ⟨fun g he => ?_, fun k => (hrec1 k).trans (hrec0 k), hqueue1.trans hqueue0⟩
  rcases spare_zero_or_one g with rfl | rfl
  · exact (congrArg Engine.state (hother1 0 (by decide))).trans (hfree0 he)
  · exact hfree1 he

theorem State.Steady.enableExactly (h : s.Steady s.watching [] []) :
    s.turn.enable.st.Steady (.exactly fun g => (s.engine g).reasons.put .off false) [] [] := by
  have h2 := ((State.Steady.putExactly (t := s.turn) h.exactly 0 .off false).putExactly 1 .off false)
  have hf : putAt (putAt (fun i => (s.engine i).reasons) 0 .off false) 1 .off false
      = fun g => (s.engine g).reasons.put .off false := by
    funext g
    rcases spare_zero_or_one g with rfl | rfl <;> rfl
  rwa [hf] at h2

end Enable

/-- Settles O14: OFF is removed from both UNAVAILABLE engines, and the pass takes no engine's circuit but to grant another. -/
theorem settingTheEnableFreesBothSpares : Obligations.SettingTheEnableFreesBothSpares := by
  intro s v hs ha hoff he hv
  refine ⟨_, State.exec_enable hs he hv, ?_⟩
  have hsteady : (s.protected v).Steady (s.protected v).watching [] [] :=
    ha.watching.of_same rfl rfl (fun _ => rfl) fun _ => rfl
  have hoff' : ∀ g, (s.engine g).reasons.off = true := fun g => by rw [hoff g, he]; rfl
  have hdown : ∀ g, (s.engine g).state = .unavailable := fun g =>
    ha.watching.exactly.unavailable (x := .off) (hoff' g)
  obtain ⟨hfree, hrec, hqueue⟩ := Turn.enable_frees (t := (s.protected v).turn) hdown hoff'
  have hground : (s.protected v).turn.enable.settleWithPass.ground = (s.protected v).ground :=
    (Turn.ground_settleWithPass _).trans (State.ground_of_still (Turn.still_enable ..))
  have hcalm := State.calm_of_ground hground
  have hleft : ∀ g, (s.protected v).turn.enable.settleWithPass.Left g ((s.engine g).reasons.put .off false) := fun g =>
    hsteady.enableExactly.settleWithPass.left g fun hempty =>
      Turn.settleWithPass_ready _ g (.inl (hfree g hempty))
  have hidle : s.queue = [] → ∃ l, (s.protected v).turn.enable.settleWithPass = (s.protected v).turn.enable.st.postAll l :=
    fun hq => Turn.settleWithPass_of_idle (Turn.passStep_of_empty (by
      rw [Turn.flush_st, State.postAll_queue, hqueue]
      exact hq))
  set u := (s.protected v).turn.enable.settleWithPass with hu
  refine ⟨?_, fun g => ?_, fun hq k => ?_, fun k => ?_, ?_, ?_, ?_⟩
  · rw [u.finish_regs, ← hv]
    exact State.regs_of_calm hcalm
  · obtain ⟨hreasons, hstate⟩ := hleft g
    rw [State.finish_engine, hreasons]
    exact ⟨rfl, hstate⟩
  · obtain ⟨l, hl⟩ := hidle hq
    rw [State.finish_record, hl, State.postAll_record]
    exact hrec k
  · rw [State.finish_record]
    exact State.flags_of_sources (s := s.protected v) (State.sources_of_ground hground) k
  · exact (State.sameSurroundings_of_calm (s := s.protected v) hcalm).finish
  · rw [State.finish_qualifiers]
    exact State.qualifiers_of_calm (s := s.protected v) hcalm
  · rw [State.finish_outOfStep]
    exact State.outOfStep_of_calm (s := s.protected v) hcalm

end Sys2Proof.Machine
end

section
/-! Proofs: the end of a turn that calls for no grant pass, or whose pass finds nothing waiting; and what a pass leaves of a spare
whose engine is UNAVAILABLE. -/

namespace Sys2Proof.Machine

section Quiet

variable {s b x y : State} {t t' u : Turn} {g o : Spare} {k : Circuit}

/-! ## A turn without a grant pass -/

@[simp] theorem Turn.ordered_flush (t : Turn) : t.flush.ordered = [] := rfl

theorem Turn.close_flush (t : Turn) : t.flush.close = t.st.postAll (t.ordered ++ t.late) := by
  unfold Turn.close
  rw [Turn.flush_st, Turn.ordered_flush, Turn.flush_st, State.postAll_append]
  rfl

/-- With nothing waiting a settled turn posts its group and what follows the pass. -/
theorem Turn.settle_of_empty (hq : t.st.queue = []) (b : State) : t.settle b = t.st.postAll (t.ordered ++ t.late) := by
  have hnone : t.flush.flush.passStep = none := Turn.passStep_of_empty (by
    rw [Turn.flush_st, State.postAll_queue, Turn.flush_st, State.postAll_queue, hq])
  have hpass : t.flush.grantPass.close = t.flush.close := by
    unfold Turn.grantPass
    rw [Turn.pass_of_none hnone, Turn.close_flush]
    rfl
  unfold Turn.settle
  dsimp only
  rw [hpass, ite_self]
  exact t.close_flush

/-- Where no pass is called for either. -/
theorem Turn.settle_of_notDue (h : t.flush.passDue b = false) : t.settle b = t.st.postAll (t.ordered ++ t.late) := by
  unfold Turn.settle
  dsimp only
  rw [h, if_neg (by simp)]
  exact t.close_flush

/-- A spare's engine gives no cause for a grant pass: it did not become FREE, and holds at class 0 only as before. -/
def State.Unasked (b x : State) : Prop :=
  (∀ g, (x.engine g).state = .free → (b.engine g).state = .free)
    ∧ ∀ g, x.heldAtZero g = true → b.heldAtZero g = true

/-- Classes follow from the records and the far words. -/
theorem State.effClass_of_far (hr : x.records = b.records) (hq : ∀ g, (x.qualifier g).far = (b.qualifier g).far)
    (k : Circuit) : x.effClass k = b.effClass k := by
  unfold State.effClass State.farClass State.farClaim State.localClass State.record
  rw [hr, hq 0, hq 1]

/-- No pass is called for where records and far words stay and no engine gives cause. -/
theorem Turn.passDue_of_unasked (hr : t.st.records = b.records) (hq : ∀ g, (t.st.qualifier g).far = (b.qualifier g).far)
    (h : b.Unasked t.st) (ho : t.offered = []) : t.passDue b = false := by
  have hrec : ∀ k, t.st.record k = b.record k := fun k => congrArg (fun v => tabGet v k) hr
  have hrecord : ∀ k, passDueAtRecord b t.st k = false := fun k => by
    simp [passDueAtRecord, State.effClass_of_far hr hq, hrec]
  have hspare : ∀ g, passDueAtSpare b t.st g = false := fun g => by
    obtain ⟨hfree, hzero⟩ := h
    have hf := hfree g
    have hz := hzero g
    unfold passDueAtSpare
    rw [hq]
    simpa using ⟨hf, hz⟩
  simp [Turn.passDue, hrecord, hspare, ho]

theorem State.Unasked.postAll (h : b.Unasked x) (l : List Event) : b.Unasked (x.postAll l) := by
  obtain ⟨hfree, hzero⟩ := h
  refine ⟨fun g hg => hfree g (by rwa [State.postAll_engine] at hg), fun g hg => hzero g ?_⟩
  have e : (x.postAll l).heldAtZero g = x.heldAtZero g := by
    unfold State.heldAtZero State.holdingClaim
    rw [State.postAll_engine]
    cases (x.engine g).state <;>
      simp [State.effClass_of_sources (State.sources_of_ground (State.ground_postAll x l))]
  rwa [e] at hg

/-- A turn that moves no record and takes no offer, and whose engines give no cause, ends with its own events. -/
theorem Turn.settle_of_unasked (hr : t.st.records = b.records) (hq : ∀ g, (t.st.qualifier g).far = (b.qualifier g).far)
    (h : b.Unasked t.st) (ho : t.offered = []) : t.settle b = t.st.postAll (t.ordered ++ t.late) := by
  refine Turn.settle_of_notDue (Turn.passDue_of_unasked ?_ (fun g => ?_) ?_ ho)
  · rw [Turn.flush_st, State.postAll_records, hr]
  · unfold State.qualifier
    rw [Turn.flush_st, State.postAll_qualifiers]
    exact hq g
  · rw [Turn.flush_st]
    exact h.postAll _

/-- The events of a list that follows on a state with the same base. -/
theorem State.events_postAll_of_still (h : x.still = y.still) (l : List Event) :
    (x.postAll l).events = (y.postAll l).events :=
  State.events_of_reported (State.reported_congr (State.reported_of_still h) l)

/-! ## A pass beside an UNAVAILABLE engine -/

theorem Turn.flush_beside (t : Turn) : t.Beside g t.flush where
  engine := by rw [Turn.flush_st, State.postAll_engine]
  transfer := by rw [Turn.flush_st, State.postAll_transfer]
  late := List.prefix_refl _
  on := fun k h => by rwa [Turn.flush_st, State.postAll_record] at h

theorem Turn.cancelTransfer_beside (t : Turn) (ho : o ≠ g) : t.Beside g (t.change fun s => s.cancelTransfer o) where
  engine := by simp
  transfer := by simp [ho]
  late := List.prefix_refl _
  on := fun k h => by simpa using h

theorem Turn.preempt_beside (t : Turn) (ho : o ≠ g) (hb : t.st.Bare g) (k : Circuit) : t.Beside g (t.preempt o k) := by
  unfold Turn.preempt
  split
  · next j _ =>
    have hback : t.Beside g ((t.change fun s => s.cancelTransfer o).putBack o j) :=
      (t.cancelTransfer_beside ho).trans (Turn.putBack_beside ..)
    have hgrant : t.Beside g (((t.change fun s => s.cancelTransfer o).putBack o j).enterPreparing o k).flush :=
      hback.trans ((Turn.enterPreparing_beside _ ho k).trans (Turn.flush_beside _))
    exact hgrant.trans (Turn.contest_beside _ ho (hgrant.bare hb))
  · exact .refl g t

theorem Turn.passStep_beside (hu : (t.st.engine g).state = .unavailable) (hb : t.st.Bare g) (h : t.passStep = some t') :
    t.Beside g t' := by
  have hother : ∀ o : Spare, (t.st.engine o).state ≠ .unavailable → o ≠ g := by
    rintro o ho rfl
    exact ho hu
  rcases t.passStep_cases with e | ⟨k, _, _, ⟨o, hfree, _, e⟩ | ⟨o, e⟩⟩ <;> rw [e] at h
  · cases h
  · obtain rfl := Option.some.inj h
    refine t.enterPreparing_beside (hother o fun he => ?_) k
    rw [he] at hfree
    simp [EngineState.testingOrLooped] at hfree
  · obtain rfl := Option.some.inj h
    by_cases ho : (t.st.engine o).state = .unavailable
    · have hstays : t.preempt o k = t := by
        unfold Turn.preempt
        rw [ho]
        rfl
      rw [hstays]
      exact .refl g t
    · exact t.preempt_beside (hother o ho) hb k

theorem Turn.pass_beside (hu : (t.st.engine g).state = .unavailable) (hb : t.st.Bare g) (n : Nat) :
    t.Beside g (Turn.pass n t) := by
  induction n generalizing t with
  | zero => exact .refl g t
  | succ n ih =>
    unfold Turn.pass
    split
    · exact .refl g t
    · next t' ht =>
      have hstep : t.Beside g t'.flush := (Turn.passStep_beside hu hb ht).trans t'.flush_beside
      exact hstep.trans (ih (by rw [hstep.engine]; exact hu) (hstep.bare hb))

/-- A settled turn leaves the engine and the transfer of an UNAVAILABLE spare. -/
theorem Turn.settle_unavailable (hu : (t.st.engine g).state = .unavailable) (hb : t.st.Bare g) (b : State) :
    (t.settle b).engine g = t.st.engine g ∧ (t.settle b).transfer g = t.st.transfer g := by
  have hclose : ∀ u : Turn, u.close.engine g = u.st.engine g ∧ u.close.transfer g = u.st.transfer g := fun u => by
    unfold Turn.close
    rw [State.postAll_engine, State.postAll_transfer, Turn.flush_st, State.postAll_engine, State.postAll_transfer]
    exact ⟨rfl, rfl⟩
  have hflush : t.Beside g t.flush := t.flush_beside
  have hmore : t.Beside g (if t.flush.passDue b then t.flush.grantPass else t.flush) := by
    split
    · have htwice : t.Beside g t.flush.flush := hflush.trans t.flush.flush_beside
      exact htwice.trans (Turn.pass_beside (by rw [htwice.engine]; exact hu) (htwice.bare hb) _)
    · exact hflush
  have he : t.settle b = (if t.flush.passDue b then t.flush.grantPass else t.flush).close := by
    unfold Turn.settle
    dsimp only
    split <;> rfl
  rw [he, (hclose _).1, (hclose _).2]
  exact ⟨hmore.engine, hmore.transfer⟩

end Quiet

end Sys2Proof.Machine
end

section
/-! Proofs: O41, the expiry of an engine's test timer and of its answer timer. -/

namespace Sys2Proof.Machine

section EngineTimers

variable {s b x : State} {t : Turn} {g i : Spare} {k : Circuit} {v : Reason}

/-! ## A reason added -/

theorem Turn.tearDown_transfer (t : Turn) (g : Spare) :
    (∀ k, (t.st.engine g).state.circuit = some k → ((t.tearDown g).st.transfer g).map (·.source) = some .rest)
      ∧ ((t.st.engine g).state.circuit = none → (t.tearDown g).st.transfer g = t.st.transfer g) := by
  unfold Turn.tearDown
  refine ⟨fun k hk => ?_, fun hn => ?_⟩
  · rw [hk]
    simp [Turn.putBack, State.startTransfer]
  · rw [hn]
    simp

/-- A reason added tears down an engine in use, and leaves the transfer of one that is UNAVAILABLE. -/
theorem Turn.addReason_transfer (t : Turn) (g : Spare) (hfresh : (t.st.engine g).state ≠ .unavailable →
    (t.st.engine g).reasons.has v ≠ true) :
    (∀ k, (t.st.engine g).state.circuit = some k → ((t.putReason g v true).st.transfer g).map (·.source) = some .rest)
      ∧ ((t.st.engine g).state.circuit = none → (t.putReason g v true).st.transfer g = t.st.transfer g) := by
  obtain ⟨hrest, hleft⟩ := t.tearDown_transfer g
  have hgone : ∀ k, (t.st.engine g).state.circuit = some k → (t.st.engine g).state ≠ .unavailable := fun k hk hu => by
    rw [hu] at hk
    cases hk
  by_cases hv : (t.st.engine g).reasons.has v = true
  · have hput : t.putReason g v true = t := if_pos hv
    rw [hput]
    exact ⟨fun k hk => absurd hv (hfresh (hgone k hk)), fun _ => rfl⟩
  have hput : t.putReason g v true = t.setReasons g ((t.st.engine g).reasons.put v true) := if_neg hv
  have hsome : ((t.st.engine g).reasons.put v true).isEmpty = false :=
    Reasons.nonempty_of_has (Reasons.has_put _ v true)
  rw [hput]
  rcases t.setReasons_cases g ((t.st.engine g).reasons.put v true) with ⟨_, _, e⟩ | ⟨_, he, _⟩ | ⟨hiff, e⟩
  · rw [e]
    exact ⟨hrest, hleft⟩
  · rw [hsome] at he
    cases he
  · rw [e]
    exact ⟨fun k hk => absurd (hiff.mpr hsome) (hgone k hk), fun _ => rfl⟩

/-- A reason added leaves the engine UNAVAILABLE: a circuit given up leaves the spare resting, and a transfer under no circuit
is left. -/
theorem State.Steady.reasonAdded (h : s.Steady s.watching [] []) (g : Spare) (v : Reason) (b : State) :
    let t := (s.turn.putReason g v true).settle b
    (t.engine g).state = .unavailable ∧ (t.engine g).reasons = (s.engine g).reasons.put v true
      ∧ (∀ k, (s.engine g).state.circuit = some k → (t.transfer g).map (·.source) = some .rest)
      ∧ ((s.engine g).state.circuit = none → t.transfer g = s.transfer g) := by
  have hput := State.Steady.putExactly (t := s.turn) h.exactly g v true
  have hgone : ((s.turn.putReason g v true).st.engine g).state = .unavailable :=
    hput.unavailable (by rw [putAt_same]; exact Reasons.has_put _ v true)
  obtain ⟨hrest, hleft⟩ := s.turn.addReason_transfer (v := v) g fun hu hv => hu (h.exactly.unavailable hv)
  obtain ⟨hengine, hkept⟩ := Turn.settle_unavailable hgone (hput.bare (by rw [hgone]; rfl)) b
  dsimp only
  rw [hengine, hkept]
  exact ⟨hgone, (hput.poised.watched g).trans (putAt_same ..), hrest, hleft⟩

/-! ## The expiry of the test timer -/

theorem Turn.endPhase_engine (t : Turn) (g : Spare) (r : TestResult) :
    (t.endPhase g r).st.engine g
      = { t.st.engine g with state := .testing (.ending r), answerTimer := t.st.answerStart, testTimer := none } :=
  t.enterEngine_engine ..

/-- An engine that enters a state without a circuit, and not FREE, gives no cause for a pass. -/
theorem State.unasked_of_engine (hother : ∀ i, i ≠ g → x.engine i = b.engine i) (hsrc : x.sources = b.sources)
    (hfree : (x.engine g).state ≠ .free) (hzero : x.heldAtZero g = true → b.heldAtZero g = true) : b.Unasked x := by
  refine ⟨fun i hi => ?_, fun i hi => ?_⟩
  · by_cases hg : i = g
    · subst hg
      exact absurd hi hfree
    · rwa [hother i hg] at hi
  · by_cases hg : i = g
    · subst hg
      exact hzero hi
    · have e : x.heldAtZero i = b.heldAtZero i := by
        unfold State.heldAtZero State.holdingClaim
        rw [hother i hg]
        cases (b.engine i).state <;> simp [State.effClass_of_sources hsrc]
      rwa [e] at hi

theorem State.heldAtZero_of_empty (h : (x.engine g).state.circuit = none) : x.heldAtZero g = false := by
  unfold State.heldAtZero State.holdingClaim
  cases he : (x.engine g).state <;> simp_all [EngineState.circuit]

/-- The end of phase ASK or RUN is reported, and nothing else follows. -/
theorem State.phaseEnd_settle (s : State) (g : Spare) (r : TestResult) :
    (s.turn.endPhase g r).settle s = (s.turn.endPhase g r).st.postAll (s.turn.endPhase g r).ordered := by
  have hlate : (s.turn.endPhase g r).late = [] := rfl
  rw [← List.append_nil (s.turn.endPhase g r).ordered, ← hlate]
  refine Turn.settle_of_unasked rfl (fun _ => rfl) (State.unasked_of_engine (g := g) (fun i hi => ?_) rfl ?_ fun hz => ?_) rfl
  · exact Turn.enterEngine_engine_other _ _ _ _ (Ne.symm hi)
  · rw [Turn.endPhase_engine]
    simp
  · rw [State.heldAtZero_of_empty (by rw [Turn.endPhase_engine]; rfl)] at hz
    cases hz

/-- What the end of phase ASK or RUN leaves. -/
theorem State.phaseEnded (s : State) (g : Spare) (r : TestResult) :
    let t := ((s.turn.endPhase g r).settle s).finish
    t.engine g = { s.engine g with state := .testing (.ending r)
                                   answerTimer := some (s.regs.answerTimeout.toNat * 80), testTimer := none }
      ∧ t.ownWord g = some (SpanWord.unloop.encode s.role) ∧ (∀ i, i ≠ g → t.engine i = s.engine i)
      ∧ (s.turn.endPhase g r).st.Alike t ∧ s.SameSurroundings t := by
  dsimp only
  rw [s.phaseEnd_settle g r]
  have halike := State.alike_finish (s.turn.endPhase g r).st (s.turn.endPhase g r).ordered
  have hcalm := State.calm_of_ground ((State.ground_postAll _ (s.turn.endPhase g r).ordered).trans
    (State.ground_of_still (Turn.still_endPhase s.turn g r)))
  have hengine := (halike.engine g).trans (Turn.endPhase_engine s.turn g r)
  refine ⟨hengine, ?_, fun i hi => ?_, halike, (State.sameSurroundings_of_calm (s := s) hcalm).finish⟩
  · rw [State.ownWord_of_says (w := .unloop) (by unfold State.ownSays; rw [hengine]), halike.role]
    rfl
  · exact (halike.engine i).trans (Turn.enterEngine_engine_other _ _ _ _ (Ne.symm hi))

theorem State.testExpiry_stopped (h : (s.engine g).state ≠ .testing .run ∨ (s.engine g).testTimer = none) :
    s.testExpiry g = s := by
  unfold State.testExpiry
  split
  · next h1 h2 => simp [h1, h2] at h
  · rfl

theorem State.testExpiry_runs (he : (s.engine g).state = .testing .run) (ht : (s.engine g).testTimer ≠ none) :
    s.testExpiry g
      = ((s.turn.endPhase g (testVerdict (s.engine g).errorCount s.regs.testLimit)).settle s).finish := by
  obtain ⟨n, hn⟩ := Option.ne_none_iff_exists'.mp ht
  unfold State.testExpiry
  rw [he, hn]

/-! ## The expiry of the answer timer -/

theorem State.answerExpiry_stopped (h : (s.engine g).answerTimer = none) : s.answerExpiry g = s := by
  unfold State.answerExpiry
  rw [h, if_neg (by simp)]

theorem State.answerExpiry_runs (h : (s.engine g).answerTimer ≠ none) :
    s.answerExpiry g = ((s.turn.answerExpired g).settle s).finish :=
  if_pos (Option.isSome_iff_ne_none.mpr h)

theorem Turn.answerExpired_bridged (h : (t.st.engine g).state = .bridged k) :
    t.answerExpired g = t.putReason g .silent true := by
  unfold Turn.answerExpired
  rw [h]

theorem Turn.answerExpired_returning (h : (t.st.engine g).state = .returning k) :
    t.answerExpired g = (t.completeReturn g k).gatherLate (returnUnansweredEvent g k) := by
  unfold Turn.answerExpired
  rw [h]

theorem Turn.answerExpired_asking {d : Byte} (h : (t.st.engine g).state = .testing (.ask d)) :
    t.answerExpired g = (t.endTest g .noLoop).becomeFree g := by
  unfold Turn.answerExpired
  rw [h]

theorem Turn.answerExpired_ending {r : TestResult} (h : (t.st.engine g).state = .testing (.ending r)) :
    t.answerExpired g = (t.endTest g r).becomeFree g := by
  unfold Turn.answerExpired
  rw [h]

theorem spareEvent_free (hs : (x.engine g).state = .free) :
    spareEvent x g = { kind := .spare, subject := byte (10 + g.val), detail1 := 0, detail2 := 0xFF } := by
  unfold spareEvent
  rw [hs]
  rfl

theorem requestEvent_quiet (hs : (x.record k).state = .quiet) (hz : x.effClass k = 0) :
    requestEvent x k = { kind := .request, subject := byte k.val, detail1 := 0x0F, detail2 := 0 } := by
  unfold requestEvent
  rw [hs, hz]
  rfl

/-- The end of a return without a class reports the record and the spare. -/
theorem Turn.completeReturn_ordered (hp : t.posts = []) (hr : (t.st.record k).state = .releasing g)
    (hz : t.st.effClass k = 0) :
    (t.completeReturn g k).ordered = [
      { kind := .request, subject := byte k.val, detail1 := 0x0F, detail2 := 0 },
      { kind := .spare, subject := byte (10 + g.val), detail1 := 0, detail2 := 0xFF }] := by
  set u := t.letGo g with hu
  have hurec : u.st.record k = t.st.record k := Turn.letGo_record ..
  have huz : u.st.effClass k = 0 := by
    rw [State.effClass_of_sources (State.sources_of_still (Turn.still_letGo ..)), hz]
  have hrest : u.st.restingState k = .quiet := State.restingState_of_zero huz
  set v := u.change fun s => (s.setQueue (s.requeue k (RequestState.quiet = .queued) .back)).setRecord k
    { s.record k with state := .quiet, returnTimer := none } with hv
  have hmove : t.completeReturn g k = v.gatherRequest g (requestEvent v.st k) := by
    show u.moveRecord g k (u.st.restingState k) .back = _
    rw [hrest]
    unfold Turn.moveRecord
    dsimp only
    rw [if_neg (by rw [hurec, hr]; simp)]
  have hvz : v.st.effClass k = 0 := by
    have hm := State.sources_of_still (Turn.still_moveRecord u g k (u.st.restingState k) .back)
    rw [show u.moveRecord g k (u.st.restingState k) .back = v.gatherRequest g (requestEvent v.st k) from hmove] at hm
    exact (State.effClass_of_sources hm k).trans huz
  have hreq := requestEvent_quiet (x := v.st) (k := k) (by simp [hv]) hvz
  have hspare : u.posts = [(.spares g,
      { kind := .spare, subject := byte (10 + g.val), detail1 := 0, detail2 := 0xFF })] := by
    have hfree : (u.st.engine g).state = .free := by rw [hu, Turn.letGo_engine_same]
    show t.posts ++ [(Slot.spares g, spareEvent u.st g)] = _
    rw [hp, spareEvent_free hfree]
    rfl
  have hposts : (t.completeReturn g k).posts
      = u.posts.map (drawForward g (requestEvent v.st k)) ++ [(.requests g, requestEvent v.st k)] := by
    rw [hmove]
    rfl
  unfold Turn.ordered
  rw [hposts, hspare, hreq]
  rcases spare_zero_or_one g with rfl | rfl
  · rfl
  · rfl

/-- The end of a return without a class and with nothing waiting, whatever the far end claims. -/
theorem Turn.completeReturn_returned (hq : t.st.queue = []) (hz : t.st.effClass k = 0) :
    t.st.Returned (t.completeReturn g k).st g k ∧ t.st.OthersAsBefore (t.completeReturn g k).st g k := by
  have hrest : t.st.restingState k = .quiet := State.restingState_of_zero hz
  have hgo : (t.letGo g).st.restingState k = .quiet := by
    refine State.restingState_of_zero ?_
    rw [State.effClass_of_sources (State.sources_of_still (Turn.still_letGo ..)), hz]
  have hqueue : (t.completeReturn g k).st.queue = [] := by
    show ((t.letGo g).moveRecord g k ((t.letGo g).st.restingState k) .back).st.queue = []
    rw [Turn.moveRecord_queue, hgo]
    simp [State.requeue, hq]
  refine ⟨⟨t.drop_engine g k, ?_, ?_⟩,
    State.othersAsBefore_of_still (by simp) (fun j hj => ?_) (fun i hi => ?_) (hqueue.trans hq.symm)⟩
  · exact (t.drop_record g k).trans (by rw [hrest])
  · exact congrArg (Option.map (·.source)) (t.drop_transfer g k)
  · simp [Turn.completeReturn, Turn.release, Ne.symm hj]
  · simp [Turn.completeReturn, Turn.release, Ne.symm hi]

/-- A test that ends leaves its engine FREE with the result. -/
theorem Turn.testOver_engine (t : Turn) (g : Spare) (r : TestResult) :
    ((t.endTest g r).becomeFree g).st.engine g
      = { t.st.engine g with state := .free, answerTimer := none, testTimer := none, lastResult := r } := by
  simp [Turn.becomeFree, Turn.endTest]

end EngineTimers

/-- Settles O41: each expiry is one move of the engine, and what else can follow is the pass that a FREE spare calls for. -/
theorem engineTimersExpire : Obligations.EngineTimersExpire := by
  intro s g hs
  have htest : exec (.testTimerExpiry g) s = .next (s.inService fun s => s.testExpiry g) := rfl
  have hanswer : exec (.answerTimerExpiry g) s = .next (s.inService fun s => s.answerExpiry g) := rfl
  rw [htest, hanswer, State.inService_out hs, State.inService_out hs]
  refine ⟨fun h => congrArg _ (State.testExpiry_stopped h), fun he hn => ⟨_, rfl, ?_⟩,
    fun h => congrArg _ (State.answerExpiry_stopped h), fun hn => ⟨_, rfl, ?_⟩⟩
  · rw [State.testExpiry_runs he hn]
    obtain ⟨hengine, hword, hothers, halike, hsame⟩ :=
      s.phaseEnded g (testVerdict (s.engine g).errorCount s.regs.testLimit)
    exact ⟨hengine, hword, hothers, halike.records, halike.queue, halike.qualifiers, halike.outOfStep, hsame⟩
  · rw [State.answerExpiry_runs hn]
    have hcalm : ((s.turn.answerExpired g).settle s).calm = s.calm := State.calm_of_ground
      ((Turn.ground_settle ..).trans (State.ground_of_still (Turn.still_answerExpired ..)))
    refine ⟨(State.sameSurroundings_of_calm hcalm).finish, fun k ha he => ?_, fun k he hr hq hz => ?_,
      fun d he hq => ?_, fun r he hq => ?_⟩
    · rw [Turn.answerExpired_bridged (t := s.turn) he]
      obtain ⟨hstate, hreasons, hrest, _⟩ := ha.watching.reasonAdded g .silent s
      have hfin : (((s.turn.putReason g .silent true).settle s).finish.engine g).state = .unavailable := by
        rw [State.finish_engine, hstate]
      refine ⟨hfin, ?_, ?_, ?_⟩
      · rw [State.finish_engine, hreasons]
        rfl
      · unfold State.bridge
        rw [hfin]
      · rw [State.finish_transfer_source]
        exact hrest k (by rw [he]; rfl)
    · rw [Turn.answerExpired_returning (t := s.turn) he]
      obtain ⟨hreturned, hothers⟩ := Turn.completeReturn_returned (t := s.turn) (g := g) hq hz
      have hempty : ((s.turn.completeReturn g k).gatherLate (returnUnansweredEvent g k)).st.queue = [] :=
        hothers.2.2.1.trans hq
      have halike := Turn.settle_lonely _ hempty s
      refine ⟨hreturned.alike halike, hothers.alike halike, ?_⟩
      rw [State.finish_events, Turn.settle_of_empty hempty]
      refine (State.events_postAll_of_still (Turn.still_completeReturn s.turn g k) _).trans ?_
      have hlate : (s.turn.completeReturn g k).late = [] := Turn.moveRecord_late ..
      show (s.postAll ((s.turn.completeReturn g k).ordered
        ++ ((s.turn.completeReturn g k).late ++ [returnUnansweredEvent g k]))).events = _
      rw [hlate, Turn.completeReturn_ordered (t := s.turn) rfl hr hz]
      rfl
    · rw [Turn.answerExpired_asking (t := s.turn) he]
      have halike := Turn.settle_lonely ((s.turn.endTest g .noLoop).becomeFree g) hq s
      exact ⟨halike.records, (halike.engine g).trans (Turn.testOver_engine ..)⟩
    · rw [Turn.answerExpired_ending (t := s.turn) he]
      have halike := Turn.settle_lonely ((s.turn.endTest g r).becomeFree g) hq s
      exact ⟨halike.records, (halike.engine g).trans (Turn.testOver_engine ..)⟩

end Sys2Proof.Machine
end

section
/-! Proofs: O29, the outcomes of a transfer's own transaction. -/

namespace Sys2Proof.Machine

section Outcomes

variable {s b u : State} {t : Turn} {g i : Spare} {k : Circuit} {x : Transaction} {y : Transfer}

theorem acknowledged_eq_true {a b c : Bool} (h : acknowledgedBy a b c) : acknowledged a b c = true := by
  obtain ⟨rfl, rfl, rfl⟩ := h
  rfl

theorem acknowledged_eq_false {a b c : Bool} (h : ¬ acknowledgedBy a b c) : acknowledged a b c = false := by
  simpa [acknowledged, acknowledgedBy] using h

/-- The last attempt of a transaction hands its outcome over. -/
theorem State.exec_handOver {a b c : Bool} (hs : s.inReset = false) (hx : s.transaction = some x)
    (hlast : acknowledged a b c = true ∨ x.second = true) :
    exec (.lspAttemptEnd a b c) s = .next (s.handOver x (acknowledged a b c)).finish := by
  have hexec : exec (.lspAttemptEnd a b c) s
      = .next (s.inService fun s => s.attemptEnd (acknowledged a b c)) := rfl
  rw [hexec, State.inService_out hs]
  unfold State.attemptEnd
  rw [hx]
  dsimp only
  rw [if_neg]
  rcases hlast with h | h <;> simp [h]

/-- The state on which a completed transfer is handed to its engine. -/
def State.transferEnded (s : State) (g : Spare) (src : TransferSource) : State :=
  ((s.heardOut g none).setOutOfStep (sparePort g) false).post (transferDoneEvent g src)

@[simp] theorem State.transferEnded_engine (s : State) (g i : Spare) (src : TransferSource) :
    (s.transferEnded g src).engine i = s.engine i := by
  unfold State.transferEnded
  rw [State.post_engine]
  rfl

theorem State.transferEnded_sources (s : State) (g : Spare) (src : TransferSource) :
    (s.transferEnded g src).sources = s.sources :=
  (State.sources_of_ground (State.ground_post ..)).trans rfl

theorem State.handOver_ended (hsrc : x.source = .transfer g) (hab : x.abandoned = false) (hy : s.transfer g = some y)
    (hover : ¬ (y.cursor < 16 ∨ y.resend ≠ [])) :
    s.handOver x true = ((s.transferEnded g y.source).turn.transferCompleted g y.source).settle
      (s.transferEnded g y.source) := State.handOver_completes hsrc hab hy hover

theorem State.transferEnded_answerStart (s : State) (g : Spare) (src : TransferSource) :
    (s.transferEnded g src).answerStart = s.answerStart := by
  have hcalm : (s.transferEnded g src).calm = ((s.heardOut g none).setOutOfStep (sparePort g) false).calm :=
    State.calm_of_ground (State.ground_post ..)
  unfold State.answerStart
  rw [State.regs_of_calm hcalm]
  rfl

/-- A transfer that has completed is gone, its port is in step, and everything else stands. -/
theorem State.transferEnded_alike (s : State) (g : Spare) (src : TransferSource) :
    let u := s.transferEnded g src
    u.transfer g = none ∧ u.outOfStep = tabSet s.outOfStep (sparePort g) false ∧ u.records = s.records
      ∧ u.engines = s.engines ∧ u.queue = s.queue ∧ s.SameSurroundings u := by
  have hcalm : (s.transferEnded g src).calm = ((s.heardOut g none).setOutOfStep (sparePort g) false).calm :=
    State.calm_of_ground (State.ground_post ..)
  refine ⟨?_, State.outOfStep_of_calm hcalm, ?_, ?_, ?_, ?_⟩
  · exact (State.transfer_of_links (State.links_post ..) g).trans (State.heardOut_transfer ..)
  · exact State.postAll_records _ [_]
  · exact State.postAll_engines _ [_]
  · exact State.postAll_queue _ [_]
  · exact State.sameSurroundings_of_calm (s := (s.heardOut g none).setOutOfStep (sparePort g) false) hcalm

theorem State.transferEnded_events (s : State) (g : Spare) (src : TransferSource) (l : List Event) :
    ((s.transferEnded g src).postAll l).events = (s.postAll (transferDoneEvent g src :: l)).events :=
  State.events_of_reported (State.reported_congr
    (x := (s.heardOut g none).setOutOfStep (sparePort g) false) (y := s) rfl (transferDoneEvent g src :: l))

theorem carriesWord_iff {w : Option SpanWord} : carriesWord k w = true ↔ ∃ f, w = some (.carry k f) := by
  refine ⟨carriesWord_eq_true, ?_⟩
  rintro ⟨f, rfl⟩
  simp [carriesWord]

/-- A completed rest transfer leaves the engine. -/
theorem Turn.transferCompleted_rest (t : Turn) (g : Spare) : t.transferCompleted g .rest = t := by
  unfold Turn.transferCompleted
  split
  · next h _ => cases h
  · rfl

/-- A completed circuit transfer whose far end carries the circuit: CARRYING. -/
theorem Turn.transferCompleted_carries (hk : (t.st.engine g).state = .preparing k)
    (hc : ∃ f, t.st.farSays g = some (.carry k f)) :
    t.transferCompleted g (.circuit k) = t.enterEngine g (.carrying k) none none := by
  unfold Turn.transferCompleted
  rw [hk]
  dsimp only
  rw [if_pos rfl, if_pos (carriesWord_iff.mpr hc)]

/-- Else BRIDGED, where no far claim stands that wins the contest. -/
theorem Turn.transferCompleted_bridges (hk : (t.st.engine g).state = .preparing k)
    (hc : ¬ ∃ f, t.st.farSays g = some (.carry k f))
    (hfar : ∀ j f, t.st.farClaim g = some (j, f) → j = k ∨ beforeClaim (k, t.st.localClass k) (j, f) = true) :
    t.transferCompleted g (.circuit k) = t.enterEngine g (.bridged k) t.st.answerStart none := by
  have hwon : (t.enterEngine g (.bridged k) t.st.answerStart none).contest g
      = t.enterEngine g (.bridged k) t.st.answerStart none := by
    refine Turn.contest_won fun own far ho hf => ?_
    have hown : own = (k, t.st.localClass k) := by
      unfold State.contestClaim at ho
      rw [Turn.enterEngine_engine] at ho
      exact (Option.some.inj ho).symm
    subst hown
    exact (hfar far.1 far.2 hf).imp_left Eq.symm
  unfold Turn.transferCompleted
  rw [hk]
  dsimp only
  rw [if_pos rfl, if_neg fun h => hc (carriesWord_iff.mp h), hwon]

/-- A PREPARING engine that goes on with its circuit calls for no pass; its entry is reported. -/
theorem State.goesOn_settle (hk : (u.engine g).state = .preparing k) {e : EngineState} {n : Option Nat}
    (he : e = .carrying k ∨ e = .bridged k) :
    (u.turn.enterEngine g e n none).settle u
      = (u.turn.enterEngine g e n none).st.post { kind := .spare, subject := byte (10 + g.val), detail1 := byte e.code,
                                                  detail2 := byte (16 * k.val + 15) } := by
  set v := u.turn.enterEngine g e n none with hv
  have hstate : (v.st.engine g).state = e := by rw [hv, Turn.enterEngine_engine]
  have hposts : v.ordered = [{ kind := .spare, subject := byte (10 + g.val), detail1 := byte e.code,
                               detail2 := byte (16 * k.val + 15) }] := by
    have hb : ∀ k : Circuit, (EngineState.preparing k).circuitByte = byte (16 * k.val + 15) := by decide
    have hbyte : e.circuitByte = byte (16 * k.val + 15) := by
      rcases he with rfl | rfl
      · exact hb k
      · exact hb k
    have hevent : spareEvent v.st g = { kind := .spare, subject := byte (10 + g.val), detail1 := byte e.code,
                                        detail2 := byte (16 * k.val + 15) } := by
      unfold spareEvent
      rw [hstate, hbyte]
      rfl
    unfold Turn.ordered
    rw [show v.posts = [(Slot.spares g, spareEvent v.st g)] from rfl, hevent]
    rcases spare_zero_or_one g with rfl | rfl
    · rfl
    · rfl
  have hasked : u.Unasked v.st := by
    refine State.unasked_of_engine (g := g) (fun i hi => Turn.enterEngine_engine_other _ _ _ _ (Ne.symm hi)) rfl ?_
      fun hz => ?_
    · rw [hstate]
      rcases he with rfl | rfl <;> simp
    · have heff : v.st.effClass k = u.effClass k := rfl
      unfold State.heldAtZero State.holdingClaim at hz ⊢
      rw [hstate] at hz
      rw [hk]
      rcases he with rfl | rfl
      · exact hz
      · exact hz
  rw [Turn.settle_of_unasked (t := v) (b := u) rfl (fun _ => rfl) hasked rfl, hposts]
  rfl

theorem State.SameSurroundings.trans {v : State} (h : s.SameSurroundings u) (hv : u.SameSurroundings v) :
    s.SameSurroundings v := by
  obtain ⟨h1, h2, h3, h4, h5, h6, h7, h8, h9, h10, h11, h12, h13⟩ := h
  obtain ⟨f1, f2, f3, f4, f5, f6, f7, f8, f9, f10, f11, f12, f13⟩ := hv
  exact ⟨f1.trans h1, f2.trans h2, f3.trans h3, f4.trans h4, f5.trans h5, f6.trans h6, f7.trans h7, f8.trans h8,
    f9.trans h9, f10.trans h10, f11.trans h11, f12.trans h12, f13.trans h13⟩

/-- The completion of a rest transfer is reported, and the engine stays as it is. -/
theorem State.restEnded (s : State) (g : Spare) :
    let u := s.transferEnded g .rest
    let t := ((u.turn.transferCompleted g .rest).settle u).finish
    t.transfer g = none ∧ t.outOfStep = tabSet s.outOfStep (sparePort g) false
      ∧ t.events = (s.post { kind := .transferDone, subject := byte (10 + g.val), detail1 := 10, detail2 := 0 }).events
      ∧ t.engines = s.engines ∧ t.records = s.records ∧ t.queue = s.queue ∧ s.SameSurroundings t := by
  dsimp only
  obtain ⟨hnone, hstep, hrecords, hengines, hqueue, hsame⟩ := s.transferEnded_alike g .rest
  have hevents := s.transferEnded_events g .rest []
  generalize s.transferEnded g .rest = u at *
  have hidle : u.turn.settle u = u :=
    Turn.settle_of_unasked (t := u.turn) rfl (fun _ => rfl) ⟨fun _ h => h, fun _ h => h⟩ rfl
  rw [Turn.transferCompleted_rest, hidle]
  refine ⟨?_, u.finish_outOfStep.trans hstep, u.finish_events.trans hevents, u.finish_engines.trans hengines,
    u.finish_records.trans hrecords, u.finish_queue.trans hqueue, hsame.finish⟩
  have h := u.finish_transfer_source g
  rw [hnone] at h
  simpa using h

/-- What the completion of a circuit transfer leaves, its engine going on into state e. -/
theorem State.transferWent (hk : (s.engine g).state = .preparing k) {e : EngineState} {n : Option Nat}
    (he : e = .carrying k ∨ e = .bridged k) {t : State}
    (ht : t = (((s.transferEnded g (.circuit k)).turn.enterEngine g e n none).settle
      (s.transferEnded g (.circuit k))).finish) :
    (t.transfer g = none ∧ t.outOfStep = tabSet s.outOfStep (sparePort g) false)
      ∧ (t.engine g = { s.engine g with state := e, answerTimer := n, testTimer := none }
        ∧ t.events = (s.postAll [
          { kind := .transferDone, subject := byte (10 + g.val), detail1 := byte k.val, detail2 := 0 },
          { kind := .spare, subject := byte (10 + g.val), detail1 := byte e.code,
            detail2 := byte (16 * k.val + 15) }]).events)
      ∧ (∀ i, i ≠ g → t.engine i = s.engine i) ∧ t.records = s.records ∧ t.queue = s.queue ∧ s.SameSurroundings t := by
  have hk' : ((s.transferEnded g (.circuit k)).engine g).state = .preparing k := by rw [State.transferEnded_engine, hk]
  obtain ⟨hnone, hstep, hrecords, _, hqueue, hsame⟩ := s.transferEnded_alike g (.circuit k)
  have hengine : ∀ i, (s.transferEnded g (.circuit k)).engine i = s.engine i := fun i => State.transferEnded_engine ..
  have hevents := s.transferEnded_events g (.circuit k)
  rw [State.goesOn_settle hk' he] at ht
  generalize s.transferEnded g (.circuit k) = u at *
  set event : Event := { kind := .spare, subject := byte (10 + g.val), detail1 := byte e.code,
                         detail2 := byte (16 * k.val + 15) } with hevent
  set v := u.turn.enterEngine g e n none with hv
  have halike : v.st.Alike t := ht ▸ State.alike_finish v.st [event]
  refine ⟨⟨?_, halike.outOfStep.trans hstep⟩, ⟨?_, ?_⟩, fun i hi => ?_, halike.records.trans hrecords,
    halike.queue.trans hqueue, hsame.trans ?_⟩
  · have h := halike.transfer g
    rw [show v.st.transfer g = u.transfer g from rfl, hnone] at h
    simpa using h
  · rw [halike.engine, hv, Turn.enterEngine_engine, State.turn_st, hengine]
  · rw [ht, State.finish_events]
    exact (State.events_of_reported (State.reported_congr (x := v.st) (y := u) rfl [event])).trans (hevents [event])
  · rw [halike.engine, hv, Turn.enterEngine_engine_other _ _ _ _ (Ne.symm hi)]
    exact hengine i
  · rw [ht]
    exact (State.sameSurroundings_of_calm (State.calm_of_ground (State.ground_post v.st event))).finish

/-- A transfer that fails adds SETUP: the engine UNAVAILABLE, the spare resting after a circuit, else without a transfer. -/
theorem State.transferFailed (ha : s.Agreement) (g : Spare) (e : Event) {t : State}
    (ht : t = ((((s.heardOut g none).post e).turn.putReason g .setup true).settle ((s.heardOut g none).post e)).finish) :
    (t.engine g).state = .unavailable ∧ (t.engine g).reasons = { (s.engine g).reasons with setup := true }
      ∧ (∀ k, (s.engine g).state.circuit = some k → (t.transfer g).map (·.source) = some .rest)
      ∧ ((s.engine g).state.circuit = none → t.transfer g = none)
      ∧ t.outOfStep = s.outOfStep ∧ s.SameSurroundings t := by
  have hengine : ((s.heardOut g none).post e).engine = s.engine := by
    funext i
    rw [State.post_engine]
    rfl
  have hwatch : ((s.heardOut g none).post e).watching = s.watching := by
    unfold State.watching
    rw [hengine]
  have hsteady : ((s.heardOut g none).post e).Steady ((s.heardOut g none).post e).watching [] [] := by
    rw [hwatch]
    exact State.Steady.post (s := s.heardOut g none) (ha.watching.of_same rfl rfl (fun _ => rfl) fun _ => rfl) e
  have hnone : ((s.heardOut g none).post e).transfer g = none :=
    (State.transfer_of_links (State.links_post ..) g).trans (State.heardOut_transfer ..)
  have hbefore : ((s.heardOut g none).post e).calm = (s.heardOut g none).calm := State.calm_of_ground (State.ground_post ..)
  generalize (s.heardOut g none).post e = u at *
  obtain ⟨hstate, hreasons, hrest, hleft⟩ := hsteady.reasonAdded g .setup u
  have hcalm : ((u.turn.putReason g .setup true).settle u).calm = (s.heardOut g none).calm :=
    (State.calm_of_ground ((Turn.ground_settle ..).trans (State.ground_of_still (Turn.still_putReason ..)))).trans hbefore
  generalize (u.turn.putReason g .setup true).settle u = v at *
  rw [hengine] at hreasons hrest hleft
  rw [ht]
  refine ⟨?_, ?_, fun k hk => ?_, fun hn => ?_, ?_, ?_⟩
  · rw [State.finish_engine, hstate]
  · rw [State.finish_engine, hreasons]
    rfl
  · rw [State.finish_transfer_source]
    exact hrest k hk
  · have h := v.finish_transfer_source g
    rw [hleft hn, hnone] at h
    simpa using h
  · rw [State.finish_outOfStep, State.outOfStep_of_calm hcalm]
    rfl
  · exact (State.sameSurroundings_of_calm hcalm).finish

/-- A word acknowledged with more to send leaves everything but the transfer's word in flight. -/
theorem State.transferGoesOn (s : State) (g : Spare) (y : Transfer) :
    let t := (s.heardOut g (some { y with inFlight := none })).finish
    (t.transfer g).map (·.source) = some y.source ∧ t.engines = s.engines ∧ t.records = s.records ∧ t.queue = s.queue
      ∧ t.events = s.events ∧ t.outOfStep = s.outOfStep ∧ s.SameSurroundings t := by
  dsimp only
  refine ⟨?_, State.finish_engines _, State.finish_records _, State.finish_queue _, State.finish_events _,
    State.finish_outOfStep _, ?_⟩
  · rw [State.finish_transfer_source, State.heardOut_transfer]
    rfl
  · refine State.SameSurroundings.finish ?_
    exact ⟨rfl, rfl, rfl, rfl, rfl, rfl, rfl, rfl, rfl, rfl, rfl, rfl, List.suffix_refl _⟩

end Outcomes

/-- Settles O29: the outcome of a transfer's word is one of three, and each is one move of the engine at most. -/
theorem transferOutcomes : Obligations.TransferOutcomes := by
  intro s a b c x g y hs hx hsrc hab hy
  refine ⟨fun hack hmore => ?_, fun hack hover hrest => ?_, fun k hack hover hcircuit hk hfar => ?_,
    fun ha hnack hsecond => ?_⟩
  · refine ⟨_, State.exec_handOver hs hx (.inl (acknowledged_eq_true hack)), ?_⟩
    rw [acknowledged_eq_true hack, State.handOver_goesOn hsrc hab hy hmore]
    exact s.transferGoesOn g y
  · refine ⟨_, State.exec_handOver hs hx (.inl (acknowledged_eq_true hack)), ?_⟩
    rw [acknowledged_eq_true hack, State.handOver_ended hsrc hab hy hover, hrest]
    exact s.restEnded g
  · dsimp only
    refine ⟨_, State.exec_handOver hs hx (.inl (acknowledged_eq_true hack)), ?_⟩
    rw [acknowledged_eq_true hack, State.handOver_ended hsrc hab hy hover, hcircuit]
    have hk' : ((s.transferEnded g (.circuit k)).turn.st.engine g).state = .preparing k := by
      rw [State.turn_st, State.transferEnded_engine, hk]
    have hsources := s.transferEnded_sources g (.circuit k)
    have hsays : (s.transferEnded g (.circuit k)).farSays g = s.farSays g := by
      unfold State.farSays State.qualifier
      rw [State.qualifiers_of_sources hsources]
    by_cases hc : ∃ f, s.farSays g = some (.carry k f)
    · rw [Turn.transferCompleted_carries hk' (by rw [State.turn_st, hsays]; exact hc)]
      obtain ⟨⟨hnone, hstep⟩, hengine, hrest⟩ := State.transferWent (n := none) hk (.inl rfl) rfl
      exact ⟨hnone, hstep, fun _ => hengine, fun hn => absurd hc hn, hrest⟩
    · rw [Turn.transferCompleted_bridges hk' (by rw [State.turn_st, hsays]; exact hc) fun j f hj => by
          rw [State.turn_st, State.farClaim_of_sources hsources] at hj
          rw [State.turn_st, State.localClass_of_sources hsources]
          exact hfar j f hj,
        State.turn_st, State.transferEnded_answerStart]
      obtain ⟨⟨hnone, hstep⟩, hengine, hrest⟩ := State.transferWent (n := s.answerStart) hk (.inr rfl) rfl
      exact ⟨hnone, hstep, fun hn => absurd hn hc, fun _ => hengine, hrest⟩
  · refine ⟨_, State.exec_handOver hs hx (.inr hsecond), ?_⟩
    rw [acknowledged_eq_false hnack, State.handOver_fails hsrc hab hy]
    exact s.transferFailed ha g _ rfl

end Sys2Proof.Machine
end

section
/-! Proofs: what the received stream of a port gives the ports, command by command, and what the end of a received frame does to
sending and feeds. -/

namespace Sys2Proof.Machine

section Wires

variable {s u t : State} {p q : Port} {g : Spare} {k : Circuit} {l d e : List Bool} {f : Frame} {n : Nat}

/-! ## The part of a state that the ports' streams write -/

/-- What the ports last sent and received, and how the spares send. -/
def State.wires (s : State) : State :=
  { State.reset with lineOut := s.lineOut, systemOut := s.systemOut, sendModes := s.sendModes }

theorem State.lineOut_of_wires (h : u.wires = s.wires) : u.lineOut = s.lineOut := by
  have e : u.wires.lineOut = s.wires.lineOut := by rw [h]
  exact e

theorem State.systemOut_of_wires (h : u.wires = s.wires) : u.systemOut = s.systemOut := by
  have e : u.wires.systemOut = s.wires.systemOut := by rw [h]
  exact e

theorem State.sendModes_of_wires (h : u.wires = s.wires) : u.sendModes = s.sendModes := by
  have e : u.wires.sendModes = s.wires.sendModes := by rw [h]
  exact e

@[simp] theorem State.wires_finish (s : State) : s.finish.wires = s.wires :=
  State.finish_keeps State.wires (fun _ => rfl) (fun _ _ _ _ => rfl) (fun _ _ _ => rfl) s

@[simp] theorem State.wires_setMonitor (s : State) (p : Port) (m : Monitor) : (s.setMonitor p m).wires = s.wires := rfl

@[simp] theorem State.wires_watch (s : State) (p : Port) : (s.watch p).wires = s.wires :=
  (State.same_of_lines State.wires (fun _ => rfl) (s.lines_watch p)).trans rfl

@[simp] theorem State.wires_departed (s : State) (p : Port) : (s.departed p).wires = s.wires := by
  unfold State.departed
  dsimp only
  rw [State.wires_watch]
  split
  · rfl
  · rfl

/-- The monitors do not enter what bits give the ports. -/
theorem State.wires_carryBits_setMonitor (s : State) (p q : Port) (m : Monitor) (l : List Bool) :
    ((s.setMonitor q m).carryBits p l).wires = (s.carryBits p l).wires := by
  unfold State.carryBits
  split
  · rfl
  · rfl

theorem State.wires_carryStart_setMonitor (s : State) (p q : Port) (m : Monitor) (l : List Bool) :
    ((s.setMonitor q m).carryStart p l).wires = (s.carryStart p l).wires := by
  unfold State.carryStart
  split
  · rfl
  · rfl

/-! ## Bits -/

theorem State.carryBits_eq (hl : l ≠ []) : s.carryBits p l = s.carry p l (.bits l) (.bits l) :=
  if_neg (by simpa using hl)

theorem State.carryStart_eq (hl : l ≠ []) : s.carryStart p l = s.carry p l (.bits l) (.bits (passedStart p l)) :=
  if_neg (by simpa using hl)

theorem State.carry_lineOut (s : State) (g : Spare) (received : List Bool) (looped passed : Carried) :
    tabGet (s.carry (sparePort g) received looped passed).lineOut (sparePort g)
      = if tabGet s.sendModes g = .looping then some looped else tabGet s.lineOut (sparePort g) := by
  split
  · next h => exact State.carry_lineOut_looping _ _ _ _ _ h
  · next h => rw [State.carry_lineOut_other _ _ _ _ _ h]

/-- The system ports after a stream of port p. -/
theorem State.systemOut_carried {received : List Bool} {looped passed : Carried}
    (h : t.wires = (s.carry p received looped passed).wires) (k : Circuit) :
    tabGet t.systemOut k
      = if feedPort k (tabGet s.feeds k) = some p then some passed else tabGet s.systemOut k := by
  rw [State.systemOut_of_wires h, State.carry_systemOut]

/-- A spare port after its own stream. -/
theorem State.lineOut_carried {received : List Bool} {looped passed : Carried}
    (h : t.wires = (s.carry (sparePort g) received looped passed).wires) :
    tabGet t.lineOut (sparePort g)
      = if tabGet s.sendModes g = .looping then some looped else tabGet s.lineOut (sparePort g) := by
  rw [State.lineOut_of_wires h, State.carry_lineOut]

theorem State.sendModes_carried {received : List Bool} {looped passed : Carried}
    (h : t.wires = (s.carry p received looped passed).wires) : t.sendModes = s.sendModes :=
  (State.sendModes_of_wires h).trans rfl

/-! ## The commands of a stream that no monitor places -/

theorem Monitor.isAligned_iff (m : Monitor) : m.isAligned = true ↔ ∃ n, m.state = .aligned n := by
  unfold Monitor.isAligned
  cases m.state <;> simp

theorem onTheWire_eq (l : List Byte) : onTheWire l = bytesBits l := rfl

theorem bytesBits_ne_nil {l : List Byte} (h : l ≠ []) : bytesBits l ≠ [] := by
  intro e
  have hlen := congrArg List.length e
  rw [bytesBits_length] at hlen
  exact h (List.length_eq_zero_iff.mp (by simpa using hlen))

theorem State.exec_huntingMatch (hs : s.inReset = false) (hm : ∀ n, (s.monitor p).state ≠ .aligned n) :
    ∃ t, exec (.huntingMatch p d e) s = .next t ∧ t.wires = (s.carryBits p (e ++ d)).wires := by
  have hexec : exec (.huntingMatch p d e) s = .next (s.inService fun s => s.receiveBits p (e ++ d)) := rfl
  refine ⟨_, hexec, ?_⟩
  rw [State.inService_out hs]
  rcases s.receiveBits_cases p (e ++ d) with ⟨ha, _⟩ | ⟨_, h⟩ | ⟨_, _, _, h⟩
  · obtain ⟨n, hn⟩ := (Monitor.isAligned_iff _).mp ha
    exact absurd hn (hm n)
  · rw [h]
  · rw [h, State.wires_finish, State.wires_setMonitor]

/-- A byte at the position of a monitor in CHECKING that does not end the search passes with the bytes before it. -/
theorem State.exec_checking {before : List Byte} {b : Byte} (hs : s.inReset = false)
    (hm : (s.monitor p).state = .checking n) (hc : ¬ (b = 0xD3 ∧ (s.monitor p).confirm = 2)) :
    ∃ t, exec (.checkingAlignmentWord p b before) s = .next t
      ∧ t.wires = (s.carryBits p (onTheWire (before ++ [b]))).wires := by
  have hexec : exec (.checkingAlignmentWord p b before) s = .next (s.inService fun s => s.checkByte p before b) := rfl
  refine ⟨_, hexec, ?_⟩
  rw [State.inService_out hs, onTheWire_eq]
  unfold State.checkByte
  dsimp only
  rw [hm]
  dsimp only
  split
  · next hb =>
    rw [if_neg (fun h3 : (s.monitor p).confirm + 1 = Config.confirmations => hc ⟨hb, Nat.succ.inj h3⟩), State.wires_finish, State.wires_setMonitor]
  · rw [State.wires_finish, State.wires_setMonitor]

/-- The state at the third confirmation, where the first received frame begins. -/
def State.confirmed (s : State) (p : Port) (n : Nat) (before : List Byte) : State :=
  ((s.carryBits p (bytesBits before)).setMonitor p
    { s.monitor p with state := .aligned (n + Config.frameBytes), opening := true, confirm := (s.monitor p).confirm + 1,
                       miss := 0 }).watch p

theorem State.exec_confirming {before : List Byte} {b : Byte} (hs : s.inReset = false)
    (hm : (s.monitor p).state = .checking n) (hb : b = 0xD3) (hc : (s.monitor p).confirm = 2) :
    exec (.checkingAlignmentWord p b before) s = .next ((s.confirmed p n before).frameBoundary p).finish := by
  have hexec : exec (.checkingAlignmentWord p b before) s = .next (s.inService fun s => s.checkByte p before b) := rfl
  rw [hexec, State.inService_out hs]
  unfold State.checkByte
  dsimp only
  rw [hm]
  dsimp only
  rw [if_pos (show b = Config.alignmentWord from hb), if_pos (show (s.monitor p).confirm + 1 = Config.confirmations by rw [hc]; rfl)]
  rfl

theorem State.wires_confirmed (s : State) (p : Port) (n : Nat) (before : List Byte) :
    (s.confirmed p n before).wires = (s.carryBits p (onTheWire before)).wires := by
  unfold State.confirmed
  rw [State.wires_watch, State.wires_setMonitor, onTheWire_eq]

theorem State.exec_alignmentLost {b : Byte} (hs : s.inReset = false) (hm : (s.monitor p).state = .aligned n)
    (hmiss : (s.monitor p).miss = 3) (hb : b ≠ 0xD3) :
    ∃ t, exec (.alignmentLost p b) s = .next t ∧ t.wires = (s.carryBits p (onTheWire [b])).wires := by
  have hexec : exec (.alignmentLost p b) s = .next (s.inService fun s => s.alignedByte p b) := rfl
  refine ⟨_, hexec, ?_⟩
  rw [State.inService_out hs]
  unfold State.alignedByte
  dsimp only
  rw [hm]
  dsimp only
  rw [if_pos ⟨hmiss, hb⟩, State.wires_finish]
  unfold State.loseAlignment
  rw [State.wires_departed, State.wires_carryBits_setMonitor]
  rfl

theorem State.exec_signalLost (hs : s.inReset = false) (hm : ∀ n, (s.monitor p).state ≠ .aligned n) :
    ∃ t, exec (.signalLostAsserted p d) s = .next t ∧ t.wires = (s.carryBits p d).wires := by
  have hexec : exec (.signalLostAsserted p d) s = .next ((s.setSignalLost p true).inService fun t =>
    t.loseSignal p (!(s.monitor p).signalLost) d) := rfl
  refine ⟨_, hexec, ?_⟩
  rw [State.inService_out (s := s.setSignalLost p true) hs]
  have hstate : ((s.setSignalLost p true).monitor p).state = (s.monitor p).state := by
    unfold State.setSignalLost
    rw [State.setMonitor_monitor_same]
  have hwires : ((s.setSignalLost p true).carryBits p d).wires = (s.carryBits p d).wires :=
    State.wires_carryBits_setMonitor ..
  rw [← hwires]
  unfold State.loseSignal
  dsimp only
  split
  · next n h => exact absurd (hstate.symm.trans h) (hm n)
  · rw [State.wires_finish, State.wires_watch, State.wires_setMonitor]
  · rw [State.wires_finish, State.wires_watch, State.wires_setMonitor]

/-- The bits of a frame that signal-lost cuts off, the first frame's alignment word among them. -/
theorem State.exec_signalLost_aligned (hs : s.inReset = false) (hm : (s.monitor p).state = .aligned n) :
    ∃ t, exec (.signalLostAsserted p d) s = .next t
      ∧ t.wires = (s.carryStart p ((s.monitor p).received d)).wires := by
  have hexec : exec (.signalLostAsserted p d) s = .next ((s.setSignalLost p true).inService fun t =>
    t.loseSignal p (!(s.monitor p).signalLost) d) := rfl
  refine ⟨_, hexec, ?_⟩
  rw [State.inService_out (s := s.setSignalLost p true) hs]
  have hmonitor : (s.setSignalLost p true).monitor p = { s.monitor p with signalLost := true } :=
    State.setMonitor_monitor_same ..
  unfold State.loseSignal
  dsimp only
  rw [hmonitor]
  dsimp only
  rw [hm]
  dsimp only
  rw [State.wires_finish, State.wires_departed, State.wires_setMonitor]
  exact State.wires_carryStart_setMonitor ..

/-! ## The end of a received frame -/

/-- Where the feeds and sending of a state between two frames settle. -/
def State.frameEnd (s : State) (p : Port) : State := (s.frameBoundary p).finish

theorem State.finish_feed (s : State) (k : Circuit) : tabGet s.finish.feeds k = s.followFeed none k := by
  have hsettled : tabGet s.settleFeeds.feeds k = s.followFeed none k := by
    simp [State.settleFeeds, State.followFeeds]
  rw [← hsettled]
  unfold State.finish
  rcases s.settleFeeds.servePort_cases with h | ⟨_, _, _, _, _, _, h⟩ | ⟨_, _, _, _, h⟩
  · rw [h]
  · rw [h]
    rfl
  · rw [h]
    rfl

@[simp] theorem State.frameBoundary_engines (s : State) (p : Port) : (s.frameBoundary p).engines = s.engines :=
  State.frameBoundary_keeps State.engines (fun _ _ => rfl) (fun _ _ => rfl) s p

@[simp] theorem State.frameBoundary_monitors (s : State) (p : Port) : (s.frameBoundary p).monitors = s.monitors :=
  State.frameBoundary_keeps State.monitors (fun _ _ => rfl) (fun _ _ => rfl) s p

theorem State.frameEnd_engine (s : State) (p : Port) (g : Spare) : (s.frameEnd p).engine g = s.engine g := by
  unfold State.frameEnd State.engine
  rw [State.finish_engines, State.frameBoundary_engines]

theorem State.frameEnd_monitor (s : State) (p q : Port) : (s.frameEnd p).monitor q = s.monitor q := by
  unfold State.frameEnd State.monitor
  rw [State.finish_monitors, State.frameBoundary_monitors]

theorem State.selectedFeed_of_engines (h : u.engines = s.engines) (k : Circuit) : u.selectedFeed k = s.selectedFeed k := by
  have he : u.engine = s.engine := by
    funext g
    unfold State.engine
    rw [h]
  unfold State.selectedFeed State.selector
  rw [he]

theorem State.frameEnd_selectedFeed (s : State) (p : Port) (k : Circuit) :
    (s.frameEnd p).selectedFeed k = s.selectedFeed k :=
  State.selectedFeed_of_engines ((State.finish_engines _).trans (s.frameBoundary_engines p)) k

theorem State.frameEnd_loopOn (s : State) (p : Port) (g : Spare) : (s.frameEnd p).loopOn g = s.loopOn g := by
  unfold State.loopOn
  rw [State.frameEnd_engine]

theorem State.frameEnd_systemOut (s : State) (p : Port) : (s.frameEnd p).systemOut = s.systemOut :=
  (State.finish_systemOut _).trans (State.frameBoundary_keeps State.systemOut (fun _ _ => rfl) (fun _ _ => rfl) s p)

theorem State.frameEnd_lineOut (s : State) (p : Port) : (s.frameEnd p).lineOut = s.lineOut :=
  (State.finish_lineOut _).trans (State.frameBoundary_keeps State.lineOut (fun _ _ => rfl) (fun _ _ => rfl) s p)

theorem State.modeAfterFrame_eq (s : State) (g : Spare) :
    s.modeAfterFrame g = switchedMode (tabGet s.sendModes g) (s.loopOn g) := by
  unfold State.modeAfterFrame switchedMode
  cases tabGet s.sendModes g <;> cases s.loopOn g <;> simp

/-- How spare g sends after a received frame of its own. -/
theorem State.frameEnd_sendMode (s : State) (g : Spare) :
    tabGet (s.frameEnd (sparePort g)).sendModes g = switchedMode (tabGet s.sendModes g) (s.loopOn g) := by
  have hmodes : (s.frameBoundary (sparePort g)).sendModes = tabSet s.sendModes g (s.modeAfterFrame g) := by
    unfold State.frameBoundary
    rw [portUse_sparePort]
    rfl
  unfold State.frameEnd
  rw [State.finish_sendModes, hmodes, tabGet_tabSet_same, State.modeAfterFrame_eq]

theorem State.frameBoundary_feed (s : State) (p : Port) (k : Circuit) :
    tabGet (s.frameBoundary p).feeds k = s.followFeed (some p) k := by
  unfold State.frameBoundary State.followFeeds
  cases portUse p with
  | working j => simp
  | spare g =>
    simp
    rfl

/-! ## Feeds -/

theorem feedPort_injective {a b : Feed} (ha : feedPort k a = some p) (hb : feedPort k b = some p) : a = b := by
  cases a with
  | working =>
    cases b with
    | working => rfl
    | spare g => exact absurd (Option.some.inj (ha.trans hb.symm)) (workPort_ne_sparePort k g)
    | ones => cases hb
  | spare g =>
    cases b with
    | working => exact absurd (Option.some.inj (hb.trans ha.symm)) (workPort_ne_sparePort k g)
    | spare i => exact congrArg Feed.spare (sparePort_injective (Option.some.inj (ha.trans hb.symm)))
    | ones => cases hb
  | ones => cases ha

theorem State.selectedFeed_ne_ones (s : State) (k : Circuit) : s.selectedFeed k ≠ .ones := by
  unfold State.selectedFeed
  split
  · simp
  · split <;> simp

theorem State.followFeed_selected {b : Option Port} (h : tabGet s.feeds k = s.selectedFeed k) :
    s.followFeed b k = s.selectedFeed k := by
  unfold State.followFeed
  dsimp only
  rw [if_pos h, h]

/-- A feed that names no frame in progress leaves for the selected line, through bytes of all ones while that has one. -/
theorem State.followFeed_leaving {b : Option Port} (h : tabGet s.feeds k ≠ s.selectedFeed k)
    (hf : s.feedInFrame b k (tabGet s.feeds k) = false) :
    s.followFeed b k = if s.feedInFrame b k (s.selectedFeed k) then .ones else s.selectedFeed k := by
  unfold State.followFeed
  dsimp only
  rw [if_neg h, if_neg (by simp [hf])]

/-- The port at the boundary has no frame in progress. -/
theorem State.feedInFrame_boundary {x : Feed} (h : feedPort k x = some p) : s.feedInFrame (some p) k x = false := by
  unfold State.feedInFrame
  rw [h]
  simp

/-- Away from the boundary a frame is in progress where the monitor is ALIGNED. -/
theorem State.feedInFrame_away {x : Feed} (h : feedPort k x ≠ some p) :
    s.feedInFrame (some p) k x = s.feedInFrame none k x := by
  unfold State.feedInFrame
  cases hx : feedPort k x with
  | none => rfl
  | some q =>
    have hq : p ≠ q := by
      rintro rfl
      exact h hx
    have hother : (some p != some q) = true := by simpa using hq
    dsimp only
    rw [hother]
    rfl

theorem State.feedInFrame_congr (h : u.monitors = s.monitors) (b : Option Port) (k : Circuit) (x : Feed) :
    u.feedInFrame b k x = s.feedInFrame b k x := by
  unfold State.feedInFrame State.monitor
  rw [h]

/-- A feed as the end of the event finds it follows once more. -/
theorem State.frameEnd_feed_eq (s : State) (p : Port) (k : Circuit) :
    tabGet (s.frameEnd p).feeds k = (s.frameBoundary p).followFeed none k := State.finish_feed ..

theorem State.frameEnd_feed_of_selected (h : s.followFeed (some p) k = s.selectedFeed k) :
    tabGet (s.frameEnd p).feeds k = s.selectedFeed k := by
  have hsel : (s.frameBoundary p).selectedFeed k = s.selectedFeed k :=
    State.selectedFeed_of_engines (s.frameBoundary_engines p) k
  rw [State.frameEnd_feed_eq, State.followFeed_selected, hsel]
  rw [hsel, State.frameBoundary_feed, h]

/-- Bytes of all ones stay while the selected line has a frame in progress. -/
theorem State.frameEnd_feed_of_ones (h : s.followFeed (some p) k = .ones)
    (hsel : s.feedInFrame none k (s.selectedFeed k) = true) : tabGet (s.frameEnd p).feeds k = .ones := by
  have hsame : (s.frameBoundary p).selectedFeed k = s.selectedFeed k :=
    State.selectedFeed_of_engines (s.frameBoundary_engines p) k
  have hfeed : tabGet (s.frameBoundary p).feeds k = .ones := by rw [State.frameBoundary_feed, h]
  rw [State.frameEnd_feed_eq, State.followFeed_leaving, hsame,
    State.feedInFrame_congr (s.frameBoundary_monitors p), if_pos hsel]
  · rw [hfeed, hsame]
    exact (s.selectedFeed_ne_ones k).symm
  · rw [hfeed]
    rfl

/-- A feed that selects its line keeps it. -/
theorem State.frameEnd_feed_kept (h : tabGet s.feeds k = s.selectedFeed k) :
    tabGet (s.frameEnd p).feeds k = s.selectedFeed k := State.frameEnd_feed_of_selected (State.followFeed_selected h)

/-- A feed whose line has ended a frame leaves it for the selected one. -/
theorem State.frameEnd_feed_left (hp : feedPort k (tabGet s.feeds k) = some p) (h : tabGet s.feeds k ≠ s.selectedFeed k) :
    tabGet (s.frameEnd p).feeds k = if s.feedInFrame none k (s.selectedFeed k) then .ones else s.selectedFeed k := by
  have haway : feedPort k (s.selectedFeed k) ≠ some p := fun hs => h (feedPort_injective hp hs)
  have hfollow := State.followFeed_leaving h (State.feedInFrame_boundary hp)
  rw [State.feedInFrame_away haway] at hfollow
  split
  · next hin =>
    rw [if_pos hin] at hfollow
    exact State.frameEnd_feed_of_ones hfollow hin
  · next hout =>
    rw [if_neg hout] at hfollow
    exact State.frameEnd_feed_of_selected hfollow

/-- A feed of bytes of all ones joins the new line at the end of its frame. -/
theorem State.frameEnd_feed_joins (hf : tabGet s.feeds k = .ones) (hp : feedPort k (s.selectedFeed k) = some p) :
    tabGet (s.frameEnd p).feeds k = s.selectedFeed k := by
  have hne : tabGet s.feeds k ≠ s.selectedFeed k := by
    rw [hf]
    exact (s.selectedFeed_ne_ones k).symm
  have hfollow := State.followFeed_leaving (b := some p) hne (by rw [hf]; rfl)
  rw [State.feedInFrame_boundary hp, if_neg (by simp)] at hfollow
  exact State.frameEnd_feed_of_selected hfollow

theorem State.feedInFrame_iff_aligned (s : State) (k : Circuit) (x : Feed) :
    s.feedInFrame none k x = true ↔ ∃ q, feedPort k x = some q ∧ (s.monitor q).isAligned = true := by
  unfold State.feedInFrame
  cases feedPort k x <;> simp

/-! ## A whole frame -/

theorem alignmentCorrect_eq_false (f : Frame) : alignmentCorrect f = false ↔ tabGet f 0 ≠ 0xD3 := by
  unfold alignmentCorrect frameByte Config.alignmentWord
  simp

/-- The state in which a whole frame has been judged, before the boundary behind it. -/
def State.judgedFrame (s : State) (p : Port) (n : Nat) (f : Frame) : State :=
  let u := (s.setMonitor p ((s.monitor p).judged n f)).carryFrame p f
  match portUse p with
  | .working _ => u
  | .spare g => u.judgedOnSpare g f

theorem State.exec_frameJudged (hs : s.inReset = false) (hm : (s.monitor p).state = .aligned n)
    (hok : ¬ ((s.monitor p).miss = 3 ∧ tabGet f 0 ≠ 0xD3)) :
    exec (.frameJudged p f) s = .next ((s.judgedFrame p n f).frameEnd p) := by
  have hexec : exec (.frameJudged p f) s = .next (s.inService fun s => s.frameReceived p f) := rfl
  rw [hexec, State.inService_out hs]
  unfold State.frameReceived
  dsimp only
  rw [hm]
  dsimp only
  rw [if_neg fun ⟨hmiss, hbad⟩ => hok ⟨hmiss, (alignmentCorrect_eq_false f).mp hbad⟩]
  rfl

/-- What is judged on a spare leaves the ports' streams, the feeds and the monitors. -/
theorem State.judgedOnSpare_leaves {α : Type} (x : State → α) (hl : ∀ u : State, x u.lines = x u)
    (hq : ∀ (u : State) (g : Spare) (q : Qualifier), x (u.setQualifier g q) = x u)
    (he : ∀ (u : State) (g : Spare) (y : Engine), x (u.setEngine g y) = x u) (s : State) (g : Spare) (f : Frame) :
    x (s.judgedOnSpare g f) = x s := by
  unfold State.judgedOnSpare
  split
  · obtain ⟨q, h⟩ := s.turn.base_qualifyGood g (frameWord f)
    have hlines : ((s.turn.qualifyGood g (frameWord f)).settle s).lines = (s.setQualifier g q).lines :=
      State.lines_of_base ((Turn.base_settle ..).trans h)
    exact (State.same_of_lines x hl hlines).trans (hq s g q)
  · unfold State.countTestError
    dsimp only
    split
    · exact (he ..).trans (hq ..)
    · exact hq ..

theorem State.judgedFrame_wires (s : State) (p : Port) (n : Nat) (f : Frame) :
    (s.judgedFrame p n f).wires
      = (s.carry p (byteBits (frameByte f 127)) (.frame f) (.frame (passedFrame p f))).wires := by
  unfold State.judgedFrame
  dsimp only
  split
  · rfl
  · exact State.judgedOnSpare_leaves State.wires (fun _ => rfl) (fun _ _ _ => rfl) (fun _ _ _ => rfl) ..

theorem State.judgedFrame_feeds (s : State) (p : Port) (n : Nat) (f : Frame) : (s.judgedFrame p n f).feeds = s.feeds := by
  unfold State.judgedFrame
  dsimp only
  split
  · rfl
  · exact State.judgedOnSpare_leaves State.feeds (fun _ => rfl) (fun _ _ _ => rfl) (fun _ _ _ => rfl) ..

end Wires

end Sys2Proof.Machine
end

section
/-! Proofs: a frame with its word replaced, the check corrected, and the part of it that a cut-off frame gives. -/

namespace Sys2Proof.Machine

section Frames

variable {f h : Frame} {w : Half} {c d : Byte} {l : List Bool}

/-! ## The check -/

/-- One bit of the check is linear. -/
theorem crcBit_xor (c d : Byte) : crcBit (c ^^^ d) = crcBit c ^^^ crcBit d := by
  have hbit : ∀ x : Byte, crcBit x = (x <<< 1) ^^^ (if x.msb then 0x07 else 0) := fun x => by
    unfold crcBit
    split <;> simp
  have hmask : ∀ p q : Bool, (if (p ^^ q) = true then (0x07 : Byte) else 0)
      = (if p = true then 0x07 else 0) ^^^ (if q = true then 0x07 else 0) := by decide
  rw [hbit, hbit, hbit, BitVec.shiftLeft_xor_distrib, BitVec.msb_xor, hmask]
  ac_rfl

/-- A byte that both read leaves the difference of two checks as the byte finds it. -/
theorem crcByte_difference (c d b : Byte) : crcByte c b ^^^ crcByte d b = crcByte (c ^^^ d) 0#8 := by
  have hcancel : c ^^^ b ^^^ (d ^^^ b) = c ^^^ d := by
    rw [BitVec.xor_comm d b, ← BitVec.xor_assoc, BitVec.xor_assoc c b b]
    simp
  simp only [crcByte_eq, ← crcBit_xor, hcancel, BitVec.xor_zero]

/-- The same bytes behind two beginnings change the check by a difference that does not depend on them. -/
theorem crc_difference (l m : List Byte) (hlen : l.length = m.length) (c d : Byte) :
    crc c l ^^^ crc d l = crc c m ^^^ crc d m := by
  have hgen : ∀ (l m : List Byte), l.length = m.length → ∀ c d c' d' : Byte, c ^^^ d = c' ^^^ d' →
      crc c l ^^^ crc d l = crc c' m ^^^ crc d' m := by
    intro l
    induction l with
    | nil =>
      intro m hm c d c' d' he
      obtain rfl := List.length_eq_zero_iff.mp hm.symm
      exact he
    | cons b l ih =>
      intro m hm c d c' d' he
      cases m with
      | nil => cases hm
      | cons b' m =>
        rw [crc_cons, crc_cons, crc_cons, crc_cons]
        refine ih m (Nat.succ.inj hm) _ _ _ _ ?_
        rw [crcByte_difference, crcByte_difference, he]
  exact hgen l m hlen c d c d rfl

/-- The bytes that the check covers. -/
theorem frameCrc_eq (f : Frame) :
    frameCrc f = crc (crc 0 [tabGet f 0, tabGet f 1, tabGet f 2]) (f.toList.drop 4) := by
  have htake : f.toList.take 3 = [tabGet f 0, tabGet f 1, tabGet f 2] := by
    apply List.ext_getElem
    · simp
    · intro i h1 h2
      have hi : i < 3 := by simpa using h2
      interval_cases i <;> simp [tabGet]
  unfold frameCrc
  rw [htake, crc_append]

theorem drop_of_agree (hsame : ∀ i : Fin 128, 4 ≤ i.val → tabGet h i = tabGet f i) :
    h.toList.drop 4 = f.toList.drop 4 := by
  apply List.ext_getElem
  · simp
  · intro i h1 h2
    have hi : 4 + i < 128 := by
      simp only [List.length_drop, Vector.length_toList] at h1
      omega
    simpa [tabGet] using hsame ⟨4 + i, hi⟩ (by simp)

/-- The check does not cover its own byte. -/
theorem frameCrc_congr (h0 : tabGet h 0 = tabGet f 0) (h1 : tabGet h 1 = tabGet f 1) (h2 : tabGet h 2 = tabGet f 2)
    (hsame : ∀ i : Fin 128, 4 ≤ i.val → tabGet h i = tabGet f i) : frameCrc h = frameCrc f := by
  rw [frameCrc_eq, frameCrc_eq, h0, h1, h2, drop_of_agree hsame]

/-! ## A word replaced -/

theorem replaceWord_other (f : Frame) (w : Half) {i : Fin 128} (hi : i = 0 ∨ 4 ≤ i.val) :
    tabGet (replaceWord f w) i = tabGet f i := by
  have hne : ∀ j : Fin 128, j.val = 1 ∨ j.val = 2 ∨ j.val = 3 → j ≠ i := by
    rintro j hj rfl
    rcases hi with rfl | hi
    · simp at hj
    · omega
  unfold replaceWord putWord
  rw [tabGet_tabSet_other _ _ (hne 3 (by simp)), tabGet_tabSet_other _ _ (hne 2 (by simp)),
    tabGet_tabSet_other _ _ (hne 1 (by simp))]

theorem replaceWord_upper (f : Frame) (w : Half) : tabGet (replaceWord f w) 1 = upperByte w := by
  unfold replaceWord putWord
  rw [tabGet_tabSet_other _ _ (by decide), tabGet_tabSet_other _ _ (by decide), tabGet_tabSet_same]

theorem replaceWord_lower (f : Frame) (w : Half) : tabGet (replaceWord f w) 2 = lowerByte w := by
  unfold replaceWord putWord
  rw [tabGet_tabSet_other _ _ (by decide), tabGet_tabSet_same]

theorem replaceWord_check (f : Frame) (w : Half) :
    tabGet (replaceWord f w) 3 = tabGet f 3 ^^^ (frameCrc f ^^^ frameCrc (replaceWord f w)) := by
  have hput : frameCrc (replaceWord f w) = frameCrc (putWord f w) := by
    have hother : ∀ i : Fin 128, 3 ≠ i → tabGet (replaceWord f w) i = tabGet (putWord f w) i := fun i hi =>
      tabGet_tabSet_other _ _ hi
    refine frameCrc_congr (hother 0 (by decide)) (hother 1 (by decide)) (hother 2 (by decide)) fun i hi => hother i ?_
    rintro rfl
    exact absurd hi (by decide)
  rw [hput, ← BitVec.xor_assoc]
  exact tabGet_tabSet_same ..

/-- A correct check stays correct and a wrong one wrong. -/
theorem replaceWord_checkCorrect (f : Frame) (w : Half) :
    tabGet (replaceWord f w) 3 = frameCrc (replaceWord f w) ↔ tabGet f 3 = frameCrc f := by
  rw [replaceWord_check, ← BitVec.xor_assoc]
  refine ⟨fun he => ?_, fun he => by rw [he]; simp⟩
  have hzero : tabGet f 3 ^^^ frameCrc f = 0 := by
    have := congrArg (· ^^^ frameCrc (replaceWord f w)) he
    simpa [BitVec.xor_assoc] using this
  have := congrArg (· ^^^ frameCrc f) hzero
  simpa [BitVec.xor_assoc] using this

theorem passedOn_replaceWord (f : Frame) : PassedOn f (replaceWord f 0) :=
  ⟨replaceWord_upper f 0, replaceWord_lower f 0, fun _ hi => replaceWord_other f 0 hi, replaceWord_checkCorrect f 0⟩

/-- The correction of the check depends on the bytes before it alone. -/
theorem correction_congr (h0 : tabGet h 0 = tabGet f 0) (h1 : tabGet h 1 = tabGet f 1) (h2 : tabGet h 2 = tabGet f 2)
    (w : Half) : frameCrc h ^^^ frameCrc (replaceWord h w) = frameCrc f ^^^ frameCrc (replaceWord f w) := by
  have hdrop : ∀ x : Frame, (replaceWord x w).toList.drop 4 = x.toList.drop 4 := fun x =>
    drop_of_agree fun i hi => replaceWord_other x w (.inr hi)
  have hfirst : ∀ x : Frame, tabGet (replaceWord x w) 0 = tabGet x 0 := fun x => replaceWord_other x w (.inl rfl)
  simp only [frameCrc_eq, hdrop, hfirst, replaceWord_upper, replaceWord_lower, h0, h1, h2]
  exact crc_difference _ _ (by simp) _ _

/-! ## The bits of a frame -/

theorem byteBits_getElem? (b : Byte) {r : Nat} (hr : r < 8) : (byteBits b)[r]? = some (b.getLsbD (7 - r)) := by
  rw [byteBits_eq]
  interval_cases r <;> rfl

theorem bytesBits_getElem? (bs : List Byte) (i r : Nat) (hr : r < 8) :
    (bytesBits bs)[8 * i + r]? = bs[i]?.map fun b => b.getLsbD (7 - r) := by
  induction bs generalizing i with
  | nil => rfl
  | cons b bs ih =>
    have hcons : bytesBits (b :: bs) = byteBits b ++ bytesBits bs := rfl
    rw [hcons]
    cases i with
    | zero =>
      rw [List.getElem?_append_left (by simpa using hr), Nat.mul_zero, Nat.zero_add, byteBits_getElem? b hr]
      rfl
    | succ i =>
      rw [List.getElem?_append_right (by simp; omega), byteBits_length, show 8 * (i + 1) + r - 8 = 8 * i + r by omega, ih]
      rfl

theorem frameBits_getElem? (f : Frame) (i : Fin 128) {r : Nat} (hr : r < 8) :
    (frameBits f)[8 * i.val + r]? = some ((tabGet f i).getLsbD (7 - r)) := by
  unfold frameBits
  rw [bytesBits_getElem? _ _ _ hr]
  simp [tabGet]

theorem frameBits_length (f : Frame) : (frameBits f).length = 1024 := by
  unfold frameBits
  rw [bytesBits_length]
  simp

/-- Eight bits as one number, the first the most significant. -/
theorem byteBits_ofBits : ∀ b0 b1 b2 b3 b4 b5 b6 b7 : Bool,
    byteBits (byte (2 * (2 * (2 * (2 * (2 * (2 * (2 * b0.toNat + b1.toNat) + b2.toNat) + b3.toNat) + b4.toNat)
      + b5.toNat) + b6.toNat) + b7.toNat)) = [b0, b1, b2, b3, b4, b5, b6, b7] := by
  decide

theorem frameOfBits_byteBits (l : List Bool) (i : Fin 128) :
    byteBits (tabGet (frameOfBits l) i) = (List.range 8).map fun r => l.getD (8 * i.val + r) false := by
  refine Eq.trans ?_ (byteBits_ofBits ..)
  simp [frameOfBits, tabGet, List.range_succ]

theorem frameOfBits_getLsbD (l : List Bool) (i : Fin 128) {r : Nat} (hr : r < 8) :
    (tabGet (frameOfBits l) i).getLsbD (7 - r) = l.getD (8 * i.val + r) false := by
  refine Option.some.inj ((byteBits_getElem? _ hr).symm.trans ?_)
  rw [frameOfBits_byteBits, List.getElem?_map, List.getElem?_range hr]
  rfl

/-- The bits given of a frame are the first of its padded form. -/
theorem frameOfBits_agrees (hl : l <+: frameBits f) {i : Fin 128} {r : Nat} (hr : r < 8) (hlt : 8 * i.val + r < l.length) :
    (tabGet (frameOfBits l) i).getLsbD (7 - r) = (tabGet f i).getLsbD (7 - r) := by
  have hf := frameBits_getElem? f i hr
  obtain ⟨m, hm⟩ := hl
  rw [← hm, List.getElem?_append_left hlt] at hf
  rw [frameOfBits_getLsbD l i hr, List.getD_eq_getElem?_getD, hf]
  rfl

/-- A byte of which all bits are given is the frame's. -/
theorem frameOfBits_byte (hl : l <+: frameBits f) {i : Fin 128} (hlt : 8 * i.val + 8 ≤ l.length) :
    tabGet (frameOfBits l) i = tabGet f i := by
  refine BitVec.eq_of_getLsbD_eq fun j hj => ?_
  have h := frameOfBits_agrees hl (i := i) (r := 7 - j) (by omega) (by omega)
  rwa [show 7 - (7 - j) = j by omega] at h

/-- What a cut-off frame gives is what the whole frame would have given so far. -/
theorem replaceWord_start (hl : l <+: frameBits f) (w : Half) {i : Fin 128} {r : Nat} (hr : r < 8)
    (hlt : 8 * i.val + r < l.length) :
    (tabGet (replaceWord (frameOfBits l) w) i).getLsbD (7 - r) = (tabGet (replaceWord f w) i).getLsbD (7 - r) := by
  by_cases hother : i = 0 ∨ 4 ≤ i.val
  · rw [replaceWord_other _ _ hother, replaceWord_other _ _ hother]
    exact frameOfBits_agrees hl hr hlt
  have hcases : i = 1 ∨ i = 2 ∨ i = 3 := by
    rw [not_or] at hother
    obtain ⟨h0, h4⟩ := hother
    have : i.val ≠ 0 := fun e => h0 (Fin.ext e)
    simp only [Fin.ext_iff]
    show i.val = 1 ∨ i.val = 2 ∨ i.val = 3
    omega
  rcases hcases with rfl | rfl | rfl
  · rw [replaceWord_upper, replaceWord_upper]
  · rw [replaceWord_lower, replaceWord_lower]
  · have hlong : 24 ≤ l.length := by
      have : 8 * 3 + r < l.length := hlt
      omega
    have hbyte : ∀ i : Fin 128, i.val < 3 → tabGet (frameOfBits l) i = tabGet f i := fun i hi =>
      frameOfBits_byte hl (by omega)
    rw [replaceWord_check, replaceWord_check,
      correction_congr (hbyte 0 (by decide)) (hbyte 1 (by decide)) (hbyte 2 (by decide))]
    simp only [BitVec.getLsbD_xor, frameOfBits_agrees hl hr hlt]

theorem replaceWord_take (hl : l <+: frameBits f) (w : Half) :
    (frameBits (replaceWord (frameOfBits l) w)).take l.length = (frameBits (replaceWord f w)).take l.length := by
  have hlen : l.length ≤ 1024 := by
    have := hl.length_le
    rwa [frameBits_length] at this
  refine List.ext_getElem? fun j => ?_
  rw [List.getElem?_take, List.getElem?_take]
  split
  · next hj =>
    have hi : j / 8 < 128 := by omega
    have hj' : j = 8 * (⟨j / 8, hi⟩ : Fin 128).val + j % 8 := (Nat.div_add_mod j 8).symm
    rw [hj', frameBits_getElem? _ _ (Nat.mod_lt j (by decide)), frameBits_getElem? _ _ (Nat.mod_lt j (by decide))]
    exact congrArg some (replaceWord_start hl w (Nat.mod_lt j (by decide)) (by rw [← hj']; exact hj))
  · rfl

/-- A spare passes of a cut-off frame what it would have passed of the whole one. -/
theorem passedStart_spare (g : Spare) (hl : l <+: frameBits f) :
    passedStart (sparePort g) l = (frameBits (replaceWord f 0)).take l.length := by
  have hlen : l.length ≤ 1024 := by
    have := hl.length_le
    rwa [frameBits_length] at this
  unfold passedStart passedFrame
  rw [portUse_sparePort]
  dsimp only
  rw [List.take_append_of_le_length (by rw [frameBits_length]; exact hlen)]
  exact replaceWord_take hl 0

end Frames

end Sys2Proof.Machine
end

section
/-! Proofs: O37, what the system ports receive. -/

namespace Sys2Proof.Machine

section SystemPorts

variable {s t : State} {p : Port} {g : Spare} {k : Circuit} {l : List Bool} {f : Frame}

theorem portUse_of_lt (h : p.val < 10) : ∃ k, p = workPort k := by
  revert p
  decide

theorem portUse_of_ge (h : 10 ≤ p.val) : ∃ g, p = sparePort g := by
  revert p
  decide

/-- Bits that no monitor places reach the system ports that the port feeds. -/
theorem State.fed_of_bits (hl : l ≠ []) (h : t.wires = (s.carryBits p l).wires) (k : Circuit) :
    tabGet t.systemOut k
      = if feedPort k (tabGet s.feeds k) = some p then some (.bits l) else tabGet s.systemOut k := by
  rw [State.carryBits_eq hl] at h
  exact State.systemOut_carried h k

/-- The first bits of a frame reach them in their passed form. -/
theorem State.fed_of_start (hl : l ≠ []) (h : t.wires = (s.carryStart p l).wires) (k : Circuit) :
    tabGet t.systemOut k
      = if feedPort k (tabGet s.feeds k) = some p then some (.bits (passedStart p l)) else tabGet s.systemOut k := by
  rw [State.carryStart_eq hl] at h
  exact State.systemOut_carried h k

theorem passedStart_work (k : Circuit) (l : List Bool) : passedStart (workPort k) l = l := by
  unfold passedStart
  rw [portUse_workPort]

theorem onTheWire_ne_nil {bs : List Byte} (h : bs ≠ []) : onTheWire bs ≠ [] := bytesBits_ne_nil h

/-- What the system ports hold after a whole frame. -/
theorem State.judgedFrame_systemOut (s : State) (p : Port) (n : Nat) (f : Frame) (k : Circuit) :
    tabGet ((s.judgedFrame p n f).frameEnd p).systemOut k
      = if feedPort k (tabGet s.feeds k) = some p then some (.frame (passedFrame p f)) else tabGet s.systemOut k := by
  rw [State.frameEnd_systemOut]
  exact State.systemOut_carried (s.judgedFrame_wires p n f) k

/-- A byte that a monitor in CHECKING takes: what has come reaches the system ports, but a third confirmation's own byte. -/
theorem State.exec_checkingAlignmentWord {n : Nat} {b : Byte} {bs : List Byte} (hs : s.inReset = false)
    (hm : (s.monitor p).state = .checking n) :
    ∃ t, exec (.checkingAlignmentWord p b bs) s = .next t
      ∧ t.systemOut = (s.carryBits p (onTheWire (if b = 0xD3 ∧ (s.monitor p).confirm = 2 then bs else bs ++ [b]))).systemOut := by
  split
  · next hc =>
    refine ⟨_, State.exec_confirming hs hm hc.1 hc.2, ?_⟩
    exact ((s.confirmed p n bs).frameEnd_systemOut p).trans (State.systemOut_of_wires (s.wires_confirmed p n bs))
  · next hc =>
    obtain ⟨t, ht, hw⟩ := State.exec_checking hs hm hc
    exact ⟨t, ht, State.systemOut_of_wires hw⟩

end SystemPorts

/-- Settles O37: what each command carries to the ports that are fed, and how the feeds follow at the end of a frame. -/
theorem systemPortsReceive : Obligations.SystemPortsReceive := by
  refine ⟨fun s p f n k hs hm hok => ⟨_, State.exec_frameJudged hs hm hok, ?_⟩, fun s p d e l b k hs => ?_⟩
  · have hfeeds := s.judgedFrame_feeds p n f
    have hsystem := s.judgedFrame_systemOut p n f k
    rw [State.frameEnd_selectedFeed, ← hfeeds]
    rw [← hfeeds] at hsystem
    refine ⟨fun hw hp => ?_, fun g hg hp => ?_, fun hne => ?_, fun hsel => ?_, fun hp hne => ?_, fun ho hp => ?_⟩
    · subst hp
      rw [hsystem, if_pos (by rw [hw]; rfl)]
      unfold passedFrame
      rw [portUse_workPort]
    · subst hp
      refine ⟨replaceWord f 0, ?_, passedOn_replaceWord f⟩
      rw [hsystem, if_pos (by rw [hg]; rfl)]
      unfold passedFrame
      rw [portUse_sparePort]
    · rw [hsystem, if_neg hne]
    · exact State.frameEnd_feed_kept hsel
    · rw [State.frameEnd_feed_left hp hne]
      simp only [State.feedInFrame_iff_aligned, State.frameEnd_monitor]
    · exact State.frameEnd_feed_joins ho hp
  · refine ⟨fun hm hne => ?_, fun n hm hne => ?_, fun n hm hmiss hb => ?_, fun hm hne => ?_, fun n hm hne => ?_⟩
    · obtain ⟨t, ht, hw⟩ := State.exec_huntingMatch (d := d) (e := e) hs hm
      exact ⟨t, ht, State.fed_of_bits hne hw k⟩
    · obtain ⟨t, ht, hw⟩ := State.exec_checkingAlignmentWord (b := b) (bs := l) hs hm
      refine ⟨t, ht, ?_⟩
      have hsome : (if b = 0xD3 ∧ (s.monitor p).confirm = 2 then l else l ++ [b]) ≠ [] := by
        split
        · exact hne
        · simp
      exact (congrArg (tabGet · k) hw).trans (State.fed_of_bits (onTheWire_ne_nil hsome) rfl k)
    · obtain ⟨t, ht, hw⟩ := State.exec_alignmentLost hs hm hmiss hb
      exact ⟨t, ht, State.fed_of_bits (onTheWire_ne_nil (by simp)) hw k⟩
    · obtain ⟨t, ht, hw⟩ := State.exec_signalLost (d := d) hs hm
      exact ⟨t, ht, State.fed_of_bits hne hw k⟩
    · obtain ⟨t, ht, hw⟩ := State.exec_signalLost_aligned (d := d) hs hm
      have hfed := State.fed_of_start hne hw k
      refine ⟨t, ht, fun hlt => ?_, fun hge f hf => ?_⟩
      · obtain ⟨j, rfl⟩ := portUse_of_lt hlt
        rwa [passedStart_work] at hfed
      · obtain ⟨g, rfl⟩ := portUse_of_ge hge
        refine ⟨replaceWord f 0, passedOn_replaceWord f, ?_⟩
        rwa [passedStart_spare g hf] at hfed

end Sys2Proof.Machine
end

section
/-! Proofs: O43, what the line ports send. -/

namespace Sys2Proof.Machine

section LinePorts

variable {s t u : State} {p : Port} {g : Spare} {k : Circuit} {l : List Bool} {f : Frame} {frames : Vector Frame 10}

/-! ## A frame reference edge -/

/-- The state in which the frames of an edge begin: every timer has run on, and unplaced monitors have counted. -/
def State.elapsed (s : State) : State := allSpares.foldl State.countUnaligned s.tickTimers

/-- What the counting of test errors does not write, it keeps. -/
theorem State.countTestError_keeps {α : Type} (x : State → α)
    (h : ∀ (u : State) (g : Spare) (n : Nat), x (u.setEngine g { u.engine g with errorCount := n }) = x u)
    (u : State) (g : Spare) : x (u.countTestError g) = x u := by
  unfold State.countTestError
  dsimp only
  split
  · exact h ..
  · rfl

theorem State.elapsed_keeps {α : Type} (x : State → α)
    (h : ∀ (u : State) (g : Spare) (n : Nat), x (u.setEngine g { u.engine g with errorCount := n }) = x u)
    (s : State) : x s.elapsed = x s.tickTimers := by
  unfold State.elapsed
  generalize s.tickTimers = u
  induction allSpares generalizing u with
  | nil => rfl
  | cons g rest ih =>
    refine (ih _).trans ?_
    unfold State.countUnaligned
    split
    · rfl
    · exact State.countTestError_keeps x h u g

theorem State.elapsed_wires (s : State) : s.elapsed.wires = s.wires :=
  (State.elapsed_keeps State.wires (fun _ _ _ => rfl) s).trans rfl

theorem State.elapsed_monitor (s : State) (p : Port) : s.elapsed.monitor p = s.monitor p :=
  (State.elapsed_keeps (fun u => u.monitor p) (fun _ _ _ => rfl) s).trans rfl

/-- The engines run on in their states. -/
theorem State.elapsed_state (s : State) (g : Spare) : (s.elapsed.engine g).state = (s.engine g).state := by
  have hkeeps := State.elapsed_keeps (fun u => (u.engine g).state) (fun u i n => by
    by_cases hi : i = g
    · subst hi
      rw [State.setEngine_engine_same]
    · rw [State.setEngine_engine_other _ _ hi]) s
  refine hkeeps.trans ?_
  rw [State.tickTimers_engine]
  rfl

theorem State.exec_edge (hs : s.inReset = false) (frames : Vector Frame 10) :
    exec (.frameReferenceEdge frames) s = .next (s.elapsed.beginFrames frames).finish := by
  have hexec : exec (.frameReferenceEdge frames) s = .next (s.inService fun s => s.referenceEdge frames) := rfl
  rw [hexec, State.inService_out hs]
  rfl

theorem State.edge_lineOut (u : State) (frames : Vector Frame 10) (p : Port) :
    tabGet (u.beginFrames frames).finish.lineOut p = u.lineAtEdge frames p := by
  rw [State.finish_lineOut]
  simp [State.beginFrames]

theorem State.edge_sendMode (u : State) (frames : Vector Frame 10) (g : Spare) :
    tabGet (u.beginFrames frames).finish.sendModes g = u.modeAtEdge g := by
  rw [State.finish_sendModes]
  simp [State.beginFrames]

theorem State.lineAtEdge_work (u : State) (frames : Vector Frame 10) (k : Circuit) :
    u.lineAtEdge frames (workPort k) = some (.frame (tabGet frames k)) := by
  unfold State.lineAtEdge
  rw [portUse_workPort]

theorem State.lineAtEdge_spare (u : State) (frames : Vector Frame 10) (g : Spare) :
    u.lineAtEdge frames (sparePort g)
      = if u.modeAtEdge g = .reference then some (.frame (u.spareFrame g frames)) else tabGet u.lineOut (sparePort g) := by
  unfold State.lineAtEdge
  rw [portUse_sparePort]

/-- A loop is entered at an edge unless a frame is placed, and a running one goes on. -/
theorem State.modeAtEdge_of_loop (h : u.loopOn g = true) :
    u.modeAtEdge g = if tabGet u.sendModes g = .looping ∨ (u.monitor (sparePort g)).isAligned = false
      then .looping else .ones := by
  unfold State.modeAtEdge
  rw [h]
  cases tabGet u.sendModes g <;> cases (u.monitor (sparePort g)).isAligned <;> simp

/-- Without a loop the edge begins a frame, but while a loop waits for the end of a received one. -/
theorem State.modeAtEdge_of_no_loop (h : u.loopOn g = false) :
    u.modeAtEdge g = if tabGet u.sendModes g = .looping ∧ (u.monitor (sparePort g)).isAligned = true
      then .looping else .reference := by
  unfold State.modeAtEdge
  rw [h]
  cases tabGet u.sendModes g <;> cases (u.monitor (sparePort g)).isAligned <;> simp

/-- An engine that bridges serves no loop. -/
theorem State.loopOn_of_bridge (h : u.bridge g = some k) : u.loopOn g = false := by
  refine Bool.eq_false_iff.mpr fun hl => ?_
  have hlooped := State.loopOn_iff.mp hl
  rcases State.bridge_eq_some.mp h with e | e | e <;> rw [hlooped] at e <;> cases e

/-- A bridge sends the circuit's frame but for the maintenance word and the check. -/
theorem State.spareFrame_of_bridge (h : u.bridge g = some k) :
    u.spareFrame g frames = replaceWord (tabGet frames k) ((u.ownWord g).getD 0) := by
  unfold State.spareFrame
  rw [h]

/-! ## The received stream -/

/-- Bits that a looping spare port sends on. -/
theorem State.sends_of_bits (hl : l ≠ []) (h : t.wires = (s.carryBits (sparePort g) l).wires) :
    tabGet t.lineOut (sparePort g)
      = (if tabGet s.sendModes g = .looping then some (.bits l) else tabGet s.lineOut (sparePort g))
      ∧ t.sendModes = s.sendModes := by
  rw [State.carryBits_eq hl] at h
  exact ⟨State.lineOut_carried h, State.sendModes_carried h⟩

theorem State.sends_of_start (hl : l ≠ []) (h : t.wires = (s.carryStart (sparePort g) l).wires) :
    tabGet t.lineOut (sparePort g)
      = (if tabGet s.sendModes g = .looping then some (.bits l) else tabGet s.lineOut (sparePort g))
      ∧ t.sendModes = s.sendModes := by
  rw [State.carryStart_eq hl] at h
  exact ⟨State.lineOut_carried h, State.sendModes_carried h⟩

/-- A byte that a monitor in CHECKING takes: what has come is sent on, and a third confirmation ends the run of unplaced bits. -/
theorem State.exec_checking_sends {n : Nat} {b : Byte} {bs : List Byte} (hs : s.inReset = false)
    (hm : (s.monitor (sparePort g)).state = .checking n) (hne : bs ≠ []) :
    let c := b = 0xD3 ∧ (s.monitor (sparePort g)).confirm = 2
    ∃ t, exec (.checkingAlignmentWord (sparePort g) b bs) s = .next t
      ∧ tabGet t.lineOut (sparePort g) = (if tabGet s.sendModes g = .looping
          then some (.bits (onTheWire (if c then bs else bs ++ [b]))) else tabGet s.lineOut (sparePort g))
      ∧ tabGet t.sendModes g
          = if c then switchedMode (tabGet s.sendModes g) (t.loopOn g) else tabGet s.sendModes g := by
  dsimp only
  by_cases hc : b = 0xD3 ∧ (s.monitor (sparePort g)).confirm = 2
  · rw [if_pos hc]
    obtain ⟨hline, hmodes⟩ := State.sends_of_bits (onTheWire_ne_nil hne) (s.wires_confirmed (sparePort g) n bs)
    refine ⟨_, State.exec_confirming hs hm hc.1 hc.2, ?_, ?_⟩
    · rw [← hline]
      exact congrArg (tabGet · (sparePort g)) ((s.confirmed (sparePort g) n bs).frameEnd_lineOut (sparePort g))
    · rw [if_pos hc, ← hmodes]
      refine ((s.confirmed (sparePort g) n bs).frameEnd_sendMode g).trans ?_
      rw [← State.frameEnd_loopOn _ (sparePort g)]
      rfl
  · rw [if_neg hc]
    obtain ⟨t, ht, hw⟩ := State.exec_checking hs hm hc
    obtain ⟨hline, hmodes⟩ := State.sends_of_bits (onTheWire_ne_nil (by simp)) hw
    exact ⟨t, ht, hline, by rw [if_neg hc, hmodes]⟩

end LinePorts

/-- Settles O43: the frames of an edge, and what each command of the received stream has a looping port send on. -/
theorem linePortsSend : Obligations.LinePortsSend := by
  refine ⟨fun s frames hs => ⟨_, State.exec_edge hs frames, fun k => ?_, fun g k hbridge hmode => ?_, fun g => ?_⟩,
    fun s g f n hs hm hok => ⟨_, State.exec_frameJudged hs hm hok, ?_, ?_⟩, fun s g d e l b hs => ?_⟩
  · rw [State.edge_lineOut, State.lineAtEdge_work]
  · have hbridge' : s.elapsed.bridge g = some k := by
      unfold State.bridge at hbridge ⊢
      rwa [s.elapsed_state g]
    have hmodes : s.elapsed.sendModes = s.sendModes := State.sendModes_of_wires s.elapsed_wires
    refine ⟨replaceWord (tabGet frames k) ((s.elapsed.ownWord g).getD 0), ?_, fun i hi => replaceWord_other _ _ hi⟩
    have hreference : s.elapsed.modeAtEdge g = .reference := by
      rw [State.modeAtEdge_of_no_loop (State.loopOn_of_bridge hbridge'), hmodes, if_neg fun h => hmode h.1]
    rw [State.edge_lineOut, State.lineAtEdge_spare, if_pos hreference, State.spareFrame_of_bridge hbridge']
  · dsimp only
    have hloop : s.elapsed.loopOn g = s.loopOn g := by
      unfold State.loopOn
      rw [s.elapsed_state g]
    have hmodes : s.elapsed.sendModes = s.sendModes := State.sendModes_of_wires s.elapsed_wires
    have hlines : s.elapsed.lineOut = s.lineOut := State.lineOut_of_wires s.elapsed_wires
    rw [State.edge_sendMode, State.edge_lineOut, State.lineAtEdge_spare, hlines]
    refine ⟨fun hl => ?_, fun hl => ?_, fun hne => if_neg hne⟩
    · rw [State.modeAtEdge_of_loop (hloop.trans hl), hmodes, s.elapsed_monitor]
    · rw [State.modeAtEdge_of_no_loop (hloop.trans hl), hmodes, s.elapsed_monitor]
  · rw [State.frameEnd_lineOut]
    exact State.lineOut_carried (s.judgedFrame_wires (sparePort g) n f)
  · rw [State.frameEnd_sendMode, State.frameEnd_loopOn, State.sendModes_carried (s.judgedFrame_wires (sparePort g) n f)]
  · refine ⟨fun hm hne => ?_, fun n hm hne => State.exec_checking_sends hs hm hne, fun n hm hmiss hb => ?_,
      fun hm hne => ?_, fun n hm hne => ?_⟩
    · obtain ⟨t, ht, hw⟩ := State.exec_huntingMatch (d := d) (e := e) hs hm
      exact ⟨t, ht, State.sends_of_bits hne hw⟩
    · obtain ⟨t, ht, hw⟩ := State.exec_alignmentLost hs hm hmiss hb
      exact ⟨t, ht, State.sends_of_bits (onTheWire_ne_nil (by simp)) hw⟩
    · obtain ⟨t, ht, hw⟩ := State.exec_signalLost (d := d) hs hm
      exact ⟨t, ht, State.sends_of_bits hne hw⟩
    · obtain ⟨t, ht, hw⟩ := State.exec_signalLost_aligned (d := d) hs hm
      exact ⟨t, ht, State.sends_of_start hne hw⟩

end Sys2Proof.Machine
end

section
/-! Proofs: O36, the delivery of a word that a qualifier has settled on. -/

namespace Sys2Proof.Machine

section Words

variable {w c : Half}

/-! ## The fields of a word -/

theorem wordKind_eq (w : Half) : wordKind w = w.toNat / 4096 := by
  have hw := w.isLt
  unfold wordKind
  rw [BitVec.extractLsb'_toNat, Nat.shiftRight_eq_div_pow]
  omega

theorem wordCircuit_eq (w : Half) : wordCircuit w = w.toNat / 256 % 16 := by
  unfold wordCircuit
  rw [BitVec.extractLsb'_toNat, Nat.shiftRight_eq_div_pow]

theorem wordClass_eq (w : Half) : wordClass w = w.toNat / 32 % 8 := by
  unfold wordClass
  rw [BitVec.extractLsb'_toNat, Nat.shiftRight_eq_div_pow]

theorem wordDetail_eq (w : Half) : wordDetail w = w.toNat / 4 % 8 := by
  unfold wordDetail
  rw [BitVec.extractLsb'_toNat, Nat.shiftRight_eq_div_pow]

theorem namedCircuit_eq_none (w : Half) : namedCircuit w = none ↔ 9 < wordCircuit w := by
  unfold namedCircuit
  split
  · simp
    omega
  · simp
    omega

/-- A word says nothing exactly in the five cases of R71. -/
theorem spanWord_eq_none (w : Half) : spanWord w = none ↔ InvalidWord w := by
  have hnamed := namedCircuit_eq_none w
  have hlt : wordKind w < 16 := (w.extractLsb' 12 4).isLt
  unfold InvalidWord
  dsimp only
  rw [← wordKind_eq, ← wordCircuit_eq, ← wordClass_eq, ← wordDetail_eq]
  unfold spanWord
  split
  · next h => simp [h]
  · next h =>
    cases hc : namedCircuit w with
    | none => simp [h, hnamed.mp hc]
    | some k =>
      have hle : ¬ 9 < wordCircuit w := fun hx => by rw [hnamed.mpr hx] at hc; cases hc
      have hclass : ¬ (1 ≤ wordClass w ∧ wordClass w ≤ 4) ↔ 4 < wordClass w ∨ wordClass w = 0 := by omega
      simpa [h, hle] using hclass
  · next h =>
    cases hc : namedCircuit w with
    | none => simp [h, hnamed.mp hc]
    | some k =>
      have hle : ¬ 9 < wordCircuit w := fun hx => by rw [hnamed.mpr hx] at hc; cases hc
      simp [h, hle]
  · next h => simp [h, hnamed]
  · next h => simp [h, hnamed]
  · next h => simp [h]
  · next h => simp [h]
  · next h => simp [h]
  · next h1 h2 h3 h4 h5 h6 h7 h8 =>
    rw [eq_self_iff_true, true_iff]
    have hkind : wordKind w = 0 ∨ 9 ≤ wordKind w := by
      simp only [imp_false] at h1 h2 h3 h4 h5 h6 h7 h8
      omega
    exact hkind.imp_right .inl

/-- The origin bit names end B. -/
theorem wordOrigin_eq_iff (w : Half) (r : Role) : wordOrigin w = r ↔ w.getLsbD 1 = (r == .endB) := by
  unfold wordOrigin
  cases w.getLsbD 1 <;> cases r <;> decide

end Words

section Deliveries

variable {s a u x y : State} {t : Turn} {g : Spare} {n : Nat} {w c : Half} {f : Frame} {e : Event} {far : Option Half}

/-! ## The qualifier -/

/-- A good word that settles its qualifier: what was the current far word is delivered no more. -/
theorem State.qualifyGood_known (hodd : onesOf w % 2 = 1) (hcand : (s.qualifier g).candidate = some c)
    (hsame : sameWord c w = true) (hset : (s.qualifier g).settled = false)
    (hrun : s.regs.qCount.toNat ≤ min ((s.qualifier g).run + 1) 15) :
    let u := s.setQualifier g ((s.qualifier g).settledOn c)
    ((∃ v, (s.qualifier g).far = some v ∧ sameWord c v = true) → s.turn.qualifyGood g w = u.turn)
      ∧ ((∀ v, (s.qualifier g).far = some v → sameWord c v = false) → s.turn.qualifyGood g w = u.turn.deliver g c) := by
  have hreceived : (s.qualifier g).received w
      = { s.qualifier g with run := min ((s.qualifier g).run + 1) Config.runCap } := by
    unfold Qualifier.received
    rw [hcand]
    dsimp only
    rw [if_pos hsame, ← hcand]
  have hsettles : ((s.qualifier g).received w).settles s.regs.qCount = true := by
    unfold Qualifier.settles
    rw [hreceived]
    simpa [hset, Config.runCap] using hrun
  have hsettled : ({ (s.qualifier g).received w with settled := true } : Qualifier) = (s.qualifier g).settledOn c := by
    rw [hreceived]
    unfold Qualifier.settledOn
    rw [← hcand]
  have hqualify : s.turn.qualifyGood g w = match ((s.qualifier g).received w).delivers with
      | some v => (s.setQualifier g ((s.qualifier g).settledOn c)).turn.deliver g v
      | none => (s.setQualifier g ((s.qualifier g).settledOn c)).turn := by
    unfold Turn.qualifyGood
    rw [oddOnes_eq, decide_eq_true hodd]
    dsimp only [Bool.not_true]
    rw [if_neg (by simp), State.turn_st, if_pos hsettles, hsettled]
    rfl
  have hdelivers : ((s.qualifier g).received w).delivers = match (s.qualifier g).far with
      | some v => if sameWord c v then none else some c
      | none => some c := by
    rw [hreceived]
    unfold Qualifier.delivers
    dsimp only
    rw [hcand]
    cases (s.qualifier g).far <;> rfl
  rw [hqualify, hdelivers]
  refine ⟨fun ⟨v, hv, hcv⟩ => ?_, fun hnew => ?_⟩
  · rw [hv]
    dsimp only
    rw [if_pos hcv]
  · cases hv : (s.qualifier g).far with
    | none => rfl
    | some v =>
      dsimp only
      rw [hnew v hv, if_neg (by simp)]

/-! ## The judged frame -/

/-- The state in which a good frame's word reaches the qualifier. -/
def State.arrived (s : State) (g : Spare) (n : Nat) (f : Frame) : State :=
  (s.setMonitor (sparePort g) ((s.monitor (sparePort g)).judged n f)).carryFrame (sparePort g) f

theorem State.exec_arrived (hs : s.inReset = false) (hm : (s.monitor (sparePort g)).state = .aligned n)
    (h0 : tabGet f 0 = 0xD3) (h3 : tabGet f 3 = frameCrc f) :
    exec (.frameJudged (sparePort g) f) s = .next ((((s.arrived g n f).turn.qualifyGood g (frameWord f)).settle
      (s.arrived g n f)).frameEnd (sparePort g)) := by
  have hgood : frameGood f = true := by
    unfold frameGood alignmentCorrect checkCorrect
    rw [Bool.and_eq_true_iff, beq_iff_eq, beq_iff_eq]
    exact ⟨h0, h3⟩
  rw [State.exec_frameJudged hs hm fun h => h.2 h0]
  unfold State.judgedFrame
  dsimp only
  rw [portUse_sparePort]
  dsimp only
  unfold State.judgedOnSpare
  rw [if_pos hgood]
  rfl

theorem State.frameEnd_alike (x : State) (p : Port) : x.Alike (x.frameEnd p) :=
  (x.alike_frameBoundary p).trans (State.alike_finish_self _)

theorem State.frameEnd_events (x : State) (p : Port) : (x.frameEnd p).events = x.events :=
  (State.finish_events _).trans (State.frameBoundary_keeps State.events (fun _ _ => rfl) (fun _ _ => rfl) x p)

/-! ## The delivery of a word -/

theorem State.reported_of_outer (h : x.outer = y.outer) : x.reported = y.reported := by
  have e : x.outer.reported = y.outer.reported := by rw [h]
  exact e

/-- The events since state s begin with e. -/
def State.Begins (s : State) (e : Event) (x : State) : Prop := ∃ l, x.reported = (s.postAll (e :: l)).reported

theorem State.Begins.post (h : s.Begins e x) (e' : Event) : s.Begins e (x.post e') := by
  obtain ⟨l, hl⟩ := h
  refine ⟨l ++ [e'], ?_⟩
  rw [← List.cons_append, State.postAll_append]
  exact State.reported_congr hl [e']

/-- The turn after an event of its own, all else being moves, ends in events that begin with it. -/
theorem State.Begins.settle (h : t.st.outer = ((u.post e).setFar g far).outer) (hu : u.reported = s.reported) (b : State) :
    s.Begins e (t.settle b) := by
  refine (Turn.settle_posts (s.Begins e) (fun x y hxy hx => ?_) (fun x e' hx => hx.post e') t b ⟨[], ?_⟩).1
  · obtain ⟨l, hl⟩ := hx
    exact ⟨l, (State.reported_of_still hxy).symm.trans hl⟩
  · refine (State.reported_of_outer h).trans ?_
    exact State.reported_congr hu [e]

theorem Turn.outer_changeFar (t : Turn) (g : Spare) (far : Option Half) :
    (t.changeFar g far id).st.outer = (t.st.setFar g far).outer := by
  rw [Turn.changeFar_eq]
  exact (Turn.foldl_keeps (fun t => t.st.outer) _ (fun _ _ => State.outer_of_still (Turn.still_reactLater ..)) _ _).trans
    (Turn.outer_refreshed ..)

/-- An invalid word is reported, and the current far word is NONE. -/
theorem State.deliver_invalid (hw : spanWord w = none) :
    (u.turn.deliver g w).st.outer = ((u.post (wordEvent .invalidWord g w)).setFar g none).outer := by
  unfold Turn.deliver
  rw [hw]
  exact Turn.outer_changeFar (u.turn.change fun s => s.post (wordEvent .invalidWord g w)) g none

/-- An echo that confirms no loop is reported, and the current far word is NONE. -/
theorem State.deliver_echo (hw : spanWord w ≠ none) (ho : wordOrigin w = u.role)
    (hc : ¬ (spanWord w = some .loop ∧ ∃ d, (u.engine g).state = .testing (.ask d))) :
    (u.turn.deliver g w).st.outer = ((u.post (wordEvent .echo g w)).setFar g none).outer := by
  obtain ⟨said, hsaid⟩ := Option.ne_none_iff_exists'.mp hw
  unfold Turn.deliver
  rw [hsaid]
  dsimp only
  rw [State.turn_st, if_pos ho]
  split
  · next d hask =>
    have hstate : (u.engine g).state = .testing (.ask d) := by
      unfold EngineState.asking at hask
      split at hask
      · next d' he => exact he.trans (by rw [Option.some.inj hask])
      · cases hask
    exact absurd ⟨hsaid, d, hstate⟩ hc
  · exact Turn.outer_changeFar (u.turn.change fun s => s.post (wordEvent .echo g w)) g none

/-- The own LOOP word back confirms the far end's loop. -/
theorem State.deliver_loop {d : Byte} (hw : spanWord w = some .loop) (ho : wordOrigin w = u.role)
    (hd : (u.engine g).state = .testing (.ask d)) :
    u.turn.deliver g w = u.turn.changeFar g none fun t => t.confirmLoop g d := by
  unfold Turn.deliver
  rw [hw]
  dsimp only
  rw [State.turn_st, if_pos ho, hd]
  rfl

/-- A word of the other role is taken. -/
theorem State.deliver_taken (hw : spanWord w ≠ none) (ho : wordOrigin w ≠ u.role) :
    (u.turn.deliver g w).st.outer = ((u.post (wordEvent .farWord g w)).setFar g (some w)).outer := by
  obtain ⟨said, hsaid⟩ := Option.ne_none_iff_exists'.mp hw
  unfold Turn.deliver
  rw [hsaid]
  dsimp only
  rw [State.turn_st, if_neg ho]
  exact State.outer_take ..

/-! ## What a delivery leaves -/

theorem State.settled_far (h : t.st.qualifiers = (u.setFar g far).qualifiers) (b : State) :
    (((t.settle b).frameEnd (sparePort g)).qualifier g).far = far := by
  have hq : ((t.settle b).frameEnd (sparePort g)).qualifiers = (u.setFar g far).qualifiers :=
    ((t.settle b).frameEnd_alike (sparePort g)).qualifiers.trans
      ((State.qualifiers_of_sources (State.sources_of_ground (Turn.ground_settle ..))).trans h)
  have hset : ((u.setFar g far).qualifier g).far = far := congrArg Qualifier.far (State.setQualifier_qualifier_same ..)
  rw [← hset]
  unfold State.qualifier
  rw [hq]

/-- A delivery that reports its word: the far word it leaves, and the first event. -/
theorem State.reported_delivery (h : t.st.outer = ((u.post e).setFar g far).outer) (hu : u.reported = s.reported)
    (b : State) :
    (((t.settle b).frameEnd (sparePort g)).qualifier g).far = far
      ∧ ∃ l, ((t.settle b).frameEnd (sparePort g)).events = (s.postAll (e :: l)).events := by
  refine ⟨State.settled_far (State.qualifiers_of_outer h) b, ?_⟩
  obtain ⟨l, hl⟩ := State.Begins.settle h hu b
  exact ⟨l, (State.frameEnd_events ..).trans (State.events_of_reported hl)⟩

/-- A qualifier that settles on the current far word changes nothing else. -/
theorem State.known_settle (a : State) (g : Spare) (c : Half) :
    let u := a.setQualifier g ((a.qualifier g).settledOn c)
    u.turn.settle a = u := by
  dsimp only
  set u := a.setQualifier g ((a.qualifier g).settledOn c) with hu
  have hfar : ∀ i, (u.qualifier i).far = (a.qualifier i).far := fun i => by
    by_cases hi : g = i
    · subst hi
      rw [hu, State.setQualifier_qualifier_same]
      rfl
    · rw [hu, State.setQualifier_qualifier_other _ _ hi]
  have hzero : ∀ i, u.heldAtZero i = a.heldAtZero i := fun i => by
    have hclass : ∀ k, u.effClass k = a.effClass k := State.effClass_of_far rfl hfar
    unfold State.heldAtZero State.holdingClaim
    rw [show u.engine i = a.engine i from rfl]
    cases (a.engine i).state <;> simp [hclass]
  exact Turn.settle_of_unasked (t := u.turn) (b := a) rfl hfar
    ⟨fun _ h => h, fun i h => by rwa [State.turn_st, hzero i] at h⟩ rfl

theorem spareEvent_running (hs : (x.engine g).state = .testing .run) :
    spareEvent x g = { kind := .spare, subject := byte (10 + g.val), detail1 := 6, detail2 := 0xF1 } := by
  unfold spareEvent
  rw [hs]
  rfl

/-- The confirmation of a loop, nothing waiting and no claim standing: phase RUN, and its report. -/
theorem State.loop_settle {d : Byte} (hq : u.queue = []) (hf : u.farClaim g = none) (b : State) :
    (u.turn.changeFar g none fun t => t.confirmLoop g d).settle b
      = ((u.setFar g none).turn.confirmLoop g d).st.post
          { kind := .spare, subject := byte (10 + g.val), detail1 := 6, detail2 := 0xF1 } := by
  have hchange : (u.turn.changeFar g none fun t => t.confirmLoop g d) = (u.setFar g none).turn.confirmLoop g d := by
    unfold Turn.changeFar
    dsimp only
    rw [State.turn_st, hf]
    rfl
  rw [hchange]
  set v := (u.setFar g none).turn.confirmLoop g d with hv
  have hstate : (v.st.engine g).state = .testing .run := by
    rw [hv]
    unfold Turn.confirmLoop
    rw [Turn.enterEngine_engine]
  have hposts : v.ordered = [{ kind := .spare, subject := byte (10 + g.val), detail1 := 6, detail2 := 0xF1 }] := by
    unfold Turn.ordered
    rw [show v.posts = [(Slot.spares g, spareEvent v.st g)] from rfl, spareEvent_running hstate]
    rcases spare_zero_or_one g with rfl | rfl
    · rfl
    · rfl
  rw [Turn.settle_of_empty (t := v) hq, hposts]
  rfl

/-- What the confirmation leaves of the engine, and its only event. -/
theorem State.loopConfirmed {d : Byte} (hq : u.queue = []) (hf : u.farClaim g = none) (hu : u.reported = s.reported)
    (b : State) :
    let t := ((u.turn.changeFar g none fun t => t.confirmLoop g d).settle b).frameEnd (sparePort g)
    t.engine g = { u.engine g with state := .testing .run, answerTimer := none, testTimer := some (d.toNat * 8000) }
      ∧ t.events = (s.post { kind := .spare, subject := byte (10 + g.val), detail1 := 6, detail2 := 0xF1 }).events := by
  dsimp only
  rw [State.loop_settle hq hf]
  set v := (u.setFar g none).turn.confirmLoop g d with hv
  refine ⟨?_, ?_⟩
  · rw [State.frameEnd_engine, State.post_engine, hv]
    unfold Turn.confirmLoop
    rw [Turn.enterEngine_engine]
    rfl
  · rw [State.frameEnd_events]
    exact State.events_of_reported (State.reported_congr (x := v.st) (y := s) hu
      [{ kind := .spare, subject := byte (10 + g.val), detail1 := 6, detail2 := 0xF1 }])

theorem Turn.confirmLoop_qualifiers (t : Turn) (g : Spare) (d : Byte) :
    (t.changeFar g none fun t => t.confirmLoop g d).st.qualifiers = (t.st.setFar g none).qualifiers := by
  obtain ⟨_, hqual, _⟩ := t.refreshed_keeps g none
  rw [Turn.changeFar_eq, State.qualifiers_of_sources (Turn.sources_reacted ..)]
  exact hqual

theorem wordEvent_eq (kind : EventKind) (g : Spare) (w : Half) :
    wordEvent kind g w = { kind := kind, subject := byte (10 + g.val), detail1 := BitVec.ofNat 8 (w.toNat / 256),
                           detail2 := BitVec.ofNat 8 w.toNat } := by
  unfold wordEvent
  rw [upperByte_eq, lowerByte_eq]
  rfl

end Deliveries

/-- Settles O36: the settled candidate is delivered unless it is the current far word, and each kind of delivery is one of
four. -/
theorem deliveriesSetTheFarWord : Obligations.DeliveriesSetTheFarWord := by
  intro s g f n c hs hm h0 h3 hodd hcand hsame hset hrun
  refine ⟨_, State.exec_arrived hs hm h0 h3, ?_⟩
  have hknown := State.qualifyGood_known (s := s.arrived g n f) (g := g) (w := frameWord f) hodd hcand hsame hset hrun
  dsimp only at hknown
  obtain ⟨hold, hnew⟩ := hknown
  have hu : ((s.arrived g n f).setQualifier g (((s.arrived g n f).qualifier g).settledOn c)).reported = s.reported := rfl
  have hengine : ((s.arrived g n f).setQualifier g (((s.arrived g n f).qualifier g).settledOn c)).engine g = s.engine g := rfl
  have hrole : ((s.arrived g n f).setQualifier g (((s.arrived g n f).qualifier g).settledOn c)).role = s.role := rfl
  have hqueue : ((s.arrived g n f).setQualifier g (((s.arrived g n f).qualifier g).settledOn c)).queue = s.queue := rfl
  refine ⟨fun h => ?_, fun h => ?_⟩
  · rw [hold h, State.known_settle]
    have halike := State.frameEnd_alike
      ((s.arrived g n f).setQualifier g (((s.arrived g n f).qualifier g).settledOn c)) (sparePort g)
    refine ⟨?_, State.frameEnd_events .., halike.records⟩
    have hqual := (congrArg (tabGet · g) halike.qualifiers).trans (State.setQualifier_qualifier_same (s.arrived g n f) g
      (((s.arrived g n f).qualifier g).settledOn c))
    exact (congrArg Qualifier.far hqual).trans rfl
  · have hfarClaim : ((s.arrived g n f).setQualifier g (((s.arrived g n f).qualifier g).settledOn c)).farClaim g
        = s.farClaim g := by
      unfold State.farClaim
      rw [State.setQualifier_qualifier_same]
      rfl
    rw [hnew h]
    generalize (s.arrived g n f).setQualifier g (((s.arrived g n f).qualifier g).settledOn c) = u at *
    dsimp only
    simp only [← wordEvent_eq]
    have hecho : c.getLsbD 1 = (s.role == .endB) ↔ wordOrigin c = u.role := by rw [wordOrigin_eq_iff, hrole]
    have hvalid : ¬ InvalidWord c → spanWord c ≠ none := fun hi hn => hi ((spanWord_eq_none c).mp hn)
    refine ⟨fun hi => ?_, fun hi ho hc => ?_, fun hi ho hc => ⟨?_, fun hq hf d hd => ?_⟩, fun hi ho => ?_⟩
    · exact State.reported_delivery (State.deliver_invalid ((spanWord_eq_none c).mpr hi)) hu _
    · exact State.reported_delivery (State.deliver_echo (hvalid hi) (hecho.mp ho) (by rwa [hengine])) hu _
    · obtain ⟨hloop, d, hd⟩ := hc
      rw [State.deliver_loop hloop (hecho.mp ho) (hengine ▸ hd)]
      exact State.settled_far (Turn.confirmLoop_qualifiers ..) _
    · rw [State.deliver_loop hc.1 (hecho.mp ho) (hengine ▸ hd), ← hengine]
      exact State.loopConfirmed (hqueue.trans hq) (hfarClaim.trans hf) hu _
    · exact State.reported_delivery (State.deliver_taken (hvalid hi) fun e => ho (hecho.mpr e)) hu _

end Sys2Proof.Machine
end

section
/-! Proofs: O51, a word is read by its fields.

What a valid word says stands in the field of its kind and in the fields that this kind uses (SpanWord.ReadIn), and the bits in
which two words are compared are those of these fields and of the origin (comparedBits_of_readIn). -/

namespace Sys2Proof.Machine

/-! ## Fields as bits of a word -/

/-- The bits of a field of the given length, from the given bit up. -/
def fieldBits (start len : Nat) : Half := (BitVec.allOnes len).setWidth 16 <<< start

theorem fieldBits_getLsbD {start len : Nat} (h : start + len ≤ 16) (i : Nat) :
    (fieldBits start len).getLsbD i = decide (start ≤ i ∧ i < start + len) := by
  unfold fieldBits
  rw [BitVec.getLsbD_shiftLeft, BitVec.getLsbD_setWidth, BitVec.getLsbD_allOnes, Bool.eq_iff_iff]
  simp only [Bool.and_eq_true, Bool.not_eq_true', decide_eq_true_eq, decide_eq_false_iff_not]
  omega

section Fields

variable {v w a b : Half} {x : SpanWord}

/-- Two words with the same field agree in its bits. -/
theorem masked_of_field {start len : Nat} (h : start + len ≤ 16)
    (e : (v.extractLsb' start len).toNat = (w.extractLsb' start len).toNat) :
    v &&& fieldBits start len = w &&& fieldBits start len := by
  refine BitVec.eq_of_getLsbD_eq fun i _ => ?_
  rw [BitVec.getLsbD_and, BitVec.getLsbD_and, fieldBits_getLsbD h]
  by_cases hi : start ≤ i ∧ i < start + len
  · have ei := congrArg (BitVec.getLsbD · (i - start)) (BitVec.eq_of_toNat_eq e)
    have hlen : i - start < len := by omega
    have hsum : start + (i - start) = i := by omega
    simpa [BitVec.getLsbD_extractLsb', hlen, hsum, hi] using ei
  · simp [hi]

/-- Two words with the same origin bit agree in it. -/
theorem masked_of_origin (e : v.getLsbD 1 = w.getLsbD 1) : v &&& fieldBits 1 1 = w &&& fieldBits 1 1 := by
  refine BitVec.eq_of_getLsbD_eq fun i _ => ?_
  rw [BitVec.getLsbD_and, BitVec.getLsbD_and, fieldBits_getLsbD (by omega)]
  by_cases hi : i = 1
  · subst hi
    rw [e]
  · have hout : ¬ (1 ≤ i ∧ i < 1 + 1) := by omega
    rw [decide_eq_false hout, Bool.and_false, Bool.and_false]

/-- Two words that agree in the bits of each of two masks agree in those of both. -/
theorem masked_or (ha : v &&& a = w &&& a) (hb : v &&& b = w &&& b) : v &&& (a ||| b) = w &&& (a ||| b) := by
  rw [BitVec.and_or_distrib_left, BitVec.and_or_distrib_left, ha, hb]

/-! ## What a word says -/

/-- A word carries the kind of what is said and, in the fields this kind uses, what it names (R68, R69). -/
def SpanWord.ReadIn (x : SpanWord) (w : Half) : Prop :=
  match x with
  | .vacant => wordKind w = 1
  | .claim k c => wordKind w = 2 ∧ wordCircuit w = k.val ∧ wordClass w = c
  | .carry k c => wordKind w = 3 ∧ wordCircuit w = k.val ∧ wordClass w = c
  | .yield k => wordKind w = 4 ∧ wordCircuit w = k.val
  | .decline k => wordKind w = 5 ∧ wordCircuit w = k.val
  | .barred d => wordKind w = 6 ∧ wordDetail w = d
  | .loop => wordKind w = 7
  | .unloop => wordKind w = 8

theorem wordCircuit_of_named {k : Circuit} (h : namedCircuit w = some k) : wordCircuit w = k.val := by
  unfold namedCircuit at h
  split at h
  · exact congrArg Fin.val (Option.some.inj h)
  · cases h

/-- A valid word carries what it says. -/
theorem readIn_of_spanWord (h : spanWord w = some x) : x.ReadIn w := by
  unfold spanWord at h
  split at h
  · next hk => cases h; exact hk
  · next hk =>
    obtain ⟨k, hc, hx⟩ := Option.bind_eq_some_iff.mp h
    split at hx
    · cases hx; exact ⟨hk, wordCircuit_of_named hc, rfl⟩
    · cases hx
  · next hk =>
    obtain ⟨k, hc, hx⟩ := Option.bind_eq_some_iff.mp h
    split at hx
    · cases hx; exact ⟨hk, wordCircuit_of_named hc, rfl⟩
    · cases hx
  · next hk =>
    obtain ⟨k, hc, rfl⟩ := Option.map_eq_some_iff.mp h
    exact ⟨hk, wordCircuit_of_named hc⟩
  · next hk =>
    obtain ⟨k, hc, rfl⟩ := Option.map_eq_some_iff.mp h
    exact ⟨hk, wordCircuit_of_named hc⟩
  · next hk =>
    split at h
    · cases h; exact ⟨hk, rfl⟩
    · cases h
  · next hk => cases h; exact hk
  · next hk => cases h; exact hk
  · cases h

/-! ## The bits compared -/

/-- The bits of the fields that a kind uses besides the origin (R68, R69). -/
def SpanWord.usedBits : SpanWord → Half
  | .vacant => 0#16
  | .claim _ _ => fieldBits 8 4 ||| fieldBits 5 3
  | .carry _ _ => fieldBits 8 4 ||| fieldBits 5 3
  | .yield _ => fieldBits 8 4
  | .decline _ => fieldBits 8 4
  | .barred _ => fieldBits 2 3
  | .loop => 0#16
  | .unloop => 0#16

/-- A valid word is compared in its kind, its origin and the fields its kind uses (R68). -/
theorem comparedBits_of_readIn (h : x.ReadIn w) :
    comparedBits w = fieldBits 12 4 ||| (fieldBits 1 1 ||| x.usedBits) := by
  have kind_alone : (0xF002 : Half) = fieldBits 12 4 ||| (fieldBits 1 1 ||| 0#16) := by decide
  have with_circuit : (0xFF02 : Half) = fieldBits 12 4 ||| (fieldBits 1 1 ||| fieldBits 8 4) := by decide
  have with_class : (0xFFE2 : Half) = fieldBits 12 4 ||| (fieldBits 1 1 ||| (fieldBits 8 4 ||| fieldBits 5 3)) := by decide
  have with_detail : (0xF01E : Half) = fieldBits 12 4 ||| (fieldBits 1 1 ||| fieldBits 2 3) := by decide
  unfold comparedBits
  cases x with
  | vacant => rw [show wordKind w = 1 from h]; exact kind_alone
  | claim k c => rw [h.1]; exact with_class
  | carry k c => rw [h.1]; exact with_class
  | yield k => rw [h.1]; exact with_circuit
  | decline k => rw [h.1]; exact with_circuit
  | barred d => rw [h.1]; exact with_detail
  | loop => rw [show wordKind w = 7 from h]; exact kind_alone
  | unloop => rw [show wordKind w = 8 from h]; exact kind_alone

/-- Two words that say the same are of one kind and agree in the fields it uses. -/
theorem agree_of_readIn (hv : x.ReadIn v) (hw : x.ReadIn w) :
    wordKind v = wordKind w ∧ v &&& x.usedBits = w &&& x.usedBits := by
  have none_used : v &&& 0#16 = w &&& 0#16 := by rw [BitVec.and_zero, BitVec.and_zero]
  have circuit (e : wordCircuit v = wordCircuit w) : v &&& fieldBits 8 4 = w &&& fieldBits 8 4 :=
    masked_of_field (by omega) e
  have klass (e : wordClass v = wordClass w) : v &&& fieldBits 5 3 = w &&& fieldBits 5 3 := masked_of_field (by omega) e
  cases x with
  | vacant => exact ⟨Eq.trans hv (Eq.symm hw), none_used⟩
  | claim k c =>
    obtain ⟨hk, hc, hd⟩ := hv
    obtain ⟨hk', hc', hd'⟩ := hw
    exact ⟨hk.trans hk'.symm, masked_or (circuit (hc.trans hc'.symm)) (klass (hd.trans hd'.symm))⟩
  | carry k c =>
    obtain ⟨hk, hc, hd⟩ := hv
    obtain ⟨hk', hc', hd'⟩ := hw
    exact ⟨hk.trans hk'.symm, masked_or (circuit (hc.trans hc'.symm)) (klass (hd.trans hd'.symm))⟩
  | yield k => exact ⟨hv.1.trans hw.1.symm, circuit (hv.2.trans hw.2.symm)⟩
  | decline k => exact ⟨hv.1.trans hw.1.symm, circuit (hv.2.trans hw.2.symm)⟩
  | barred d => exact ⟨hv.1.trans hw.1.symm, masked_of_field (by omega) (hv.2.trans hw.2.symm)⟩
  | loop => exact ⟨Eq.trans hv (Eq.symm hw), none_used⟩
  | unloop => exact ⟨Eq.trans hv (Eq.symm hw), none_used⟩

/-- Words that say the same and have one origin are the same. -/
theorem sameWord_of_readIn (hv : x.ReadIn v) (hw : x.ReadIn w) (ho : v.getLsbD 1 = w.getLsbD 1) : sameWord v w = true := by
  obtain ⟨hkind, hused⟩ := agree_of_readIn hv hw
  unfold sameWord
  rw [beq_iff_eq, comparedBits_of_readIn hv, comparedBits_of_readIn hw]
  exact masked_or (masked_of_field (by omega) hkind) (masked_or (masked_of_origin ho) hused)

/-- Words that are the same have one origin (R68). -/
theorem sameWord_origin (h : sameWord v w = true) : v.getLsbD 1 = w.getLsbD 1 := by
  have origin : ∀ u : Half, (comparedBits u).getLsbD 1 = true := fun u => by
    unfold comparedBits
    split <;> decide
  have e := congrArg (BitVec.getLsbD · 1) (beq_iff_eq.mp h)
  simpa only [BitVec.getLsbD_and, origin, Bool.and_true] using e

end Fields

/-- Settles O51: a word says nothing exactly in the five cases, and valid words that are the same are those that say the same with
one origin. -/
theorem wordsAreReadByTheirFields : Obligations.WordsAreReadByTheirFields := by
  refine ⟨spanWord_eq_none, fun v w hv _ => ⟨fun h => ⟨sameWord_spanWord h, sameWord_origin h⟩, fun ⟨hsay, ho⟩ => ?_⟩⟩
  obtain ⟨x, hx⟩ := Option.ne_none_iff_exists'.mp hv
  exact sameWord_of_readIn (readIn_of_spanWord hx) (readIn_of_spanWord (hsay ▸ hx)) ho

end Sys2Proof.Machine
end

section
/-! Proofs: O57, what stays of the far words and of RESET.

State.hearing is what the far words' legality reads of a state.  Almost every move leaves it; what a delivery, DOWN of a spare's
port or RESTART makes of it is State.Heeds: RESET and the role stand, and a far word that stands afterwards stood before or is a
valid word of the other role. -/

namespace Sys2Proof.Machine

/-! ## What is read -/

/-- The RESET pin, the role and the current far words. -/
def State.hearing (s : State) : Bool × Role × (Spare → Option Half) := (s.inReset, s.role, fun g => (s.qualifier g).far)

/-- State t comes of state s with RESET and the role as they are, each of its far words one of s or a valid word of the other
role (R71 to R73). -/
structure State.Heeds (s t : State) : Prop where
  inReset : t.inReset = s.inReset
  role : t.role = s.role
  far : ∀ g, ∀ w ∈ (t.qualifier g).far,
    w ∈ (s.qualifier g).far ∨ ((spanWord w).isSome = true ∧ wordOrigin w ≠ s.role)

section Hearing

variable {s u x : State} {f : Option Half}

theorem State.Heeds.of_hearing (h : u.hearing = s.hearing) : s.Heeds u where
  inReset := congrArg Prod.fst h
  role := congrArg (fun l => l.2.1) h
  far := fun g _ hw => .inl ((congrFun (congrArg (fun l => l.2.2) h) g : (u.qualifier g).far = (s.qualifier g).far) ▸ hw)

theorem State.Heeds.refl (s : State) : s.Heeds s := .of_hearing rfl

theorem State.Heeds.trans (h1 : s.Heeds u) (h2 : u.Heeds x) : s.Heeds x where
  inReset := h2.inReset.trans h1.inReset
  role := h2.role.trans h1.role
  far := fun g w hw => (h2.far g w hw).elim (h1.far g w) fun ⟨hv, ho⟩ => .inr ⟨hv, h1.role ▸ ho⟩

/-- What leaves the hearing goes on heeding. -/
theorem State.Heeds.then_hearing (h : s.Heeds u) (e : x.hearing = u.hearing) : s.Heeds x := h.trans (.of_hearing e)

/-- What comes after a move that leaves the hearing. -/
theorem State.Heeds.after (e : u.hearing = s.hearing) (h : u.Heeds x) : s.Heeds x := (State.Heeds.of_hearing e).trans h

theorem State.Heeds.farWordsLegal (h : s.Heeds u) (hs : s.FarWordsLegal) : u.FarWordsLegal := fun g w hw => by
  rw [h.role]
  exact (h.far g w hw).elim (hs g w) id

theorem State.Heeds.foldl {α : Type} {f : State → α → State} (hf : ∀ (s : State) c, s.Heeds (f s c)) (l : List α) (s : State) :
    s.Heeds (l.foldl f s) := by
  induction l generalizing s with
  | nil => exact .refl s
  | cons c l ih => exact (hf s c).trans (ih (f s c))

/-! ## Moves that leave the hearing -/

theorem State.hearing_of_calm (h : u.calm = s.calm) : u.hearing = s.hearing :=
  State.same_of_calm State.hearing (fun _ => rfl) h

theorem State.hearing_of_ground (h : u.ground = s.ground) : u.hearing = s.hearing :=
  State.hearing_of_calm (State.calm_of_ground h)

theorem State.hearing_of_still (h : u.still = s.still) : u.hearing = s.hearing :=
  State.hearing_of_ground (State.ground_of_still h)

theorem State.hearing_of_outer (h : u.outer = s.outer) : u.hearing = s.hearing := by
  have e := congrArg State.hearing h
  exact e

@[simp] theorem State.hearing_post (s : State) (e : Event) : (s.post e).hearing = s.hearing :=
  State.hearing_of_ground (s.ground_post e)

@[simp] theorem State.hearing_finish (s : State) : s.finish.hearing = s.hearing :=
  State.finish_keeps State.hearing (fun _ => rfl) (fun _ _ _ _ => rfl) (fun _ _ _ => rfl) s

theorem State.Heeds.finish (h : s.Heeds u) : s.Heeds u.finish := h.then_hearing u.hearing_finish

@[simp] theorem State.hearing_servePort (s : State) : s.servePort.hearing = s.hearing := by
  rcases s.servePort_cases with e | ⟨g, y, i, _, _, _, e⟩ | ⟨e', rest, _, _, e⟩ <;> rw [e] <;> rfl

@[simp] theorem Turn.hearing_settle (t : Turn) (b : State) : (t.settle b).hearing = t.st.hearing :=
  State.hearing_of_ground (Turn.ground_settle ..)

@[simp] theorem Turn.hearing_settleWithPass (t : Turn) : t.settleWithPass.hearing = t.st.hearing :=
  State.hearing_of_ground (Turn.ground_settleWithPass ..)

theorem Turn.hearing_sourceChange (t : Turn) (k : Circuit) (f : Record → Record) :
    (t.sourceChange k f).st.hearing = t.st.hearing := by
  rw [Turn.sourceChange_eq, State.hearing_of_still (Turn.still_react ..)]
  exact State.hearing_of_calm (State.calm_updateKind ..)

theorem State.hearing_setQualifier (s : State) (g : Spare) (q : Qualifier) (h : q.far = (s.qualifier g).far) :
    (s.setQualifier g q).hearing = s.hearing := by
  have e : (fun i => ((s.setQualifier g q).qualifier i).far) = fun i => (s.qualifier i).far := funext fun i => by
    by_cases hi : g = i
    · subst hi
      rw [State.setQualifier_qualifier_same, h]
    · rw [State.setQualifier_qualifier_other _ _ hi]
  unfold State.hearing
  rw [e]
  rfl

@[simp] theorem State.hearing_breakQualifier (s : State) (g : Spare) : (s.breakQualifier g).hearing = s.hearing :=
  State.hearing_setQualifier s g _ rfl

@[simp] theorem State.hearing_countTestError (s : State) (g : Spare) : (s.countTestError g).hearing = s.hearing :=
  State.countTestError_keeps State.hearing (fun _ _ _ => rfl) s g

@[simp] theorem State.hearing_carryBits (s : State) (p : Port) (l : List Bool) : (s.carryBits p l).hearing = s.hearing :=
  State.carryBits_keeps State.hearing (fun _ _ _ _ => rfl) s p l

@[simp] theorem State.hearing_carryStart (s : State) (p : Port) (l : List Bool) : (s.carryStart p l).hearing = s.hearing :=
  State.carryStart_keeps State.hearing (fun _ _ _ _ => rfl) s p l

@[simp] theorem State.hearing_frameBoundary (s : State) (p : Port) : (s.frameBoundary p).hearing = s.hearing :=
  State.frameBoundary_keeps State.hearing (fun _ _ => rfl) (fun _ _ => rfl) s p

@[simp] theorem State.hearing_setMonitor (s : State) (p : Port) (m : Monitor) : (s.setMonitor p m).hearing = s.hearing := rfl

@[simp] theorem State.hearing_setCondition (s : State) (p : Port) (c : Condition) :
    (s.setCondition p c).hearing = s.hearing := rfl

@[simp] theorem State.hearing_setRegs (s : State) (r : Registers) : (s.setRegs r).hearing = s.hearing := rfl

@[simp] theorem State.hearing_setBus (s : State) (b : Bus) : (s.setBus b).hearing = s.hearing := rfl

/-! ## A change of far word -/

theorem State.setFar_far (s : State) (g i : Spare) (f : Option Half) :
    ((s.setFar g f).qualifier i).far = if g = i then f else (s.qualifier i).far := by
  unfold State.setFar
  split
  · next hi =>
    subst hi
    rw [State.setQualifier_qualifier_same]
  · next hi => rw [State.setQualifier_qualifier_other _ _ hi]

/-- A far word that becomes NONE, or a valid word of the other role. -/
theorem State.heeds_setFar (s : State) (g : Spare) (h : ∀ w ∈ f, (spanWord w).isSome = true ∧ wordOrigin w ≠ s.role) :
    s.Heeds (s.setFar g f) where
  inReset := rfl
  role := rfl
  far := fun i w hw => by
    rw [State.setFar_far] at hw
    split at hw
    · exact .inr (h w hw)
    · exact .inl hw

/-- The reactions to a change of far word change no far word besides. -/
theorem Turn.hearing_changeFar (t : Turn) (g : Spare) (f : Option Half) {act : Turn → Turn}
    (hact : ∀ u : Turn, (act u).st.hearing = u.st.hearing) :
    (t.changeFar g f act).st.hearing = (t.st.setFar g f).hearing := by
  rw [Turn.changeFar_eq]
  refine (Turn.foldl_keeps (fun t => t.st.hearing) _ (fun _ _ => State.hearing_of_still (Turn.still_reactLater ..)) _ _).trans ?_
  exact (hact _).trans (State.hearing_of_outer (Turn.outer_refreshed ..))

/-- A change of the far word to NONE, or to a valid word of the other role. -/
theorem Turn.heeds_changeFar (t : Turn) (g : Spare) {act : Turn → Turn} (hact : ∀ u : Turn, (act u).st.hearing = u.st.hearing)
    (h : ∀ w ∈ f, (spanWord w).isSome = true ∧ wordOrigin w ≠ t.st.role) : t.st.Heeds (t.changeFar g f act).st :=
  (t.st.heeds_setFar g h).then_hearing (t.hearing_changeFar g f hact)

/-- A delivered word becomes the far word only where it is valid and of the other role (R71 to R73). -/
theorem Turn.heeds_deliver (t : Turn) (g : Spare) (w : Half) : t.st.Heeds (t.deliver g w).st := by
  have posted (e : Event) : t.st.Heeds (t.change fun s => s.post e).st := .of_hearing (State.hearing_post ..)
  have toNone : ∀ v ∈ (none : Option Half), (spanWord v).isSome = true ∧ wordOrigin v ≠ t.st.role := by simp
  unfold Turn.deliver
  split
  · exact (posted _).trans (Turn.heeds_changeFar _ g (fun _ => rfl) (by simp))
  · next said hsaid =>
    split
    · split
      · exact t.heeds_changeFar g (fun _ => rfl) toNone
      · exact (posted _).trans (Turn.heeds_changeFar _ g (fun _ => rfl) (by simp))
    · next ho =>
      refine (posted (wordEvent .farWord g w)).trans (State.Heeds.then_hearing (Turn.heeds_changeFar _ g ?_ ?_)
        (State.hearing_of_still (Turn.still_offerStanding ..)))
      · exact fun u => (State.hearing_of_outer (Turn.outer_act ..)).trans
          ((State.hearing_of_still (Turn.still_revokeIfGone ..)).trans (State.hearing_of_still (Turn.still_takeReasons ..)))
      · rintro v hv
        obtain rfl := Option.some.inj hv
        rw [(posted (wordEvent .farWord g w)).role, hsaid]
        exact ⟨rfl, ho⟩

theorem Turn.heeds_qualifyGood (t : Turn) (g : Spare) (w : Half) : t.st.Heeds (t.qualifyGood g w).st := by
  have kept : ∀ q : Qualifier, q.far = (t.st.qualifier g).far → t.st.Heeds (t.change fun s => s.setQualifier g q).st :=
    fun q hq => .of_hearing (t.st.hearing_setQualifier g q hq)
  have received : ((t.st.qualifier g).received w).far = (t.st.qualifier g).far := Qualifier.received_far ..
  unfold Turn.qualifyGood
  split
  · exact kept _ rfl
  · dsimp only
    split
    · split
      · exact (kept { (t.st.qualifier g).received w with settled := true } received).trans (Turn.heeds_deliver ..)
      · exact kept { (t.st.qualifier g).received w with settled := true } received
    · exact kept _ received

/-! ## Conditions -/

@[simp] theorem State.hearing_writeCondClass (s : State) (k : Circuit) (c : Nat) : (s.writeCondClass k c).hearing = s.hearing :=
  State.hearing_of_calm (State.calm_writeCondClass ..)

theorem State.heeds_spareDown (s : State) (g : Spare) : s.Heeds (s.spareDown g) :=
  (s.turn.heeds_changeFar g (fun _ => State.hearing_of_still (Turn.still_putReason ..)) (by simp)).then_hearing
    (Turn.hearing_settle ..)

@[simp] theorem State.hearing_spareUp (s : State) (g : Spare) : (s.spareUp g).hearing = s.hearing :=
  (Turn.hearing_settle ..).trans (State.hearing_of_still (Turn.still_putReason ..))

theorem State.heeds_setDown (s : State) (p : Port) (b : Bool) : s.Heeds (s.setDown p b) := by
  have noted (c : Condition) (e : Event) : s.Heeds ((s.setCondition p c).post e) := .of_hearing (State.hearing_post ..)
  unfold State.setDown
  dsimp only
  split
  · exact (noted _ _).then_hearing (State.hearing_writeCondClass ..)
  · split
    · exact (noted _ _).trans (State.heeds_spareDown ..)
    · exact (noted _ _).then_hearing (State.hearing_spareUp ..)

@[simp] theorem State.hearing_setImpaired (s : State) (p : Port) (b : Bool) : (s.setImpaired p b).hearing = s.hearing := by
  unfold State.setImpaired
  dsimp only
  split
  · rw [State.hearing_writeCondClass, State.hearing_post, State.hearing_setCondition]
  · rw [State.hearing_post, State.hearing_setCondition]

/-- Following raw-down writes the port's conditions, and declares or clears DOWN at most (R150 to R152). -/
theorem State.watch_cases (s : State) (p : Port) :
    s.watch p = s ∨ (∃ c, s.watch p = s.setCondition p c) ∨ ∃ c b, s.watch p = (s.setCondition p c).setDown p b := by
  unfold State.watch State.rawDownBegins State.rawDownEnds
  dsimp only
  split
  · split
    · exact .inr (.inl ⟨_, rfl⟩)
    · split
      · exact .inr (.inr ⟨_, _, rfl⟩)
      · exact .inr (.inl ⟨_, rfl⟩)
  · split
    · split
      · split
        · exact .inr (.inr ⟨_, _, rfl⟩)
        · exact .inr (.inl ⟨_, rfl⟩)
      · exact .inr (.inl ⟨_, rfl⟩)
    · exact .inl rfl

theorem State.heeds_watch (s : State) (p : Port) : s.Heeds (s.watch p) := by
  rcases s.watch_cases p with e | ⟨c, e⟩ | ⟨c, b, e⟩ <;> rw [e]
  · exact .refl s
  · exact .of_hearing rfl
  · exact .after (s.hearing_setCondition p c) ((s.setCondition p c).heeds_setDown p b)

@[simp] theorem State.hearing_endInterval (s : State) (p : Port) : (s.endInterval p).hearing = s.hearing := by
  unfold State.endInterval
  dsimp only
  split
  · rfl
  · exact State.hearing_setImpaired ..

end Hearing

end Sys2Proof.Machine
end

section
/-! Proofs: what the effect of each command leaves of RESET, the role and the far words. -/

namespace Sys2Proof.Machine

/-! ## Received streams -/

theorem State.heeds_departed (s : State) (p : Port) : s.Heeds (s.departed p) := by
  unfold State.departed
  dsimp only
  split
  · exact s.heeds_watch p
  · next g _ => exact .after (s.hearing_breakQualifier g) ((s.breakQualifier g).heeds_watch p)

theorem State.heeds_judgedOnSpare (s : State) (g : Spare) (f : Frame) : s.Heeds (s.judgedOnSpare g f) := by
  unfold State.judgedOnSpare
  split
  · exact (s.turn.heeds_qualifyGood g _).then_hearing (Turn.hearing_settle ..)
  · exact .of_hearing ((State.hearing_countTestError ..).trans (State.hearing_breakQualifier ..))

theorem State.heeds_judge (s : State) (p : Port) (n : Nat) (f : Frame) : s.Heeds (s.judge p n f) := by
  have passed : s.Heeds ((s.setMonitor p ((s.monitor p).judged n f)).carryFrame p f) := .of_hearing rfl
  unfold State.judge
  dsimp only
  split
  · exact passed.then_hearing (State.hearing_frameBoundary ..)
  · exact (passed.trans (State.heeds_judgedOnSpare _ _ f)).then_hearing (State.hearing_frameBoundary ..)

theorem State.heeds_loseAlignment (s : State) (p : Port) (b : Byte) : s.Heeds (s.loseAlignment p b) := by
  unfold State.loseAlignment
  refine .after ?_ (State.heeds_departed _ p)
  rw [State.hearing_carryBits, State.hearing_setMonitor]

theorem State.hearing_receiveBits (s : State) (p : Port) (l : List Bool) : (s.receiveBits p l).hearing = s.hearing := by
  rcases s.receiveBits_cases p l with ⟨_, e⟩ | ⟨_, e⟩ | ⟨_, _, _, e⟩ <;> rw [e]
  · exact State.hearing_carryBits ..
  · rw [State.hearing_finish, State.hearing_setMonitor, State.hearing_carryBits]

theorem State.heeds_checkByte (s : State) (p : Port) (before : List Byte) (b : Byte) :
    s.Heeds (s.checkByte p before b) := by
  have passed (l : List Bool) (m : Monitor) : s.Heeds ((s.carryBits p l).setMonitor p m) :=
    .of_hearing (State.hearing_carryBits ..)
  unfold State.checkByte
  dsimp only
  split
  · split
    · split
      · exact ((passed _ _).trans (State.heeds_watch _ p)).then_hearing (State.hearing_frameBoundary ..) |>.finish
      · exact (passed _ _).finish
    · exact (passed _ _).finish
  · exact .refl s
  · exact .refl s

theorem State.heeds_frameReceived (s : State) (p : Port) (f : Frame) : s.Heeds (s.frameReceived p f) := by
  unfold State.frameReceived
  dsimp only
  split
  · split
    · exact (s.heeds_loseAlignment p _).finish
    · exact (s.heeds_judge p _ f).finish
  · exact .refl s
  · exact .refl s

theorem State.heeds_alignedByte (s : State) (p : Port) (b : Byte) : s.Heeds (s.alignedByte p b) := by
  unfold State.alignedByte
  dsimp only
  split
  · split
    · exact (s.heeds_loseAlignment p b).finish
    · exact .refl s
  · exact .refl s
  · exact .refl s

theorem State.heeds_loseSignal (s : State) (p : Port) (searched : Bool) (before : List Bool) :
    s.Heeds (s.loseSignal p searched before) := by
  have bits (m : Monitor) : s.Heeds ((s.carryBits p before).setMonitor p m) := .of_hearing (State.hearing_carryBits ..)
  have start (l : List Bool) (m : Monitor) : s.Heeds ((s.carryStart p l).setMonitor p m) :=
    .of_hearing (State.hearing_carryStart ..)
  unfold State.loseSignal
  dsimp only
  split
  · exact ((start _ _).trans (State.heeds_departed _ p)).finish
  · exact ((bits _).trans (State.heeds_watch _ p)).finish
  · exact ((bits _).trans (State.heeds_watch _ p)).finish

/-! ## Timers -/

theorem State.hearing_referenceEdge (s : State) (frames : Vector Frame 10) : (s.referenceEdge frames).hearing = s.hearing :=
  (State.hearing_finish _).trans ((State.elapsed_keeps State.hearing (fun _ _ _ => rfl) s).trans rfl)

theorem State.hearing_answerExpiry (s : State) (g : Spare) : (s.answerExpiry g).hearing = s.hearing := by
  unfold State.answerExpiry
  split
  · rw [State.hearing_finish, Turn.hearing_settle]
    exact State.hearing_of_still (Turn.still_answerExpired ..)
  · rfl

theorem State.hearing_returnExpiry (s : State) (k : Circuit) : (s.returnExpiry k).hearing = s.hearing := by
  unfold State.returnExpiry
  split
  · rw [State.hearing_finish, Turn.hearing_settle]
    exact State.hearing_of_still (Turn.still_returnExpired ..)
  · rfl

theorem State.hearing_testExpiry (s : State) (g : Spare) : (s.testExpiry g).hearing = s.hearing := by
  unfold State.testExpiry
  split
  · rw [State.hearing_finish, Turn.hearing_settle]
    exact State.hearing_of_still (Turn.still_endPhase ..)
  · rfl

theorem State.heeds_onsetExpiry (s : State) (p : Port) : s.Heeds (s.onsetExpiry p) := by
  unfold State.onsetExpiry
  split
  · exact State.Heeds.finish (.after (s.hearing_setCondition p _) (State.heeds_setDown _ p true))
  · exact .refl s

theorem State.heeds_clearExpiry (s : State) (p : Port) : s.Heeds (s.clearExpiry p) := by
  unfold State.clearExpiry
  split
  · exact State.Heeds.finish (.after (s.hearing_setCondition p _) (State.heeds_setDown _ p false))
  · exact .refl s

theorem State.heeds_intervalEnds (s : State) : s.Heeds s.intervalEnds := by
  have ended := State.Heeds.foldl (fun s p => .of_hearing (s.hearing_endInterval p)) allPorts s
  unfold State.intervalEnds
  generalize allPorts.foldl State.endInterval s = u at ended
  have begun : ({ u with intervalTimer := Config.intervalFrames } : State).hearing = u.hearing := rfl
  exact (ended.then_hearing begun).finish

/-! ## The line-side management port -/

theorem Turn.hearing_putReason (t : Turn) (g : Spare) (x : Reason) (b : Bool) :
    (t.putReason g x b).st.hearing = t.st.hearing := State.hearing_of_still (Turn.still_putReason ..)

theorem State.hearing_transferOutcome (s : State) (g : Spare) (i : WordIndex) (ack : Bool) :
    (s.transferOutcome g i ack).hearing = s.hearing := by
  unfold State.transferOutcome
  split
  · rfl
  · next y _ =>
    split
    · unfold State.failTransfer
      dsimp only
      rw [Turn.hearing_settle, Turn.hearing_putReason, State.turn_st, State.hearing_post]
      rfl
    · split
      · rfl
      · unfold State.completeTransfer
        dsimp only
        rw [Turn.hearing_settle, State.hearing_of_still (Turn.still_transferCompleted ..), State.turn_st, State.hearing_post]
        rfl

theorem State.hearing_handOver (s : State) (x : Transaction) (ack : Bool) : (s.handOver x ack).hearing = s.hearing := by
  unfold State.handOver
  dsimp only
  split
  · unfold State.entryOutcome
    split
    · rfl
    · exact State.hearing_post ..
  · split
    · rfl
    · exact State.hearing_transferOutcome ..

theorem State.hearing_attemptEnd (s : State) (ack : Bool) : (s.attemptEnd ack).hearing = s.hearing := by
  unfold State.attemptEnd
  split
  · rfl
  · split
    · rfl
    · rw [State.hearing_finish, State.hearing_handOver]

/-! ## Commands -/

theorem State.hearing_withCircuit (s : State) {body : Circuit → State} (h : ∀ k, (body k).hearing = s.hearing) :
    (s.withCircuit body).hearing = s.hearing := by
  unfold State.withCircuit
  split
  · exact h _
  · rfl

theorem State.hearing_withSpare (s : State) {body : Spare → State} (h : ∀ g, (body g).hearing = s.hearing) :
    (s.withSpare body).hearing = s.hearing := by
  unfold State.withSpare
  split
  · exact h _
  · rfl

/-- MOVE, FORCE and CLEAR write a source. -/
theorem State.hearing_sourced (s : State) (k : Circuit) (f : Record → Record) :
    (((s.withResult .done).turn.sourceChange k f).settle (s.withResult .done)).hearing = s.hearing := by
  rw [Turn.hearing_settle, Turn.hearing_sourceChange]
  rfl

theorem State.hearing_cmdMove (s : State) : s.cmdMove.hearing = s.hearing :=
  s.hearing_withCircuit fun k => by
    split
    · rfl
    · exact s.hearing_sourced k _

theorem State.hearing_cmdForce (s : State) : s.cmdForce.hearing = s.hearing :=
  s.hearing_withCircuit fun k => s.hearing_sourced k _

theorem State.hearing_cmdClear (s : State) : s.cmdClear.hearing = s.hearing :=
  s.hearing_withCircuit fun k => s.hearing_sourced k _

theorem State.hearing_cmdBar (s : State) : s.cmdBar.hearing = s.hearing :=
  s.hearing_withCircuit fun k => by
    split
    · rfl
    · rw [Turn.hearing_settle, State.hearing_of_still (Turn.still_bar ..)]
      rfl

theorem State.hearing_cmdUnbar (s : State) : s.cmdUnbar.hearing = s.hearing :=
  s.hearing_withCircuit fun k => by
    rw [Turn.hearing_settleWithPass, State.hearing_of_still (Turn.still_unbar ..)]
    rfl

theorem State.hearing_cmdReturn (s : State) : s.cmdReturn.hearing = s.hearing :=
  s.hearing_withCircuit fun k => by
    split
    · rw [Turn.hearing_settle, State.hearing_of_still (Turn.still_enterReturning ..)]
      rfl
    · rfl

theorem State.hearing_reasonCommand (s : State) (x : Reason) (b : Bool) : (s.reasonCommand x b).hearing = s.hearing :=
  s.hearing_withSpare fun g => by
    split
    · rfl
    · rw [Turn.hearing_settle, Turn.hearing_putReason]
      rfl

theorem State.hearing_cmdTest (s : State) : s.cmdTest.hearing = s.hearing := by
  unfold State.cmdTest
  split
  · rfl
  · split
    · rfl
    · split
      · rw [Turn.hearing_settle, State.hearing_of_still (Turn.still_startTest ..)]
        rfl
      · rfl

theorem State.hearing_cmdStopTest (s : State) : s.cmdStopTest.hearing = s.hearing :=
  s.hearing_withSpare fun g => by
    have stop : (((s.withResult .done).turn.endPhase g .aborted).settle (s.withResult .done)).hearing = s.hearing := by
      rw [Turn.hearing_settle, State.hearing_of_still (Turn.still_endPhase ..)]
      rfl
    dsimp only
    split
    · exact stop
    · exact stop
    all_goals rfl

theorem State.hearing_cmdResync (s : State) : s.cmdResync.hearing = s.hearing := by
  unfold State.cmdResync
  split
  · rfl
  · split <;> rfl

/-- RESTART makes every far word NONE (R147). -/
theorem State.heeds_cmdRestart (s : State) : s.Heeds s.cmdRestart := by
  have cleared : s.Heeds s.unqualified := {
    inReset := rfl
    role := rfl
    far := fun g w hw => by
      rw [State.unqualified_qualifier] at hw
      cases hw }
  have ended : s.cmdRestart.hearing = (s.withResult .done).unqualified.hearing :=
    State.hearing_of_calm (State.restart_calm (s.withResult .done))
  exact cleared.then_hearing ended

/-! ## Accesses -/

theorem State.hearing_writeProtect (s : State) (v : Byte) : (s.writeProtect v).hearing = s.hearing := by
  unfold State.writeProtect
  dsimp only
  split
  · rfl
  · split
    · rw [State.hearing_finish, Turn.hearing_settleWithPass, State.hearing_of_still (Turn.still_enable _)]
      rfl
    · rw [State.hearing_finish, Turn.hearing_settleWithPass, State.hearing_of_still (Turn.still_disable _)]
      rfl

theorem State.heeds_runCode (s : State) (code : Byte) : s.Heeds (s.runCode code) := by
  unfold State.runCode
  split
  · exact .of_hearing s.hearing_cmdMove
  · exact .of_hearing s.hearing_cmdForce
  · exact .of_hearing s.hearing_cmdClear
  · exact .of_hearing s.hearing_cmdBar
  · exact .of_hearing s.hearing_cmdUnbar
  · exact .of_hearing s.hearing_cmdReturn
  · exact .of_hearing (s.hearing_reasonCommand ..)
  · exact .of_hearing (s.hearing_reasonCommand ..)
  · exact .of_hearing (s.hearing_reasonCommand ..)
  · exact .of_hearing s.hearing_cmdTest
  · exact .of_hearing s.hearing_cmdStopTest
  · exact .of_hearing s.hearing_cmdResync
  · exact s.heeds_cmdRestart
  · exact .of_hearing rfl

theorem State.hearing_commitWrite (s : State) (v : Half) : (s.commitWrite v).hearing = s.hearing := by
  unfold State.commitWrite
  dsimp only
  split
  · rfl
  · exact State.hearing_post ..

theorem State.heeds_writeAt (s : State) (a : Nat) (v : Byte) : s.Heeds (s.writeAt a v) := by
  unfold State.writeAt
  split
  · exact State.Heeds.finish (.after (s.hearing_setRegs _) (State.heeds_runCode _ v))
  · exact .of_hearing (s.hearing_writeProtect v)
  case h_7 => exact State.Heeds.finish (.of_hearing (s.hearing_commitWrite _))
  case h_8 => exact .of_hearing (s.hearing_setBus _)
  case h_9 => exact .of_hearing (s.hearing_setBus _)
  case h_10 => exact .of_hearing (s.hearing_setBus _)
  case h_11 => exact .of_hearing (s.hearing_setBus _)
  all_goals exact .of_hearing (s.hearing_setRegs _)

theorem State.hearing_readAt (s : State) (a : Nat) : (s.readAt a).1.hearing = s.hearing := by
  unfold State.readAt
  split
  · dsimp only
    split <;> rfl
  · split
    · rfl
    · split
      · rfl
      · split
        · dsimp only
          unfold State.popEvent
          split <;> rfl
        · rfl

theorem State.heeds_hostWrite (s : State) {f : State → State} (hf : ∀ s : State, s.Heeds (f s)) :
    s.Heeds (s.hostWrite f) := by
  unfold State.hostWrite
  dsimp only
  split
  · exact .of_hearing (s.hearing_setBus _)
  · exact .after (s.hearing_setBus _) (hf _)

theorem State.heeds_inService (s : State) {f : State → State} (hf : s.Heeds (f s)) : s.Heeds (s.inService f) := by
  unfold State.inService
  split
  · exact .refl s
  · exact hf

theorem State.heeds_busRead (s : State) (a : Address) : s.Heeds (s.busRead a) := by
  unfold State.busRead State.hostRead
  dsimp only
  split
  · exact .of_hearing rfl
  · exact .of_hearing (State.hearing_readAt ..)

end Sys2Proof.Machine
end

section
/-! Proofs: O57, the far words and the blocks under RESET through every step. -/

namespace Sys2Proof.Machine

section Reset

variable {s t u : State} {b : Bus}

/-! ## Under RESET -/

/-- A state without what RESET does not drive: the waiting commands, the bus and the monitors with their inputs. -/
def State.driven (s : State) : State :=
  { s with pending := [], bus := Bus.reset, monitors := Vector.replicate 12 (Monitor.reset false) }

/-- What RESET drives is at its reset values, ready and the signal-lost inputs aside (R170). -/
theorem State.heldInReset_iff (s : State) :
    s.HeldInReset ↔ (s.inReset = true → s.driven = State.reset ∧ s.bus = { Bus.reset with ready := s.bus.ready }
      ∧ ∀ p, s.monitor p = Monitor.reset (s.monitor p).signalLost) := by
  refine forall_congr' fun _ => ⟨fun e => ⟨congrArg State.driven e, congrArg State.bus e, fun p => ?_⟩,
    fun ⟨hdriven, hbus, hmonitor⟩ => ?_⟩
  · exact (congrArg (fun x : State => x.monitor p) e).trans (tabGet_ofFn ..)
  · have hmonitors : s.monitors = Vector.ofFn fun p => Monitor.reset (s.monitor p).signalLost :=
      tab_ext fun p => by rw [tabGet_ofFn]; exact hmonitor p
    calc s = { s.driven with pending := s.pending, bus := s.bus, monitors := s.monitors } := rfl
      _ = _ := by rw [hdriven, ← hbus, ← hmonitors]

theorem State.heldInReset_of_released (h : s.inReset = false) : s.HeldInReset := fun hr => by rw [h] at hr; cases hr

theorem State.HeldInReset.setBus (h : s.HeldInReset) (hb : b = { Bus.reset with ready := b.ready }) :
    (s.setBus b).HeldInReset := by
  rw [State.heldInReset_iff] at h ⊢
  intro hr
  obtain ⟨hdriven, _, hmonitor⟩ := h hr
  exact ⟨hdriven, hb, hmonitor⟩

theorem State.HeldInReset.setSignalLost (h : s.HeldInReset) (p : Port) (lost : Bool) :
    (s.setSignalLost p lost).HeldInReset := by
  rw [State.heldInReset_iff] at h ⊢
  intro hr
  obtain ⟨hdriven, hbus, hmonitor⟩ := h hr
  refine ⟨hdriven, hbus, fun q => ?_⟩
  unfold State.setSignalLost
  by_cases hq : p = q
  · subst hq
    rw [State.setMonitor_monitor_same, hmonitor p]
    rfl
  · rw [State.setMonitor_monitor_other _ _ hq]
    exact hmonitor q

theorem State.heldInReset_assertReset (s : State) : s.assertReset.HeldInReset := by
  rw [State.heldInReset_iff]
  intro _
  refine ⟨rfl, rfl, fun p => ?_⟩
  have e : s.assertReset.monitor p = Monitor.reset (s.monitor p).signalLost := tabGet_ofFn ..
  rw [e]
  rfl

/-- A qualifier under RESET has no far word. -/
theorem State.HeldInReset.far_none (h : s.HeldInReset) (hr : s.inReset = true) (g : Spare) : (s.qualifier g).far = none := by
  have e : s.driven.qualifier g = State.reset.qualifier g := by rw [((State.heldInReset_iff s).mp h hr).1]
  exact congrArg Qualifier.far (e.trans (State.reset_qualifier g))

theorem State.farWordsLegal_of_none (h : ∀ g, (s.qualifier g).far = none) : s.FarWordsLegal := fun g w hw => by
  rw [h g] at hw
  cases hw

/-! ## Commands under RESET -/

theorem State.HeldInReset.readied (h : s.HeldInReset) (hr : s.inReset = true) (ready : Bool) :
    (s.setBus { s.bus with ready := ready }).HeldInReset := by
  refine h.setBus ?_
  rw [((State.heldInReset_iff s).mp h hr).2.1]

theorem State.HeldInReset.hostWrite (h : s.HeldInReset) (hr : s.inReset = true) (f : State → State) :
    (s.hostWrite f).HeldInReset := by
  rw [s.hostWrite_inReset f hr]
  exact h.readied hr true

theorem State.HeldInReset.busRead (h : s.HeldInReset) (hr : s.inReset = true) (a : Address) : (s.busRead a).HeldInReset := by
  unfold State.busRead
  rw [s.hostRead_inReset _ hr]
  refine h.setBus ?_
  rw [((State.heldInReset_iff s).mp h hr).2.1]
  rfl

theorem State.HeldInReset.inService (h : s.HeldInReset) (hr : s.inReset = true) (f : State → State) :
    (s.inService f).HeldInReset := by
  rw [s.inService_inReset f hr]
  exact h

/-! ## The release of RESET -/

/-- The release of RESET finds no far word, and raw-down makes none. -/
theorem State.HeldInReset.releaseReset (h : s.HeldInReset) (hs : s.FarWordsLegal) (strap : Role) :
    (s.releaseReset strap).HeldInReset ∧ (s.releaseReset strap).FarWordsLegal := by
  unfold State.releaseReset
  split
  · next hr =>
    generalize hu : ({ s with inReset := false, role := strap, intervalTimer := Config.intervalFrames } : State) = u
    have hfar : ∀ g, (u.qualifier g).far = none := fun g => hu ▸ h.far_none hr g
    have heeds : u.Heeds (allPorts.foldl State.watch u).finish := (State.Heeds.foldl State.heeds_watch allPorts u).finish
    exact ⟨State.heldInReset_of_released (heeds.inReset.trans (hu ▸ rfl)),
      heeds.farWordsLegal (State.farWordsLegal_of_none hfar)⟩
  · exact ⟨h, hs⟩

/-! ## Every command -/

/-- State t is held in RESET and has legal far words where state s is and has. -/
def State.LegalAfter (s t : State) : Prop := s.HeldInReset → s.FarWordsLegal → t.HeldInReset ∧ t.FarWordsLegal

theorem State.LegalAfter.trans (h1 : s.LegalAfter t) (h2 : t.LegalAfter u) : s.LegalAfter u := fun h hs =>
  h2 (h1 h hs).1 (h1 h hs).2

/-- What leaves RESET as it is, and what RESET drives under RESET. -/
theorem State.Heeds.legalAfter (h : s.Heeds t) (held : s.inReset = true → s.HeldInReset → t.HeldInReset) :
    s.LegalAfter t := fun hh hs => by
  refine ⟨?_, h.farWordsLegal hs⟩
  cases hr : s.inReset with
  | false => exact State.heldInReset_of_released (h.inReset.trans hr)
  | true => exact held hr hh

theorem State.legalAfter_hostWrite (s : State) {f : State → State} (hf : ∀ s : State, s.Heeds (f s)) :
    s.LegalAfter (s.hostWrite f) := (s.heeds_hostWrite hf).legalAfter fun hr h => h.hostWrite hr f

theorem State.legalAfter_hostCommand (s : State) (code : Byte) {body : State → State} (hf : ∀ s : State, s.Heeds (body s)) :
    s.LegalAfter (s.hostCommand code body) :=
  s.legalAfter_hostWrite fun s => State.Heeds.finish (.after (s.hearing_setRegs _) (hf _))

theorem State.legalAfter_busWrite (s : State) (a : Address) (v : Byte) : s.LegalAfter (s.busWrite a v) :=
  s.legalAfter_hostWrite fun s => s.heeds_writeAt _ _

theorem State.legalAfter_busRead (s : State) (a : Address) : s.LegalAfter (s.busRead a) :=
  (s.heeds_busRead a).legalAfter fun hr h => h.busRead hr a

theorem State.legalAfter_busStrobes (s : State) (a : Address) (v : Byte) (x : Strobes) :
    s.LegalAfter (s.busStrobes a v x) := by
  rcases s.busStrobes_cases a v x with e | e | ⟨ready, e⟩ <;> rw [e]
  · exact s.legalAfter_busWrite a v
  · exact s.legalAfter_busRead a
  · exact State.Heeds.legalAfter (.of_hearing (s.hearing_setBus _)) fun hr h => h.readied hr ready

theorem State.legalAfter_inService (s : State) {f : State → State} (hf : s.Heeds (f s)) : s.LegalAfter (s.inService f) :=
  (s.heeds_inService hf).legalAfter fun hr h => h.inService hr f

theorem State.legalAfter_setSignalLost (s : State) (p : Port) (lost : Bool) : s.LegalAfter (s.setSignalLost p lost) :=
  State.Heeds.legalAfter (.of_hearing (s.hearing_setMonitor p _)) fun _ h => h.setSignalLost p lost

theorem State.legalAfter_assertReset (s : State) : s.LegalAfter s.assertReset := fun _ _ =>
  ⟨s.heldInReset_assertReset, State.farWordsLegal_of_none fun g => s.heldInReset_assertReset.far_none rfl g⟩

/-- Every command keeps what RESET holds and the far words. -/
theorem State.legalAfter_exec (s : State) (i : Instr) : ∃ t, exec i s = .next t ∧ s.LegalAfter t := by
  cases i
  case move => exact ⟨_, rfl, s.legalAfter_hostCommand _ fun s => .of_hearing s.hearing_cmdMove⟩
  case force => exact ⟨_, rfl, s.legalAfter_hostCommand _ fun s => .of_hearing s.hearing_cmdForce⟩
  case clear => exact ⟨_, rfl, s.legalAfter_hostCommand _ fun s => .of_hearing s.hearing_cmdClear⟩
  case bar => exact ⟨_, rfl, s.legalAfter_hostCommand _ fun s => .of_hearing s.hearing_cmdBar⟩
  case unbar => exact ⟨_, rfl, s.legalAfter_hostCommand _ fun s => .of_hearing s.hearing_cmdUnbar⟩
  case returnCircuit => exact ⟨_, rfl, s.legalAfter_hostCommand _ fun s => .of_hearing s.hearing_cmdReturn⟩
  case shut => exact ⟨_, rfl, s.legalAfter_hostCommand _ fun s => .of_hearing (s.hearing_reasonCommand ..)⟩
  case openSpare => exact ⟨_, rfl, s.legalAfter_hostCommand _ fun s => .of_hearing (s.hearing_reasonCommand ..)⟩
  case clearFault => exact ⟨_, rfl, s.legalAfter_hostCommand _ fun s => .of_hearing (s.hearing_reasonCommand ..)⟩
  case test => exact ⟨_, rfl, s.legalAfter_hostCommand _ fun s => .of_hearing s.hearing_cmdTest⟩
  case stopTest => exact ⟨_, rfl, s.legalAfter_hostCommand _ fun s => .of_hearing s.hearing_cmdStopTest⟩
  case resync => exact ⟨_, rfl, s.legalAfter_hostCommand _ fun s => .of_hearing s.hearing_cmdResync⟩
  case restart => exact ⟨_, rfl, s.legalAfter_hostCommand _ fun s => s.heeds_cmdRestart⟩
  case unknownCommand code => exact ⟨_, rfl, s.legalAfter_busWrite _ _⟩
  case protectEnableSet v => exact ⟨_, rfl, s.legalAfter_busWrite _ _⟩
  case protectEnableCleared v => exact ⟨_, rfl, s.legalAfter_busWrite _ _⟩
  case returnModeWrite v => exact ⟨_, rfl, s.legalAfter_busWrite _ _⟩
  case interruptEnableWrite v => exact ⟨_, rfl, s.legalAfter_busWrite _ _⟩
  case setThresholdWrite v => exact ⟨_, rfl, s.legalAfter_busWrite _ _⟩
  case clearThresholdWrite v => exact ⟨_, rfl, s.legalAfter_busWrite _ _⟩
  case statusWriteOneToClear v => exact ⟨_, rfl, s.legalAfter_busWrite _ _⟩
  case configurationWrite a v x => exact ⟨_, rfl, s.legalAfter_busStrobes _ _ _⟩
  case writeHoldingByte a v => exact ⟨_, rfl, s.legalAfter_busWrite _ _⟩
  case lowerAddressRead a => exact ⟨_, rfl, s.legalAfter_busRead _⟩
  case contextWriteCommit v => exact ⟨_, rfl, s.legalAfter_busWrite _ _⟩
  case contextDataRead => exact ⟨_, rfl, s.legalAfter_busRead _⟩
  case eventKindRead => exact ⟨_, rfl, s.legalAfter_busRead _⟩
  case eventPop => exact ⟨_, rfl, s.legalAfter_busRead _⟩
  case pinReset => exact ⟨_, rfl, s.legalAfter_assertReset⟩
  case resetRelease strap => exact ⟨_, rfl, fun h hs => h.releaseReset hs strap⟩
  case frameReferenceEdge frames => exact ⟨_, rfl, s.legalAfter_inService (.of_hearing (s.hearing_referenceEdge frames))⟩
  case answerTimerExpiry g => exact ⟨_, rfl, s.legalAfter_inService (.of_hearing (s.hearing_answerExpiry g))⟩
  case returnTimerExpiry k => exact ⟨_, rfl, s.legalAfter_inService (.of_hearing (s.hearing_returnExpiry k))⟩
  case testTimerExpiry g => exact ⟨_, rfl, s.legalAfter_inService (.of_hearing (s.hearing_testExpiry g))⟩
  case onsetTimerExpiry p => exact ⟨_, rfl, s.legalAfter_inService (s.heeds_onsetExpiry p)⟩
  case clearTimerExpiry p => exact ⟨_, rfl, s.legalAfter_inService (s.heeds_clearExpiry p)⟩
  case intervalEnd => exact ⟨_, rfl, s.legalAfter_inService s.heeds_intervalEnds⟩
  case signalLostAsserted p before =>
    exact ⟨_, rfl, (s.legalAfter_setSignalLost p true).trans
      (State.legalAfter_inService _ (State.heeds_loseSignal _ p _ before))⟩
  case signalLostReleased p => exact ⟨_, rfl, s.legalAfter_setSignalLost p false⟩
  case huntingMatch p l before => exact ⟨_, rfl, s.legalAfter_inService (.of_hearing (s.hearing_receiveBits p _))⟩
  case checkingAlignmentWord p b before => exact ⟨_, rfl, s.legalAfter_inService (s.heeds_checkByte p before b)⟩
  case frameJudged p f => exact ⟨_, rfl, s.legalAfter_inService (s.heeds_frameReceived p f)⟩
  case alignmentLost p b => exact ⟨_, rfl, s.legalAfter_inService (s.heeds_alignedByte p b)⟩
  case lspTransactionStart => exact ⟨_, rfl, s.legalAfter_inService (.of_hearing s.hearing_servePort)⟩
  case lspAttemptEnd a b c => exact ⟨_, rfl, s.legalAfter_inService (.of_hearing (s.hearing_attemptEnd _))⟩

end Reset

/-- Settles O57: but for the two commands of the RESET pin every command heeds RESET, the role and the far words, and a RESET
asserted or released leaves no far word standing. -/
theorem farWordsStayLegal : Obligations.FarWordsStayLegal := by
  intro s t h hs hstep
  unfold step at hstep
  split at hstep
  · cases hstep
    exact ⟨h, hs⟩
  · next c rest _ =>
    obtain ⟨u, hu, hlegal⟩ := State.legalAfter_exec { s with pending := rest } c
    rw [hu] at hstep
    cases hstep
    exact hlegal ((State.heldInReset_iff _).mpr ((State.heldInReset_iff s).mp h)) hs

end Sys2Proof.Machine
end
